-- ==== Sys2Proof/Word.lean ====
section
/-! DEFINITION. The two word types of the WZ-7420: the byte of the command link and the 32-bit
reading of the time base. -/

namespace Sys2Proof

/-- One byte of the command link (R178). -/
abbrev Byte := BitVec 8

/-- A reading of the time base in milliseconds, wrapping at 2^32 (R1). -/
abbrev Time := BitVec 32

/-- A duration is the difference of two readings of the time base, modulo 2^32
(00_scope, "Units and quantities"). -/
def Time.since (now earlier : Time) : Nat := (now - earlier).toNat

end Sys2Proof
end

