-- ==== Sys2Proof/Config.lean ====
section
/-! DEFINITION. What is fixed for the part: its capacities (DESCRIBE, R185) and the fixed times and
distances of the rules, and the FREE VALUES, constants without a body for what the manual leaves open. -/

namespace Sys2Proof.Config

/-- Queue depth of a station (R151). -/
def queueDepth : Nat := 8
/-- Capacity of the record list (R158). -/
def recordCapacity : Nat := 16
/-- Capacity of a heat trail (R59). -/
def trailCapacity : Nat := 96
/-- Capacity of the receive buffer (R180). -/
def bufferCapacity : Nat := 2
/-- The largest payload of a frame (R179). -/
def maxPayload : Nat := 120
/-- The largest number of slices of one HEAT (R46). -/
def maxSlices : Nat := 2000
/-- The gap timer of the receiver, in ms (R178). -/
def gapTime : Nat := 5
/-- The idle timer of DISCARD, in ms (R178). -/
def idleTime : Nat := 2
/-- The homing search limit, in ms (R92). -/
def searchTime : Nat := 120000
/-- The spindle timer, in ms (R103). -/
def spindleTime : Nat := 250
/-- The arrival window of a move: 0.2 mm (R94). -/
def arrivalWindow : Nat := 200
/-- The distance before the target inside which a move slows: 10.0 mm (R94). -/
def slowZone : Nat := 10000
/-- The least speed demand of a move: 0.5 mm/s, in 0.1 mm/s (R94). -/
def slowestMove : Nat := 5
/-- The depth of REVERSE: 2.0 mm (R98). -/
def reverseDepth : Nat := 2000
/-- The readings that make the 20 ms of the measured speed (R91). -/
def speedReadings : Nat := 20
/-- The least length of a profile: 4 mm (R7). -/
def minProfile : Nat := 4000

/-- FREE VALUE. The energy held when a sum of joules passes 32 bits: the manual gives the width
(00_scope) and no result there (log 13). -/
opaque energyOverflow : Nat → BitVec 32

/-- FREE VALUE. The heat time held when its sum over the repeats passes 32 bits (log 14). -/
opaque heatTimeOverflow : Nat → BitVec 32

/-- FREE VALUE. What a signed 2-byte reply field carries for a value outside it (log 15). -/
opaque signed16Overflow : Int → BitVec 16

/-- FREE VALUE. What a signed 4-byte reply field carries for a value outside it (log 15). -/
opaque signed32Overflow : Int → BitVec 32

/-- FREE VALUE. Whether station A is served before station B where one event reaches both and no
rule orders them: the n-th such choice (log 12). -/
opaque stationAFirst : Nat → Bool

end Sys2Proof.Config
end

