-- ==== Sys2Proof/Syntax.lean ====
section
/-! DEFINITION. The commands of the WZ-7420: one constructor for each row of spec/opcode_table.json,
with the operands the row's rule gives it. -/

namespace Sys2Proof

/-- The two stations (00_scope, "The part in the cell"). -/
inductive Station where
  | a
  | b
  deriving DecidableEq, Repr, Inhabited

/-- The ten faults of the catalogue of chapter 10, in the order of their codes 1 to 10. -/
inductive FaultCode where
  | inverter
  | invDrop
  | noPower
  | coilFlow
  | spindle
  | stall
  | reverse
  | limit
  | axis
  | quenchFlow
  deriving DecidableEq, Repr, Inhabited

/-- The three qualified inputs of a station (R140). -/
inductive LoaderLine where
  | present
  | clamped
  | hold
  deriving DecidableEq, Repr, Inhabited

/-- The six inputs of a station after sense, as one sample shows them (R138): `true` is active. -/
structure StationSamples where
  present : Bool
  clamped : Bool
  hold : Bool
  axisFault : Bool
  homeSw : Bool
  coilFlow : Bool
  deriving DecidableEq, Repr, Inhabited

/-- The first sample of every input line after a cold reset (R140, R141): `true` is active. -/
structure FirstSamples where
  a : StationSamples
  b : StationSamples
  invReady : Bool
  invFault : Bool
  resetLine : Bool
  deriving DecidableEq, Repr, Inhabited

/-- The order the world gives to the blocks that take one encoder reading, where the rules leave it
open (log 11). -/
structure ReadingOrder where
  /-- The motion unit judges stall, REVERSE and LIMIT before the trail takes the position. -/
  judgeFirst : Bool
  /-- The quench unit judges the opening at the advance before the arrivals of that advance (R108). -/
  openFirst : Bool
  deriving DecidableEq, Repr, Inhabited

/-- The commands. A request row (`tooLong` to `stationReset`) acts on the entry the link has taken;
its operands stand in that entry (R181). -/
inductive Instr where
  | coldReset (first : FirstSamples)
  | resetLineActive
  | requestComplete (crcLow : Byte)
  | gapTimerExpiry
  | idleTimerExpiry
  | replySent
  | tooLong
  | undefinedRequest
  | describe
  | status
  | set
  | get
  | profileOpen
  | profilePut
  | profileClose
  | profileDrop
  | profileRead
  | take
  | stopNormal
  | stopAbrupt
  | resume
  | reset
  | job
  | cancel
  | trail
  | home
  | stationReset
  | takeHeadJob (u : Station)
  | qualifiedInputSampleChange (u : Station) (line : LoaderLine) (active : Bool)
  | qualificationExpiry (u : Station) (line : LoaderLine)
  | axisFaultActive (u : Station)
  | homeSwChange (u : Station) (active : Bool)
  | coilFlowActive (u : Station)
  | coilFlowInactive (u : Station)
  | invReadyActive
  | invReadyInactive
  | invFaultActive
  | invFaultInactive
  | powerReading (power : BitVec 16)
  | encoderReading (u : Station) (raw : BitVec 32) (order : ReadingOrder)
  | moveArrival (u : Station)
  | rpmReading (u : Station) (rpm : BitVec 16)
  | spindleAtSpeed (u : Station)
  | flowReading (u : Station) (flow : BitVec 16)
  | tankReading (temperature : BitVec 16)
  | faultTaken (u : Station) (fault : FaultCode)
  | changeoverExpiry
  | responseTimerExpiry
  | settleTimerExpiry
  | searchTimerExpiry (u : Station)
  | stallTimerExpiry (u : Station)
  | spindleTimerExpiry (u : Station)
  | dwellExpiry (u : Station)
  | deadlineExpiry (u : Station) (slice : Nat)
  | proofTimerExpiry (u : Station)
  | flowRiseExpiry (u : Station)
  | afterQuenchExpiry (u : Station)
  | floodTimerExpiry (u : Station)
  | stepTimerExpiry (u : Station)
  | handshakeTimerExpiry (u : Station)
  | byteTaken (byte : Byte) (framingError : Bool)
  | axisFaultInactive (u : Station)
  | resetLineInactive
  deriving DecidableEq, Repr, Inhabited

end Sys2Proof
end

