-- ==== Sys2Proof/Machine/State.lean ====
section
/-! DEFINITION. The state of the WZ-7420 as plain data: every register, buffer, queue, timer, marker and
sampled line that the chapters name, the queue of waiting commands, and the values after a cold reset.
Output lines and the travel speed demand are computed from it (Machine/Flags.lean, Machine/Motion.lean;
log 17). -/

namespace Sys2Proof.Machine

/-- A timer: stopped, or running with the milliseconds it has left (R1). -/
abbrev Timer := Option Nat

/-! ### Profile library (chapter 1) -/

/-- The profile header (R3). Positions in µm. -/
structure Header where
  start : Nat
  stop : Nat
  count : Nat
  name : List Byte
  deriving DecidableEq, Repr, Inhabited

/-- A segment record (R4), in its units. -/
structure Segment where
  start : Nat
  power : Nat
  speed : Nat
  rotation : Nat
  quench : Bool
  window : Option (Nat × Nat)
  delay : Option Nat
  dwell : Option Nat
  ramp : Option Nat
  deriving DecidableEq, Repr, Inhabited

/-- A library slot (R2): the entries are kept in ascending index. -/
inductive Slot where
  | empty
  | building (header : Header) (entries : List (Nat × Segment))
  | ready (header : Header) (entries : List (Nat × Segment)) (refs : Nat)
  deriving DecidableEq, Repr, Inhabited

/-- A profile as a cycle reads it: profile start, profile end and the segments in index order (R17). -/
structure Profile where
  start : Nat
  stop : Nat
  segs : List Segment
  deriving DecidableEq, Repr, Inhabited

/-! ### Jobs and records (chapters 2, 9, 10) -/

inductive JobKind where
  | harden
  | dry
  deriving DecidableEq, Repr, Inhabited

/-- A job entry (R151); the profile number is the slot, counted from 0. -/
structure JobEntry where
  tag : Nat
  kind : JobKind
  slot : Fin 8
  repeats : Nat
  ident : List Byte
  deriving DecidableEq, Repr, Inhabited

/-- The seven slice flags in the order of R42 and R187. -/
inductive SliceFlag where
  | energyLow
  | energyHigh
  | powerBand
  | late
  | lowFlow
  | flooded
  | aborted
  deriving DecidableEq, Repr, Inhabited

/-- A set of slice flags: a slice may carry any combination (section 3.5). -/
structure Flags where
  energyLow : Bool := false
  energyHigh : Bool := false
  powerBand : Bool := false
  late : Bool := false
  lowFlow : Bool := false
  flooded : Bool := false
  aborted : Bool := false
  deriving DecidableEq, Repr, Inhabited

/-- The seven flag counts (R60). -/
structure FlagCounts where
  energyLow : Nat := 0
  energyHigh : Nat := 0
  powerBand : Nat := 0
  late : Nat := 0
  lowFlow : Nat := 0
  flooded : Nat := 0
  aborted : Nat := 0
  deriving DecidableEq, Repr, Inhabited

/-- A defect zone (R61). -/
structure Zone where
  first : Nat
  count : Nat
  flags : Flags
  deriving DecidableEq, Repr, Inhabited

/-- The cycle tallies (section 3.6). -/
structure Tallies where
  heated : Nat := 0
  energy : Nat := 0
  worstDelay : Nat := 0
  counts : FlagCounts := {}
  flagged : Nat := 0
  zones : List Zone := []
  beyond : Nat := 0
  tankWarm : Bool := false
  repeatUnion : Flags := {}
  deriving DecidableEq, Repr, Inhabited

/-- Last error of the soak fields: none, a fault or a slice flag (R42, R160). -/
inductive LastError where
  | none
  | fault (code : FaultCode)
  | flag (flag : SliceFlag)
  deriving DecidableEq, Repr, Inhabited

/-- Abort cause (R21), in the order of its codes (R187). -/
inductive AbortCause where
  | none
  | cancel
  | stop
  | fault
  deriving DecidableEq, Repr, Inhabited

/-- Pending outcome (R21, R169), in the order of its codes (R187). -/
inductive PendingOutcome where
  | none
  | notStarted
  | cancelled
  | stopped
  | faulted
  deriving DecidableEq, Repr, Inhabited

/-- The ten outcomes of a record (R161), in the order of their codes (R187). -/
inductive RecordOutcome where
  | good
  | reject
  | dryGood
  | dryFlagged
  | faulted
  | cancelled
  | stopped
  | notStarted
  | refusedAtStart
  | interrupted
  deriving DecidableEq, Repr, Inhabited

/-- The cycle context (R21) with the soak fields (R42), the fault fields (R169) and the marks that
cases 5 and 6 of R172 read. -/
structure Context where
  job : JobEntry
  startTime : Time
  heatStart : Time
  heatTime : Nat
  abortCause : AbortCause
  endAfterRepeat : Bool
  cancelMet : Bool
  stopMet : Bool
  repeatsDone : Nat
  heated : Bool
  errorCount : Nat
  lastError : LastError
  pendingOutcome : PendingOutcome
  firstFault : Option FaultCode
  secondFault : Option FaultCode
  deriving DecidableEq, Repr, Inhabited

/-- The soak block of a record (R160). -/
structure SoakBlock where
  repeatsDone : Nat
  errorCount : Nat
  lastError : LastError
  deriving DecidableEq, Repr, Inhabited

/-- A set of the two checkpoints that may be bypassed (R133, R134). -/
structure BypassedSet where
  w3 : Bool := false
  w6 : Bool := false
  deriving DecidableEq, Repr, Inhabited

/-- A cycle record (R160). -/
structure Record where
  station : Station
  job : JobEntry
  outcome : RecordOutcome
  walkReached : Nat
  bypassed : BypassedSet
  firstFault : Option FaultCode
  secondFault : Option FaultCode
  startTime : Time
  heatTime : Nat
  heated : Nat
  energy : Nat
  worstDelay : Nat
  counts : FlagCounts
  zones : List Zone
  beyond : Nat
  tankWarm : Bool
  soak : Option SoakBlock
  deriving DecidableEq, Repr, Inhabited

/-! ### Heat trail (chapter 3) -/

/-- A slice record (R50, R52) with its deadline timer (R56). -/
structure SliceRec where
  index : Nat
  segment : Nat
  energy : Nat
  peak : Nat
  quench : Bool
  maxDelay : Option Nat
  window : Option (Nat × Nat)
  heatEnd : Option Time
  deadline : Option Time
  timer : Timer
  flags : Flags
  deriving DecidableEq, Repr, Inhabited

/-- The trail state (R48): OPEN holds the high-water position and the open slice, DRAINING the
high-water position. -/
inductive TrailPhase where
  | idle
  | heating (high : Nat) (slice : SliceRec)
  | draining (high : Nat)
  deriving DecidableEq, Repr, Inhabited

/-- Where the current defect zone stands (R61): none, in the list, or counted beyond eight. -/
inductive ZoneRun where
  | none
  | listed
  | beyond
  deriving DecidableEq, Repr, Inhabited

/-- A station's heat trail. -/
structure Trail where
  phase : TrailPhase := .idle
  list : List SliceRec := []
  remainder : Nat := 0
  tallies : Tallies := {}
  run : ZoneRun := .none
  deriving DecidableEq, Repr, Inhabited

/-! ### Power channel (chapter 4) -/

/-- The channel state with its target and markers (R70). -/
inductive ChannelState where
  | free
  | switching (target : Station) (withdrawn : Bool)
  | held (holder : Station) (inHeat : Bool)
  | faulted
  deriving DecidableEq, Repr, Inhabited

/-- The power channel (R70, R71, R81). -/
structure Channel where
  state : ChannelState := .free
  switchAt : Station := .a
  waiting : List Station := []
  lastHolder : Option Station := none
  changeover : Timer := none
  response : Timer := none
  /-- NO-POWER has been given in this turn of the holder (R82). -/
  noPowerGiven : Bool := false
  settle : Timer := none
  demand : Nat := 0
  measured : Nat := 0
  deriving DecidableEq, Repr, Inhabited

/-! ### Motion unit (chapter 5) -/

/-- The phases of SEEK-HOME (R92). -/
inductive SeekPhase where
  | backOff
  | seek
  | settle
  deriving DecidableEq, Repr, Inhabited

/-- The travel mode with its mode speed and target (R89, R90). -/
inductive TravelMode where
  | stop
  | hold
  | scan (speed : Nat)
  | moveTo (target : Nat) (speed : Nat)
  | seekHome (phase : SeekPhase) (speed : Nat)
  deriving DecidableEq, Repr, Inhabited

/-- The arrival of the move in force (R94): awaited, found by a reading and not yet taken, or reported. -/
inductive Arrival where
  | awaited
  | found
  | reported
  deriving DecidableEq, Repr, Inhabited

/-- The at-speed watch (R102): off, on, or on with a reading within tolerance not yet taken. -/
inductive SpeedWatch where
  | off
  | on
  | found
  deriving DecidableEq, Repr, Inhabited

/-- A station's motion unit (R89, R91, R101). -/
structure Motion where
  mode : TravelMode := .stop
  arrival : Arrival := .awaited
  raw : Int := 0
  zero : Int := 0
  history : List Int := []
  speed : Int := 0
  valid : Bool := false
  searchTimer : Timer := none
  stallTimer : Timer := none
  reverseRaised : Bool := false
  limitRaised : Bool := false
  spindleDemand : Nat := 0
  rpm : Nat := 0
  spindleTimer : Timer := none
  spindleRaised : Bool := false
  watch : SpeedWatch := .off
  deriving DecidableEq, Repr, Inhabited

/-! ### Quench unit and tank (chapter 6) -/

inductive RingValve where
  | closed
  | proof
  | quench
  | after
  deriving DecidableEq, Repr, Inhabited

inductive ProofResult where
  | none
  | passed
  | failed
  deriving DecidableEq, Repr, Inhabited

/-- What began the flood in progress (R106). -/
inductive FloodOrigin where
  | floodEntry
  | warmReset
  deriving DecidableEq, Repr, Inhabited

/-- A flood in progress: the flood valve is open exactly while there is one (R115). -/
structure Flood where
  remaining : Nat
  origin : FloodOrigin
  deriving DecidableEq, Repr, Inhabited

/-- A station's quench unit (R106, R107). -/
structure Quench where
  valve : RingValve := .closed
  proofTimer : Timer := none
  proofSeen : Bool := false
  proofPeak : Nat := 0
  proofResult : ProofResult := .none
  riseTimer : Timer := none
  flowRaised : Bool := false
  afterTimer : Timer := none
  flood : Option Flood := none
  flow : Nat := 0
  deriving DecidableEq, Repr, Inhabited

inductive TankState where
  | normal
  | warm
  | critical
  deriving DecidableEq, Repr, Inhabited

/-- The tank monitor (R118): the state and the latest reading in 0.1 °C. -/
structure Tank where
  state : TankState := .normal
  reading : Int := 0
  deriving DecidableEq, Repr, Inhabited

/-! ### Readiness walk (chapter 7) -/

inductive Checkpoint where
  | w1
  | w2
  | w3
  | w4
  | w5
  | w6
  | w7
  | w8
  deriving DecidableEq, Repr, Inhabited

inductive WalkResult where
  | none
  | running
  | passed
  | failed
  | cancelled
  | stopped
  | axis
  | interrupted
  deriving DecidableEq, Repr, Inhabited

inductive FailureCause where
  | none
  | stepLimit
  | powerWait
  | tankCritical
  | proofFailed
  | invFault
  deriving DecidableEq, Repr, Inhabited

/-- The readiness walk (R123). -/
structure Walk where
  current : Option Checkpoint := none
  timer : Timer := none
  reached : Nat := 0
  bypassed : BypassedSet := {}
  result : WalkResult := .none
  endedAt : Option Checkpoint := none
  cause : FailureCause := .none
  deriving DecidableEq, Repr, Inhabited

/-! ### Station lines (chapter 8) -/

/-- A qualified input (R140). -/
structure QualInput where
  sampled : Bool := false
  qualified : Bool := false
  timer : Timer := none
  deriving DecidableEq, Repr, Inhabited

inductive Handshake where
  | idle
  | heldBack
  | delaying
  | asserted
  | pulsing
  deriving DecidableEq, Repr, Inhabited

/-- A station's lines (R138, R140, R143): `true` is active. -/
structure Lines where
  present : QualInput := {}
  clamped : QualInput := {}
  hold : QualInput := {}
  axisFault : Bool := false
  homeSw : Bool := false
  coilFlow : Bool := false
  handshake : Handshake := .idle
  handshakeTimer : Timer := none
  deriving DecidableEq, Repr, Inhabited

/-! ### Settings (R184) -/

/-- The handshake types in the order of their codes (id 54). -/
inductive HandshakeType where
  | level
  | pulse
  | delayed
  deriving DecidableEq, Repr, Inhabited

/-- The common settings, ids 1 to 12; a sense is `true` when active-low. -/
structure CommonSettings where
  ratedPower : Nat := 2500
  changeoverTime : Nat := 150
  responseLimit : Nat := 300
  powerBand : Nat := 8
  settleTime : Nat := 300
  warnThreshold : Nat := 350
  criticalThreshold : Nat := 450
  lowInvReady : Bool := false
  lowInvFault : Bool := false
  lowReset : Bool := false
  lowSwitch : Bool := false
  lowAttn : Bool := false
  deriving DecidableEq, Repr, Inhabited

/-- The station settings, ids 32 to 65; a sense is `true` when active-low. -/
structure StationSettings where
  powerLead : Nat := 2000
  pitch : Nat := 2000
  offset : Nat := 40000
  quenchDelay : Nat := 3000
  travelMin : Nat := 0
  travelMax : Nat := 1600000
  runoutSpeed : Nat := 100
  returnSpeed : Nat := 800
  homeSpeed : Nat := 200
  stallTime : Nat := 500
  spindleTolerance : Nat := 5
  preOpen : Nat := 5000
  afterQuench : Nat := 2000
  flowRise : Nat := 500
  flowMinimum : Nat := 600
  proofTime : Nat := 400
  floodTime : Nat := 20000
  stepLimit : Nat := 10000
  powerWait : Nat := 0
  bypassW3 : Bool := false
  bypassW6 : Bool := false
  qualFactor : Nat := 3
  qualRange : Nat := 1
  handshakeType : HandshakeType := .level
  doneFactor : Nat := 5
  doneRange : Nat := 2
  lowPresent : Bool := false
  lowClamped : Bool := false
  lowHold : Bool := false
  lowAxisFault : Bool := false
  lowHomeSw : Bool := false
  lowCoilFlow : Bool := false
  lowReady : Bool := false
  lowDone : Bool := false
  lowReject : Bool := false
  deriving DecidableEq, Repr, Inhabited

/-! ### A station -/

/-- The twelve station states in the order of R19. -/
inductive Mode where
  | unhomed
  | homing
  | idle
  | waitPart
  | walk
  | heat
  | runout
  | quenchOut
  | flood
  | returning
  | release
  | halted
  deriving DecidableEq, Repr, Inhabited

/-- The state HOME left (R22). -/
inductive HomingOrigin where
  | unhomed
  | halted
  deriving DecidableEq, Repr, Inhabited

inductive HomeResult where
  | none
  | ok
  | failed
  deriving DecidableEq, Repr, Inhabited

/-- Halt cause (R173), in the order of its codes (R187). -/
inductive HaltCause where
  | none
  | flood
  | axis
  | warmReset
  deriving DecidableEq, Repr, Inhabited

/-- Everything that exists once for each station. -/
structure StationState where
  mode : Mode := .unhomed
  homingOrigin : HomingOrigin := .unhomed
  homeResult : HomeResult := .none
  queue : List JobEntry := []
  current : Option Context := none
  finished : Option Nat := none
  partConsumed : Bool := false
  /-- The release-owed marker (R38): present, with whether REJECT is called for. -/
  releaseOwed : Option Bool := none
  haltCause : HaltCause := .none
  /-- Faults handed and not yet taken, oldest first (R167, R177). -/
  handed : List FaultCode := []
  /-- Faults handed before a reset or before the record of their cycle and not yet taken, oldest first: each is
  dropped when taken, whatever job is current by then (R167, R177; log 40). -/
  lapsed : List FaultCode := []
  dwellTimer : Timer := none
  /-- The dwell segments reached and not yet finished; the head is in force (R15, R31). -/
  dwells : List Nat := []
  walk : Walk := {}
  trail : Trail := {}
  motion : Motion := {}
  quench : Quench := {}
  lines : Lines := {}
  settings : StationSettings := {}
  deriving DecidableEq, Repr, Inhabited

/-! ### Run control (R163) -/

inductive RunState where
  | running
  | stopping
  | stopped
  deriving DecidableEq, Repr, Inhabited

inductive StopMode where
  | none
  | normal
  | abrupt
  deriving DecidableEq, Repr, Inhabited

/-! ### Command link (chapter 11) -/

/-- The outcome byte of a reply, in the order of its codes (R181). -/
inductive ReplyOutcome where
  | accepted
  | unsupportedUnit
  | unknownKind
  | tooLong
  | badLength
  | badValue
  | busy
  | full
  | inUse
  | notFound
  | notReady
  | dupTag
  | tooLate
  | already
  | empty
  | wrongState
  deriving DecidableEq, Repr, Inhabited

/-- An entry of the receive buffer: a complete request or a too-long entry (R180). -/
structure Entry where
  tooLong : Bool
  unit : Byte
  kind : Byte
  tag : Byte
  payload : List Byte
  deriving DecidableEq, Repr, Inhabited

/-- A composed reply (R179). -/
structure Reply where
  unit : Byte
  kind : Byte
  tag : Byte
  outcome : ReplyOutcome
  summary : Byte
  payload : List Byte
  deriving DecidableEq, Repr, Inhabited

/-- The receiver state with the bytes kept of the partial frame (R178). HEADER keeps the length, unit,
kind and tag so far; PAYLOAD and CHECK keep the four header bytes and the payload so far; CHECK also
the first CRC byte once it has come; DISCARD keeps the unit, kind and tag so far. -/
inductive Receiver where
  | hunt
  | header (kept : List Byte)
  | payload (header : List Byte) (kept : List Byte)
  | check (header : List Byte) (payload : List Byte) (crcHigh : Option Byte)
  | discard (kept : List Byte)
  deriving DecidableEq, Repr, Inhabited

/-- The transaction in progress (R180): an entry taken and not yet acted on, or a reply being sent, with
whether the warm reset of R186 follows its last byte. -/
inductive Transaction where
  | none
  | taken (entry : Entry)
  | replying (reply : Reply) (resetAfter : Bool)
  deriving DecidableEq, Repr, Inhabited

structure Link where
  receiver : Receiver := .hunt
  gapTimer : Timer := none
  idleTimer : Timer := none
  buffer : List Entry := []
  overrun : Bool := false
  transaction : Transaction := .none
  deriving DecidableEq, Repr, Inhabited

/-! ### The whole part -/

/-- The state of the part and the queue of commands that wait for it. -/
structure State where
  /-- The commands waiting, first in first out. -/
  pending : List Instr := []
  time : Time := 0
  link : Link := {}
  slots : Vector Slot 8 := Vector.replicate 8 Slot.empty
  a : StationState := {}
  b : StationState := {}
  channel : Channel := {}
  tank : Tank := {}
  records : List Record := []
  reservations : Nat := 0
  run : RunState := .running
  stopMode : StopMode := .none
  common : CommonSettings := {}
  invReady : Bool := false
  invFault : Bool := false
  resetLine : Bool := false
  /-- The model's own: how many of the choices of `Config.stationAFirst` have been used (log 12). -/
  freeIndex : Nat := 0
  deriving DecidableEq, Repr, Inhabited

/-- The part right after a cold reset in which every input was first sampled inactive (R1, R2, R19,
R69, R70, R89, R106, R118, R123, R143, R166, R177, R184, R186; log 16). -/
def State.reset : State := {}

/-- No command stops the part: every step the rules describe ends in a next state, so no fault is ever
raised. Safe: there is nothing to raise. -/
inductive Fault where
  deriving DecidableEq, Repr

/-- Why a command has no meaning. -/
inductive Refusal where
  /-- Raised by an arm of `exec` whose command has no meaning yet; safe. No arm raises it. -/
  | notModelled (mnemonic : String)
  deriving DecidableEq, Repr

end Sys2Proof.Machine
end

