-- ==== Sys2Proof/Machine/Ops.lean ====
section
/-! DEFINITION. The shared operations of the model: access to the two stations and to the slots, timers and
the passing of time, byte order and the CRC of the link, sums held in 32 bits, and handing a fault. -/

namespace Sys2Proof

/-- The other station. -/
def Station.other : Station → Station
  | .a => .b
  | .b => .a

namespace Machine

/-! ### Stations and slots -/

/-- The state of station `u`. -/
def State.st (s : State) : Station → StationState
  | .a => s.a
  | .b => s.b

/-- `s` with the state of station `u` replaced. -/
def State.setSt (s : State) (u : Station) (x : StationState) : State :=
  match u with
  | .a => { s with a := x }
  | .b => { s with b := x }

/-- `s` with the state of station `u` changed by `f`. -/
def State.modSt (s : State) (u : Station) (f : StationState → StationState) : State :=
  s.setSt u (f (s.st u))

/-- `s` with the channel replaced. -/
def State.setChannel (s : State) (c : Channel) : State := { s with channel := c }

/-- `s` with the link replaced. -/
def State.setLink (s : State) (l : Link) : State := { s with link := l }

/-- `s` with the library slots replaced. -/
def State.setSlots (s : State) (v : Vector Slot 8) : State := { s with slots := v }

/-- `s` with the records held and the reservation count replaced (R158). -/
def State.setRecords (s : State) (rs : List Record) (n : Nat) : State :=
  { s with records := rs, reservations := n }

/-- `s` with the run state and the stop mode replaced (R163). -/
def State.setRun (s : State) (r : RunState) (m : StopMode) : State :=
  { s with run := r, stopMode := m }

/-- The slot of index `k`, slot number `k + 1` (R2). -/
def State.slot (s : State) (k : Fin 8) : Slot := s.slots[k]

/-- `s` with slot `k` replaced. -/
def State.setSlot (s : State) (k : Fin 8) (x : Slot) : State :=
  s.setSlots (s.slots.set k.val x k.isLt)

/-- The slot index of a slot number, none outside 1 to 8 (R6). -/
def slotIndex (n : Nat) : Option (Fin 8) :=
  if h : 1 ≤ n ∧ n ≤ 8 then some ⟨n - 1, by omega⟩ else none

/-- The station with its walk changed. -/
def StationState.modWalk (f : Walk → Walk) (x : StationState) : StationState :=
  { x with walk := f x.walk }

/-- The station with its trail changed. -/
def StationState.modTrail (f : Trail → Trail) (x : StationState) : StationState :=
  { x with trail := f x.trail }

/-- The station with its motion unit changed. -/
def StationState.modMotion (f : Motion → Motion) (x : StationState) : StationState :=
  { x with motion := f x.motion }

/-- The station with its quench unit changed. -/
def StationState.modQuench (f : Quench → Quench) (x : StationState) : StationState :=
  { x with quench := f x.quench }

/-- The station with its lines changed. -/
def StationState.modLines (f : Lines → Lines) (x : StationState) : StationState :=
  { x with lines := f x.lines }

/-- The station with its cycle context changed, where it has one. -/
def StationState.modContext (f : Context → Context) (x : StationState) : StationState :=
  { x with current := x.current.map f }

/-- A station has a current job (R19). -/
def StationState.busy (x : StationState) : Bool := x.current.isSome

/-- Either station has a current job. -/
def State.anyCurrent (s : State) : Bool := s.a.busy || s.b.busy

/-- Hands a fault to the station's sequencer (R167). -/
def StationState.hand (f : FaultCode) (x : StationState) : StationState :=
  { x with handed := x.handed ++ [f] }

/-- The faults not yet taken will be dropped when taken (R167, R177; log 40). -/
def StationState.lapse (x : StationState) : StationState :=
  { x with handed := [], lapsed := x.lapsed ++ x.handed }

/-! ### Timers and time -/

/-- `n` milliseconds of a timer pass; an overdue timer stays at 0 until its expiry is taken (log 3). -/
def Timer.elapse (n : Nat) (t : Timer) : Timer := t.map (· - n)

def QualInput.elapse (n : Nat) (q : QualInput) : QualInput := { q with timer := q.timer.elapse n }

def SliceRec.elapse (n : Nat) (sl : SliceRec) : SliceRec := { sl with timer := sl.timer.elapse n }

def Walk.elapse (n : Nat) (w : Walk) : Walk := { w with timer := w.timer.elapse n }

def Trail.elapse (n : Nat) (t : Trail) : Trail := { t with list := t.list.map (SliceRec.elapse n) }

def Motion.elapse (n : Nat) (m : Motion) : Motion :=
  { m with
    searchTimer := m.searchTimer.elapse n
    stallTimer := m.stallTimer.elapse n
    spindleTimer := m.spindleTimer.elapse n }

def Flood.elapse (n : Nat) (f : Flood) : Flood := { f with remaining := f.remaining - n }

def Quench.elapse (n : Nat) (q : Quench) : Quench :=
  { q with
    proofTimer := q.proofTimer.elapse n
    riseTimer := q.riseTimer.elapse n
    afterTimer := q.afterTimer.elapse n
    flood := q.flood.map (Flood.elapse n) }

def Lines.elapse (n : Nat) (l : Lines) : Lines :=
  { l with
    present := l.present.elapse n
    clamped := l.clamped.elapse n
    hold := l.hold.elapse n
    handshakeTimer := l.handshakeTimer.elapse n }

def StationState.elapse (n : Nat) (x : StationState) : StationState :=
  { x with
    dwellTimer := x.dwellTimer.elapse n
    walk := x.walk.elapse n
    trail := x.trail.elapse n
    motion := x.motion.elapse n
    quench := x.quench.elapse n
    lines := x.lines.elapse n }

def Channel.elapse (n : Nat) (c : Channel) : Channel :=
  { c with
    changeover := c.changeover.elapse n
    response := c.response.elapse n
    settle := c.settle.elapse n }

def Link.elapse (n : Nat) (l : Link) : Link :=
  { l with gapTimer := l.gapTimer.elapse n, idleTimer := l.idleTimer.elapse n }

/-- `n` milliseconds pass: the time base rises by `n` modulo 2^32 and every running timer counts down
(R1). -/
def State.elapse (n : Nat) (s : State) : State :=
  { s with
    time := s.time + BitVec.ofNat 32 n
    link := s.link.elapse n
    a := s.a.elapse n
    b := s.b.elapse n
    channel := s.channel.elapse n }

/-- The expiry of a timer: nothing where the timer is stopped; otherwise the milliseconds it has left pass
and the expiry is taken (log 2). -/
def State.expire (s : State) (t : Timer) (act : State → State) : State :=
  match t with
  | none => s
  | some left => act (s.elapse left)

/-- A timer started with `n` ms where 0 leaves it stopped (the settle time of R84, the power wait limit of
R125). -/
def Timer.startUnlessZero (n : Nat) : Timer := if n = 0 then none else some n

/-! ### Byte order and CRC (R179) -/

def be8 (n : Nat) : List Byte := [BitVec.ofNat 8 n]

def be16 (n : Nat) : List Byte := [BitVec.ofNat 8 (n / 256), BitVec.ofNat 8 n]

def be32 (n : Nat) : List Byte :=
  [BitVec.ofNat 8 (n / 16777216), BitVec.ofNat 8 (n / 65536), BitVec.ofNat 8 (n / 256), BitVec.ofNat 8 n]

/-- The number that bytes spell, high byte first. -/
def beNat (bs : List Byte) : Nat := bs.foldl (fun n b => n * 256 + b.toNat) 0

/-- A signed 2-byte field; outside its width a free value (log 15). -/
def signed16 (v : Int) : List Byte :=
  be16 (if -32768 ≤ v ∧ v < 32768 then (BitVec.ofInt 16 v).toNat else (Config.signed16Overflow v).toNat)

/-- A signed 4-byte field; outside its width a free value (log 15). -/
def signed32 (v : Int) : List Byte :=
  be32 (if -2147483648 ≤ v ∧ v < 2147483648 then (BitVec.ofInt 32 v).toNat
    else (Config.signed32Overflow v).toNat)

/-- Bits of a byte from the least significant up. -/
def bitsByte (bs : List Bool) : Nat := bs.foldr (fun b n => (if b then 1 else 0) + 2 * n) 0

/-- Characters padded with 0x00 to `n` (R187). -/
def padText (n : Nat) (cs : List Byte) : List Byte := (cs ++ List.replicate n 0).take n

/-- One shift of the CRC register. -/
def crcShift (r : BitVec 16) : BitVec 16 :=
  if r.msb then (r <<< 1) ^^^ 0x1021 else r <<< 1

/-- One byte into the CRC register: into the high byte, then eight shifts. -/
def crcByte (r : BitVec 16) (b : Byte) : BitVec 16 :=
  (List.range 8).foldl (fun x _ => crcShift x) (r ^^^ ((b.setWidth 16) <<< 8))

/-- The CRC of a list of bytes, from 0xFFFF. -/
def crc (bs : List Byte) : BitVec 16 := bs.foldl crcByte 0xFFFF

/-! ### Sums held in 32 bits -/

/-- A sum of joules held in 32 bits (00_scope); past them a free value (log 13). -/
def addEnergy (x y : Nat) : Nat :=
  if x + y < 2 ^ 32 then x + y else (Config.energyOverflow (x + y)).toNat

/-- A sum of heat times held in 32 bits; past them a free value (log 14). -/
def addHeatTime (x y : Nat) : Nat :=
  if x + y < 2 ^ 32 then x + y else (Config.heatTimeOverflow (x + y)).toNat

end Machine

end Sys2Proof
end

