-- ==== Sys2Proof/Machine/Flags.lean ====
section
/-! DEFINITION. Slice flags and their counts, the codes of named values (R187), the attention summary and
the output lines, which are functions of the state (log 17). -/

namespace Sys2Proof.Machine

/-! ### Slice flags -/

namespace Flags

def has (f : Flags) : SliceFlag → Bool
  | .energyLow => f.energyLow
  | .energyHigh => f.energyHigh
  | .powerBand => f.powerBand
  | .late => f.late
  | .lowFlow => f.lowFlow
  | .flooded => f.flooded
  | .aborted => f.aborted

/-- The flags with one set (R58). -/
def add (f : Flags) : SliceFlag → Flags
  | .energyLow => { f with energyLow := true }
  | .energyHigh => { f with energyHigh := true }
  | .powerBand => { f with powerBand := true }
  | .late => { f with late := true }
  | .lowFlow => { f with lowFlow := true }
  | .flooded => { f with flooded := true }
  | .aborted => { f with aborted := true }

def union (f g : Flags) : Flags where
  energyLow := f.energyLow || g.energyLow
  energyHigh := f.energyHigh || g.energyHigh
  powerBand := f.powerBand || g.powerBand
  late := f.late || g.late
  lowFlow := f.lowFlow || g.lowFlow
  flooded := f.flooded || g.flooded
  aborted := f.aborted || g.aborted

/-- The bits of a flag byte, from bit 0 (R187). -/
def bits (f : Flags) : List Bool :=
  [f.energyLow, f.energyHigh, f.powerBand, f.late, f.lowFlow, f.flooded, f.aborted]

/-- A slice with at least one flag is flagged (section 3.5). -/
def any (f : Flags) : Bool := f.bits.any id

end Flags

/-- The seven flags in the order of R42. -/
def SliceFlag.all : List SliceFlag :=
  [.energyLow, .energyHigh, .powerBand, .late, .lowFlow, .flooded, .aborted]

/-- The first flag in the order of R42 that the set carries. -/
def Flags.first (f : Flags) : Option SliceFlag := SliceFlag.all.find? f.has

/-- One flag count, stopping at 65,535 (R60). -/
def bumpCount (set : Bool) (n : Nat) : Nat := if set then min 65535 (n + 1) else n

/-- For each flag the slice carries, that flag's count rises by 1 (R60). -/
def FlagCounts.bump (c : FlagCounts) (f : Flags) : FlagCounts where
  energyLow := bumpCount f.energyLow c.energyLow
  energyHigh := bumpCount f.energyHigh c.energyHigh
  powerBand := bumpCount f.powerBand c.powerBand
  late := bumpCount f.late c.late
  lowFlow := bumpCount f.lowFlow c.lowFlow
  flooded := bumpCount f.flooded c.flooded
  aborted := bumpCount f.aborted c.aborted

def FlagCounts.toList (c : FlagCounts) : List Nat :=
  [c.energyLow, c.energyHigh, c.powerBand, c.late, c.lowFlow, c.flooded, c.aborted]

/-! ### Fault classes (R167) -/

/-- The flood class: STALL, REVERSE, LIMIT, QUENCH-FLOW and AXIS. -/
def floodClass : FaultCode → Bool
  | .stall | .reverse | .limit | .quenchFlow | .axis => true
  | .inverter | .invDrop | .noPower | .coilFlow | .spindle => false

/-! ### Codes of named values (R187; log 20) -/

def faultNumber : FaultCode → Nat
  | .inverter => 1
  | .invDrop => 2
  | .noPower => 3
  | .coilFlow => 4
  | .spindle => 5
  | .stall => 6
  | .reverse => 7
  | .limit => 8
  | .axis => 9
  | .quenchFlow => 10

/-- 0 for an absent fault field. -/
def faultField : Option FaultCode → Nat
  | none => 0
  | some f => faultNumber f

def SliceFlag.bit : SliceFlag → Nat
  | .energyLow => 0
  | .energyHigh => 1
  | .powerBand => 2
  | .late => 3
  | .lowFlow => 4
  | .flooded => 5
  | .aborted => 6

def LastError.code : LastError → Nat
  | .none => 0
  | .fault f => faultNumber f
  | .flag f => 0x11 + f.bit

def AbortCause.code : AbortCause → Nat
  | .none => 0
  | .cancel => 1
  | .stop => 2
  | .fault => 3

def PendingOutcome.code : PendingOutcome → Nat
  | .none => 0
  | .notStarted => 1
  | .cancelled => 2
  | .stopped => 3
  | .faulted => 4

def RecordOutcome.code : RecordOutcome → Nat
  | .good => 0
  | .reject => 1
  | .dryGood => 2
  | .dryFlagged => 3
  | .faulted => 4
  | .cancelled => 5
  | .stopped => 6
  | .notStarted => 7
  | .refusedAtStart => 8
  | .interrupted => 9

def ReplyOutcome.code : ReplyOutcome → Nat
  | .accepted => 0
  | .unsupportedUnit => 1
  | .unknownKind => 2
  | .tooLong => 3
  | .badLength => 4
  | .badValue => 5
  | .busy => 6
  | .full => 7
  | .inUse => 8
  | .notFound => 9
  | .notReady => 10
  | .dupTag => 11
  | .tooLate => 12
  | .already => 13
  | .empty => 14
  | .wrongState => 15

/-- Position in the table of R19. -/
def Mode.code : Mode → Nat
  | .unhomed => 0
  | .homing => 1
  | .idle => 2
  | .waitPart => 3
  | .walk => 4
  | .heat => 5
  | .runout => 6
  | .quenchOut => 7
  | .flood => 8
  | .returning => 9
  | .release => 10
  | .halted => 11

def HomeResult.code : HomeResult → Nat
  | .none => 0
  | .ok => 1
  | .failed => 2

def HaltCause.code : HaltCause → Nat
  | .none => 0
  | .flood => 1
  | .axis => 2
  | .warmReset => 3

def RunState.code : RunState → Nat
  | .running => 0
  | .stopping => 1
  | .stopped => 2

def StopMode.code : StopMode → Nat
  | .none => 0
  | .normal => 1
  | .abrupt => 2

def TankState.code : TankState → Nat
  | .normal => 0
  | .warm => 1
  | .critical => 2

/-- A station is sent as 1 for A and 2 for B (R185). -/
def stationNumber : Station → Nat
  | .a => 1
  | .b => 2

/-- 0 for no station (R185). -/
def stationField : Option Station → Nat
  | none => 0
  | some u => stationNumber u

/-- The number of a checkpoint, 1 to 8. -/
def Checkpoint.number : Checkpoint → Nat
  | .w1 => 1
  | .w2 => 2
  | .w3 => 3
  | .w4 => 4
  | .w5 => 5
  | .w6 => 6
  | .w7 => 7
  | .w8 => 8

/-- Current checkpoint: 0 for none (R185). -/
def currentField : Option Checkpoint → Nat
  | none => 0
  | some w => w.number

/-- Ended at: the position in the list "W1 to W8, or none" of R123 (R187; log 20). -/
def endedField : Option Checkpoint → Nat
  | some w => w.number - 1
  | none => 8

def WalkResult.code : WalkResult → Nat
  | .none => 0
  | .running => 1
  | .passed => 2
  | .failed => 3
  | .cancelled => 4
  | .stopped => 5
  | .axis => 6
  | .interrupted => 7

def FailureCause.code : FailureCause → Nat
  | .none => 0
  | .stepLimit => 1
  | .powerWait => 2
  | .tankCritical => 3
  | .proofFailed => 4
  | .invFault => 5

def TrailPhase.code : TrailPhase → Nat
  | .idle => 0
  | .heating _ _ => 1
  | .draining _ => 2

def ChannelState.code : ChannelState → Nat
  | .free => 0
  | .switching _ _ => 1
  | .held _ _ => 2
  | .faulted => 3

def TravelMode.code : TravelMode → Nat
  | .stop => 0
  | .hold => 1
  | .scan _ => 2
  | .moveTo _ _ => 3
  | .seekHome _ _ => 4

def RingValve.code : RingValve → Nat
  | .closed => 0
  | .proof => 1
  | .quench => 2
  | .after => 3

def ProofResult.code : ProofResult → Nat
  | .none => 0
  | .passed => 1
  | .failed => 2

/-- Flood origin: the position in the list "FLOOD-ENTRY, WARM-RESET or none" of R106 (R187; log 20). -/
def floodOriginField : Option Flood → Nat
  | some f => match f.origin with
    | .floodEntry => 0
    | .warmReset => 1
  | none => 2

def Handshake.code : Handshake → Nat
  | .idle => 0
  | .heldBack => 1
  | .delaying => 2
  | .asserted => 3
  | .pulsing => 4

def HandshakeType.code : HandshakeType → Nat
  | .level => 0
  | .pulse => 1
  | .delayed => 2

def HandshakeType.ofCode : Nat → HandshakeType
  | 1 => .pulse
  | 2 => .delayed
  | _ => .level

def Slot.code : Slot → Nat
  | .empty => 0
  | .building _ _ => 1
  | .ready _ _ _ => 2

/-- A stopped timer reads 0xFFFFFFFF as its remaining time (R185). -/
def Timer.field (t : Timer) : Nat := t.getD 0xFFFFFFFF

/-! ### Output lines (chapter 8) -/

/-- READY (R142). -/
def StationState.ready (x : StationState) : Bool :=
  x.mode == .waitPart && (x.queue.head?.any fun j => j.kind == .harden) && !x.lines.hold.qualified
    && !x.partConsumed

/-- DONE is active in ASSERTED and PULSING (R143). -/
def StationState.doneOut (x : StationState) : Bool :=
  x.lines.handshake == .asserted || x.lines.handshake == .pulsing

/-- REJECT is active exactly while DONE is active and the release-owed marker calls for it (R143). -/
def StationState.rejectOut (x : StationState) : Bool := x.doneOut && x.releaseOwed == some true

/-- SWITCH: inactive for position A, active for B (R148). -/
def State.switchOut (s : State) : Bool := s.channel.switchAt == .b

/-- ATTN (R149). -/
def State.attn (s : State) : Bool :=
  !s.records.isEmpty || s.a.mode == .halted || s.b.mode == .halted || s.link.overrun

/-! ### Levels driven (R139)

The sense of an output names the level driven while it is active; `true` is high. A changed sense changes the level and
not the state, of which the levels are functions (log 31). -/

/-- The level that a line's state drives, by its sense (R139). -/
def lineLevel (active activeLow : Bool) : Bool := active != activeLow

/-- The level driven for READY. -/
def StationState.readyLevel (x : StationState) : Bool := lineLevel x.ready x.settings.lowReady

/-- The level driven for DONE. -/
def StationState.doneLevel (x : StationState) : Bool := lineLevel x.doneOut x.settings.lowDone

/-- The level driven for REJECT. -/
def StationState.rejectLevel (x : StationState) : Bool := lineLevel x.rejectOut x.settings.lowReject

/-- The level driven for SWITCH. -/
def State.switchLevel (s : State) : Bool := lineLevel s.switchOut s.common.lowSwitch

/-- The level driven for ATTN. -/
def State.attnLevel (s : State) : Bool := lineLevel s.attn s.common.lowAttn

/-! ### Attention summary -/

/-- The attention summary (R182). -/
def State.summary (s : State) : Byte :=
  BitVec.ofNat 8 (bitsByte [!s.records.isEmpty, s.a.mode == .halted, s.b.mode == .halted,
    s.tank.state == .warm, s.tank.state == .critical, s.link.overrun] + 64 * s.run.code)

end Sys2Proof.Machine
end

