-- ==== Sys2Proof/Machine/Operands.lean ====
section
/-! DEFINITION. The operands of the request commands: how an entry of the receive buffer is routed to its
row of the table and which payload lengths it may have (R181), and how its payload is read (R183,
R188). -/

namespace Sys2Proof.Machine

/-- The number in the `n` bytes of a payload from offset `off` (R179). -/
def field (p : List Byte) (off n : Nat) : Nat := beNat ((p.drop off).take n)

/-- The request rows of the table. -/
inductive RequestRow where
  | tooLong
  | undefinedRequest
  | describe
  | status
  | set
  | get
  | profileOpen
  | profilePut
  | profileClose
  | profileDrop
  | profileRead
  | take
  | stopNormal
  | stopAbrupt
  | resume
  | reset
  | job
  | cancel
  | trail
  | home
  | stationReset
  deriving DecidableEq, Repr, Inhabited

/-- The station a unit byte addresses. -/
def unitStation (unit : Byte) : Option Station :=
  if unit = 1 then some .a else if unit = 2 then some .b else none

/-- The row of a kind of the common unit (R181). A STOP whose mode is 2 is the row STOP_ABRUPT, every
other STOP the row STOP_NORMAL (log 5). -/
def commonRow (kind : Byte) (payload : List Byte) : RequestRow :=
  if kind = 0x01 then .describe
  else if kind = 0x02 then .status
  else if kind = 0x03 then .set
  else if kind = 0x04 then .get
  else if kind = 0x10 then .profileOpen
  else if kind = 0x11 then .profilePut
  else if kind = 0x12 then .profileClose
  else if kind = 0x13 then .profileDrop
  else if kind = 0x14 then .profileRead
  else if kind = 0x20 then .take
  else if kind = 0x21 then (if payload = [2] then .stopAbrupt else .stopNormal)
  else if kind = 0x22 then .resume
  else if kind = 0x2F then .reset
  else .undefinedRequest

/-- The row of a kind of a station unit (R181). -/
def stationRow (kind : Byte) : RequestRow :=
  if kind = 0x03 then .set
  else if kind = 0x04 then .get
  else if kind = 0x30 then .job
  else if kind = 0x31 then .cancel
  else if kind = 0x32 then .trail
  else if kind = 0x33 then .home
  else if kind = 0x34 then .stationReset
  else .undefinedRequest

/-- The row of an entry: steps 1 to 3 of R181. -/
def Entry.row (e : Entry) : RequestRow :=
  if e.tooLong then .tooLong
  else if e.unit = 0 then commonRow e.kind e.payload
  else if e.unit = 1 ∨ e.unit = 2 then stationRow e.kind
  else .undefinedRequest

/-- The payload lengths allowed for a row (R181, R188). -/
def lengthAllowed (row : RequestRow) (p : List Byte) : Bool :=
  match row with
  | .tooLong | .undefinedRequest => true
  | .describe | .take | .resume | .reset | .home | .stationReset => p.length == 0
  | .status | .profileClose | .profileDrop | .stopNormal | .stopAbrupt | .trail => p.length == 1
  | .profileRead | .cancel => p.length == 2
  | .profilePut => p.length == 28
  | .set => p.length % 5 == 0 && 5 ≤ p.length && p.length ≤ 100
  | .get => 1 ≤ p.length && p.length ≤ 20
  | .profileOpen => 11 ≤ p.length && p.length == 11 + field p 10 1
  | .job => 6 ≤ p.length && p.length == 6 + field p 5 1

/-- What the owning block gives a request: the outcome and the payload of its reply (R181). -/
structure Answer where
  outcome : ReplyOutcome
  payload : List Byte := []
  deriving DecidableEq, Repr, Inhabited

/-- A BAD-VALUE reply with a segment index and a cause (R8, R181). -/
def Answer.badValue (index cause : Nat) : Answer := ⟨.badValue, be8 index ++ be8 cause⟩

/-- A BAD-VALUE reply to SET or GET with the setting id (R181). -/
def Answer.badSetting (id : Nat) : Answer := ⟨.badValue, be8 id⟩

/-- The index a BAD-VALUE reply carries for causes found outside a segment (R8). -/
def noIndex : Nat := 255

/-- A printable character (R3, R151). -/
def printable (c : Byte) : Bool := 0x20 ≤ c.toNat && c.toNat ≤ 0x7E

/-- The cause of the first check that fails. -/
def firstFailure (checks : List (Bool × Nat)) : Option Nat :=
  (checks.find? fun c => !c.1).map Prod.snd

/-- `n` lies within a range. -/
def within (lo hi n : Nat) : Bool := lo ≤ n && n ≤ hi

/-! ### Profile requests (R188) -/

/-- The header a PROFILE-OPEN carries; the slot is byte 0. -/
def readHeader (p : List Byte) : Header where
  start := field p 1 4
  stop := field p 5 4
  count := field p 9 1
  name := p.drop 11

/-- The header checks of R3, each with its cause (R8). -/
def headerFailure (h : Header) : Option Nat :=
  firstFailure
    [(within 0 2000000 h.start, 2), (within 0 2000000 h.stop, 2), (within 1 32 h.count, 3),
      (h.name.length ≤ 12 && h.name.all printable, 4)]

/-- The 26-byte segment record as sent (R188). -/
structure RawSegment where
  start : Nat
  power : Nat
  speed : Nat
  rotation : Nat
  quench : Nat
  hasWindow : Bool
  hasDelay : Bool
  hasDwell : Bool
  hasRamp : Bool
  energyMin : Nat
  energyMax : Nat
  delay : Nat
  dwell : Nat
  ramp : Nat
  deriving DecidableEq, Repr, Inhabited

/-- The segment record of a PROFILE-PUT, after its slot and index. -/
def readSegment (p : List Byte) : RawSegment where
  start := field p 2 4
  power := field p 6 2
  speed := field p 8 2
  rotation := field p 10 2
  quench := field p 12 1
  hasWindow := (field p 13 1).testBit 0
  hasDelay := (field p 13 1).testBit 1
  hasDwell := (field p 13 1).testBit 2
  hasRamp := (field p 13 1).testBit 3
  energyMin := field p 14 4
  energyMax := field p 18 4
  delay := field p 22 2
  dwell := field p 24 2
  ramp := field p 26 2

/-- The field checks of R4 in record order, each with its cause (R8); an absent part is not checked. -/
def segmentFailure (g : RawSegment) : Option Nat :=
  firstFailure
    [(within 0 2000000 g.start, 2), (within 0 6000 g.power, 6), (within 5 600 g.speed, 7),
      (within 30 600 g.rotation, 8), (within 0 1 g.quench, 9),
      (!g.hasWindow || (within 0 200000 g.energyMin && within 0 200000 g.energyMax), 10),
      (!g.hasDelay || within 100 20000 g.delay, 11), (!g.hasDwell || within 100 30000 g.dwell, 12),
      (!g.hasRamp || within 0 20000 g.ramp, 13)]

/-- The segment a checked record stores (R4). -/
def RawSegment.toSegment (g : RawSegment) : Segment where
  start := g.start
  power := g.power
  speed := g.speed
  rotation := g.rotation
  quench := g.quench == 1
  window := if g.hasWindow then some (g.energyMin, g.energyMax) else none
  delay := if g.hasDelay then some g.delay else none
  dwell := if g.hasDwell then some g.dwell else none
  ramp := if g.hasRamp then some g.ramp else none

/-- The presence byte of a segment (R188). -/
def Segment.presence (g : Segment) : Nat :=
  bitsByte [g.window.isSome, g.delay.isSome, g.dwell.isSome, g.ramp.isSome]

/-- The 26-byte record of a segment; the fields of absent parts are 0 (R188). -/
def Segment.bytes (g : Segment) : List Byte :=
  be32 g.start ++ be16 g.power ++ be16 g.speed ++ be16 g.rotation ++ be8 (if g.quench then 1 else 0)
    ++ be8 g.presence ++ be32 (g.window.getD (0, 0)).1 ++ be32 (g.window.getD (0, 0)).2
    ++ be16 (g.delay.getD 0) ++ be16 (g.dwell.getD 0) ++ be16 (g.ramp.getD 0)

/-! ### JOB (R188) -/

/-- The job entry as sent: kind 1 HARDEN, 2 DRY. -/
structure RawJob where
  tag : Nat
  kind : Nat
  profile : Nat
  repeats : Nat
  ident : List Byte
  deriving DecidableEq, Repr, Inhabited

def readJob (p : List Byte) : RawJob where
  tag := field p 0 2
  kind := field p 2 1
  profile := field p 3 1
  repeats := field p 4 1
  ident := p.drop 6

/-- The kind a code names, none for a code that is neither (R188). -/
def jobKind (code : Nat) : Option JobKind :=
  if code = 1 then some .harden else if code = 2 then some .dry else none

/-- Steps 1 to 5 of R152, each with its cause. -/
def jobFailure (j : RawJob) : Option Nat :=
  firstFailure
    [(j.tag != 0, 32), ((jobKind j.kind).isSome, 33),
      ((jobKind j.kind == some .harden && j.repeats == 1)
        || (jobKind j.kind == some .dry && within 1 255 j.repeats), 34),
      (j.ident.length ≤ 16 && j.ident.all printable, 35), (within 1 8 j.profile, 36)]

/-! ### SET and GET (R183) -/

/-- The pairs of a SET payload: setting id and value, in payload order. -/
def readPairs : List Byte → List (Nat × Nat)
  | id :: b3 :: b2 :: b1 :: b0 :: rest => (id.toNat, beNat [b3, b2, b1, b0]) :: readPairs rest
  | _ => []

end Sys2Proof.Machine
end

