-- ==== Sys2Proof/Machine/Library.lean ====
section
/-! DEFINITION. The profile library (chapter 1): reference counts, building, validating, dropping and reading
slots, and reading a profile at a position. -/

namespace Sys2Proof.Machine

/-! ### Slots -/

namespace Slot

def isBuilding : Slot → Bool
  | .building _ _ => true
  | _ => false

/-- The reference count; 0 for an EMPTY or BUILDING slot (R2). -/
def refs : Slot → Nat
  | .ready _ _ n => n
  | _ => 0

/-- One more reference to a READY slot (R11). -/
def addRef : Slot → Slot
  | .ready h es n => .ready h es (n + 1)
  | x => x

/-- One reference less (R11). -/
def dropRef : Slot → Slot
  | .ready h es n => .ready h es (n - 1)
  | x => x

def header? : Slot → Option Header
  | .empty => none
  | .building h _ => some h
  | .ready h _ _ => some h

def entries : Slot → List (Nat × Segment)
  | .empty => []
  | .building _ es => es
  | .ready _ es _ => es

/-- The profile a cycle reads; a slot without a profile reads as an empty one (log 21). -/
def profile (x : Slot) : Profile :=
  match x.header? with
  | none => ⟨0, 0, []⟩
  | some h => ⟨h.start, h.stop, x.entries.map Prod.snd⟩

end Slot

def State.addRef (s : State) (k : Fin 8) : State := s.setSlot k (s.slot k).addRef

def State.dropRef (s : State) (k : Fin 8) : State := s.setSlot k (s.slot k).dropRef

/-- Some slot other than `k` is BUILDING (R6). -/
def State.otherBuilding (s : State) (k : Fin 8) : Bool :=
  (List.finRange 8).any fun j => j != k && (s.slot j).isBuilding

/-- The entries with one stored at its index, in ascending index; an entry already there is replaced
(R7). -/
def putEntry (i : Nat) (g : Segment) : List (Nat × Segment) → List (Nat × Segment)
  | [] => [(i, g)]
  | (j, x) :: rest =>
    if i < j then (i, g) :: (j, x) :: rest
    else if i = j then (i, g) :: rest
    else (j, x) :: putEntry i g rest

/-- The entry at an index. -/
def entryAt (es : List (Nat × Segment)) (i : Nat) : Option Segment :=
  (es.find? fun e => e.1 == i).map Prod.snd

/-! ### Validation at PROFILE-CLOSE (R7) -/

/-- The segment of an index, in a list of segments in index order. -/
def segGet (segs : List Segment) (i : Nat) : Segment := segs.getD i default

/-- The length of segment `i` (R5), measured when every start is above its predecessor's. -/
def segLength (p : Profile) (i : Nat) : Nat :=
  (if i + 1 < p.segs.length then (segGet p.segs (i + 1)).start else p.stop) - (segGet p.segs i).start

/-- The checks of phase 6 on one segment, in their order (R7). -/
def phaseSix (rated : Nat) (p : Profile) (i : Nat) : Option Nat :=
  let g := segGet p.segs i
  firstFailure
    [(g.power ≤ rated, 21), (g.window.all fun w => w.1 ≤ w.2, 22), (!(i == 0 && g.ramp.isSome), 23),
      (g.ramp.all fun r => r ≤ segLength p i, 24)]

/-- The first failure of the six phases, as index and cause (R7). -/
def closeFailure (rated : Nat) (h : Header) (es : List (Nat × Segment)) : Option (Nat × Nat) :=
  let p : Profile := ⟨h.start, h.stop, es.map Prod.snd⟩
  match (List.range h.count).find? fun i => (entryAt es i).isNone with
  | some i => some (i, 16)
  | none =>
    if h.stop < h.start + Config.minProfile then some (noIndex, 17)
    else if (segGet p.segs 0).start ≠ h.start then some (0, 18)
    else
      match (List.range h.count).find? fun i =>
          i != 0 && (segGet p.segs i).start ≤ (segGet p.segs (i - 1)).start with
      | some i => some (i, 19)
      | none =>
        if h.stop ≤ (segGet p.segs (h.count - 1)).start then some (h.count - 1, 20)
        else (List.range h.count).findSome? fun i => (phaseSix rated p i).map fun c => (i, c)

/-! ### The profile requests -/

/-- PROFILE-OPEN (R6) on slot number `n` with a header. -/
def openSlot (n : Nat) (h : Header) (s : State) : State × Answer :=
  match slotIndex n with
  | none => (s, Answer.badValue noIndex 1)
  | some k =>
    if s.otherBuilding k then (s, ⟨.busy, []⟩)
    else if 0 < (s.slot k).refs then (s, ⟨.inUse, []⟩)
    else
      match headerFailure h with
      | some c => (s, Answer.badValue noIndex c)
      | none => (s.setSlot k (.building h []), ⟨.accepted, []⟩)

/-- PROFILE-PUT (R7) on slot number `n` with an index and a segment record. -/
def putSegment (n i : Nat) (g : RawSegment) (s : State) : State × Answer :=
  match slotIndex n with
  | none => (s, Answer.badValue noIndex 1)
  | some k =>
    match s.slot k with
    | .building h es =>
      if h.count ≤ i then (s, Answer.badValue i 5)
      else
        match segmentFailure g with
        | some c => (s, Answer.badValue i c)
        | none =>
          let es' := putEntry i g.toSegment es
          (s.setSlot k (.building h es'), ⟨.accepted, be8 es'.length⟩)
    | _ => (s, ⟨.wrongState, []⟩)

/-- PROFILE-CLOSE (R7) on slot number `n`. -/
def closeSlot (n : Nat) (s : State) : State × Answer :=
  match slotIndex n with
  | none => (s, Answer.badValue noIndex 1)
  | some k =>
    match s.slot k with
    | .building h es =>
      match closeFailure s.common.ratedPower h es with
      | some (i, c) => (s, Answer.badValue i c)
      | none => (s.setSlot k (.ready h es 0), ⟨.accepted, []⟩)
    | _ => (s, ⟨.wrongState, []⟩)

/-- PROFILE-DROP (R9) on slot number `n`. -/
def dropSlot (n : Nat) (s : State) : State × Answer :=
  match slotIndex n with
  | none => (s, Answer.badValue noIndex 1)
  | some k =>
    match s.slot k with
    | .empty => (s, ⟨.already, []⟩)
    | .building _ _ => (s.setSlot k .empty, ⟨.accepted, []⟩)
    | .ready _ _ refs =>
      if 0 < refs then (s, ⟨.inUse, []⟩) else (s.setSlot k .empty, ⟨.accepted, []⟩)

/-- The header read of PROFILE-READ (R10, R188). -/
def headerBytes (x : Slot) : List Byte :=
  match x.header? with
  | none => be8 0 ++ be8 0 ++ be32 0 ++ be32 0 ++ be8 0 ++ be8 0 ++ be8 0
  | some h =>
    be8 x.code ++ be8 x.refs ++ be32 h.start ++ be32 h.stop ++ be8 h.count ++ be8 x.entries.length
      ++ be8 h.name.length ++ h.name

/-- PROFILE-READ (R10) of slot number `n` with a selector, 255 for the header. -/
def readSlot (n sel : Nat) (s : State) : Answer :=
  match slotIndex n with
  | none => Answer.badValue noIndex 1
  | some k =>
    if sel = 255 then ⟨.accepted, headerBytes (s.slot k)⟩
    else
      match (s.slot k).header? with
      | none => ⟨.notFound, []⟩
      | some h =>
        if h.count ≤ sel then Answer.badValue sel 5
        else
          match entryAt (s.slot k).entries sel with
          | none => ⟨.notFound, []⟩
          | some g => ⟨.accepted, be8 sel ++ g.bytes⟩

/-- Some READY or BUILDING slot holds a segment whose power demand is above a value (R86). -/
def State.demandAbove (s : State) (rated : Nat) : Bool :=
  s.slots.toList.any fun x => x.entries.any fun e => rated < e.2.power

/-! ### Reading a profile at a position (section 1.4) -/

/-- The segment that contains a position: segment 0 below its start, else the last whose start is at or
below the position (R5). -/
def segIndexAt (segs : List Segment) (x : Nat) : Nat :=
  ((segs.drop 1).takeWhile fun g => g.start ≤ x).length

def segAt (segs : List Segment) (x : Nat) : Segment := segGet segs (segIndexAt segs x)

/-- The demand inside a ramp: from `p` to `d` over `r` at distance `x`, the quotient truncated toward
zero (R14). -/
def rampValue (p d r x : Nat) : Nat := ((p : Int) + (((d : Int) - p) * x).tdiv r).toNat

/-- The power demand read at high-water position `h` with lead `lead`, outside a dwell (R13, R14). -/
def powerAt (segs : List Segment) (lead h : Nat) : Nat :=
  let j := segIndexAt segs (h + lead)
  let g := segGet segs j
  match g.ramp with
  | none => g.power
  | some r =>
    if 0 < r ∧ h + lead < g.start + r then
      rampValue (segGet segs (j - 1)).power g.power r (h + lead - g.start)
    else g.power

/-- The travel speed read at `h` (R16). -/
def speedAt (segs : List Segment) (h : Nat) : Nat := (segAt segs h).speed

/-- The rotation speed read at `h` (R16). -/
def rotationAt (segs : List Segment) (h : Nat) : Nat := (segAt segs h).rotation

/-- The indices, ascending, of the dwell segments whose start satisfies `hit` (R15). -/
def dwellSegments (segs : List Segment) (hit : Nat → Bool) : List Nat :=
  segs.zipIdx.filterMap fun x => if x.1.dwell.isSome && hit x.1.start then some x.2 else none

/-- The profile that station `u` reads: that of its current job's slot (R17). -/
def State.profileOf (s : State) (u : Station) : Profile :=
  match (s.st u).current with
  | none => ⟨0, 0, []⟩
  | some c => (s.slot c.job.slot).profile

/-- The travel fit (R27, and step 7 of R152). -/
def travelFits (x : StationSettings) (start stop : Nat) : Bool :=
  stop + x.offset ≤ x.travelMax && x.travelMin ≤ start && (x.offset + x.pitch - 1) / x.pitch + 1 ≤ 96

end Sys2Proof.Machine
end

