-- ==== Sys2Proof/Machine/Slices.lean ====
section
/-! DEFINITION. Slices of a profile and the tallies (chapter 3): geometry, a slice record at its opening,
stamping and judging it at its append, energy credit, and tallying it into counts and defect zones. -/

namespace Sys2Proof.Machine

/-! ### Geometry (R46) -/

/-- Lower boundary of slice `k`. -/
def sliceLower (p : Profile) (pitch k : Nat) : Nat := p.start + k * pitch

/-- Upper boundary of slice `k`. -/
def sliceUpper (p : Profile) (pitch k : Nat) : Nat := min (p.start + (k + 1) * pitch) p.stop

/-- Length of slice `k`. -/
def sliceLength (p : Profile) (pitch k : Nat) : Nat := sliceUpper p pitch k - sliceLower p pitch k

/-- Midpoint of slice `k`. -/
def sliceMid (p : Profile) (pitch k : Nat) : Nat := sliceLower p pitch k + sliceLength p pitch k / 2

/-- The number of slices of the profile range. -/
def sliceCount (p : Profile) (pitch : Nat) : Nat := (p.stop - p.start + pitch - 1) / pitch

/-! ### A slice record -/

/-- The record of slice `k` at its opening (R50). -/
def newSlice (set : StationSettings) (p : Profile) (k : Nat) : SliceRec :=
  let g := segAt p.segs (sliceLower p set.pitch k)
  { index := k
    segment := segIndexAt p.segs (sliceLower p set.pitch k)
    energy := 0
    peak := 0
    quench := g.quench
    maxDelay := if g.quench then some (g.delay.getD set.quenchDelay) else none
    window := g.window
    heatEnd := none
    deadline := none
    timer := none
    flags := {} }

/-- A slice with one flag set (R58). -/
def SliceRec.flag (f : SliceFlag) (sl : SliceRec) : SliceRec := { sl with flags := sl.flags.add f }

/-- The specific energy in J/mm over the slice length (R52). -/
def specificEnergy (energy length : Nat) : Nat := energy * 1000 / length

/-- The energy judgement of a HARDEN slice with a window (R52). -/
def SliceRec.judgeEnergy (length : Nat) (sl : SliceRec) : SliceRec :=
  match sl.window with
  | none => sl
  | some (lo, hi) =>
    let e := specificEnergy sl.energy length
    let sl := if e < lo then sl.flag .energyLow else sl
    if hi < e then sl.flag .energyHigh else sl

/-- Heat-end time, deadline and deadline timer at the append (R52, steps 1 and 3). -/
def SliceRec.stamp (now : Time) (sl : SliceRec) : SliceRec :=
  { sl with
    heatEnd := some now
    deadline := sl.maxDelay.map fun d => now + BitVec.ofNat 32 d
    timer := sl.maxDelay }

/-- One reading of `power` credited to the open slice, 0.1 J for each 0.1 kW, the part below one joule
carried forward (R51, R81). -/
def Trail.credit (power : Nat) (t : Trail) : Trail :=
  match t.phase with
  | .heating h sl =>
    { t with
      phase := .heating h
        { sl with
          energy := addEnergy sl.energy ((t.remainder + power) / 10), peak := max sl.peak power }
      remainder := (t.remainder + power) % 10 }
  | _ => t

/-- A POWER-BAND report (R57). -/
def Trail.bandReport (t : Trail) : Trail :=
  match t.phase with
  | .heating h sl => { t with phase := .heating h (sl.flag .powerBand) }
  | _ => t

/-- The expiry of the deadline of slice `k` in the list (R56). -/
def Trail.late (k : Nat) (t : Trail) : Trail :=
  { t with
    list := t.list.map fun sl =>
      if sl.index = k then { sl.flag .late with timer := none } else sl }

/-! ### Tallying (R60, R61) -/

/-- The last zone of the list grows by a slice (R61). -/
def extendLastZone (f : Flags) : List Zone → List Zone
  | [] => []
  | [z] => [{ z with count := z.count + 1, flags := z.flags.union f }]
  | z :: rest => z :: extendLastZone f rest

/-- The defect zones after a slice of index `k` with flags `f` (R61). -/
def Trail.tallyZone (k : Nat) (f : Flags) (t : Trail) : Trail :=
  let ta := t.tallies
  if f.any then
    match t.run with
    | .listed => { t with tallies := { ta with zones := extendLastZone f ta.zones } }
    | .beyond => t
    | .none =>
      if ta.zones.length < 8 then
        { t with tallies := { ta with zones := ta.zones ++ [⟨k, 1, f⟩] }, run := .listed }
      else { t with tallies := { ta with beyond := min 255 (ta.beyond + 1) }, run := .beyond }
  else { t with run := .none }

/-- The cycle tallies after a slice, with the quench delay taken at its arrival (R60). -/
def Tallies.addSlice (delay : Option Nat) (sl : SliceRec) (ta : Tallies) : Tallies :=
  { ta with
    heated := ta.heated + 1
    energy := addEnergy ta.energy sl.energy
    worstDelay := max ta.worstDelay (delay.getD 0)
    counts := ta.counts.bump sl.flags
    flagged := if sl.flags.any then ta.flagged + 1 else ta.flagged
    repeatUnion := ta.repeatUnion.union sl.flags }

/-- Tallies one slice (R60). -/
def Trail.tally (delay : Option Nat) (sl : SliceRec) (t : Trail) : Trail :=
  Trail.tallyZone sl.index sl.flags { t with tallies := t.tallies.addSlice delay sl }

/-- Tallies every slice of the list with FLOODED, in ascending index, and goes IDLE (R64, R65). -/
def Trail.tallyFlooded (t : Trail) : Trail :=
  { t.list.foldl (fun t sl => t.tally none (sl.flag .flooded)) t with phase := .idle, list := [] }

/-- The high-water position, in OPEN and DRAINING (R48, R49). -/
def Trail.high? (t : Trail) : Option Nat :=
  match t.phase with
  | .idle => none
  | .heating h _ => some h
  | .draining h => some h

/-- The same trail with its high-water position at `h` (R49). -/
def Trail.setHigh (h : Nat) (t : Trail) : Trail :=
  match t.phase with
  | .idle => t
  | .heating _ sl => { t with phase := .heating h sl }
  | .draining _ => { t with phase := .draining h }

end Sys2Proof.Machine
end

