-- ==== Sys2Proof/Machine/Quench.lean ====
section
/-! DEFINITION. The quench unit and the tank monitor (chapter 6): ring valve, flow proving, proof, flood,
coil flow and the tank states. -/

namespace Sys2Proof.Machine

/-! ### Ring valve -/

/-- Every closing of the ring valve: CLOSED, and the ring timers stop (R109, R110, R114). Proof seen stays as it is
until the next proof or a reset: the model's choice (log 37). -/
def Quench.closeRing (q : Quench) : Quench :=
  { q with valve := .closed, proofTimer := none, riseTimer := none, afterTimer := none }

/-- The midpoint of the oldest quench-required slice in the list (R67). -/
def StationState.oldestQuench (p : Profile) (x : StationState) : Option Nat :=
  (x.trail.list.find? fun sl => sl.quench).map fun sl => sliceMid p x.settings.pitch sl.index

/-- The condition of R108: ring high-water plus pre-open distance at or beyond the oldest
quench-required midpoint. -/
def StationState.opensRing (p : Profile) (x : StationState) : Bool :=
  match x.trail.high?, x.oldestQuench p with
  | some h, some m => m + x.settings.offset ≤ h + x.settings.preOpen
  | _, _ => false

/-- The opening judgement of R108. -/
def StationState.judgeOpen (p : Profile) (x : StationState) : StationState :=
  if x.quench.valve = .closed ∧ x.opensRing p = true then
    x.modQuench fun q =>
      { q with valve := .quench, riseTimer := some x.settings.flowRise, flowRaised := false }
  else x

/-- The append of a quench-required slice in AFTER (R109). -/
def Quench.appended (q : Quench) : Quench :=
  if q.valve = .after then { q with valve := .quench, afterTimer := none } else q

/-- The report of a departure that leaves no quench-required slice (R109). -/
def Quench.departed (afterQuench : Nat) (q : Quench) : Quench :=
  if q.valve = .quench then
    if afterQuench = 0 then q.closeRing else { q with valve := .after, afterTimer := some afterQuench }
  else q

/-! ### Flow -/

/-- A flow reading below the station's flow minimum is low (R107). -/
def StationState.lowFlow (x : StationState) : Bool := x.quench.flow < x.settings.flowMinimum

/-- The QUENCH-FLOW judgement (R112). It is made whatever the flood valve, a flood begun at an earlier warm reset
that still runs under a new cycle among them: the model's choice (log 36). -/
def StationState.judgeFlow (x : StationState) : StationState :=
  if x.quench.valve = .quench ∧ x.quench.riseTimer = none ∧ x.lowFlow = true
      ∧ x.quench.flowRaised = false then
    (x.modQuench fun q => { q with flowRaised := true }).hand .quenchFlow
  else x

/-- A flow reading (R107, R112, R113), judged in PROOF and in QUENCH whatever the flood valve: the model's choice
(log 36). -/
def StationState.readFlow (flow : Nat) (x : StationState) : StationState :=
  let x := x.modQuench fun q => { q with flow := flow }
  let x :=
    if x.quench.valve = .proof then
      x.modQuench fun q =>
        { q with proofPeak := max q.proofPeak flow, proofSeen := q.proofSeen || !x.lowFlow }
    else x
  x.judgeFlow

/-! ### Proof (R113) -/

def StationState.startProof (x : StationState) : StationState :=
  x.modQuench fun q =>
    { q with
      valve := .proof, proofTimer := some x.settings.proofTime, proofSeen := false, proofPeak := 0 }

/-- The end of a proof at its timer, with its result; proof seen stays shown: the model's choice (log 37). -/
def Quench.endProof (q : Quench) : Quench :=
  { q.closeRing with proofResult := if q.proofSeen then .passed else .failed }

/-! ### Flood (R115) -/

def StationState.startFlood (o : FloodOrigin) (x : StationState) : StationState :=
  x.modQuench fun q => { q.closeRing with flood := some ⟨x.settings.floodTime, o⟩ }

/-! ### Tank monitor (R118) -/

/-- The next tank state; the thresholds `w` and `c` and the reading are in 0.1 °C. -/
def tankNext (w c : Int) (t : TankState) (r : Int) : TankState :=
  if r < -100 ∨ 1200 < r then .critical
  else
    match t with
    | .normal => if c ≤ r then .critical else if w ≤ r then .warm else .normal
    | .warm => if c ≤ r then .critical else if w - 10 ≤ r then .warm else .normal
    | .critical => if c - 10 ≤ r then .critical else if w - 10 ≤ r then .warm else .normal

/-- WARM or CRITICAL (R62). -/
def TankState.hot (t : TankState) : Bool := t != .normal

/-- Sets the tank-warm flag of the tallies (R62). -/
def StationState.markTankWarm (x : StationState) : StationState :=
  x.modTrail fun t => { t with tallies := { t.tallies with tankWarm := true } }

/-- The tank-warm flag at an entry to HEAT or RUNOUT (R62). -/
def StationState.tankAtEntry (tank : TankState) (x : StationState) : StationState :=
  if tank.hot then x.markTankWarm else x

/-- A change into WARM or CRITICAL handed to a station's trail (R62, R119). -/
def StationState.tankChanged (x : StationState) : StationState :=
  if x.mode = .heat ∨ x.mode = .runout then x.markTankWarm else x

/-- One tank reading (R118, R119). -/
def State.readTank (r : Int) (s : State) : State :=
  let next := tankNext s.common.warnThreshold s.common.criticalThreshold s.tank.state r
  let changed := next != s.tank.state && next.hot
  let s := { s with tank := ⟨next, r⟩ }
  if changed then (s.modSt .a StationState.tankChanged).modSt .b StationState.tankChanged else s

end Sys2Proof.Machine
end

