-- ==== Sys2Proof/Machine/Trail.lean ====
section
/-! DEFINITION. The heat trail as its station moves it (chapter 3): opening, appends, arrivals, the abort,
and the tallies at a flood and at a warm reset. -/

namespace Sys2Proof.Machine

/-- The trail at HEAT entry (R29, R49, R66). -/
def StationState.openTrail (p : Profile) (x : StationState) : StationState :=
  x.modTrail fun t =>
    { t with
      phase := .heating p.start (newSlice x.settings p 0)
      list := []
      remainder := 0
      run := .none
      tallies := { t.tallies with repeatUnion := {} } }

/-- The trail goes IDLE, which also clears the markers of R98 and R99. -/
def StationState.idleTrail (x : StationState) : StationState :=
  (x.modTrail fun t => { t with phase := .idle, list := [] }).modMotion fun m =>
    { m with reverseRaised := false, limitRaised := false }

/-- A stamped slice joins the tail of the list, and the quench unit learns of it (R52, R108, R109). -/
def StationState.placeSlice (p : Profile) (sl : SliceRec) (x : StationState) : StationState :=
  let heldNone := !(x.trail.list.any fun s => s.quench)
  let x := x.modTrail fun t => { t with list := t.list ++ [sl] }
  if sl.quench then
    let x := x.modQuench Quench.appended
    if heldNone then x.judgeOpen p else x
  else x

/-- The slice as an append leaves it, judged against its window for a HARDEN job (R52, R53). -/
def SliceRec.close (harden : Bool) (length : Nat) (now : Time) (sl : SliceRec) : SliceRec :=
  (if harden then sl.judgeEnergy length else sl).stamp now

/-- The append of R52: the open slice joins the list and the next one opens. -/
def StationState.appendOpen (harden : Bool) (now : Time) (p : Profile) (x : StationState) :
    StationState :=
  match x.trail.phase with
  | .heating h sl =>
    let x := x.placeSlice p (sl.close harden (sliceLength p x.settings.pitch sl.index) now)
    x.modTrail fun t => { t with phase := .heating h (newSlice x.settings p (sl.index + 1)) }
  | _ => x

/-- The last append of a cycle that ends normally (R53). -/
def StationState.appendLast (harden : Bool) (now : Time) (p : Profile) (x : StationState) :
    StationState :=
  match x.trail.phase with
  | .heating h sl =>
    let x := x.placeSlice p (sl.close harden (sliceLength p x.settings.pitch sl.index) now)
    x.modTrail fun t => { t with phase := .draining h }
  | _ => x

/-- The abort (R54). -/
def StationState.abortTrail (now : Time) (p : Profile) (x : StationState) : StationState :=
  match x.trail.phase with
  | .heating h sl =>
    let x := x.modTrail fun t => { t with list := t.list.map (SliceRec.flag .aborted) }
    let x := x.placeSlice p ((sl.stamp now).flag .aborted)
    x.modTrail fun t => { t with phase := .draining h }
  | _ => x

/-- The report of a quench-required slice's departure, with the opening judgement it calls for (R67,
R108, R109). -/
def StationState.departQuench (p : Profile) (x : StationState) : StationState :=
  if x.trail.list.any fun s => s.quench then x.judgeOpen p
  else x.modQuench (Quench.departed x.settings.afterQuench)

/-- The arrival of the oldest slice (R55). A quench-required one that finds the ring valve CLOSED meets its opening,
which the ring high-water calls for by then: whichever of the two is taken first, the departure then finds a valve that
has just begun to open (R108). -/
def StationState.arriveHead (now : Time) (p : Profile) (x : StationState) : StationState :=
  match x.trail.list with
  | [] => x
  | sl :: rest =>
    if sl.quench then
      let delay := now.since (sl.heatEnd.getD now)
      let sl := if x.lowFlow then sl.flag .lowFlow else sl
      ((x.judgeOpen p).modTrail fun t => Trail.tally (some delay) sl { t with list := rest }).departQuench p
    else x.modTrail fun t => Trail.tally none sl { t with list := rest }

/-- The ring high-water is at or beyond the midpoint of the oldest slice (R55). -/
def StationState.headReached (p : Profile) (x : StationState) : Bool :=
  match x.trail.high?, x.trail.list with
  | some h, sl :: _ => sliceMid p x.settings.pitch sl.index + x.settings.offset ≤ h
  | _, _ => false

/-- Arrivals in ascending index, at most `n` of them (R55). -/
def StationState.arrivals (now : Time) (p : Profile) : Nat → StationState → StationState
  | 0, x => x
  | n + 1, x => if x.headReached p then arrivals now p n (x.arriveHead now p) else x

/-- Every arrival that the ring high-water calls for. -/
def StationState.takeArrivals (now : Time) (p : Profile) (x : StationState) : StationState :=
  x.arrivals now p x.trail.list.length

/-- The high-water position is at or beyond the upper boundary of the open slice, and that boundary lies
below the profile end (R52). -/
def StationState.openReached (p : Profile) (x : StationState) : Bool :=
  match x.trail.phase with
  | .heating h sl =>
    let top := sliceUpper p x.settings.pitch sl.index
    top ≤ h && top < p.stop
  | _ => false

/-- Appends and arrivals together in ascending slice index, at most `n` appends (R52). -/
def StationState.sweep (harden : Bool) (now : Time) (p : Profile) : Nat → StationState → StationState
  | 0, x => x.takeArrivals now p
  | n + 1, x =>
    let x := x.takeArrivals now p
    if x.openReached p then sweep harden now p n (x.appendOpen harden now p) else x

/-- The appends and arrivals of an advance that has raised the high-water position to `h`; where `openFirst`
the ring valve is judged for the advance before them, else after them, on what they leave (R108). -/
def StationState.advanceTrail (openFirst harden : Bool) (now : Time) (p : Profile) (h : Nat)
    (x : StationState) : StationState :=
  let x := x.modTrail (Trail.setHigh h)
  let x := if openFirst then x.judgeOpen p else x
  let x := x.sweep harden now p (sliceCount p x.settings.pitch)
  if openFirst then x else x.judgeOpen p

/-- The flood tally (R64); the ring valve is closed by then, so departures change nothing there. -/
def StationState.floodTally (x : StationState) : StationState :=
  (x.modTrail Trail.tallyFlooded).idleTrail

/-- The trail's part of a warm reset (R65, R69), and whether a tallied slice required quench. -/
def StationState.warmTally (now : Time) (x : StationState) : StationState × Bool :=
  let t := x.trail
  let t :=
    match t.phase with
    | .heating h sl => { t with list := t.list ++ [sl.stamp now], phase := .draining h }
    | _ => t
  ((x.modTrail fun _ => { t.tallyFlooded with remainder := 0 }).idleTrail,
    t.list.any fun sl => sl.quench)

end Sys2Proof.Machine
end

