-- ==== Sys2Proof/Machine/Motion.lean ====
section
/-! DEFINITION. The motion unit (chapter 5): travel modes, position and measured speed, the speed demand,
moves and their arrival, travel faults and the spindle. -/

namespace Sys2Proof.Machine

/-! ### Modes (R90) -/

/-- AXIS is judged in the mode and handed to the sequencer (R100). -/
def TravelMode.handsAxis : TravelMode → Bool
  | .hold | .scan _ | .moveTo _ _ => true
  | .stop | .seekHome _ _ => false

/-- A mode set replaces the mode in force: a move or search in progress is abandoned and its timers stop;
HOLD entry and leaving HEAT also stop the stall timer (R90, R97). -/
def Motion.setMode (m : TravelMode) (x : Motion) : Motion :=
  { x with mode := m, arrival := .awaited, searchTimer := none, stallTimer := none }

/-- The sequencer sets a travel mode; AXIS is raised where AXIS-FAULT is active (R90, R100). -/
def StationState.setTravel (m : TravelMode) (x : StationState) : StationState :=
  let y := x.modMotion (Motion.setMode m)
  if m.handsAxis && x.lines.axisFault then y.hand .axis else y

/-- A new scan speed without a mode set (R30, R97). -/
def Motion.setScanSpeed (speed : Nat) (x : Motion) : Motion :=
  match x.mode with
  | .scan _ => { x with mode := .scan speed }
  | _ => x

/-! ### Position and speed (R91) -/

/-- The position, referred to position 0 when it is valid. -/
def Motion.position (m : Motion) : Int := if m.valid then m.raw - m.zero else m.raw

/-- The carriage is at rest. -/
def Motion.atRest (m : Motion) : Bool := m.speed == 0

/-- One encoder reading: the latest position and the change over the last 20 ms, halved toward zero. -/
def Motion.readEncoder (raw : Int) (m : Motion) : Motion :=
  { m with
    raw := raw
    history := (raw :: m.history).take Config.speedReadings
    speed := match m.history[Config.speedReadings - 1]? with
      | some old => (raw - old).tdiv 2
      | none => 0 }

/-- The target of the move in force, the homing SETTLE among them, with its speed (R92, R94). -/
def Motion.moveTarget (m : Motion) : Option (Int × Nat) :=
  match m.mode with
  | .moveTo target speed => some (target, speed)
  | .seekHome .settle speed => some (0, speed)
  | _ => none

/-- The position lies within ±0.2 mm of the target (R94). -/
def Motion.inWindow (m : Motion) (target : Int) : Bool :=
  (m.position - target).natAbs ≤ Config.arrivalWindow

/-- A reading that is the arrival of the move in force is found (R94). -/
def Motion.noticeArrival (m : Motion) : Motion :=
  match m.moveTarget with
  | some (target, _) =>
    if m.arrival = .awaited ∧ m.inWindow target = true ∧ m.atRest = true then
      { m with arrival := .found }
    else m
  | none => m

/-- The speed demand of a move: zero from the arrival on, reported or not, until another mode is set (R94). -/
def Motion.moveDemand (target : Int) (speed : Nat) (m : Motion) : Int :=
  if m.arrival ≠ .awaited ∨ m.inWindow target = true then 0
  else
    let d := (m.position - target).natAbs
    let mag := if d < Config.slowZone then max Config.slowestMove (speed * d / Config.slowZone) else speed
    if m.position < target then mag else -mag

/-- The travel speed demand output, signed (R90, R92, R94). -/
def Motion.speedDemand (m : Motion) : Int :=
  match m.mode with
  | .stop | .hold => 0
  | .scan speed => speed
  | .moveTo target speed => m.moveDemand target speed
  | .seekHome .backOff speed => speed
  | .seekHome .seek speed => -speed
  | .seekHome .settle speed => m.moveDemand 0 speed

/-! ### Homing (R92) -/

/-- HOMING entry. -/
def StationState.startSearch (x : StationState) : StationState :=
  let phase : SeekPhase := if x.lines.homeSw then .backOff else .seek
  (x.setTravel (.seekHome phase x.settings.homeSpeed)).modMotion fun m =>
    { m with valid := false, searchTimer := some Config.searchTime }

/-- HOME-SW changing during a search: the end of BACK-OFF, and the zeroing that ends SEEK. -/
def Motion.homeSwitch (active : Bool) (m : Motion) : Motion :=
  match m.mode, active with
  | .seekHome .backOff speed, false => { m with mode := .seekHome .seek speed }
  | .seekHome .seek speed, true =>
    { m with mode := .seekHome .settle speed, zero := m.raw, valid := true, arrival := .awaited }
  | _, _ => m

/-! ### Travel faults -/

/-- The stall judgement at a reading (R97). -/
def StationState.judgeStall (x : StationState) : StationState :=
  match x.mode, x.motion.mode with
  | .heat, .scan speed =>
    x.modMotion fun m =>
      if 5 * m.speed < speed then
        { m with stallTimer := some (m.stallTimer.getD x.settings.stallTime) }
      else { m with stallTimer := none }
  | _, _ => x

/-- The REVERSE judgement at a reading against high-water position `h` (R98). -/
def StationState.judgeReverse (h : Nat) (x : StationState) : StationState :=
  if x.motion.position + Config.reverseDepth < h then
    if x.motion.reverseRaised then x
    else (x.modMotion fun m => { m with reverseRaised := true }).hand .reverse
  else x.modMotion fun m => { m with reverseRaised := false }

/-- The LIMIT judgement at a reading (R99). -/
def StationState.judgeLimit (x : StationState) : StationState :=
  if x.motion.position < x.settings.travelMin ∨ (x.settings.travelMax : Int) < x.motion.position then
    if x.motion.limitRaised then x
    else (x.modMotion fun m => { m with limitRaised := true }).hand .limit
  else x.modMotion fun m => { m with limitRaised := false }

/-- Every judgement the motion unit makes at a reading; REVERSE and LIMIT while the trail is OPEN or
DRAINING. -/
def StationState.judgeTravel (x : StationState) : StationState :=
  let x := x.judgeStall
  match x.trail.high? with
  | some h => (x.judgeReverse h).judgeLimit
  | none => x

/-! ### Spindle -/

/-- The sequencer sets the spindle demand; a running spindle timer starts again at a change (R103). -/
def Motion.setSpindle (d : Nat) (m : Motion) : Motion :=
  if m.spindleDemand = d then m
  else { m with spindleDemand := d, spindleTimer := m.spindleTimer.map fun _ => Config.spindleTime }

/-- The spindle timer stops as the station leaves HEAT, RUNOUT and QUENCH-OUT (R103). -/
def Motion.stopSpindleTimer (m : Motion) : Motion := { m with spindleTimer := none }

/-- The latest rpm reading is within tolerance of the demand (R101). -/
def StationState.spindleInTolerance (x : StationState) : Bool :=
  let d := x.motion.spindleDemand
  let half := max 1 (d * x.settings.spindleTolerance / 100)
  x.motion.rpm ≤ d + half && d ≤ x.motion.rpm + half

/-- The states in which SPINDLE is judged (R103). -/
def Mode.spindleJudged : Mode → Bool
  | .heat | .runout | .quenchOut => true
  | _ => false

/-- One rpm reading (R101, R102, R103). Outside the three judged states a reading within tolerance leaves the spindle
raised marker as it is: the model's choice (log 41). -/
def StationState.readRpm (rpm : Nat) (x : StationState) : StationState :=
  let x := x.modMotion fun m => { m with rpm := rpm }
  let ok := x.spindleInTolerance
  let x := if ok && x.motion.watch == .on then x.modMotion fun m => { m with watch := .found } else x
  if x.mode.spindleJudged then
    x.modMotion fun m =>
      if ok then { m with spindleTimer := none, spindleRaised := false }
      else if m.spindleRaised then m
      else { m with spindleTimer := some (m.spindleTimer.getD Config.spindleTime) }
  else x

end Sys2Proof.Machine
end

