-- ==== Sys2Proof/Machine/Handshake.lean ====
section
/-! DEFINITION. The release handshake (section 8.5) and the station states without a current job that it
leads to: IDLE, WAIT-PART and RELEASE. -/

namespace Sys2Proof.Machine

/-- IDLE or WAIT-PART according to the queue; the finished job is cleared there (R24, R38). -/
def StationState.enterIdleOrWait (x : StationState) : StationState :=
  { ((x.setTravel .stop).modMotion (Motion.setSpindle 0)) with
    mode := if x.queue.isEmpty then .idle else .waitPart, finished := none }

/-- The milliseconds of a range code (R184, ids 53 and 56). -/
def rangeMs (code : Nat) : Nat := 10 ^ code

/-- The DONE delay (R147). -/
def StationSettings.doneDelay (t : StationSettings) : Nat := t.doneFactor * rangeMs t.doneRange

/-- The qualification time; `none` is no qualification (R140). -/
def StationSettings.qualTime (t : StationSettings) : Option Nat :=
  if t.qualFactor ≤ 1 then none else some ((t.qualFactor - 1) * rangeMs t.qualRange)

/-- The handshake state and its timer. -/
def StationState.setHandshake (h : Handshake) (t : Timer) (x : StationState) : StationState :=
  x.modLines fun l => { l with handshake := h, handshakeTimer := t }

/-- The handshake completes and the station leaves RELEASE (R38, R145). -/
def StationState.completeHandshake (x : StationState) : StationState :=
  let y := { (x.setHandshake .idle none) with releaseOwed := none }
  if x.mode = .release then y.enterIdleOrWait else y

/-- The assertion of DONE (R144), which sets the part-consumed flag where PRESENT is active (R43). -/
def StationState.assertDone (x : StationState) : StationState :=
  let delay := x.settings.doneDelay
  let marked := { x with partConsumed := x.partConsumed || x.lines.present.qualified }
  if x.settings.handshakeType = .pulse then marked.setHandshake .pulsing (some delay)
  else if x.lines.present.qualified then marked.setHandshake .asserted none
  else if delay = 0 then x.completeHandshake
  else x.setHandshake .pulsing (some delay)

/-- The start step of the handshake (R143). -/
def StationState.startStep (x : StationState) : StationState :=
  if x.settings.handshakeType = .delayed ∧ 0 < x.settings.doneDelay then
    x.setHandshake .delaying (some x.settings.doneDelay)
  else x.assertDone

/-- The handshake at entry to RELEASE (R143). -/
def StationState.beginHandshake (x : StationState) : StationState :=
  if x.lines.hold.qualified then x.setHandshake .heldBack none else x.startStep

/-- Entry to RELEASE (R38, R143). -/
def StationState.enterRelease (x : StationState) : StationState :=
  { ((x.setTravel .stop).modMotion (Motion.setSpindle 0)) with mode := .release }.beginHandshake

/-- RELEASE where the release-owed marker is set, else IDLE or WAIT-PART (R23, R36). -/
def StationState.enterReleaseOrIdle (x : StationState) : StationState :=
  if x.releaseOwed.isSome then x.enterRelease else x.enterIdleOrWait

/-- The qualified HOLD changing (R143). -/
def StationState.holdChanged (active : Bool) (x : StationState) : StationState :=
  match x.lines.handshake, active with
  | .delaying, true => x.setHandshake .heldBack none
  | .heldBack, false => x.startStep
  | _, _ => x

/-- The qualified PRESENT becoming inactive (R43, R145). -/
def StationState.presentGone (x : StationState) : StationState :=
  let x := { x with partConsumed := false }
  if x.lines.handshake = .asserted then x.completeHandshake else x

/-- The expiry of the handshake timer (R143, R145). -/
def StationState.handshakeDue (x : StationState) : StationState :=
  match x.lines.handshake with
  | .delaying => x.assertDone
  | .pulsing => x.completeHandshake
  | _ => x

end Sys2Proof.Machine
end

