-- ==== Sys2Proof/Machine/Sequencer.lean ====
section
/-! DEFINITION. The station sequencer's shared operations (chapters 2 and 10): entries to RETURN, FLOOD and
HALTED, closing a repeat, the outcome and the writing of a record, and recording a fault. -/

namespace Sys2Proof.Machine

/-! ### Entries to states -/

/-- Entry to RETURN (R36, R48): the trail is empty by then and goes IDLE. -/
def StationState.enterReturn (x : StationState) : StationState :=
  let x := x.idleTrail
  let x := x.modMotion fun m => (m.setSpindle 0).stopSpindleTimer
  { x.setTravel (.moveTo 0 x.settings.returnSpeed) with mode := .returning }

/-- Entry to HALTED (R39, R173). -/
def StationState.enterHalted (cause : HaltCause) (x : StationState) : StationState :=
  { ((x.setTravel .stop).modMotion fun m => (m.setSpindle 0).stopSpindleTimer) with
    mode := .halted, haltCause := cause }

/-- Entry to FLOOD (R35, R64, R115). -/
def StationState.enterFlood (x : StationState) : StationState :=
  let x := (x.setTravel .stop).modMotion Motion.stopSpindleTimer
  { (x.startFlood .floodEntry).floodTally with mode := .flood }

/-- The trail empty in DRAINING: STOP, and RETURN where the ring valve is already closed (R34). -/
def StationState.checkDrained (x : StationState) : StationState :=
  match x.trail.phase, x.trail.list with
  | .draining _, [] =>
    if x.quench.valve = .closed then (x.setTravel .stop).enterReturn else x.setTravel .stop
  | _, _ => x

/-! ### Soak fields (R42) -/

/-- A job that is a HARDEN job. -/
def Context.harden (c : Context) : Bool := c.job.kind == .harden

/-- The context after a repeat that reached HEAT is closed, given the repeat flag union (R42, R66). -/
def Context.closeRepeat (union : Flags) (c : Context) : Context :=
  if c.job.kind = .dry ∧ c.heated = true ∧ (c.firstFault.isSome ∨ union.any = true) then
    { c with
      errorCount := min 255 (c.errorCount + 1)
      lastError := match c.firstFault with
        | some f => .fault f
        | none => match union.first with
          | some f => .flag f
          | none => c.lastError }
  else c

/-- The repeat in progress is final (R155). -/
def Context.final (c : Context) : Bool :=
  c.repeatsDone == c.job.repeats || c.pendingOutcome != .none || c.firstFault.isSome

/-- The RETURN arrival of the job begins another repeat (R36). -/
def Context.repeatsAgain (c : Context) : Bool :=
  c.job.kind == .dry && c.repeatsDone < c.job.repeats && !c.endAfterRepeat && c.firstFault.isNone
    && c.pendingOutcome == .none

/-! ### The record (R37, R160, R161, R172) -/

/-- The outcome where no warm reset and no failed recheck gives it: cases 3 to 7 of R172. -/
def Context.outcome (flagged : Nat) (c : Context) : RecordOutcome :=
  if c.firstFault.isSome then .faulted
  else
    match c.pendingOutcome with
    | .notStarted => .notStarted
    | .cancelled => .cancelled
    | .stopped => .stopped
    | .faulted => .faulted
    | .none =>
      match c.job.kind with
      | .harden => if flagged = 0 then .good else .reject
      | .dry =>
        if c.endAfterRepeat && c.cancelMet then .cancelled
        else if c.endAfterRepeat && c.stopMet then .stopped
        else if flagged = 0 then .dryGood
        else .dryFlagged

/-- The record composed from the context, the walk and the tallies (R37, R160). -/
def composeRecord (u : Station) (o : RecordOutcome) (c : Context) (w : Walk) (t : Tallies) : Record where
  station := u
  job := c.job
  outcome := o
  walkReached := w.reached
  bypassed := w.bypassed
  firstFault := c.firstFault
  secondFault := c.secondFault
  startTime := c.startTime
  heatTime := c.heatTime
  heated := t.heated
  energy := t.energy
  worstDelay := t.worstDelay
  counts := t.counts
  zones := t.zones
  beyond := t.beyond
  tankWarm := t.tankWarm
  soak :=
    if c.job.kind = .dry ∧ 1 < c.job.repeats then
      some ⟨c.repeatsDone, c.errorCount, c.lastError⟩
    else none

/-- The station once its record is written: the job becomes the finished job, a HARDEN job sets the release-owed
marker, with REJECT unless the outcome was GOOD (R38), and the faults not yet taken lapse (R167). -/
def StationState.recordWritten (o : RecordOutcome) (c : Context) (x : StationState) : StationState :=
  { x.lapse with
    current := none
    finished := some c.job.tag
    releaseOwed := if c.harden then some (o != .good) else x.releaseOwed }

/-- Run control's judgement of STOPPING (R165). -/
def State.judgeRun (s : State) : State :=
  if s.run = .stopping ∧ s.anyCurrent = false then s.setRun .stopped s.stopMode else s

/-- The context as its record reads it: the repeat in progress is closed first (R42). -/
def StationState.closing (c : Context) (x : StationState) : Context :=
  c.closeRepeat x.trail.tallies.repeatUnion

/-- The outcome of the record; `forced` is that of cases 1 and 2 of R172. -/
def StationState.outcomeOf (forced : Option RecordOutcome) (c : Context) (x : StationState) :
    RecordOutcome := forced.getD ((x.closing c).outcome x.trail.tallies.flagged)

/-- The record of a job with context `c` (R37). -/
def StationState.recordOf (u : Station) (forced : Option RecordOutcome) (c : Context)
    (x : StationState) : Record :=
  composeRecord u (x.outcomeOf forced c) (x.closing c) x.walk x.trail.tallies

/-- Writing the record of station `u`'s current job (R37, R159). -/
def State.writeRecord (u : Station) (forced : Option RecordOutcome) (s : State) : State :=
  match (s.st u).current with
  | none => s
  | some c =>
    let x := s.st u
    (((s.setRecords (s.records ++ [x.recordOf u forced c]) (s.reservations - 1)).modSt u
      (StationState.recordWritten (x.outcomeOf forced c) (x.closing c))).dropRef c.job.slot).judgeRun

/-! ### Faults (R169) -/

/-- The context after a fault is recorded. -/
def Context.recordFault (f : FaultCode) (c : Context) : Context :=
  { c with
    firstFault := some (c.firstFault.getD f)
    secondFault := if c.firstFault.isNone then c.secondFault else some (c.secondFault.getD f)
    pendingOutcome := .faulted }

/-- The pending outcome of a walk failure or an abort; FAULTED stays (log 19). -/
def Context.fix (o : PendingOutcome) (c : Context) : Context :=
  if c.pendingOutcome = .faulted then c else { c with pendingOutcome := o }

/-- The abort cause, recorded only if none is recorded yet (R33). -/
def Context.abort (a : AbortCause) (c : Context) : Context :=
  if c.abortCause = .none then { c with abortCause := a } else c

/-- The handed faults without the one taken. -/
def StationState.unhand (f : FaultCode) (x : StationState) : StationState :=
  { x with handed := x.handed.erase f }

/-- A lapsed fault is taken, which drops it (R167). -/
def StationState.dropLapsed (f : FaultCode) (x : StationState) : StationState :=
  { x with lapsed := x.lapsed.erase f }

end Sys2Proof.Machine
end

