-- ==== Sys2Proof/Machine/Channel.lean ====
section
/-! DEFINITION. The power channel (chapter 4) by itself: the choice of a grant, demands, measured power and
its checks. What a grant and a release do to a walk stands in Machine/Walk.lean. -/

namespace Sys2Proof.Machine

/-- The station that holds the channel (R70). -/
def Channel.holder (c : Channel) : Option Station :=
  match c.state with
  | .held u _ => some u
  | _ => none

/-- The holder, once it has given notice of HEAT entry (R78). -/
def Channel.holderInHeat (c : Channel) : Option Station :=
  match c.state with
  | .held u true => some u
  | _ => none

/-- The station switched to or served (R70). -/
def Channel.target (c : Channel) : Option Station :=
  match c.state with
  | .switching u _ => some u
  | .held u _ => some u
  | _ => none

/-- The station that R73 chooses from the waiting set. -/
def Channel.choose (c : Channel) : Option Station :=
  match c.waiting with
  | [] => none
  | [x] => some x
  | x :: _ => match c.lastHolder with
    | some v => some v.other
    | none => some x

/-- HELD by `u`, not yet in HEAT (R74, R75): a new turn (R82). -/
def Channel.hold (u : Station) (c : Channel) : Channel :=
  { c with state := .held u false, lastHolder := some u, noPowerGiven := false }

/-- SWITCHING to `u`: the switch moves and the changeover timer starts (R74). -/
def Channel.switchTo (u : Station) (time : Nat) (c : Channel) : Channel :=
  { c with state := .switching u false, switchAt := u, changeover := some time }

/-- Away from HELD: demand zero, response and settle timers stopped (R71, R77, R79). -/
def Channel.leaveHeld (next : ChannelState) (c : Channel) : Channel :=
  { c with state := next, demand := 0, response := none, settle := none }

/-- A request that is not granted at once (R72). -/
def Channel.enqueue (u : Station) (c : Channel) : Channel :=
  match c.state with
  | .switching v true =>
    if v = u then { c with state := .switching u false } else { c with waiting := c.waiting ++ [u] }
  | _ => { c with waiting := c.waiting ++ [u] }

/-- The holder's notice of HEAT entry with its first demand (R71, R78, R84). -/
def Channel.noticeHeat (u : Station) (demand settle : Nat) (c : Channel) : Channel :=
  match c.state with
  | .held v _ =>
    if v = u then
      { c with state := .held u true, demand := demand, settle := Timer.startUnlessZero settle }
    else c
  | _ => c

/-- A demand issued by the holder in HEAT (R71, R84). -/
def Channel.issue (u : Station) (demand settle : Nat) (c : Channel) : Channel :=
  if c.holderInHeat = some u ∧ demand ≠ c.demand then
    { c with demand := demand, settle := Timer.startUnlessZero settle }
  else c

/-- The power demand output as it is driven: the proportion of the rated power, the inverter's full scale
(R71). Being a function of the demand and of the rated power in force, it is recomputed at every change of
either, so a new rated power leaves the demand it stands for as it was (R86; log 31). -/
def State.powerOutput (s : State) : Rat := (s.channel.demand : Rat) / (s.common.ratedPower : Rat)

/-- The NO-POWER judgement at a reading with the holder in HEAT (R82). -/
def Channel.judgeResponse (limit power : Nat) (c : Channel) : Channel :=
  if 0 < c.demand ∧ 10 * power < c.demand then
    { c with response := some (c.response.getD limit) }
  else { c with response := none }

/-- A reading outside the band of R84: its distance from the demand is above the greater of the band
percentage of the demand and 1% of the rated power. -/
def outOfBand (percent rated demand power : Nat) : Bool :=
  max (percent * demand) rated < 100 * ((power - demand) + (demand - power))

/-- One reading of measured power (R81, R82, R84). -/
def State.readPower (power : Nat) (s : State) : State :=
  let s := s.setChannel { s.channel with measured := power }
  match s.channel.holderInHeat with
  | none => s
  | some u =>
    let s := s.modSt u fun x => x.modTrail (Trail.credit power)
    let c := s.channel.judgeResponse s.common.responseLimit power
    let s := s.setChannel c
    if c.settle = none ∧ outOfBand s.common.powerBand s.common.ratedPower c.demand power = true then
      s.modSt u fun x => x.modTrail Trail.bandReport
    else s

end Sys2Proof.Machine
end

