-- ==== Sys2Proof/Machine/Walk.lean ====
section
/-! DEFINITION. The readiness walk (chapter 7) joined to the power channel: the checkpoints, the grant and
the release, HEAT entry, and the end of a walk. -/

namespace Sys2Proof.Machine

/-! ### The walk's own record -/

/-- Checkpoint `w` becomes current with its step timer (R124, R125). -/
def Walk.enter (w : Checkpoint) (t : Timer) (k : Walk) : Walk := { k with current := some w, timer := t }

/-- Checkpoint `w` counts as completed (R124, R134). -/
def Walk.complete (w : Checkpoint) (k : Walk) : Walk := { k with reached := w.number, timer := none }

/-- The walk passes: W8 completed (R124). -/
def Walk.pass (k : Walk) : Walk :=
  { k with reached := 8, timer := none, current := none, result := .passed }

/-- The walk ends without passing at `w` (R135). -/
def Walk.finish (w : Checkpoint) (r : WalkResult) (cause : FailureCause) (k : Walk) : Walk :=
  { k with current := none, timer := none, result := r, endedAt := some w, cause := cause }

/-- The walk starts at checkpoint number `n` (R124). -/
def Walk.start (n : Nat) (k : Walk) : Walk :=
  { k with result := .running, endedAt := none, cause := .none, reached := n - 1 }

/-- Checkpoint `w` becomes current at station `u` under the walk step limit. -/
def StationState.enterCheckpoint (w : Checkpoint) (x : StationState) : StationState :=
  x.modWalk (Walk.enter w (some x.settings.stepLimit))

/-- Checkpoint `w` is completed at station `u`. -/
def StationState.completeCheckpoint (w : Checkpoint) (x : StationState) : StationState :=
  x.modWalk (Walk.complete w)

/-- The current job is a HARDEN job. -/
def StationState.harden (x : StationState) : Bool := x.current.any Context.harden

/-! ### HEAT entry (R29) -/

/-- The context at HEAT entry. -/
def Context.enterHeat (now : Time) (c : Context) : Context :=
  { c with
    heatStart := now
    heated := true
    repeatsDone := if c.harden then c.repeatsDone else c.repeatsDone + 1 }

/-- The power demand read at HEAT entry. -/
def entryDemand (p : Profile) (lead : Nat) : Nat :=
  if (segGet p.segs 0).dwell.isSome then (segGet p.segs 0).power else powerAt p.segs lead p.start

/-- The station's own part of HEAT entry (R29, R62, R66, R103). -/
def StationState.enterHeat (now : Time) (tank : TankState) (p : Profile) (x : StationState) :
    StationState :=
  let g := segGet p.segs 0
  let x := { (x.modContext (Context.enterHeat now)).openTrail p with mode := .heat }
  let x := x.tankAtEntry tank
  let x := x.modMotion fun m => { m.setSpindle g.rotation with spindleRaised := false }
  { x.setTravel (if g.dwell.isSome then .hold else .scan g.speed) with
    dwellTimer := g.dwell, dwells := if g.dwell.isSome then [0] else [] }

/-- HEAT entry, with the channel's notice and the coil-flow judgement of R117. -/
def State.enterHeat (u : Station) (s : State) : State :=
  let p := s.profileOf u
  let lead := (s.st u).settings.powerLead
  let s := s.modSt u (StationState.enterHeat s.time s.tank.state p)
  let s := s.setChannel (s.channel.noticeHeat u (entryDemand p lead) s.common.settleTime)
  if s.channel.holder = some u ∧ (s.st u).lines.coilFlow = false then
    s.modSt u (StationState.hand .coilFlow)
  else s

/-- Every checkpoint is completed: the walk passes and HEAT is entered (R124). -/
def State.passWalk (u : Station) (s : State) : State :=
  (s.modSt u fun x => x.modWalk Walk.pass).enterHeat u

/-! ### W8 and W7 -/

/-- W8 entry (R132). -/
def State.enterW8 (u : Station) (s : State) : State :=
  let s := s.modSt u (StationState.enterCheckpoint .w8)
  if s.invReady then s.passWalk u else s

/-- The channel tells station `u` that it holds the channel: W7 passes (R131). -/
def State.passW7 (u : Station) (s : State) : State :=
  if (s.st u).walk.current = some .w7 then
    (s.modSt u (StationState.completeCheckpoint .w7)).enterW8 u
  else s

/-! ### Grant, request, withdrawal and release -/

/-- Station `u` holds the channel and is told so (R74, R75). -/
def State.holdChannel (u : Station) (s : State) : State :=
  (s.setChannel (s.channel.hold u)).passW7 u

/-- The grant of R73 and R74: nothing unless the channel is FREE with a request waiting. -/
def State.grant (s : State) : State :=
  if s.channel.state = .free then
    match s.channel.choose with
    | none => s
    | some u =>
      let c := { s.channel with waiting := s.channel.waiting.erase u }
      if c.switchAt = u then (s.setChannel c).holdChannel u
      else s.setChannel (c.switchTo u s.common.changeoverTime)
  else s

/-- A request of station `u` (R72). -/
def State.requestPower (u : Station) (s : State) : State :=
  (s.setChannel (s.channel.enqueue u)).grant

/-- The release of R77; nothing where station `u` is not the holder. -/
def State.release (u : Station) (s : State) : State :=
  if s.channel.holder = some u then (s.setChannel (s.channel.leaveHeld .free)).grant else s

/-- The withdrawal of R76. -/
def State.withdraw (u : Station) (s : State) : State :=
  match s.channel.state with
  | .switching v w =>
    if v = u then s.setChannel { s.channel with state := .switching v true }
    else s.setChannel { s.channel with state := .switching v w, waiting := s.channel.waiting.erase u }
  | .held v _ =>
    if v = u then s.release u
    else s.setChannel { s.channel with waiting := s.channel.waiting.erase u }
  | _ => s.setChannel { s.channel with waiting := s.channel.waiting.erase u }

/-- The expiry of the changeover timer (R75). -/
def State.changeoverDue (s : State) : State :=
  match s.channel.state with
  | .switching u withdrawn =>
    let c := { s.channel with changeover := none }
    if s.invFault then
      s.setChannel
        { c with state := .faulted, waiting := if withdrawn then c.waiting else u :: c.waiting }
    else if withdrawn then (s.setChannel { c with state := .free }).grant
    else (s.setChannel c).holdChannel u
  | _ => s

/-! ### The end of a walk (R135, R28) -/

/-- The sequencer takes the walk's report. -/
def State.takeWalkReport (u : Station) (r : WalkResult) (s : State) : State :=
  match r with
  | .axis => (s.writeRecord u none).modSt u (StationState.enterHalted .axis)
  | .cancelled =>
    s.modSt u fun x => (x.modContext (Context.fix .cancelled)).enterReturn
  | .stopped => s.modSt u fun x => (x.modContext (Context.fix .stopped)).enterReturn
  | _ => s.modSt u fun x => (x.modContext (Context.fix .notStarted)).enterReturn

/-- The work in flight at checkpoint `w` is undone (R135, steps 2 to 5). -/
def State.undoWalk (u : Station) (w : Checkpoint) (s : State) : State :=
  match w with
  | .w5 => s.modSt u fun x => x.modMotion fun m => { m with watch := .off }
  | .w6 => s.modSt u fun x => x.modQuench Quench.closeRing
  | .w7 => s.withdraw u
  | .w8 => s.release u
  | _ => s

/-- The walk ends without passing (R135); nothing where no walk runs. -/
def State.endWalk (u : Station) (r : WalkResult) (cause : FailureCause) (s : State) : State :=
  match (s.st u).walk.current with
  | none => s
  | some w =>
    ((s.modSt u fun x => x.modWalk (Walk.finish w r cause)).undoWalk u w).takeWalkReport u r

/-! ### W7 down to W1 -/

/-- W7 entry (R131); a DRY job skips W7 and W8 (R124). -/
def State.enterW7 (u : Station) (s : State) : State :=
  if (s.st u).harden then
    (s.modSt u fun x =>
      x.modWalk (Walk.enter .w7 (Timer.startUnlessZero x.settings.powerWait))).requestPower u
  else s.passWalk u

/-- W6 entry (R130, R113). -/
def State.enterW6 (u : Station) (s : State) : State :=
  if (s.st u).settings.bypassW6 then
    (s.modSt u fun x =>
      (x.modWalk fun k => { k with bypassed := { k.bypassed with w6 := true } }).completeCheckpoint
        .w6).enterW7 u
  else s.modSt u fun x => (x.enterCheckpoint .w6).startProof

/-- W6 passes. -/
def State.passW6 (u : Station) (s : State) : State :=
  (s.modSt u (StationState.completeCheckpoint .w6)).enterW7 u

/-- W5 entry (R129, R102). -/
def State.enterW5 (u : Station) (s : State) : State :=
  let p := s.profileOf u
  s.modSt u fun x =>
    (x.enterCheckpoint .w5).modMotion fun m =>
      { m.setSpindle (segGet p.segs 0).rotation with watch := .on }

/-- W5 passes. -/
def State.passW5 (u : Station) (s : State) : State :=
  (s.modSt u (StationState.completeCheckpoint .w5)).enterW6 u

/-- W4 entry (R128). -/
def State.enterW4 (u : Station) (s : State) : State :=
  let p := s.profileOf u
  s.modSt u fun x => (x.enterCheckpoint .w4).setTravel (.moveTo p.start x.settings.returnSpeed)

/-- W4 passes: STOP, and W5 is entered. -/
def State.passW4 (u : Station) (s : State) : State :=
  (s.modSt u fun x => (x.completeCheckpoint .w4).setTravel .stop).enterW5 u

/-- W3 entry: bypassed, or judged at once (R127). -/
def State.enterW3 (u : Station) (s : State) : State :=
  if (s.st u).settings.bypassW3 then
    (s.modSt u fun x =>
      (x.modWalk fun k => { k with bypassed := { k.bypassed with w3 := true } }).completeCheckpoint
        .w3).enterW4 u
  else if s.tank.state = .critical then
    (s.modSt u (StationState.enterCheckpoint .w3)).endWalk u .failed .tankCritical
  else (s.modSt u (StationState.completeCheckpoint .w3)).enterW4 u

/-- W2 passes or is skipped. -/
def State.passW2 (u : Station) (s : State) : State :=
  (s.modSt u (StationState.completeCheckpoint .w2)).enterW3 u

/-- W2 entry (R127). -/
def State.enterW2 (u : Station) (s : State) : State :=
  if (s.st u).harden && !(s.st u).lines.coilFlow then s.modSt u (StationState.enterCheckpoint .w2)
  else s.passW2 u

/-- W1 passes or is skipped. -/
def State.passW1 (u : Station) (s : State) : State :=
  (s.modSt u (StationState.completeCheckpoint .w1)).enterW2 u

/-- PRESENT and CLAMPED both active (R126). -/
def StationState.clamped (x : StationState) : Bool :=
  x.lines.present.qualified && x.lines.clamped.qualified

/-- W1 entry (R126). -/
def State.enterW1 (u : Station) (s : State) : State :=
  if (s.st u).harden && !(s.st u).clamped then s.modSt u (StationState.enterCheckpoint .w1)
  else s.passW1 u

/-- PRESENT or CLAMPED becoming active is judged for W1 (R126). -/
def State.judgeW1 (u : Station) (s : State) : State :=
  if (s.st u).walk.current = some .w1 ∧ (s.st u).clamped = true then s.passW1 u else s

/-- Entry to WALK (R124): travel stops and the walk starts. -/
def StationState.enterWalk (first : Nat) (x : StationState) : StationState :=
  { (x.modWalk (Walk.start first)).setTravel .stop with mode := .walk }

/-- The walk of a job just taken (R27). -/
def State.startWalk (u : Station) (s : State) : State :=
  (s.modSt u (StationState.enterWalk 1)).enterW1 u

/-- The context as the next repeat begins: the one before is closed (R40, R42). -/
def Context.nextRepeat (union : Flags) (c : Context) : Context :=
  { c.closeRepeat union with heated := false }

/-- The walk of the next repeat of a DRY job (R40). -/
def State.startNextRepeat (u : Station) (s : State) : State :=
  (s.modSt u fun x =>
    (x.modContext (Context.nextRepeat x.trail.tallies.repeatUnion)).enterWalk 2).enterW2 u

end Sys2Proof.Machine
end

