-- ==== Sys2Proof/Machine/Start.lean ====
section
/-! DEFINITION. Taking the head job (R25, R26, R27): the start conditions, the start-time recheck, and the
judgement of the start conditions at the events of R25. -/

namespace Sys2Proof.Machine

/-- The start conditions of R25 for head job `j` of station `u`. -/
def State.startConditions (u : Station) (j : JobEntry) (s : State) : Bool :=
  let x := s.st u
  x.mode == .waitPart && s.run == .running && !x.lines.hold.qualified
    && s.records.length + s.reservations < Config.recordCapacity
    && (j.kind == .dry || (x.clamped && !x.partConsumed))

/-- Station `u` has a head job whose start conditions hold. -/
def State.startable (u : Station) (s : State) : Bool :=
  (s.st u).queue.head?.any fun j => s.startConditions u j

/-- The cycle context of a job just taken (R21, R42, R169). -/
def newContext (j : JobEntry) (now : Time) : Context where
  job := j
  startTime := now
  heatStart := now
  heatTime := 0
  abortCause := .none
  endAfterRepeat := false
  cancelMet := false
  stopMet := false
  repeatsDone := 0
  heated := false
  errorCount := 0
  lastError := .none
  pendingOutcome := .none
  firstFault := none
  secondFault := none

/-- The station with the head job current: context filled, tallies and walk cleared (R26, R63, R123). -/
def StationState.takeJob (j : JobEntry) (now : Time) (x : StationState) : StationState :=
  { x with
    queue := x.queue.tail
    current := some (newContext j now)
    trail := { x.trail with tallies := {} }
    walk := {} }

/-- A failed recheck: the record at once, then RELEASE, WAIT-PART or IDLE (R27). -/
def State.refuseStart (u : Station) (j : JobEntry) (s : State) : State :=
  (s.writeRecord u (some .refusedAtStart)).modSt u
    (if j.kind = .harden then StationState.enterRelease else StationState.enterIdleOrWait)

/-- Station `u` takes its head job where the start conditions hold (R26). -/
def State.takeHead (u : Station) (s : State) : State :=
  match (s.st u).queue with
  | [] => s
  | j :: _ =>
    if s.startConditions u j then
      let s := (s.modSt u (StationState.takeJob j s.time)).setRecords s.records (s.reservations + 1)
      let p := (s.slot j.slot).profile
      if travelFits (s.st u).settings p.start p.stop then s.startWalk u else s.refuseStart u j
    else s

/-- At most `n` head jobs taken, one after another, while a station's start conditions hold. Where both stations
ask, R26 lets the record list take either first, and the order is free (log 12). -/
def State.takeStarts : Nat → State → State
  | 0, s => s
  | n + 1, s =>
    if s.startable .a then
      if s.startable .b then
        takeStarts n (State.takeHead (if Config.stationAFirst s.freeIndex then Station.a else Station.b)
          { s with freeIndex := s.freeIndex + 1 })
      else takeStarts n (s.takeHead .a)
    else if s.startable .b then takeStarts n (s.takeHead .b)
    else s

/-- The start conditions judged at an event of R25: each station whose conditions hold takes its head job at
once, and where that brings a station back to WAIT-PART (R27) the next one with it (log 8). -/
def State.judgeStarts (s : State) : State := s.takeStarts (s.a.queue.length + s.b.queue.length)

end Sys2Proof.Machine
end

