-- ==== Sys2Proof/Machine/Heat.lean ====
section
/-! DEFINITION. The course of a cycle from HEAT to its end (chapters 2, 5 and 10): demands at an advance,
dwells, the end of heat, the abort paths, the encoder reading, and taking a fault. -/

namespace Sys2Proof.Machine

/-! ### Leaving HEAT (R32, R33) -/

/-- The heat time is added (R32). -/
def Context.addHeat (now : Time) (c : Context) : Context :=
  { c with heatTime := addHeatTime c.heatTime (now.since c.heatStart) }

/-- What every departure from HEAT does to the station before its append: the heat time is added and a
dwell is abandoned (R31, R32, R33). -/
def StationState.stopHeat (now : Time) (x : StationState) : StationState :=
  { x.modContext (Context.addHeat now) with dwellTimer := none, dwells := [] }

/-- Scan at run-out speed, in RUNOUT or QUENCH-OUT (R34). -/
def StationState.runOut (m : Mode) (x : StationState) : StationState :=
  { x.setTravel (.scan x.settings.runoutSpeed) with mode := m }

/-- The end of heat (R32, R53). -/
def State.endOfHeat (u : Station) (s : State) : State :=
  let p := s.profileOf u
  let s := s.modSt u fun x => (x.stopHeat s.time).appendLast x.harden s.time p
  let s := s.release u
  s.modSt u fun x => (x.runOut .runout).tankAtEntry s.tank.state

/-- The departure from HEAT that an abort makes (R33, R54). -/
def State.leaveHeat (u : Station) (s : State) : State :=
  let p := s.profileOf u
  (s.modSt u fun x => (x.stopHeat s.time).abortTrail s.time p).release u

/-- HEAT left for QUENCH-OUT (R33). -/
def State.quenchOut (u : Station) (s : State) : State :=
  (s.leaveHeat u).modSt u (StationState.runOut .quenchOut)

/-- HEAT left by a CANCEL or an abrupt STOP (R33). -/
def State.abortByHost (u : Station) (a : AbortCause) (o : PendingOutcome) (s : State) : State :=
  (s.modSt u fun x => x.modContext fun c => (c.abort a).fix o).quenchOut u

/-! ### Demands in HEAT (R30, R31) -/

/-- Demand `d` issued by station `u` in HEAT. A DRY job issues zero at every reading, so its demand never changes
(R30). -/
def State.issueDemand (u : Station) (d : Nat) (s : State) : State :=
  if (s.st u).harden then s.setChannel (s.channel.issue u d s.common.settleTime) else s

/-- The dwell of segment `i` begins (R31). -/
def State.startDwell (u : Station) (i : Nat) (s : State) : State :=
  let g := segGet (s.profileOf u).segs i
  let s := s.modSt u fun x => { x.setTravel .hold with dwellTimer := g.dwell }
  s.issueDemand u g.power

/-- The demands of an advance from `old` to `h` in HEAT: the rotation always, and outside a dwell the
power and the speed; the dwells reached wait their turn (R30, R31; log 22). -/
def State.readProfile (u : Station) (old h : Nat) (s : State) : State :=
  let p := s.profileOf u
  let before := (s.st u).dwells
  let dwells := before ++ dwellSegments p.segs fun start => old < start && start ≤ h
  let s := s.modSt u fun x => { x with dwells := dwells }
  match before, dwells with
  | [], [] =>
    let s := s.modSt u fun x => x.modMotion (Motion.setScanSpeed (speedAt p.segs h))
    s.issueDemand u (powerAt p.segs (s.st u).settings.powerLead h)
  | [], i :: _ => s.startDwell u i
  | _ :: _, _ => s

/-- The expiry of the dwell timer (R31, R15). -/
def State.dwellDue (u : Station) (s : State) : State :=
  let p := s.profileOf u
  let rest := (s.st u).dwells.tail
  let s := s.modSt u fun x => { x with dwells := rest, dwellTimer := none }
  match rest, (s.st u).trail.high? with
  | i :: _, _ => s.startDwell u i
  | [], some h =>
    let s := s.issueDemand u (powerAt p.segs (s.st u).settings.powerLead h)
    s.modSt u (StationState.setTravel (.scan (speedAt p.segs h)))
  | [], none => s

/-! ### Advance (R49) -/

/-- An advance of the high-water position from `old` to `h`. -/
def State.advance (u : Station) (openFirst : Bool) (old h : Nat) (s : State) : State :=
  let p := s.profileOf u
  let now := s.time
  let s := s.modSt u fun x =>
    (x.advanceTrail openFirst x.harden now p h).modMotion (Motion.setSpindle (rotationAt p.segs h))
  if (s.st u).mode = .heat then
    if p.stop ≤ h then
      (s.endOfHeat u).modSt u fun x => (x.takeArrivals now p).checkDrained
    else s.readProfile u old h
  else s.modSt u StationState.checkDrained

/-- The position handed to the trail, in OPEN and DRAINING, where it has changed from `before` (R49, R91). -/
def State.reportPosition (u : Station) (openFirst : Bool) (before : Int) (s : State) : State :=
  match (s.st u).trail.high? with
  | none => s
  | some old =>
    let now := (s.st u).motion.position
    if now ≠ before ∧ (old : Int) < now then s.advance u openFirst old now.toNat else s

/-- One encoder reading (R91, R94, R97, R98, R99). -/
def State.readEncoder (u : Station) (raw : Int) (o : ReadingOrder) (s : State) : State :=
  let before := (s.st u).motion.position
  let s := s.modSt u fun x => x.modMotion fun m => (m.readEncoder raw).noticeArrival
  if o.judgeFirst then (s.modSt u StationState.judgeTravel).reportPosition u o.openFirst before
  else (s.reportPosition u o.openFirst before).modSt u StationState.judgeTravel

/-! ### Taking a fault (R167 to R171) -/

/-- What the station's mode and walk make of a fault just recorded; a record written is an event of R25 at the
other station. -/
def State.actOnFault (u : Station) (f : FaultCode) (s : State) : State :=
  match (s.st u).mode with
  | .heat =>
    let s := s.modSt u fun x => x.modContext (Context.abort .fault)
    if floodClass f then (s.leaveHeat u).modSt u StationState.enterFlood else s.quenchOut u
  | .runout | .quenchOut => if floodClass f then s.modSt u StationState.enterFlood else s
  | .walk =>
    if f = .axis ∧ (s.st u).walk.current = some .w4 then (s.endWalk u .axis .none).judgeStarts else s
  | .returning =>
    if f = .axis then
      ((s.writeRecord u none).modSt u (StationState.enterHalted .axis)).judgeStarts
    else s
  | _ => s

/-- A fault is taken: dropped without a current job, else recorded and acted on (R167, R169). -/
def State.takeFault (u : Station) (f : FaultCode) (s : State) : State :=
  if (s.st u).busy then
    (s.modSt u fun x => x.modContext (Context.recordFault f)).actOnFault u f
  else s

/-- The oldest handed fault of the code leaves the list of those not yet taken: a lapsed one is dropped, and any
other is taken (R167). -/
def State.takeHanded (u : Station) (f : FaultCode) (s : State) : State :=
  if (s.st u).lapsed.contains f then s.modSt u (StationState.dropLapsed f)
  else if (s.st u).handed.contains f then (s.modSt u (StationState.unhand f)).takeFault u f else s

/-! ### Homing results and arrivals -/

/-- Homing complete (R23, R92, R173). -/
def StationState.homingComplete (x : StationState) : StationState :=
  { x.setTravel .stop with homeResult := .ok, haltCause := .none }.enterReleaseOrIdle

/-- The station state a failed homing returns to (R22, R23). -/
def HomingOrigin.mode : HomingOrigin → Mode
  | .unhomed => .unhomed
  | .halted => .halted

/-- Homing failed (R23, R93). -/
def StationState.homingFailed (x : StationState) : StationState :=
  { x.setTravel .stop with
    homeResult := .failed
    mode := if x.mode = .homing then x.homingOrigin.mode else x.mode }

/-- HOMING entry from an accepted HOME (R22, R92); with AXIS-FAULT active the search fails at once
(R100). -/
def StationState.enterHoming (x : StationState) : StationState :=
  let origin : HomingOrigin := if x.mode = .halted then .halted else .unhomed
  let y := { x with mode := .homing, homingOrigin := origin }.startSearch
  if y.lines.axisFault then y.homingFailed else y

/-- The RETURN arrival (R36), with the start conditions judged at the record write and at the entry to
WAIT-PART (R25). -/
def State.returnArrived (u : Station) (s : State) : State :=
  match (s.st u).current with
  | none => s
  | some c =>
    if c.repeatsAgain then s.startNextRepeat u
    else
      ((s.writeRecord u none).modSt u
        (if c.harden then StationState.enterRelease else StationState.enterIdleOrWait)).judgeStarts

/-- The arrival of the move in force, once a reading has found it, reported to the party that set the
move (R94). -/
def State.moveArrived (u : Station) (s : State) : State :=
  if (s.st u).motion.arrival = .found then
    let s := s.modSt u fun x => x.modMotion fun m => { m with arrival := .reported }
    match (s.st u).mode with
    | .homing => (s.modSt u StationState.homingComplete).judgeStarts
    | .walk => if (s.st u).walk.current = some .w4 then s.passW4 u else s
    | .returning => s.returnArrived u
    | _ => s
  else s

end Sys2Proof.Machine
end

