-- ==== Sys2Proof/Machine/Inputs.lean ====
section
/-! DEFINITION. Input lines (chapter 8): qualification, the qualified changes handed on, and the
unqualified lines with what their changes do. -/

namespace Sys2Proof.Machine

/-! ### Qualification (R140) -/

/-- A loader line of a station. -/
def Lines.qual (l : Lines) : LoaderLine → QualInput
  | .present => l.present
  | .clamped => l.clamped
  | .hold => l.hold

/-- The lines with one loader line replaced. -/
def Lines.setQual (k : LoaderLine) (q : QualInput) (l : Lines) : Lines :=
  match k with
  | .present => { l with present := q }
  | .clamped => { l with clamped := q }
  | .hold => { l with hold := q }

/-- The line becoming active or inactive, handed to the blocks of R138. -/
def State.lineChanged (u : Station) (k : LoaderLine) (active : Bool) (s : State) : State :=
  match k, active with
  | .present, true | .clamped, true => s.judgeW1 u
  | .present, false => s.modSt u StationState.presentGone
  | .clamped, false => s
  | .hold, b => s.modSt u (StationState.holdChanged b)

/-- The qualified state takes the sampled state, and the change is handed on (R140). -/
def State.qualify (u : Station) (k : LoaderLine) (s : State) : State :=
  let q := (s.st u).lines.qual k
  let s := s.modSt u fun x => x.modLines (Lines.setQual k ⟨q.sampled, q.sampled, none⟩)
  if q.sampled = q.qualified then s else s.lineChanged u k q.sampled

/-- A sample that differs from the one before it (R140): it starts the timer, takes the state at once
without a qualification time, or stops the timer. -/
def State.sampleLine (u : Station) (k : LoaderLine) (active : Bool) (s : State) : State :=
  let q := (s.st u).lines.qual k
  if q.sampled = active then s
  else if active = q.qualified then
    s.modSt u fun x => x.modLines (Lines.setQual k ⟨active, q.qualified, none⟩)
  else
    let s' := s.modSt u fun x =>
      x.modLines (Lines.setQual k ⟨active, q.qualified, x.settings.qualTime⟩)
    if (s.st u).settings.qualTime.isNone then s'.qualify u k else s'

/-- The start conditions judged where the qualified state of line `k` is no longer `before`: PRESENT, CLAMPED
or HOLD has changed, or the part-consumed flag with it (R25). -/
def State.judgeLine (u : Station) (k : LoaderLine) (before : Bool) (s : State) : State :=
  if ((s.st u).lines.qual k).qualified = before then s else s.judgeStarts

/-- A sample as an event of its own: handed on by R140, and judged for the start conditions (R25). -/
def State.takeSample (u : Station) (k : LoaderLine) (active : Bool) (s : State) : State :=
  (s.sampleLine u k active).judgeLine u k ((s.st u).lines.qual k).qualified

/-- The end of a qualification as an event of its own (R140, R25). -/
def State.takeQualified (u : Station) (k : LoaderLine) (s : State) : State :=
  (s.qualify u k).judgeLine u k ((s.st u).lines.qual k).qualified

/-- The qualification starts afresh at the end of a warm reset where the sample differs (R140; log 24). -/
def State.requalify (u : Station) (k : LoaderLine) (s : State) : State :=
  let q := (s.st u).lines.qual k
  if q.sampled = q.qualified then
    s.modSt u fun x => x.modLines (Lines.setQual k { q with timer := none })
  else
    let s' := s.modSt u fun x =>
      x.modLines (Lines.setQual k { q with timer := x.settings.qualTime })
    if (s.st u).settings.qualTime.isNone then s'.qualify u k else s'

/-! ### Unqualified station lines -/

/-- AXIS-FAULT as it stands. -/
def StationState.setAxisLine (active : Bool) (x : StationState) : StationState :=
  x.modLines fun l => { l with axisFault := active }

/-- AXIS-FAULT becoming active (R100): homing fails, or AXIS is handed; at W4 and in RETURN the sequencer
takes it in this step (95, AXIS_FAULT_ACTIVE; log 9). -/
def State.axisRaised (u : Station) (s : State) : State :=
  let s := s.modSt u (StationState.setAxisLine true)
  match (s.st u).motion.mode with
  | .stop => s
  | .seekHome _ _ => s.modSt u StationState.homingFailed
  | .moveTo _ _ => s.takeFault u .axis
  | .hold | .scan _ => s.modSt u (StationState.hand .axis)

/-- HOME-SW changing (R92). -/
def StationState.homeSwChanged (active : Bool) (x : StationState) : StationState :=
  (x.modLines fun l => { l with homeSw := active }).modMotion (Motion.homeSwitch active)

/-- COIL-FLOW becoming active (R127). -/
def State.coilFlowOn (u : Station) (s : State) : State :=
  let s := s.modSt u fun x => x.modLines fun l => { l with coilFlow := true }
  if (s.st u).walk.current = some .w2 then s.passW2 u else s

/-- COIL-FLOW becoming inactive (R117). Where the line has gone active and inactive again before a COIL-FLOW
handed is taken, it is handed again: the model's choice (log 38). -/
def State.coilFlowOff (u : Station) (s : State) : State :=
  let s := s.modSt u fun x => x.modLines fun l => { l with coilFlow := false }
  if (s.st u).mode = .heat ∧ s.channel.holder = some u then s.modSt u (StationState.hand .coilFlow)
  else s

/-! ### Inverter lines -/

/-- W8 passes where it is current (R132). -/
def State.passW8 (u : Station) (s : State) : State :=
  if (s.st u).walk.current = some .w8 then s.passWalk u else s

/-- INV-READY becoming active (R132); at most one station holds the channel and is at W8. -/
def State.invReadyOn (s : State) : State := ((({ s with invReady := true }).passW8 .a).passW8 .b)

/-- INV-READY becoming inactive (R83). -/
def State.invReadyOff (s : State) : State :=
  let s := { s with invReady := false }
  match s.channel.holderInHeat with
  | some u => s.modSt u (StationState.hand .invDrop)
  | none => s

/-- INV-FAULT taken by the channel as becoming active (R79). -/
def State.channelFault (s : State) : State :=
  match s.channel.state with
  | .free => s.setChannel { s.channel with state := .faulted }
  | .switching _ _ => s
  | .held u true => (s.setChannel (s.channel.leaveHeld .faulted)).modSt u (StationState.hand .inverter)
  | .held u false =>
    let s := s.setChannel (s.channel.leaveHeld .faulted)
    if (s.st u).walk.current = some .w8 then s.endWalk u .failed .invFault else s
  | .faulted => s

/-- INV-FAULT becoming active (R79). -/
def State.invFaultOn (s : State) : State := ({ s with invFault := true }).channelFault

/-- INV-FAULT becoming inactive (R80). -/
def State.invFaultOff (s : State) : State :=
  let s := { s with invFault := false }
  if s.channel.state = .faulted then (s.setChannel { s.channel with state := .free }).grant else s

end Sys2Proof.Machine
end

