-- ==== Sys2Proof/Machine/Settings.lean ====
section
/-! DEFINITION. Settings (R183, R184): their ids, ranges and values, the relations, SET and GET, and what a
changed input sense does (R139). -/

namespace Sys2Proof.Machine

/-- A sense or a flag as a value. -/
def flagValue (b : Bool) : Nat := if b then 1 else 0

/-! ### Common settings, ids 1 to 12 -/

/-- The value in force of a common setting; none where the id is not defined. -/
def CommonSettings.get (c : CommonSettings) (id : Nat) : Option Nat :=
  match id with
  | 1 => some c.ratedPower
  | 2 => some c.changeoverTime
  | 3 => some c.responseLimit
  | 4 => some c.powerBand
  | 5 => some c.settleTime
  | 6 => some c.warnThreshold
  | 7 => some c.criticalThreshold
  | 8 => some (flagValue c.lowInvReady)
  | 9 => some (flagValue c.lowInvFault)
  | 10 => some (flagValue c.lowReset)
  | 11 => some (flagValue c.lowSwitch)
  | 12 => some (flagValue c.lowAttn)
  | _ => none

/-- The settings with one value put. -/
def CommonSettings.put (c : CommonSettings) (id v : Nat) : CommonSettings :=
  match id with
  | 1 => { c with ratedPower := v }
  | 2 => { c with changeoverTime := v }
  | 3 => { c with responseLimit := v }
  | 4 => { c with powerBand := v }
  | 5 => { c with settleTime := v }
  | 6 => { c with warnThreshold := v }
  | 7 => { c with criticalThreshold := v }
  | 8 => { c with lowInvReady := v == 1 }
  | 9 => { c with lowInvFault := v == 1 }
  | 10 => { c with lowReset := v == 1 }
  | 11 => { c with lowSwitch := v == 1 }
  | 12 => { c with lowAttn := v == 1 }
  | _ => c

/-- The id is a common setting and the value lies in its range (R184). -/
def commonInRange (id v : Nat) : Bool :=
  match id with
  | 1 => within 500 6000 v
  | 2 => within 50 500 v
  | 3 => within 50 2000 v
  | 4 => within 1 20 v
  | 5 => within 0 2000 v
  | 6 | 7 => within 100 800 v
  | 8 | 9 | 10 | 11 | 12 => within 0 1 v
  | _ => false

/-! ### Station settings, ids 32 to 65 -/

/-- The bypass set's kept value: bits 2 and 5 (R133). -/
def StationSettings.bypass (c : StationSettings) : Nat :=
  4 * flagValue c.bypassW3 + 32 * flagValue c.bypassW6

/-- The value in force of a station setting; none where the id is not defined. -/
def StationSettings.get (c : StationSettings) (id : Nat) : Option Nat :=
  match id with
  | 32 => some c.powerLead
  | 33 => some c.pitch
  | 34 => some c.offset
  | 35 => some c.quenchDelay
  | 36 => some c.travelMin
  | 37 => some c.travelMax
  | 38 => some c.runoutSpeed
  | 39 => some c.returnSpeed
  | 40 => some c.homeSpeed
  | 41 => some c.stallTime
  | 42 => some c.spindleTolerance
  | 43 => some c.preOpen
  | 44 => some c.afterQuench
  | 45 => some c.flowRise
  | 46 => some c.flowMinimum
  | 47 => some c.proofTime
  | 48 => some c.floodTime
  | 49 => some c.stepLimit
  | 50 => some c.powerWait
  | 51 => some c.bypass
  | 52 => some c.qualFactor
  | 53 => some c.qualRange
  | 54 => some c.handshakeType.code
  | 55 => some c.doneFactor
  | 56 => some c.doneRange
  | 57 => some (flagValue c.lowPresent)
  | 58 => some (flagValue c.lowClamped)
  | 59 => some (flagValue c.lowHold)
  | 60 => some (flagValue c.lowAxisFault)
  | 61 => some (flagValue c.lowHomeSw)
  | 62 => some (flagValue c.lowCoilFlow)
  | 63 => some (flagValue c.lowReady)
  | 64 => some (flagValue c.lowDone)
  | 65 => some (flagValue c.lowReject)
  | _ => none

/-- The settings with one value put. -/
def StationSettings.put (c : StationSettings) (id v : Nat) : StationSettings :=
  match id with
  | 32 => { c with powerLead := v }
  | 33 => { c with pitch := v }
  | 34 => { c with offset := v }
  | 35 => { c with quenchDelay := v }
  | 36 => { c with travelMin := v }
  | 37 => { c with travelMax := v }
  | 38 => { c with runoutSpeed := v }
  | 39 => { c with returnSpeed := v }
  | 40 => { c with homeSpeed := v }
  | 41 => { c with stallTime := v }
  | 42 => { c with spindleTolerance := v }
  | 43 => { c with preOpen := v }
  | 44 => { c with afterQuench := v }
  | 45 => { c with flowRise := v }
  | 46 => { c with flowMinimum := v }
  | 47 => { c with proofTime := v }
  | 48 => { c with floodTime := v }
  | 49 => { c with stepLimit := v }
  | 50 => { c with powerWait := v }
  | 51 => { c with bypassW3 := v.testBit 2, bypassW6 := v.testBit 5 }
  | 52 => { c with qualFactor := v }
  | 53 => { c with qualRange := v }
  | 54 => { c with handshakeType := HandshakeType.ofCode v }
  | 55 => { c with doneFactor := v }
  | 56 => { c with doneRange := v }
  | 57 => { c with lowPresent := v == 1 }
  | 58 => { c with lowClamped := v == 1 }
  | 59 => { c with lowHold := v == 1 }
  | 60 => { c with lowAxisFault := v == 1 }
  | 61 => { c with lowHomeSw := v == 1 }
  | 62 => { c with lowCoilFlow := v == 1 }
  | 63 => { c with lowReady := v == 1 }
  | 64 => { c with lowDone := v == 1 }
  | 65 => { c with lowReject := v == 1 }
  | _ => c

/-- The id is a station setting and the value lies in its range (R184). -/
def stationInRange (id v : Nat) : Bool :=
  match id with
  | 32 => within 0 10000 v
  | 33 => v == 1000 || v == 2000 || v == 4000
  | 34 => within 5000 380000 v
  | 35 => within 100 20000 v
  | 36 | 37 => within 0 2000000 v
  | 38 => within 10 600 v
  | 39 => within 50 2000 v
  | 40 => within 20 500 v
  | 41 => within 100 2000 v
  | 42 => within 1 20 v
  | 43 => within 0 20000 v
  | 44 => within 0 30000 v
  | 45 => within 100 2000 v
  | 46 => within 50 5000 v
  | 47 => within 100 2000 v
  | 48 => within 1000 120000 v
  | 49 => within 1000 60000 v
  | 50 => within 0 3600000 v
  | 51 => within 0 255 v
  | 52 => within 0 15 v
  | 53 => within 0 3 v
  | 54 => within 0 2 v
  | 55 => within 0 15 v
  | 56 => within 0 3 v
  | 57 | 58 | 59 | 60 | 61 | 62 | 63 | 64 | 65 => within 0 1 v
  | _ => false

/-! ### SET (R183) -/

/-- Step 1: the id of the first pair that is undefined, repeated or out of range. -/
def pairFailure (inRange : Nat → Nat → Bool) : List Nat → List (Nat × Nat) → Option Nat
  | _, [] => none
  | seen, (id, v) :: rest =>
    if seen.contains id || !inRange id v then some id else pairFailure inRange (id :: seen) rest

/-- The request carries a pair of the id. -/
def carries (pairs : List (Nat × Nat)) (id : Nat) : Bool := pairs.any fun q => q.1 == id

/-- The id a failed relation names: the first if the request carries it, else the second. -/
def relationId (pairs : List (Nat × Nat)) (id other : Nat) : Nat :=
  if carries pairs id then id else other

/-- The settings after every pair. -/
def CommonSettings.putAll (c : CommonSettings) (pairs : List (Nat × Nat)) : CommonSettings :=
  pairs.foldl (fun c q => c.put q.1 q.2) c

/-- The settings after every pair. -/
def StationSettings.putAll (c : StationSettings) (pairs : List (Nat × Nat)) : StationSettings :=
  pairs.foldl (fun c q => c.put q.1 q.2) c

/-- Step 2 for the common unit: warn below critical (R121). -/
def CommonSettings.relationFailure (pairs : List (Nat × Nat)) (c : CommonSettings) : Option Nat :=
  if c.warnThreshold < c.criticalThreshold then none else some (relationId pairs 6 7)

/-- Step 2 for a station unit (R47, R104, R147). -/
def StationSettings.relationFailure (pairs : List (Nat × Nat)) (c : StationSettings) : Option Nat :=
  if 96 < (c.offset + c.pitch - 1) / c.pitch + 1 then some (relationId pairs 34 33)
  else if c.travelMax ≤ c.travelMin then some (relationId pairs 36 37)
  else if c.handshakeType = .pulse ∧ c.doneFactor = 0 then some (relationId pairs 54 55)
  else none

/-- A changed sense of INV-READY or INV-FAULT is a change of the line; that of RESET inverts the line's state
without one (R139, R141). -/
def State.applyCommon (new : CommonSettings) (s : State) : State :=
  let old := s.common
  let s := { s with common := new }
  let s := if old.lowReset = new.lowReset then s else { s with resetLine := !s.resetLine }
  let s :=
    if old.lowInvReady = new.lowInvReady then s
    else if s.invReady then s.invReadyOff
    else s.invReadyOn
  if old.lowInvFault = new.lowInvFault then s
  else if s.invFault then s.invFaultOff
  else s.invFaultOn

/-- SET at the common unit. -/
def State.setCommon (pairs : List (Nat × Nat)) (s : State) : State × Answer :=
  let new := s.common.putAll pairs
  match pairFailure commonInRange [] pairs with
  | some id => (s, Answer.badSetting id)
  | none =>
    match new.relationFailure pairs with
    | some id => (s, Answer.badSetting id)
    | none =>
      if s.anyCurrent && !(pairs.map Prod.fst == [1]) then (s, ⟨.busy, []⟩)
      else if carries pairs 1 && s.demandAbove new.ratedPower then (s, ⟨.inUse, []⟩)
      else (s.applyCommon new, ⟨.accepted, []⟩)

/-- The states in which station settings are taken (R183). -/
def Mode.takesSettings : Mode → Bool
  | .unhomed | .idle | .waitPart | .halted => true
  | _ => false

/-- A sample inverted by a changed sense, taken as a change of the line (R139). -/
def State.invertLine (changed : Bool) (u : Station) (k : LoaderLine) (s : State) : State :=
  if changed then s.takeSample u k (!((s.st u).lines.qual k).sampled) else s

/-- The unqualified inputs whose sense has changed, inverted; in the states that take station settings they
reach no judgement (R139). -/
def StationState.invertInputs (old new : StationSettings) (x : StationState) : StationState :=
  x.modLines fun l =>
    { l with
      axisFault := l.axisFault != (old.lowAxisFault != new.lowAxisFault)
      homeSw := l.homeSw != (old.lowHomeSw != new.lowHomeSw)
      coilFlow := l.coilFlow != (old.lowCoilFlow != new.lowCoilFlow) }

/-- The new settings of station `u`, with the inputs whose sense has changed (R139). -/
def State.applyStation (u : Station) (new : StationSettings) (s : State) : State :=
  let old := (s.st u).settings
  let s := s.modSt u fun x => { x with settings := new }.invertInputs old new
  let s := s.invertLine (old.lowPresent != new.lowPresent) u .present
  let s := s.invertLine (old.lowClamped != new.lowClamped) u .clamped
  s.invertLine (old.lowHold != new.lowHold) u .hold

/-- SET at a station unit. -/
def State.setStation (u : Station) (pairs : List (Nat × Nat)) (s : State) : State × Answer :=
  let new := (s.st u).settings.putAll pairs
  match pairFailure stationInRange [] pairs with
  | some id => (s, Answer.badSetting id)
  | none =>
    match new.relationFailure pairs with
    | some id => (s, Answer.badSetting id)
    | none =>
      if (s.st u).mode.takesSettings then (s.applyStation u new, ⟨.accepted, []⟩)
      else (s, ⟨.busy, []⟩)

/-! ### GET (R183) -/

/-- The pairs of a GET reply, or the first id that is not defined. -/
def getPairs (get : Nat → Option Nat) : List Byte → Except Nat (List Byte)
  | [] => .ok []
  | id :: rest =>
    match get id.toNat with
    | none => .error id.toNat
    | some v =>
      match getPairs get rest with
      | .ok bytes => .ok (id :: be32 v ++ bytes)
      | .error e => .error e

/-- The answer to GET. -/
def answerGet (get : Nat → Option Nat) (ids : List Byte) : Answer :=
  match getPairs get ids with
  | .ok bytes => ⟨.accepted, bytes⟩
  | .error id => Answer.badSetting id

end Sys2Proof.Machine
end

