-- ==== Sys2Proof/Machine/Link.lean ====
section
/-! DEFINITION. The command link (chapter 11): the receiver, the receive buffer, the transaction, and a
request served by its owning block. -/

namespace Sys2Proof.Machine

/-! ### Buffer and transaction (R180) -/

/-- With no transaction in progress the oldest entry is taken. -/
def Link.takeNext (l : Link) : Link :=
  match l.transaction, l.buffer with
  | .none, e :: rest => { l with transaction := .taken e, buffer := rest }
  | _, _ => l

/-- An entry arrives: it joins the buffer, or is lost and sets the overrun flag. -/
def Link.place (e : Entry) (l : Link) : Link :=
  if l.buffer.length < Config.bufferCapacity then { l with buffer := l.buffer ++ [e] }.takeNext
  else { l with overrun := true }

/-! ### Receiver (R178, R179) -/

/-- The receiver in HUNT with its timers stopped. -/
def Link.hunt (l : Link) : Link := { l with receiver := .hunt, gapTimer := none, idleTimer := none }

/-- The receiver inside a frame, the gap timer started again. -/
def Link.receive (r : Receiver) (l : Link) : Link :=
  { l with receiver := r, gapTimer := some Config.gapTime }

/-- The receiver in DISCARD, the idle timer started again (log 23). -/
def Link.discard (kept : List Byte) (l : Link) : Link :=
  { l with receiver := .discard kept, gapTimer := none, idleTimer := some Config.idleTime }

/-- The entry of a frame whose header and payload have been received. -/
def frameEntry (header payload : List Byte) : Entry where
  tooLong := false
  unit := header.getD 1 0
  kind := header.getD 2 0
  tag := header.getD 3 0
  payload := payload

/-- The judgement of a frame at its second CRC byte (R179). -/
def Link.judgeFrame (header payload : List Byte) (crcHigh crcLow : Byte) (l : Link) : Link :=
  if crcHigh ++ crcLow = crc (header ++ payload) then l.hunt.place (frameEntry header payload)
  else l.hunt

/-- The header byte after those kept. -/
def Link.headerByte (kept : List Byte) (b : Byte) (l : Link) : Link :=
  if kept = [] ∧ Config.maxPayload < b.toNat then l.discard []
  else if kept.length < 3 then l.receive (.header (kept ++ [b]))
  else if kept.getD 0 0 = 0 then l.receive (.check (kept ++ [b]) [] none)
  else l.receive (.payload (kept ++ [b]) [])

/-- The payload byte after those kept. -/
def Link.payloadByte (header kept : List Byte) (b : Byte) (l : Link) : Link :=
  if kept.length + 1 = (header.getD 0 0).toNat then l.receive (.check header (kept ++ [b]) none)
  else l.receive (.payload header (kept ++ [b]))

/-- The receiver is inside a frame, where the gap timer runs (R178). -/
def Receiver.inFrame : Receiver → Bool
  | .header _ | .payload _ _ | .check _ _ _ => true
  | .hunt | .discard _ => false

/-- The frame is abandoned where the gap timer has run out, whether or not its expiry has been taken (R178). -/
def Link.endGap (l : Link) : Link := if l.receiver.inFrame ∧ l.gapTimer = some 0 then l.hunt else l

/-- One byte by the receiver's state, with whether it has a framing error (R178). -/
def Link.receiveByte (b : Byte) (bad : Bool) (l : Link) : Link :=
  match l.receiver with
  | .hunt => if b = 0xA5 ∧ bad = false then l.receive (.header []) else l
  | .header kept => if bad then l.hunt else l.headerByte kept b
  | .payload header kept => if bad then l.hunt else l.payloadByte header kept b
  | .check header payload none => if bad then l.hunt else l.receive (.check header payload (some b))
  | .check header payload (some high) =>
    if bad then l.hunt else l.judgeFrame header payload high b
  | .discard kept => l.discard (if kept.length < 3 then kept ++ [b] else kept)

/-- One byte taken: the byte that ends a gap is taken in HUNT (R178). -/
def Link.takeByte (b : Byte) (bad : Bool) (l : Link) : Link := l.endGap.receiveByte b bad

/-- The last CRC byte of a frame, where the receiver awaits it (log 6). -/
def Link.lastByte (crcLow : Byte) (l : Link) : Link :=
  match l.receiver with
  | .check _ _ (some _) => l.takeByte crcLow false
  | _ => l

/-- The expiry of the idle timer: a too-long entry is placed (R178). -/
def Link.idleDue (l : Link) : Link :=
  match l.receiver with
  | .discard kept => l.hunt.place ⟨true, kept.getD 0 0, kept.getD 1 0, kept.getD 2 0, []⟩
  | _ => l.hunt

/-! ### A request served (R181, R182) -/

/-- The reply is composed; a summary with bit 5 set clears the overrun flag (R182). -/
def State.reply (e : Entry) (resetAfter : Bool) (r : State × Answer) : State :=
  let s := r.1
  s.setLink
    { s.link with
      overrun := false
      transaction :=
        .replying ⟨e.unit, e.kind, e.tag, r.2.outcome, s.summary, r.2.payload⟩ resetAfter }

/-- The taken entry, judged as a request of one row of the table (R181): nothing where no entry of that row
is taken (log 5). -/
def State.serve (row : RequestRow) (act : Entry → State → State × Answer) (s : State) : State :=
  match s.link.transaction with
  | .taken e =>
    if e.row = row then
      if lengthAllowed row e.payload then State.reply e (row == .reset) (act e s)
      else State.reply e false (s, ⟨.badLength, []⟩)
    else s
  | _ => s

/-- A request of a station unit, served by the addressed station. -/
def State.serveStation (row : RequestRow) (act : Station → Entry → State → State × Answer)
    (s : State) : State :=
  s.serve row fun e s =>
    match unitStation e.unit with
    | some u => act u e s
    | none => (s, ⟨.unsupportedUnit, []⟩)

/-- The bytes of a reply frame (R179). -/
def Reply.frame (r : Reply) : List Byte :=
  let body :=
    [BitVec.ofNat 8 r.payload.length, r.unit, r.kind, r.tag, BitVec.ofNat 8 r.outcome.code, r.summary]
      ++ r.payload
  let c := crc body
  0x5A :: body ++ [c.extractLsb' 8 8, c.extractLsb' 0 8]

end Sys2Proof.Machine
end

