-- ==== Sys2Proof/Machine/Report.lean ====
section
/-! DEFINITION. What the part reports: DESCRIBE and STATUS (R185), the record of TAKE (R187) and the TRAIL
snapshot (R189). -/

namespace Sys2Proof.Machine

/-! ### DESCRIBE -/

/-- The 15 bytes of DESCRIBE; "WZ-7420" in ASCII first. -/
def describeBytes : List Byte :=
  [0x57, 0x5A, 0x2D, 0x37, 0x34, 0x32, 0x30] ++ be8 1 ++ be8 2 ++ be8 8 ++ be8 32
    ++ be8 Config.trailCapacity ++ be8 Config.queueDepth ++ be8 Config.recordCapacity
    ++ be8 Config.maxPayload

/-! ### STATUS, common part -/

/-- Target withdrawn (R70). -/
def Channel.withdrawn (c : Channel) : Bool :=
  match c.state with
  | .switching _ w => w
  | _ => false

/-- The waiting set as two station fields, oldest first. -/
def waitingFields (w : List Station) : List Byte :=
  be8 (stationField w[0]?) ++ be8 (stationField w[1]?)

/-- The channel's part (R87). -/
def State.channelBytes (s : State) : List Byte :=
  let c := s.channel
  be8 c.state.code ++ be8 (stationField c.target)
    ++ be8 (bitsByte [c.withdrawn, c.holderInHeat.isSome, s.invReady, s.invFault])
    ++ be8 (stationNumber c.switchAt) ++ waitingFields c.waiting ++ be8 (stationField c.lastHolder)
    ++ be16 c.demand ++ be16 c.measured

/-- The 39 bytes of the common part. -/
def State.commonStatus (s : State) : List Byte :=
  be32 s.time.toNat ++ be8 s.run.code ++ be8 s.stopMode.code ++ be8 s.records.length
    ++ be8 s.reservations ++ be8 s.tank.state.code ++ signed16 s.tank.reading
    ++ s.channelBytes ++ be8 (bitsByte [s.resetLine, s.switchOut, s.attn])
    ++ s.slots.toList.flatMap fun x => be8 x.code ++ be8 x.refs

/-! ### STATUS, station part -/

/-- The two fault fields in one byte (R187). -/
def faultByte (first second : Option FaultCode) : Nat := faultField first + 16 * faultField second

/-- The walk byte (R187). -/
def walkByte (reached : Nat) (b : BypassedSet) : Nat := reached + 16 * bitsByte [b.w3, b.w6]

/-- The sequencer's and the queue's fields. The current tag and the finished tag are 0 where there is no such job:
the model's choice (log 39). -/
def StationState.jobBytes (x : StationState) : List Byte :=
  be8 x.mode.code ++ be8 x.homeResult.code ++ be16 ((x.current.map fun c => c.job.tag).getD 0)
    ++ be16 (x.finished.getD 0)
    ++ be8 (bitsByte [x.partConsumed, x.releaseOwed.isSome, x.releaseOwed == some true])
    ++ be8 x.haltCause.code ++ be8 x.queue.length
    ++ (List.range 8).flatMap fun i => be16 ((x.queue[i]?.map fun j => j.tag).getD 0)

/-- The fields of the cycle context (R176), zero where it is absent (log 18). Repeats done and error count are those of
the context for a HARDEN job too, which counts none and shows 0: the model's choice (log 39). -/
def StationState.contextBytes (x : StationState) : List Byte :=
  match x.current with
  | none => List.replicate 5 0
  | some c =>
    be8 c.abortCause.code ++ be8 c.pendingOutcome.code ++ be8 (faultByte c.firstFault c.secondFault)
      ++ be8 c.repeatsDone ++ be8 c.errorCount

/-- The walk's fields (R123) and the trail state. -/
def StationState.walkBytes (x : StationState) : List Byte :=
  let w := x.walk
  be8 (currentField w.current) ++ be32 w.timer.field ++ be8 (walkByte w.reached w.bypassed)
    ++ be8 w.result.code ++ be8 (endedField w.endedAt) ++ be8 w.cause.code ++ be8 x.trail.phase.code

/-- The motion unit's fields (R91, R101). -/
def Motion.bytes (m : Motion) : List Byte :=
  be8 m.mode.code
    ++ be8 (bitsByte [m.valid, m.reverseRaised, m.limitRaised, m.spindleRaised, m.watch != .off])
    ++ signed32 m.position ++ signed16 m.speedDemand ++ signed16 m.speed ++ be16 m.spindleDemand
    ++ be16 m.rpm

/-- The quench unit's fields (R106). -/
def Quench.bytes (q : Quench) : List Byte :=
  be8 q.valve.code ++ be8 (bitsByte [q.flood.isSome, q.flowRaised, q.proofSeen])
    ++ be32 (Timer.field (q.flood.map fun f => f.remaining)) ++ be8 (floodOriginField q.flood)
    ++ be8 q.proofResult.code ++ be16 q.proofPeak ++ be16 q.flow

/-- The lines' fields (R138). -/
def StationState.lineBytes (x : StationState) : List Byte :=
  let l := x.lines
  be8 (bitsByte [l.present.sampled, l.clamped.sampled, l.hold.sampled, l.axisFault, l.homeSw, l.coilFlow])
    ++ be8 (bitsByte [l.present.qualified, l.clamped.qualified, l.hold.qualified])
    ++ be8 (bitsByte [x.ready, x.doneOut, x.rejectOut]) ++ be8 l.handshake.code
    ++ be32 l.handshakeTimer.field

/-- The 74 bytes of a station's part. -/
def StationState.status (x : StationState) : List Byte :=
  x.jobBytes ++ x.contextBytes ++ x.walkBytes ++ x.motion.bytes ++ x.quench.bytes ++ x.lineBytes

/-- The answer to STATUS: selector 0 common, 1 station A, 2 station B; cause 40 above (R181, R185). -/
def State.answerStatus (sel : Nat) (s : State) : Answer :=
  match sel with
  | 0 => ⟨.accepted, s.commonStatus⟩
  | 1 => ⟨.accepted, s.a.status⟩
  | 2 => ⟨.accepted, s.b.status⟩
  | _ => Answer.badValue noIndex 40

/-! ### The record of TAKE (R187) -/

def Flags.byte (f : Flags) : Nat := bitsByte f.bits

def Zone.bytes (z : Zone) : List Byte := be16 z.first ++ be16 z.count ++ be8 z.flags.byte

def SoakBlock.bytes (k : SoakBlock) : List Byte :=
  be8 k.repeatsDone ++ be8 k.errorCount ++ be8 k.lastError.code

/-- Byte 0 of a record. -/
def Record.headByte (r : Record) : Nat :=
  bitsByte [r.station == .b, r.job.kind == .dry, r.tankWarm, r.soak.isSome] + 16 * r.zones.length

/-- The payload of a record; a worst quench delay above 65,535 is sent as 65,535. -/
def Record.bytes (r : Record) : List Byte :=
  be8 r.headByte ++ be16 r.job.tag ++ be8 (r.job.slot.val + 1 + 16 * r.outcome.code)
    ++ be8 (walkByte r.walkReached r.bypassed) ++ be8 (faultByte r.firstFault r.secondFault)
    ++ be32 r.startTime.toNat ++ be32 r.heatTime ++ be32 r.heated ++ be32 r.energy
    ++ be16 (min 65535 r.worstDelay) ++ r.counts.toList.flatMap be16 ++ be8 r.beyond
    ++ padText 16 r.job.ident ++ (r.soak.map SoakBlock.bytes).getD []
    ++ r.zones.flatMap Zone.bytes

/-! ### The TRAIL snapshot (R68, R189) -/

/-- A slice record of the snapshot; bit 7 of the flags when quench is required. -/
def SliceRec.bytes (sl : SliceRec) : List Byte :=
  be16 sl.index ++ be8 sl.segment ++ be32 sl.energy ++ be16 sl.peak
    ++ be32 ((sl.heatEnd.map BitVec.toNat).getD 0) ++ be32 ((sl.deadline.map BitVec.toNat).getD 0)
    ++ be8 (sl.flags.byte + if sl.quench then 128 else 0)

/-- High-water position and ring high-water; 0 in IDLE. -/
def StationState.highBytes (x : StationState) : List Byte :=
  match x.trail.high? with
  | none => List.replicate 8 0
  | some h => be32 h ++ signed32 ((h : Int) - x.settings.offset)

/-- The open slice; 0 unless the trail is OPEN. -/
def Trail.openBytes (t : Trail) : List Byte :=
  match t.phase with
  | .heating _ sl => be16 sl.index ++ be32 sl.energy ++ be16 sl.peak ++ be8 sl.flags.byte
  | _ => List.replicate 9 0

/-- The tallies so far. -/
def Tallies.bytes (t : Tallies) : List Byte :=
  be32 t.heated ++ be32 t.energy ++ be16 (min 65535 t.worstDelay) ++ be32 t.flagged
    ++ be8 t.zones.length ++ be8 t.beyond ++ be8 (if t.tankWarm then 1 else 0)

/-- The snapshot from ordinal `n`, with up to four slice records. -/
def StationState.snapshot (now : Time) (n : Nat) (x : StationState) : List Byte :=
  let t := x.trail
  let recs := (t.list.drop n).take 4
  be8 t.phase.code ++ be32 now.toNat ++ be8 t.list.length ++ be8 recs.length ++ x.highBytes
    ++ t.openBytes ++ t.tallies.bytes ++ recs.flatMap SliceRec.bytes

/-- The answer to TRAIL; cause 38 for an ordinal above 95 (R68, R181). -/
def StationState.answerTrail (now : Time) (n : Nat) (x : StationState) : Answer :=
  if 95 < n then Answer.badValue noIndex 38 else ⟨.accepted, x.snapshot now n⟩

end Sys2Proof.Machine
end

