-- ==== Sys2Proof/Machine/Jobs.lean ====
section
/-! DEFINITION. Jobs, records and run control (chapter 9): JOB, CANCEL, TAKE, STOP, RESUME, HOME, and the
resets of a station's own state. -/

namespace Sys2Proof.Machine

/-! ### JOB (R152, R153) -/

/-- The tag is neither pending nor current on the station (R154). -/
def StationState.tagFree (tag : Nat) (x : StationState) : Bool :=
  x.queue.all (fun j => j.tag != tag) && x.current.all fun c => c.job.tag != tag

/-- The entry joins the tail of the queue; an IDLE station enters WAIT-PART (R24, R153). -/
def StationState.enqueueJob (j : JobEntry) (x : StationState) : StationState :=
  { x with queue := x.queue ++ [j], mode := if x.mode = .idle then .waitPart else x.mode }

/-- Steps 6 to 9 of R152 on an entry whose fields have passed, and its acceptance. The reply counts the entries
pending at the acceptance, before the start conditions are judged (R153; log 8). -/
def State.placeJob (u : Station) (j : JobEntry) (s : State) : State × Answer :=
  match s.slot j.slot with
  | .ready h _ _ =>
    if !travelFits (s.st u).settings h.start h.stop then (s, Answer.badValue noIndex 37)
    else if Config.queueDepth ≤ (s.st u).queue.length then (s, ⟨.full, []⟩)
    else if !(s.st u).tagFree j.tag then (s, ⟨.dupTag, []⟩)
    else
      (((s.modSt u (StationState.enqueueJob j)).addRef j.slot).judgeStarts,
        ⟨.accepted, be8 ((s.st u).queue.length + 1)⟩)
  | _ => (s, ⟨.notReady, []⟩)

/-- JOB at station `u` (R152). -/
def State.submitJob (u : Station) (r : RawJob) (s : State) : State × Answer :=
  match jobFailure r with
  | some cause => (s, Answer.badValue noIndex cause)
  | none =>
    match jobKind r.kind, slotIndex r.profile with
    | some kind, some k => s.placeJob u ⟨r.tag, kind, k, r.repeats, r.ident⟩
    | _, _ => (s, Answer.badValue noIndex 36)

/-! ### CANCEL (R155, R156) -/

/-- The pending entry of a tag leaves the queue; the last one takes WAIT-PART to IDLE (R24). -/
def StationState.removeJob (tag : Nat) (x : StationState) : StationState :=
  let x := { x with queue := x.queue.eraseP fun j => j.tag == tag }
  if x.mode = .waitPart ∧ x.queue = [] then x.enterIdleOrWait else x

/-- The end-after-repeat marker, set or met by a CANCEL (R41). -/
def Context.markCancel (c : Context) : Context := { c with endAfterRepeat := true, cancelMet := true }

/-- The end-after-repeat marker, set or met by an abrupt STOP (R41). -/
def Context.markStop (c : Context) : Context := { c with endAfterRepeat := true, stopMet := true }

/-- The repeat in progress belongs to a DRY job and is non-final (R155). -/
def Context.openRepeat (c : Context) : Bool := c.job.kind == .dry && !c.final

/-- CANCEL of the current job, by the station's state (R155). -/
def State.cancelCurrent (u : Station) (c : Context) (s : State) : State × Answer :=
  match (s.st u).mode with
  | .walk => (s.endWalk u .cancelled .none, ⟨.accepted, []⟩)
  | .heat => (s.abortByHost u .cancel .cancelled, ⟨.accepted, []⟩)
  | .quenchOut | .flood => (s, ⟨.already, []⟩)
  | _ =>
    if c.openRepeat then
      (s.modSt u fun x => x.modContext Context.markCancel, ⟨.accepted, []⟩)
    else (s, ⟨.tooLate, []⟩)

/-- The current job of the tag at a station, if it is current there. -/
def StationState.currentOf (tag : Nat) (x : StationState) : Option Context :=
  x.current.filter fun c => c.job.tag == tag

/-- CANCEL at station `u` (R155). -/
def State.cancelJob (u : Station) (tag : Nat) (s : State) : State × Answer :=
  let x := s.st u
  if tag = 0 then (s, ⟨.notFound, []⟩)
  else
    match x.currentOf tag with
    | some c => s.cancelCurrent u c
    | none =>
      match x.queue.find? fun j => j.tag == tag with
      | some j =>
        (((s.modSt u (StationState.removeJob tag)).dropRef j.slot).judgeStarts, ⟨.accepted, []⟩)
      | none =>
        if x.finished = some tag then (s, ⟨.tooLate, []⟩) else (s, ⟨.notFound, []⟩)

/-! ### TAKE (R162) -/

/-- The oldest record leaves the list, and the room freed is judged at once. -/
def State.takeRecord (s : State) : State × Answer :=
  match s.records with
  | [] => (s, ⟨.empty, []⟩)
  | r :: rest => ((s.setRecords rest s.reservations).judgeStarts, ⟨.accepted, r.bytes⟩)

/-! ### STOP and RESUME (R163, R164, R165) -/

/-- A current DRY job sets its end-after-repeat marker (R41, R163). -/
def StationState.markNormalStop (x : StationState) : StationState :=
  x.modContext fun c => if c.harden then c else { c with endAfterRepeat := true }

/-- STOP NORMAL (R163). -/
def State.stopNormal (s : State) : State × Answer :=
  match s.run with
  | .running =>
    ((((s.setRun .stopping .normal).modSt .a StationState.markNormalStop).modSt .b
      StationState.markNormalStop).judgeRun, ⟨.accepted, []⟩)
  | _ => (s, ⟨.already, []⟩)

/-- An abrupt stop handed to station `u` (R164). -/
def State.handStop (u : Station) (s : State) : State :=
  match (s.st u).current with
  | none => s
  | some c =>
    match (s.st u).mode with
    | .walk => s.endWalk u .stopped .none
    | .heat => s.abortByHost u .stop .stopped
    | .runout | .returning =>
      if c.openRepeat then s.modSt u fun x => x.modContext Context.markStop else s
    | _ => s

/-- One thing done to both stations; where both have a current job the order is free (log 12). -/
def State.bothStations (act : Station → State → State) (s : State) : State :=
  if s.a.busy && s.b.busy then
    let first := if Config.stationAFirst s.freeIndex then Station.a else Station.b
    act first.other (act first { s with freeIndex := s.freeIndex + 1 })
  else act .b (act .a s)

/-- STOP ABRUPT (R164). -/
def State.stopAbrupt (s : State) : State × Answer :=
  match s.run with
  | .stopped => (s, ⟨.already, []⟩)
  | _ => (((s.setRun .stopping .abrupt).bothStations State.handStop).judgeRun, ⟨.accepted, []⟩)

/-- RESUME (R165). -/
def State.resumeRun (s : State) : State × Answer :=
  match s.run with
  | .running => (s, ⟨.already, []⟩)
  | _ => ((s.setRun .running .none).judgeStarts, ⟨.accepted, []⟩)

/-! ### HOME (R22) -/

def State.startHome (u : Station) (s : State) : State × Answer :=
  match (s.st u).mode with
  | .unhomed | .halted => (s.modSt u StationState.enterHoming, ⟨.accepted, []⟩)
  | _ => (s, ⟨.wrongState, []⟩)

/-! ### Clearing a queue (R157) -/

/-- Every pending job leaves the queue, each releasing its profile reference. -/
def State.clearQueue (u : Station) (s : State) : State :=
  (((s.st u).queue.foldl (fun s j => s.dropRef j.slot) s)).modSt u fun x => { x with queue := [] }

/-- The motion unit at a warm and at a station reset (R105). -/
def Motion.resetTo (valid : Bool) (m : Motion) : Motion :=
  { m.setMode .stop with
    valid := valid
    spindleTimer := none
    reverseRaised := false
    limitRaised := false
    spindleRaised := false
    spindleDemand := 0
    watch := .off }

/-- The quench unit at a warm and at a station reset, the flood apart (R122). -/
def Quench.resetRing (q : Quench) : Quench := { q.closeRing with proofSeen := false, flowRaised := false }

/-! ### STATION-RESET (R44, R69, R105, R122, R137, R150, R177) -/

/-- The station's own state after an accepted station reset; its faults not yet taken lapse (R177). -/
def StationState.stationReset (x : StationState) : StationState :=
  let halted := x.mode == .halted
  { x.lapse with
    mode := if halted || x.mode == .unhomed then .unhomed else .idle
    homeResult := if halted then .none else x.homeResult
    haltCause := if halted then .none else x.haltCause
    finished := none
    walk := {}
    trail := {}
    motion := x.motion.resetTo (x.motion.valid && !halted)
    quench := x.quench.resetRing
    lines := { x.lines with handshake := .idle, handshakeTimer := none } }

def State.resetStation (u : Station) (s : State) : State × Answer :=
  if (s.st u).mode.takesSettings then
    ((s.clearQueue u).modSt u StationState.stationReset, ⟨.accepted, []⟩)
  else (s, ⟨.busy, []⟩)

end Sys2Proof.Machine
end

