-- ==== Sys2Proof/Machine/Cycle.lean ====
section
/-! DEFINITION. The commands at a station's sequencer (R26, R94, R102, R167). -/

namespace Sys2Proof.Machine

/-- The head job is taken where the start conditions hold (R26; log 8), and the start conditions are judged
after it: a reservation, a record write and an entry to WAIT-PART are events of R25. -/
def execTakeHeadJob (u : Station) (s : State) : Host.Outcome State Fault Refusal :=
  .next (if s.startable u then (s.takeHead u).judgeStarts else s)

/-- The arrival of the move in force (R94; log 10). -/
def execMoveArrival (u : Station) (s : State) : Host.Outcome State Fault Refusal :=
  .next (s.moveArrived u)

/-- Spindle at speed: the watch turns off with the report, and W5 passes (R102; log 10). -/
def execSpindleAtSpeed (u : Station) (s : State) : Host.Outcome State Fault Refusal :=
  .next
    (if (s.st u).motion.watch = .found then
      let s := s.modSt u fun x => x.modMotion fun m => { m with watch := .off }
      if (s.st u).walk.current = some .w5 then s.passW5 u else s
    else s)

/-- A handed fault is taken (R167; log 9). -/
def execFaultTaken (u : Station) (fault : FaultCode) (s : State) : Host.Outcome State Fault Refusal :=
  .next (s.takeHanded u fault)

end Sys2Proof.Machine
end

