-- ==== Sys2Proof/Machine/LineEvents.lean ====
section
/-! DEFINITION. The commands of the input lines (chapter 8). An event that the line as sampled does not admit, a
change into the state it already has, changes nothing (log 7). -/

namespace Sys2Proof.Machine

/-- A sample of PRESENT, CLAMPED or HOLD (R140). -/
def execQualifiedInputSampleChange (u : Station) (line : LoaderLine) (active : Bool) (s : State) :
    Host.Outcome State Fault Refusal :=
  .next (s.takeSample u line active)

/-- The end of a qualification (R140). -/
def execQualificationExpiry (u : Station) (line : LoaderLine) (s : State) :
    Host.Outcome State Fault Refusal :=
  .next (s.expire ((s.st u).lines.qual line).timer fun s => s.takeQualified u line)

/-- AXIS-FAULT becoming active (R100). -/
def execAxisFaultActive (u : Station) (s : State) : Host.Outcome State Fault Refusal :=
  .next (if (s.st u).lines.axisFault then s else s.axisRaised u)

/-- AXIS-FAULT becoming inactive (R100). -/
def execAxisFaultInactive (u : Station) (s : State) : Host.Outcome State Fault Refusal :=
  .next (s.modSt u (StationState.setAxisLine false))

/-- HOME-SW changing (R92). -/
def execHomeSwChange (u : Station) (active : Bool) (s : State) : Host.Outcome State Fault Refusal :=
  .next (if (s.st u).lines.homeSw = active then s
    else s.modSt u (StationState.homeSwChanged active))

/-- COIL-FLOW becoming active (R127). -/
def execCoilFlowActive (u : Station) (s : State) : Host.Outcome State Fault Refusal :=
  .next (if (s.st u).lines.coilFlow then s else s.coilFlowOn u)

/-- COIL-FLOW becoming inactive (R117). -/
def execCoilFlowInactive (u : Station) (s : State) : Host.Outcome State Fault Refusal :=
  .next (if (s.st u).lines.coilFlow then s.coilFlowOff u else s)

/-- INV-READY becoming active (R132). -/
def execInvReadyActive (s : State) : Host.Outcome State Fault Refusal :=
  .next (if s.invReady then s else s.invReadyOn)

/-- INV-READY becoming inactive (R83). -/
def execInvReadyInactive (s : State) : Host.Outcome State Fault Refusal :=
  .next (if s.invReady then s.invReadyOff else s)

/-- INV-FAULT becoming active (R79). -/
def execInvFaultActive (s : State) : Host.Outcome State Fault Refusal :=
  .next (if s.invFault then s else s.invFaultOn)

/-- INV-FAULT becoming inactive (R80). -/
def execInvFaultInactive (s : State) : Host.Outcome State Fault Refusal :=
  .next (if s.invFault then s.invFaultOff else s)

end Sys2Proof.Machine
end

