-- ==== Sys2Proof/Machine/Reset.lean ====
section
/-! DEFINITION. The warm reset and the cold reset of the whole part. -/

namespace Sys2Proof.Machine

/-! ### Warm reset (R45, R65, R88, R105, R116, R122, R137, R150, R166, R174, R186) -/

/-- A running walk ends INTERRUPTED (R135, R137). -/
def Walk.interrupt (w : Walk) : Walk :=
  match w.current with
  | some c => w.finish c .interrupted .none
  | none => { w with timer := none }

/-- The quench unit at a warm reset: a flood begins where the trail held a quench-required slice and none is
running (R116). -/
def StationState.warmQuench (held : Bool) (x : StationState) : StationState :=
  let x := x.modQuench Quench.resetRing
  if held ∧ x.quench.flood = none then x.startFlood .warmReset else x

/-- The blocks of one station at a warm reset, before its sequencer (R174). -/
def StationState.warmBlocks (now : Time) (x : StationState) : StationState :=
  let x := x.modWalk Walk.interrupt
  let r := x.warmTally now
  let x := r.1.warmQuench r.2
  x.modMotion fun m => m.resetTo m.valid

/-- The state after a warm reset of a station without a current job (R45); its faults not yet taken lapse (R177). -/
def StationState.warmIdle (x : StationState) : StationState :=
  let x := x.lapse
  match x.mode with
  | .homing => x.homingFailed
  | .waitPart => { x with mode := .idle }
  | _ => x

/-- The sequencer of station `u` at a warm reset (R45, R174). -/
def State.warmSequencer (u : Station) (s : State) : State :=
  if (s.st u).busy then
    let s :=
      if (s.st u).mode = .heat then s.modSt u (StationState.stopHeat s.time) else s
    (s.writeRecord u (some .interrupted)).modSt u (StationState.enterHalted .warmReset)
  else s.modSt u StationState.warmIdle

/-- The lines of station `u` at a warm reset: the handshake begins again in RELEASE, and qualification starts
afresh (R140, R146, R150). Without a qualification time the differing lines are taken at once, in the order
PRESENT, CLAMPED, HOLD: the model's choice (log 24). -/
def State.warmLines (u : Station) (s : State) : State :=
  let s := s.modSt u fun x =>
    let y := x.setHandshake .idle none
    if y.mode = .release then y.beginHandshake else y
  ((s.requalify u .present).requalify u .clamped).requalify u .hold

/-- The channel at a warm reset (R88). -/
def Channel.warmReset (c : Channel) : Channel :=
  { c with
    state := .free
    waiting := []
    lastHolder := none
    changeover := none
    response := none
    noPowerGiven := false
    settle := none
    demand := 0 }

/-- The warm reset (R45, R88, R163). -/
def State.warmReset (s : State) : State :=
  let s := s.setChannel s.channel.warmReset
  let s := (s.modSt .a (StationState.warmBlocks s.time)).modSt .b (StationState.warmBlocks s.time)
  let s := s.bothStations State.warmSequencer
  let s := ((s.clearQueue .a).clearQueue .b).setRun .running .none
  let s := (s.warmLines .a).warmLines .b
  if s.invFault then s.channelFault else s

/-! ### Cold reset -/

/-- A qualified input at its first sample (R140). -/
def firstQual (active : Bool) : QualInput := ⟨active, active, none⟩

/-- A station right after a cold reset, its inputs at their first samples (R19, R150). -/
def coldStation (f : StationSamples) : StationState :=
  { lines :=
      { present := firstQual f.present
        clamped := firstQual f.clamped
        hold := firstQual f.hold
        axisFault := f.axisFault
        homeSw := f.homeSw
        coilFlow := f.coilFlow } }

/-- The cold reset: everything at its reset value, the inputs at their first samples, and INV-FAULT, if
active, taken by the channel (R70, R141; log 26). The queue of commands waiting is not the part's. -/
def State.coldReset (f : FirstSamples) (s : State) : State :=
  { State.reset with
    pending := s.pending
    freeIndex := s.freeIndex
    a := coldStation f.a
    b := coldStation f.b
    invReady := f.invReady
    invFault := f.invFault
    resetLine := f.resetLine
    channel := { state := if f.invFault then .faulted else .free } }

end Sys2Proof.Machine
end

