-- ==== Sys2Proof/Machine/LinkEvents.lean ====
section
/-! DEFINITION. The commands of the link's own events and of the resets (R141, R178, R180, R186). -/

namespace Sys2Proof.Machine

/-- The cold reset (R1, R186), with the first sample of every input. -/
def execColdReset (first : FirstSamples) (s : State) : Host.Outcome State Fault Refusal :=
  .next (s.coldReset first)

/-- The RESET line becoming active performs one warm reset (R141). -/
def execResetLineActive (s : State) : Host.Outcome State Fault Refusal :=
  .next (if s.resetLine then s else ({ s with resetLine := true }).warmReset)

/-- The RESET line becoming inactive (R141). -/
def execResetLineInactive (s : State) : Host.Outcome State Fault Refusal :=
  .next { s with resetLine := false }

/-- The last CRC byte of a frame (R179; log 6). -/
def execRequestComplete (crcLow : Byte) (s : State) : Host.Outcome State Fault Refusal :=
  .next (s.setLink (s.link.lastByte crcLow))

/-- One byte of the receive pair (R178). -/
def execByteTaken (byte : Byte) (framingError : Bool) (s : State) : Host.Outcome State Fault Refusal :=
  .next (s.setLink (s.link.takeByte byte framingError))

/-- The gap timer's expiry abandons the frame (R178). -/
def execGapTimerExpiry (s : State) : Host.Outcome State Fault Refusal :=
  .next (s.expire s.link.gapTimer fun s => s.setLink s.link.hunt)

/-- The idle timer's expiry places a too-long entry (R178). -/
def execIdleTimerExpiry (s : State) : Host.Outcome State Fault Refusal :=
  .next (s.expire s.link.idleTimer fun s => s.setLink s.link.idleDue)

/-- The last byte of a reply has been sent: the transaction ends, the warm reset of R186 follows a RESET, and
the next entry is taken (R180). -/
def execReplySent (s : State) : Host.Outcome State Fault Refusal :=
  .next
    (match s.link.transaction with
    | .replying _ resetAfter =>
      let s := s.setLink { s.link with transaction := .none }
      let s := if resetAfter then s.warmReset else s
      s.setLink s.link.takeNext
    | _ => s)

end Sys2Proof.Machine
end

