-- ==== Sys2Proof/Machine/Readings.lean ====
section
/-! DEFINITION. The commands of the measurement inputs (R81, R91, R101, R107, R118). -/

namespace Sys2Proof.Machine

/-- One reading of measured power, in 0.1 kW (R81). -/
def execPowerReading (power : BitVec 16) (s : State) : Host.Outcome State Fault Refusal :=
  .next (s.readPower power.toNat)

/-- One encoder reading, a signed position in µm (R91). -/
def execEncoderReading (u : Station) (raw : BitVec 32) (order : ReadingOrder) (s : State) :
    Host.Outcome State Fault Refusal :=
  .next (s.readEncoder u raw.toInt order)

/-- One rpm reading (R101). -/
def execRpmReading (u : Station) (rpm : BitVec 16) (s : State) : Host.Outcome State Fault Refusal :=
  .next (s.modSt u (StationState.readRpm rpm.toNat))

/-- One ring flow reading, in 0.1 L/min (R107). -/
def execFlowReading (u : Station) (flow : BitVec 16) (s : State) : Host.Outcome State Fault Refusal :=
  .next (s.modSt u (StationState.readFlow flow.toNat))

/-- One tank reading, signed, in 0.1 °C (R118). -/
def execTankReading (temperature : BitVec 16) (s : State) : Host.Outcome State Fault Refusal :=
  .next (s.readTank temperature.toInt)

end Sys2Proof.Machine
end

