-- ==== Sys2Proof/Machine/Requests.lean ====
section
/-! DEFINITION. The request commands (R181): each serves the entry the link has taken, where it is a request of
that row. -/

namespace Sys2Proof.Machine

def execTooLong (s : State) : Host.Outcome State Fault Refusal :=
  .next (s.serve .tooLong fun _ s => (s, ⟨.tooLong, []⟩))

def execUndefinedRequest (s : State) : Host.Outcome State Fault Refusal :=
  .next (s.serve .undefinedRequest fun e s =>
    (s, ⟨if e.unit.toNat ≤ 2 then .unknownKind else .unsupportedUnit, []⟩))

def execDescribe (s : State) : Host.Outcome State Fault Refusal :=
  .next (s.serve .describe fun _ s => (s, ⟨.accepted, describeBytes⟩))

def execStatus (s : State) : Host.Outcome State Fault Refusal :=
  .next (s.serve .status fun e s => (s, s.answerStatus (field e.payload 0 1)))

def execSet (s : State) : Host.Outcome State Fault Refusal :=
  .next (s.serve .set fun e s =>
    match unitStation e.unit with
    | some u => s.setStation u (readPairs e.payload)
    | none => s.setCommon (readPairs e.payload))

def execGet (s : State) : Host.Outcome State Fault Refusal :=
  .next (s.serve .get fun e s =>
    match unitStation e.unit with
    | some u => (s, answerGet (s.st u).settings.get e.payload)
    | none => (s, answerGet s.common.get e.payload))

def execProfileOpen (s : State) : Host.Outcome State Fault Refusal :=
  .next (s.serve .profileOpen fun e s => openSlot (field e.payload 0 1) (readHeader e.payload) s)

def execProfilePut (s : State) : Host.Outcome State Fault Refusal :=
  .next (s.serve .profilePut fun e s =>
    putSegment (field e.payload 0 1) (field e.payload 1 1) (readSegment e.payload) s)

def execProfileClose (s : State) : Host.Outcome State Fault Refusal :=
  .next (s.serve .profileClose fun e s => closeSlot (field e.payload 0 1) s)

def execProfileDrop (s : State) : Host.Outcome State Fault Refusal :=
  .next (s.serve .profileDrop fun e s => dropSlot (field e.payload 0 1) s)

def execProfileRead (s : State) : Host.Outcome State Fault Refusal :=
  .next (s.serve .profileRead fun e s =>
    (s, readSlot (field e.payload 0 1) (field e.payload 1 1) s))

def execTake (s : State) : Host.Outcome State Fault Refusal :=
  .next (s.serve .take fun _ s => s.takeRecord)

/-- STOP with mode 1; a mode that is neither 1 nor 2 gives BAD-VALUE, cause 39 (R163, R181; log 5). -/
def execStopNormal (s : State) : Host.Outcome State Fault Refusal :=
  .next (s.serve .stopNormal fun e s =>
    if field e.payload 0 1 = 1 then s.stopNormal else (s, Answer.badValue noIndex 39))

/-- STOP with mode 2 (R164; log 5). -/
def execStopAbrupt (s : State) : Host.Outcome State Fault Refusal :=
  .next (s.serve .stopAbrupt fun _ s => s.stopAbrupt)

def execResume (s : State) : Host.Outcome State Fault Refusal :=
  .next (s.serve .resume fun _ s => s.resumeRun)

/-- RESET (R186): the warm reset follows the last byte of the reply. -/
def execReset (s : State) : Host.Outcome State Fault Refusal :=
  .next (s.serve .reset fun _ s => (s, ⟨.accepted, []⟩))

def execJob (s : State) : Host.Outcome State Fault Refusal :=
  .next (s.serveStation .job fun u e s => s.submitJob u (readJob e.payload))

def execCancel (s : State) : Host.Outcome State Fault Refusal :=
  .next (s.serveStation .cancel fun u e s => s.cancelJob u (field e.payload 0 2))

def execTrail (s : State) : Host.Outcome State Fault Refusal :=
  .next (s.serveStation .trail fun u e s => (s, (s.st u).answerTrail s.time (field e.payload 0 1)))

def execHome (s : State) : Host.Outcome State Fault Refusal :=
  .next (s.serveStation .home fun u _ s => s.startHome u)

def execStationReset (s : State) : Host.Outcome State Fault Refusal :=
  .next (s.serveStation .stationReset fun u _ s => s.resetStation u)

end Sys2Proof.Machine
end

