-- ==== Sys2Proof/Machine/Timers.lean ====
section
/-! DEFINITION. The commands of timer expiries. A stopped timer has no expiry; a running one lets the
milliseconds it has left pass (log 2). -/

namespace Sys2Proof.Machine

/-- The changeover timer (R75). -/
def execChangeoverExpiry (s : State) : Host.Outcome State Fault Refusal :=
  .next (s.expire s.channel.changeover State.changeoverDue)

/-- The inverter response limit: the holder receives NO-POWER, at most once in a turn (R82; log 35). -/
def execResponseTimerExpiry (s : State) : Host.Outcome State Fault Refusal :=
  .next (s.expire s.channel.response fun s =>
    let s := s.setChannel { s.channel with response := none }
    match s.channel.holderInHeat with
    | some u =>
      if s.channel.noPowerGiven then s
      else (s.setChannel { s.channel with noPowerGiven := true }).modSt u (StationState.hand .noPower)
    | none => s)

/-- The settle timer (R84). -/
def execSettleTimerExpiry (s : State) : Host.Outcome State Fault Refusal :=
  .next (s.expire s.channel.settle fun s => s.setChannel { s.channel with settle := none })

/-- The homing search limit (R93). -/
def execSearchTimerExpiry (u : Station) (s : State) : Host.Outcome State Fault Refusal :=
  .next (s.expire (s.st u).motion.searchTimer fun s => s.modSt u StationState.homingFailed)

/-- The stall time: STALL is raised (R97). -/
def execStallTimerExpiry (u : Station) (s : State) : Host.Outcome State Fault Refusal :=
  .next (s.expire (s.st u).motion.stallTimer fun s => s.modSt u fun x =>
    (x.modMotion fun m => { m with stallTimer := none }).hand .stall)

/-- The spindle timer: SPINDLE is raised (R103). -/
def execSpindleTimerExpiry (u : Station) (s : State) : Host.Outcome State Fault Refusal :=
  .next (s.expire (s.st u).motion.spindleTimer fun s => s.modSt u fun x =>
    (x.modMotion fun m => { m with spindleTimer := none, spindleRaised := true }).hand .spindle)

/-- The dwell time (R31). -/
def execDwellExpiry (u : Station) (s : State) : Host.Outcome State Fault Refusal :=
  .next (s.expire (s.st u).dwellTimer (State.dwellDue u))

/-- The deadline of a slice in the list: LATE (R56). -/
def execDeadlineExpiry (u : Station) (slice : Nat) (s : State) : Host.Outcome State Fault Refusal :=
  .next (match (s.st u).trail.list.find? fun sl => sl.index == slice with
    | some sl => s.expire sl.timer fun s => s.modSt u fun x => x.modTrail (Trail.late slice)
    | none => s)

/-- The proof time: PASSED passes W6, FAILED fails it (R113, R130). -/
def execProofTimerExpiry (u : Station) (s : State) : Host.Outcome State Fault Refusal :=
  .next (s.expire (s.st u).quench.proofTimer fun s =>
    let s := s.modSt u fun x => x.modQuench Quench.endProof
    if (s.st u).walk.current = some .w6 then
      if (s.st u).quench.proofResult = .passed then s.passW6 u else s.endWalk u .failed .proofFailed
    else s)

/-- The flow rise time, with the QUENCH-FLOW judgement (R111, R112). -/
def execFlowRiseExpiry (u : Station) (s : State) : Host.Outcome State Fault Refusal :=
  .next (s.expire (s.st u).quench.riseTimer fun s => s.modSt u fun x =>
    (x.modQuench fun q => { q with riseTimer := none }).judgeFlow)

/-- The after-quench time: the ring valve closes, and in RUNOUT and QUENCH-OUT the station leaves for RETURN if
its trail is empty (R109, R34). -/
def execAfterQuenchExpiry (u : Station) (s : State) : Host.Outcome State Fault Refusal :=
  .next (s.expire (s.st u).quench.afterTimer fun s => s.modSt u fun x =>
    (x.modQuench Quench.closeRing).checkDrained)

/-- The flood time: the flood valve closes, and in FLOOD the record is written and the station halts (R115,
R35); the write is an event of R25 at the other station. -/
def execFloodTimerExpiry (u : Station) (s : State) : Host.Outcome State Fault Refusal :=
  .next (s.expire ((s.st u).quench.flood.map fun f => f.remaining) fun s =>
    let s := s.modSt u fun x => x.modQuench fun q => { q with flood := none }
    if (s.st u).mode = .flood then
      ((s.writeRecord u none).modSt u (StationState.enterHalted .flood)).judgeStarts
    else s)

/-- The step timer: the current checkpoint fails (R125). -/
def execStepTimerExpiry (u : Station) (s : State) : Host.Outcome State Fault Refusal :=
  .next (s.expire (s.st u).walk.timer fun s =>
    s.endWalk u .failed (if (s.st u).walk.current = some .w7 then .powerWait else .stepLimit))

/-- The handshake timer (R143, R145), with the start conditions judged where the handshake completes into
WAIT-PART (R25). -/
def execHandshakeTimerExpiry (u : Station) (s : State) : Host.Outcome State Fault Refusal :=
  .next (s.expire (s.st u).lines.handshakeTimer fun s =>
    (s.modSt u StationState.handshakeDue).judgeStarts)

end Sys2Proof.Machine
end

