-- ==== Sys2Proof/Machine/Dispatch.lean ====
section
/-! DEFINITION. The meaning of every command: one arm per constructor of Instr. -/

namespace Sys2Proof.Machine

def exec (i : Instr) (s : State) : Host.Outcome State Fault Refusal :=
  match i with
  | .coldReset first => Sys2Proof.Machine.execColdReset first s
  | .resetLineActive => Sys2Proof.Machine.execResetLineActive s
  | .requestComplete crcLow => Sys2Proof.Machine.execRequestComplete crcLow s
  | .gapTimerExpiry => Sys2Proof.Machine.execGapTimerExpiry s
  | .idleTimerExpiry => Sys2Proof.Machine.execIdleTimerExpiry s
  | .replySent => Sys2Proof.Machine.execReplySent s
  | .tooLong => Sys2Proof.Machine.execTooLong s
  | .undefinedRequest => Sys2Proof.Machine.execUndefinedRequest s
  | .describe => Sys2Proof.Machine.execDescribe s
  | .status => Sys2Proof.Machine.execStatus s
  | .set => Sys2Proof.Machine.execSet s
  | .get => Sys2Proof.Machine.execGet s
  | .profileOpen => Sys2Proof.Machine.execProfileOpen s
  | .profilePut => Sys2Proof.Machine.execProfilePut s
  | .profileClose => Sys2Proof.Machine.execProfileClose s
  | .profileDrop => Sys2Proof.Machine.execProfileDrop s
  | .profileRead => Sys2Proof.Machine.execProfileRead s
  | .take => Sys2Proof.Machine.execTake s
  | .stopNormal => Sys2Proof.Machine.execStopNormal s
  | .stopAbrupt => Sys2Proof.Machine.execStopAbrupt s
  | .resume => Sys2Proof.Machine.execResume s
  | .reset => Sys2Proof.Machine.execReset s
  | .job => Sys2Proof.Machine.execJob s
  | .cancel => Sys2Proof.Machine.execCancel s
  | .trail => Sys2Proof.Machine.execTrail s
  | .home => Sys2Proof.Machine.execHome s
  | .stationReset => Sys2Proof.Machine.execStationReset s
  | .takeHeadJob u => Sys2Proof.Machine.execTakeHeadJob u s
  | .qualifiedInputSampleChange u line active => Sys2Proof.Machine.execQualifiedInputSampleChange u line active s
  | .qualificationExpiry u line => Sys2Proof.Machine.execQualificationExpiry u line s
  | .axisFaultActive u => Sys2Proof.Machine.execAxisFaultActive u s
  | .homeSwChange u active => Sys2Proof.Machine.execHomeSwChange u active s
  | .coilFlowActive u => Sys2Proof.Machine.execCoilFlowActive u s
  | .coilFlowInactive u => Sys2Proof.Machine.execCoilFlowInactive u s
  | .invReadyActive => Sys2Proof.Machine.execInvReadyActive s
  | .invReadyInactive => Sys2Proof.Machine.execInvReadyInactive s
  | .invFaultActive => Sys2Proof.Machine.execInvFaultActive s
  | .invFaultInactive => Sys2Proof.Machine.execInvFaultInactive s
  | .powerReading power => Sys2Proof.Machine.execPowerReading power s
  | .encoderReading u raw order => Sys2Proof.Machine.execEncoderReading u raw order s
  | .moveArrival u => Sys2Proof.Machine.execMoveArrival u s
  | .rpmReading u rpm => Sys2Proof.Machine.execRpmReading u rpm s
  | .spindleAtSpeed u => Sys2Proof.Machine.execSpindleAtSpeed u s
  | .flowReading u flow => Sys2Proof.Machine.execFlowReading u flow s
  | .tankReading temperature => Sys2Proof.Machine.execTankReading temperature s
  | .faultTaken u fault => Sys2Proof.Machine.execFaultTaken u fault s
  | .changeoverExpiry => Sys2Proof.Machine.execChangeoverExpiry s
  | .responseTimerExpiry => Sys2Proof.Machine.execResponseTimerExpiry s
  | .settleTimerExpiry => Sys2Proof.Machine.execSettleTimerExpiry s
  | .searchTimerExpiry u => Sys2Proof.Machine.execSearchTimerExpiry u s
  | .stallTimerExpiry u => Sys2Proof.Machine.execStallTimerExpiry u s
  | .spindleTimerExpiry u => Sys2Proof.Machine.execSpindleTimerExpiry u s
  | .dwellExpiry u => Sys2Proof.Machine.execDwellExpiry u s
  | .deadlineExpiry u slice => Sys2Proof.Machine.execDeadlineExpiry u slice s
  | .proofTimerExpiry u => Sys2Proof.Machine.execProofTimerExpiry u s
  | .flowRiseExpiry u => Sys2Proof.Machine.execFlowRiseExpiry u s
  | .afterQuenchExpiry u => Sys2Proof.Machine.execAfterQuenchExpiry u s
  | .floodTimerExpiry u => Sys2Proof.Machine.execFloodTimerExpiry u s
  | .stepTimerExpiry u => Sys2Proof.Machine.execStepTimerExpiry u s
  | .handshakeTimerExpiry u => Sys2Proof.Machine.execHandshakeTimerExpiry u s
  | .byteTaken byte framingError => Sys2Proof.Machine.execByteTaken byte framingError s
  | .axisFaultInactive u => Sys2Proof.Machine.execAxisFaultInactive u s
  | .resetLineInactive => Sys2Proof.Machine.execResetLineInactive s

end Sys2Proof.Machine
end

