-- ==== Sys2Proof/Safety.lean ====
section
/-! DEFINITION. What the statements call safe: the invariants of the part that every step keeps. -/

namespace Sys2Proof.Machine

/-- The station states with a current job (R19). -/
def Mode.cycling : Mode → Bool
  | .walk | .heat | .runout | .quenchOut | .flood | .returning => true
  | _ => false

/-- How many stations have a current job. -/
def State.busyCount (s : State) : Nat := s.a.busy.toNat + s.b.busy.toNat

/-- Records held plus reservations never exceeds 16, each station with a current job holds the one
reservation, and a current job is there only in the states of R19 that have one (R158). -/
def RecordsSafe (s : State) : Prop :=
  s.reservations = s.busyCount ∧ s.records.length + s.reservations ≤ Config.recordCapacity
    ∧ ∀ u, (s.st u).busy = true → (s.st u).mode.cycling = true

/-- The power demand output is nonzero only while the channel is HELD with its holder in HEAT (R71). -/
def DemandSafe (s : State) : Prop := s.channel.demand ≠ 0 → s.channel.holderInHeat.isSome = true

/-- The receive buffer holds at most two entries, and an entry waits only behind a transaction (R180). -/
def LinkSafe (s : State) : Prop :=
  s.link.buffer.length ≤ Config.bufferCapacity
    ∧ (s.link.transaction = .none → s.link.buffer = [])

/-- The tags of a station's pending and current jobs. -/
def StationState.tags (x : StationState) : List Nat :=
  (x.current.map fun c => c.job.tag).toList ++ x.queue.map fun j => j.tag

/-- At most 8 pending jobs a station, and no two pending and current jobs of it share a tag (R154). -/
def QueuesSafe (s : State) : Prop :=
  ∀ u, (s.st u).queue.length ≤ Config.queueDepth ∧ (s.st u).tags.Nodup

/-- The jobs of a station, pending and current, that name slot `k`. -/
def StationState.naming (k : Fin 8) (x : StationState) : Nat :=
  (x.queue.filter fun j => j.slot == k).length
    + (x.current.toList.filter fun c => c.job.slot == k).length

/-- Each slot's reference count is the number of pending and current jobs that name it, and a current job is
there only in the states of R19 that have one (R11). -/
def ReferencesSafe (s : State) : Prop :=
  (∀ k : Fin 8, (s.slot k).refs = s.a.naming k + s.b.naming k)
    ∧ ∀ u, (s.st u).busy = true → (s.st u).mode.cycling = true

/-- No station waits with a head job whose start conditions hold: the job was taken at once at the event that made
them hold (R25). -/
def StartsTaken (s : State) : Prop := ∀ u, s.startable u = false

/-! ### Words of the statements -/

/-- The link has taken `e`, a request of the row with a length the row allows (R181). -/
abbrev Asked (row : RequestRow) (e : Entry) (s : State) : Prop :=
  s.link.transaction = .taken e ∧ e.row = row ∧ lengthAllowed row e.payload = true

/-- The state `s` with the reply to `e` composed: the summary of that moment, and the overrun flag cleared once
it has been told (R179, R182); `reset` when the warm reset of R186 follows its last byte. -/
def State.answered (e : Entry) (o : ReplyOutcome) (payload : List Byte) (reset : Bool) (s : State) :
    State :=
  { s with
    link :=
      { s.link with
        overrun := false
        transaction := .replying ⟨e.unit, e.kind, e.tag, o, s.summary, payload⟩ reset } }

/-- The command of a request row. -/
def RequestRow.command : RequestRow → Instr
  | .tooLong => .tooLong
  | .undefinedRequest => .undefinedRequest
  | .describe => .describe
  | .status => .status
  | .set => .set
  | .get => .get
  | .profileOpen => .profileOpen
  | .profilePut => .profilePut
  | .profileClose => .profileClose
  | .profileDrop => .profileDrop
  | .profileRead => .profileRead
  | .take => .take
  | .stopNormal => .stopNormal
  | .stopAbrupt => .stopAbrupt
  | .resume => .resume
  | .reset => .reset
  | .job => .job
  | .cancel => .cancel
  | .trail => .trail
  | .home => .home
  | .stationReset => .stationReset

/-- A command taken where `changed`, and nothing otherwise. -/
def taken (changed : Bool) (c : Instr) (s : State) : Host.Outcome State Fault Refusal :=
  if changed then exec c s else .next s

/-- What no command of a station's cycle touches: the clock, the link, the tank, the settings of the part, the
common input lines and the library's slots but for their counts. -/
structure Around (s t : State) : Prop where
  pending : t.pending = s.pending
  time : t.time = s.time
  link : t.link = s.link
  tank : t.tank = s.tank
  common : t.common = s.common
  invReady : t.invReady = s.invReady
  invFault : t.invFault = s.invFault
  resetLine : t.resetLine = s.resetLine
  stopMode : t.stopMode = s.stopMode
  slots : ∀ k, (t.slot k).header? = (s.slot k).header? ∧ (t.slot k).entries = (s.slot k).entries

/-- A current job's record has been written through its reservation: one record more, one reservation less, one
reference less to its slot (R37). -/
def RecordWritten (u : Station) (c : Context) (r : Record) (s t : State) : Prop :=
  t.records = s.records ++ [r] ∧ t.reservations = s.reservations - 1 ∧ t.slots = (s.dropRef c.job.slot).slots
    ∧ (t.st u).current = none ∧ t.run = if s.run = .stopping ∧ (s.st u.other).busy = false then .stopped else s.run

/-- A handshake begun now lasts: HOLD holds it back, or DONE stands or pulses. Otherwise it completes at once: a LEVEL
or DELAYED handshake without a DONE delay whose shaft has already gone (R144). -/
abbrev StationState.Releases (x : StationState) : Prop :=
  x.lines.hold.qualified = true ∨ x.lines.present.qualified = true ∨ x.settings.handshakeType = .pulse
    ∨ 0 < x.settings.doneDelay

/-- The outcome of a record where no warm reset and no failed recheck gives it: a fault, then a pending outcome, then
the flags, with the end-after-repeat marker ahead of a DRY job's flags (R172). -/
def outcomeOrder (c : Context) (flagged : Nat) : RecordOutcome :=
  if c.firstFault ≠ none then .faulted
  else if c.pendingOutcome = .notStarted then .notStarted
  else if c.pendingOutcome = .cancelled then .cancelled
  else if c.pendingOutcome = .stopped then .stopped
  else if c.pendingOutcome = .faulted then .faulted
  else if c.job.kind = .harden then (if flagged = 0 then .good else .reject)
  else if c.endAfterRepeat = true ∧ c.cancelMet = true then .cancelled
  else if c.endAfterRepeat = true ∧ c.stopMet = true then .stopped
  else if flagged = 0 then .dryGood
  else .dryFlagged

/-- The context with a fault recorded: in the first of the two fields that is free, with pending outcome FAULTED
(R169). -/
def faultRecorded (f : FaultCode) (c : Context) : Context :=
  if c.firstFault = none then { c with firstFault := some f, pendingOutcome := .faulted }
  else if c.secondFault = none then { c with secondFault := some f, pendingOutcome := .faulted }
  else { c with pendingOutcome := .faulted }

/-- The library, the records and run control as they were. -/
structure NoRecord (s t : State) : Prop where
  slots : t.slots = s.slots
  records : t.records = s.records
  reservations : t.reservations = s.reservations
  run : t.run = s.run

/-- The station that R73 chooses among the requests waiting. -/
abbrev Chosen (c : Channel) (v : Station) : Prop :=
  c.waiting = [v]
    ∨ (c.waiting = [.a, .b] ∨ c.waiting = [.b, .a])
      ∧ (c.lastHolder = some v.other ∨ c.lastHolder = none ∧ c.waiting.head? = some v)

/-- A travel mode set: the mode in force is replaced, a move or search is abandoned with its arrival unreported, and the
search and stall timers stop (R90, R97). -/
def modeSet (m : TravelMode) (x : Motion) : Motion :=
  { x with mode := m, arrival := .awaited, searchTimer := none, stallTimer := none }

/-- The spindle demand set: a running spindle timer starts again from 250 ms where the demand changes (R103). -/
def spindleSet (demand : Nat) (x : Motion) : Motion :=
  { x with
    spindleDemand := demand
    spindleTimer := if x.spindleDemand = demand then x.spindleTimer else x.spindleTimer.map fun _ => 250 }

/-- The motion unit as RETURN is entered: to position 0 at `speed`, the spindle at rest, and the markers of a trail gone
IDLE cleared (R36, R98, R99, R103). -/
def motionInReturn (speed : Nat) (x : Motion) : Motion :=
  { modeSet (.moveTo 0 speed) x with
    spindleDemand := 0, spindleTimer := none, reverseRaised := false, limitRaised := false }

/-- What HOLD, SCAN or MOVE-TO, set with AXIS-FAULT active, hands to the sequencer (R100). -/
def axisHanded (x : StationState) : List FaultCode := if x.lines.axisFault then [.axis] else []

/-- The channel after demand `d` issued by station `u`: one that differs from the demand in force is taken from the
holder in HEAT and starts the settle timer again, which a settle time of 0 leaves stopped; any other changes nothing
(R71, R84). -/
def demandIssued (u : Station) (d : Nat) (s : State) : Channel :=
  if s.channel.state = .held u true ∧ d ≠ s.channel.demand then
    { s.channel with
      demand := d
      settle := if s.common.settleTime = 0 then none else some s.common.settleTime }
  else s.channel

/-- The handshake and its timer as RELEASE is entered: held back under HOLD, else the start step of its type, a LEVEL
or DELAYED one whose shaft has gone falling back to a pulse (R143, R144). -/
def handshakeBegun (x : StationState) : Handshake × Timer :=
  let delay := x.settings.doneDelay
  if x.lines.hold.qualified then (.heldBack, none)
  else if x.settings.handshakeType = .delayed ∧ 0 < delay then (.delaying, some delay)
  else if x.settings.handshakeType = .pulse ∨ x.lines.present.qualified = false then (.pulsing, some delay)
  else (.asserted, none)

/-- The part-consumed flag as RELEASE is entered: set where DONE is asserted at once with PRESENT active (R43, R144). -/
def consumedBegun (x : StationState) : Bool :=
  if x.lines.hold.qualified = true ∨ x.settings.handshakeType = .delayed ∧ 0 < x.settings.doneDelay then
    x.partConsumed
  else x.partConsumed || x.lines.present.qualified

/-- Station `x` has entered RELEASE and is now `y`: with a handshake that lasts it stands there with the release-owed
marker and the finished job as given; otherwise the handshake has completed at once, into WAIT-PART or IDLE. -/
structure ReleaseEntered (x y : StationState) (owed : Option Bool) (finished : Option Nat) : Prop where
  lasts : x.Releases →
    y.mode = .release ∧ y.releaseOwed = owed ∧ y.finished = finished
      ∧ (y.lines.handshake, y.lines.handshakeTimer) = handshakeBegun x
  completes : ¬ x.Releases →
    y.mode = (if y.queue = [] then .idle else .waitPart) ∧ y.releaseOwed = none ∧ y.finished = none
      ∧ y.lines.handshake = .idle ∧ y.lines.handshakeTimer = none
  consumed : y.partConsumed = consumedBegun x
  lines : y.lines =
    { x.lines with handshake := y.lines.handshake, handshakeTimer := y.lines.handshakeTimer }
  rest : y.motion.mode = .stop ∧ y.motion.spindleDemand = 0

/-- HEAT has been entered by station `u` of `s`, its walk passed: what R29 leaves at the station, R62 and R66 in its
tallies, R117 among its faults, and R78 at a channel it holds. -/
structure HeatEntered (u : Station) (s t : State) : Prop where
  mode : (t.st u).mode = .heat
  walk : (t.st u).walk =
    { (s.st u).walk with current := none, timer := none, reached := 8, result := .passed }
  job : (t.st u).current =
    (s.st u).current.map fun c =>
      { c with
        heatStart := s.time
        heated := true
        repeatsDone := if c.job.kind = .harden then c.repeatsDone else c.repeatsDone + 1 }
  trail : (t.st u).trail =
    { phase := .heating (s.profileOf u).start (newSlice (s.st u).settings (s.profileOf u) 0)
      list := []
      remainder := 0
      run := .none
      tallies :=
        { (s.st u).trail.tallies with
          repeatUnion := {}
          tankWarm := (s.st u).trail.tallies.tankWarm || decide (s.tank.state ≠ .normal) } }
  motion : (t.st u).motion =
    { spindleSet (segGet (s.profileOf u).segs 0).rotation (modeSet (t.st u).motion.mode (s.st u).motion) with
      spindleRaised := false }
  scans : (segGet (s.profileOf u).segs 0).dwell = none →
    (t.st u).motion.mode = .scan (segGet (s.profileOf u).segs 0).speed ∧ (t.st u).dwellTimer = none
      ∧ (t.st u).dwells = []
  holds : ∀ n, (segGet (s.profileOf u).segs 0).dwell = some n →
    (t.st u).motion.mode = .hold ∧ (t.st u).dwellTimer = some n ∧ (t.st u).dwells = [0]
  faults : (t.st u).handed =
    (s.st u).handed ++ axisHanded (s.st u)
      ++ (if s.channel.holder = some u ∧ (s.st u).lines.coilFlow = false then [.coilFlow] else [])
  kept : (t.st u).queue = (s.st u).queue ∧ (t.st u).quench = (s.st u).quench
    ∧ (t.st u).lines = (s.st u).lines ∧ (t.st u).settings = (s.st u).settings
  power : s.channel.holder = some u →
    t.channel =
      { s.channel with
        state := .held u true
        demand := entryDemand (s.profileOf u) (s.st u).settings.powerLead
        settle := if s.common.settleTime = 0 then none else some s.common.settleTime }
  unheld : s.channel.holder ≠ some u → t.channel = s.channel
  other : t.st u.other = s.st u.other
  records : NoRecord s t
  around : Around s t

/-- Station `v` has come to hold the channel of `s` and has been told so: its W7 passes, and with INV-READY active its
W8 with it, into HEAT with the first demand (R74, R131, R132, R29). Its turn begins without a NO-POWER given (R82;
log 35). -/
structure Granted (v : Station) (s t : State) : Prop where
  holder : t.channel.lastHolder = some v ∧ t.channel.switchAt = s.channel.switchAt
    ∧ t.channel.waiting = s.channel.waiting ∧ t.channel.changeover = s.channel.changeover
    ∧ t.channel.noPowerGiven = false
  told : (s.st v).walk.current ≠ some .w7 → t.channel.state = .held v false ∧ t.st v = s.st v
  waits : (s.st v).walk.current = some .w7 → s.invReady = false →
    t.channel.state = .held v false
      ∧ t.st v =
        { s.st v with
          walk :=
            { (s.st v).walk with
              current := some .w8, timer := some (s.st v).settings.stepLimit, reached := 7 } }
  heats : (s.st v).walk.current = some .w7 → s.invReady = true →
    HeatEntered v
      { s with channel := { s.channel with state := .held v false, lastHolder := some v, noPowerGiven := false } } t
  other : t.st v.other = s.st v.other
  records : NoRecord s t
  around : Around s t

/-- What R73 and R74 make of a FREE channel: nothing where no request waits; else the chosen request leaves the set,
and its station holds the channel at once where the switch stands there, or is switched to. -/
structure GrantMade (s t : State) : Prop where
  quiet : s.channel.waiting = [] → t = s
  holds : ∀ v, Chosen s.channel v → s.channel.switchAt = v →
    Granted v { s with channel := { s.channel with waiting := s.channel.waiting.erase v } } t
  switches : ∀ v, Chosen s.channel v → s.channel.switchAt ≠ v →
    t =
      { s with
        channel :=
          { s.channel with
            state := .switching v false
            switchAt := v
            changeover := some s.common.changeoverTime
            waiting := s.channel.waiting.erase v } }

/-- A request of station `u` (R72): it joins the waiting set of a FREE channel, which then grants; at the changeover
to `u` itself withdrawn before, it is a withdrawal taken back; elsewhere it waits. -/
structure Requested (u : Station) (s t : State) : Prop where
  free : s.channel.state = .free →
    GrantMade { s with channel := { s.channel with waiting := s.channel.waiting ++ [u] } } t
  again : s.channel.state = .switching u true →
    t = { s with channel := { s.channel with state := .switching u false } }
  waits : s.channel.state ≠ .free → s.channel.state ≠ .switching u true →
    t = { s with channel := { s.channel with waiting := s.channel.waiting ++ [u] } }

/-- The channel after the release of R77: station `u`, the holder, is left as `t` has it, the channel is FREE with no
demand and no timer, and grants. -/
abbrev ChannelFreed (u : Station) (s t : State) : Prop :=
  GrantMade
    (({ s with
        channel := { s.channel with state := .free, demand := 0, response := none, settle := none } } :
      State).setSt u (t.st u)) t

/-- The channel and the other station after the withdrawal of R76 by station `u`: the target of SWITCHING is withdrawn,
the holder releases, and any other request leaves the waiting set. -/
structure Withdrawn (u : Station) (s t : State) : Prop where
  target : ∀ w, s.channel.state = .switching u w →
    t.channel = { s.channel with state := .switching u true } ∧ t.st u.other = s.st u.other
  holder : s.channel.holder = some u → ChannelFreed u s t
  waiting : (∀ w, s.channel.state ≠ .switching u w) → s.channel.holder ≠ some u →
    t.channel = { s.channel with waiting := s.channel.waiting.erase u } ∧ t.st u.other = s.st u.other

/-- A walk at checkpoint `w` has ended without passing and the station has entered RETURN: what R135, R28 and R36
leave at the station, and R76 or R77 at the channel. The pending outcome is `o`; that FAULTED stays where a fault has
fixed it is the model's choice (log 19). -/
structure WalkEnded (u : Station) (w : Checkpoint) (r : WalkResult) (cause : FailureCause)
    (o : PendingOutcome) (s t : State) : Prop where
  mode : (t.st u).mode = .returning
  walk : (t.st u).walk =
    { (s.st u).walk with
      current := none, timer := none, result := r, endedAt := some w, cause := cause }
  motion : (t.st u).motion =
    { motionInReturn (s.st u).settings.returnSpeed (s.st u).motion with
      watch := if w = .w5 then .off else (s.st u).motion.watch }
  faults : (t.st u).handed = (s.st u).handed ++ axisHanded (s.st u)
  quench : w ≠ .w6 → (t.st u).quench = (s.st u).quench
  valve : w = .w6 → (t.st u).quench.valve = .closed ∧ (t.st u).quench.proofTimer = none
  trail : (t.st u).trail = { (s.st u).trail with phase := .idle, list := [] }
  job : (t.st u).current =
    (s.st u).current.map fun c =>
      { c with pendingOutcome := if c.pendingOutcome = .faulted then .faulted else o }
  kept : (t.st u).queue = (s.st u).queue ∧ (t.st u).lines = (s.st u).lines
    ∧ (t.st u).settings = (s.st u).settings
  channel : w ≠ .w7 → w ≠ .w8 → t.channel = s.channel ∧ t.st u.other = s.st u.other
  withdrawn : w = .w7 → Withdrawn u s t
  released : w = .w8 → s.channel.holder = some u → ChannelFreed u s t
  unheld : w = .w8 → s.channel.holder ≠ some u → t.channel = s.channel ∧ t.st u.other = s.st u.other

/-- HEAT has been left: what R32, R33 and R54 leave at the station, its context otherwise changed by `f` alone, and
R77 at the channel. A sum of heat times past 32 bits is a free value (log 14). -/
structure HeatLeft (u : Station) (f : Context → Context) (s t : State) : Prop where
  dwell : (t.st u).dwellTimer = none ∧ (t.st u).dwells = []
  job : (t.st u).current =
    (s.st u).current.map fun c =>
      { f c with heatTime := addHeatTime c.heatTime (s.time.since c.heatStart) }
  sums : ∀ x y, x + y < 2 ^ 32 → addHeatTime x y = x + y
  queue : (t.st u).queue = (s.st u).queue
  channel : s.channel.holder ≠ some u → t.channel = s.channel ∧ t.st u.other = s.st u.other
  released : s.channel.holder = some u → ChannelFreed u s t

/-- The slices of an abort from HEAT: those in the list take ABORTED, and the open slice joins them stamped and
ABORTED (R54). -/
def abortedSlices (now : Time) (t : Trail) : List SliceRec :=
  t.list.map (SliceRec.flag .aborted) ++
    match t.phase with
    | .heating _ sl => [(sl.stamp now).flag .aborted]
    | _ => []

/-- Station `u` has taken an abrupt stop (R164): nothing without a current job and in the states it leaves alone; the
marker of R41 in RUNOUT and RETURN for a DRY repeat that is not final; a walk ends STOPPED; HEAT is left for QUENCH-OUT
with abort cause STOP. That a cause and a pending outcome FAULTED already recorded stay, and that a walk ended here
keeps abort cause none, is the model's choice (log 19). -/
structure StopTaken (u : Station) (s t : State) : Prop where
  idle : (s.st u).current = none → t = s
  alone : (s.st u).mode ≠ .walk → (s.st u).mode ≠ .heat → (s.st u).mode ≠ .runout →
    (s.st u).mode ≠ .returning → t = s
  marks : ∀ c, (s.st u).current = some c → (s.st u).mode = .runout ∨ (s.st u).mode = .returning →
    t = if c.job.kind = .dry ∧ c.repeatsDone ≠ c.job.repeats ∧ c.pendingOutcome = .none ∧ c.firstFault = none then
        s.modSt u fun x => { x with current := some { c with endAfterRepeat := true, stopMet := true } }
      else s
  walks : ∀ w, (s.st u).busy = true → (s.st u).mode = .walk → (s.st u).walk.current = some w →
    WalkEnded u w .stopped .none .stopped s t ∧ NoRecord s t ∧ Around s t
  heats : (s.st u).busy = true → (s.st u).mode = .heat → (s.st u).walk.current = none →
    (t.st u).mode = .quenchOut
      ∧ (t.st u).motion = modeSet (.scan (s.st u).settings.runoutSpeed) (s.st u).motion
      ∧ (t.st u).handed = (s.st u).handed ++ axisHanded (s.st u)
      ∧ HeatLeft u (fun c =>
          { c with
            abortCause := if c.abortCause = .none then .stop else c.abortCause
            pendingOutcome := if c.pendingOutcome = .faulted then .faulted else .stopped }) s t
      ∧ (∀ h sl, (s.st u).trail.phase = .heating h sl →
          (t.st u).trail.phase = .draining h ∧ (t.st u).trail.list = abortedSlices s.time (s.st u).trail)
      ∧ NoRecord s t ∧ Around s t

/-- The appends and arrivals of one advance, in the order of R52 and R55: while the ring has reached the midpoint of
the oldest slice, that slice arrives; else, while the high-water position has reached the upper boundary of the open
slice below the profile end, that slice is appended. A pitch of 0, which no setting admits, appends nothing. -/
inductive Swept (harden : Bool) (now : Time) (p : Profile) : StationState → StationState → Prop
  | done (x : StationState) :
    x.headReached p = false → x.openReached p = false ∨ x.settings.pitch = 0 → Swept harden now p x x
  | arrive (x y : StationState) :
    x.headReached p = true → Swept harden now p (x.arriveHead now p) y → Swept harden now p x y
  | append (x y : StationState) :
    x.headReached p = false → x.openReached p = true → Swept harden now p (x.appendOpen harden now p) y →
      Swept harden now p x y

/-- The start conditions of R25 for head job `j` at station `u`. -/
abbrev Startable (s : State) (u : Station) (j : JobEntry) : Prop :=
  (s.st u).mode = .waitPart ∧ s.run = .running ∧ (s.st u).lines.hold.qualified = false
    ∧ s.records.length + s.reservations < 16
    ∧ (j.kind = .harden → (s.st u).lines.present.qualified = true ∧ (s.st u).lines.clamped.qualified = true
        ∧ (s.st u).partConsumed = false)

/-- The travel fit of a profile range at a station (R27). -/
abbrev Fits (x : StationSettings) (start stop : Nat) : Prop :=
  stop + x.offset ≤ x.travelMax ∧ x.travelMin ≤ start ∧ (x.offset + x.pitch - 1) / x.pitch + 1 ≤ 96

end Sys2Proof.Machine
end

