-- ==== Sys2Proof/Certificates/Slice0/Obligations.lean ====
section
/-! DEFINITION. The statements about the WZ-7420, in the order of OBLIGATIONS.json. -/

open Sys2Proof Sys2Proof.Machine

/-! ### The step and the clock -/

/-- A step takes the command at the front and runs it on the state with the queue's rest. -/
def Obligations.StepRunsFrontCommand : Prop :=
  ∀ (c : Instr) (rest : List Instr) (s : State),
    s.pending = c :: rest → step s = exec c { s with pending := rest }

/-- With no command waiting a step is one millisecond (the model's choice, log 1): the time base rises by 1, every
running timer counts down, and no block acts; what passes before an expiry is so many milliseconds of the same. A timer
that is stopped has no expiry (the model's choice, log 2). -/
def Obligations.TimePassesOnAnEmptyQueue : Prop :=
  (∀ s : State, s.pending = [] →
    ∃ t, step s = .next t ∧ t.time = s.time + 1
      ∧ t.channel = { s.channel with
          changeover := s.channel.changeover.map (· - 1)
          response := s.channel.response.map (· - 1)
          settle := s.channel.settle.map (· - 1) }
      ∧ t.link = { s.link with
          gapTimer := s.link.gapTimer.map (· - 1), idleTimer := s.link.idleTimer.map (· - 1) }
      ∧ (∀ u, t.st u = (s.st u).elapse 1)
      ∧ t = { s with time := t.time, channel := t.channel, link := t.link, a := t.a, b := t.b })
  ∧ (∀ (x : StationState) (n : Nat),
      let pass (t : Timer) : Timer := t.map (· - n)
      x.elapse n =
        { x with
          dwellTimer := pass x.dwellTimer
          walk := { x.walk with timer := pass x.walk.timer }
          trail := { x.trail with list := x.trail.list.map fun sl => { sl with timer := pass sl.timer } }
          motion :=
            { x.motion with
              searchTimer := pass x.motion.searchTimer
              stallTimer := pass x.motion.stallTimer
              spindleTimer := pass x.motion.spindleTimer }
          quench :=
            { x.quench with
              proofTimer := pass x.quench.proofTimer
              riseTimer := pass x.quench.riseTimer
              afterTimer := pass x.quench.afterTimer
              flood := x.quench.flood.map fun f => { f with remaining := f.remaining - n } }
          lines :=
            { x.lines with
              present := { x.lines.present with timer := pass x.lines.present.timer }
              clamped := { x.lines.clamped with timer := pass x.lines.clamped.timer }
              hold := { x.lines.hold with timer := pass x.lines.hold.timer }
              handshakeTimer := pass x.lines.handshakeTimer } })
  ∧ (∀ (s : State) (n : Nat),
      let pass (t : Timer) : Timer := t.map (· - n)
      s.elapse n =
        { s with
          time := s.time + BitVec.ofNat 32 n
          link := { s.link with gapTimer := pass s.link.gapTimer, idleTimer := pass s.link.idleTimer }
          a := s.a.elapse n
          b := s.b.elapse n
          channel :=
            { s.channel with
              changeover := pass s.channel.changeover
              response := pass s.channel.response
              settle := pass s.channel.settle } })
  ∧ ∀ (s : State) (u : Station) (line : LoaderLine) (k : Nat),
      (s.link.gapTimer = none → exec .gapTimerExpiry s = .next s)
        ∧ (s.link.idleTimer = none → exec .idleTimerExpiry s = .next s)
        ∧ (s.channel.changeover = none → exec .changeoverExpiry s = .next s)
        ∧ (s.channel.response = none → exec .responseTimerExpiry s = .next s)
        ∧ (s.channel.settle = none → exec .settleTimerExpiry s = .next s)
        ∧ (((s.st u).lines.qual line).timer = none → exec (.qualificationExpiry u line) s = .next s)
        ∧ ((s.st u).motion.searchTimer = none → exec (.searchTimerExpiry u) s = .next s)
        ∧ ((s.st u).motion.stallTimer = none → exec (.stallTimerExpiry u) s = .next s)
        ∧ ((s.st u).motion.spindleTimer = none → exec (.spindleTimerExpiry u) s = .next s)
        ∧ ((s.st u).dwellTimer = none → exec (.dwellExpiry u) s = .next s)
        ∧ ((∀ sl ∈ (s.st u).trail.list, sl.index = k → sl.timer = none) →
            exec (.deadlineExpiry u k) s = .next s)
        ∧ ((s.st u).quench.proofTimer = none → exec (.proofTimerExpiry u) s = .next s)
        ∧ ((s.st u).quench.riseTimer = none → exec (.flowRiseExpiry u) s = .next s)
        ∧ ((s.st u).quench.afterTimer = none → exec (.afterQuenchExpiry u) s = .next s)
        ∧ ((s.st u).quench.flood = none → exec (.floodTimerExpiry u) s = .next s)
        ∧ ((s.st u).walk.timer = none → exec (.stepTimerExpiry u) s = .next s)
        ∧ ((s.st u).lines.handshakeTimer = none → exec (.handshakeTimerExpiry u) s = .next s)

/-! ### Resets -/

/-- The cold reset: the whole part at the values of chapters 1 to 11, every field named, and the settings at the defaults
of R184.
The operand carries the first samples of the lines, and the waiting commands stay (the model's choice, log 26). What
the registers hold for which the spec gives no value is the model's choice (log 16). -/
def Obligations.ColdResetRestoresColdValues : Prop :=
  ∀ (f : FirstSamples) (s : State),
    let walk : Walk :=
      { current := none, timer := none, reached := 0, bypassed := ⟨false, false⟩, result := .none, endedAt := none
        cause := .none }
    let tallies : Tallies :=
      { heated := 0, energy := 0, worstDelay := 0, counts := ⟨0, 0, 0, 0, 0, 0, 0⟩, flagged := 0, zones := []
        beyond := 0, tankWarm := false, repeatUnion := ⟨false, false, false, false, false, false, false⟩ }
    let trail : Trail := { phase := .idle, list := [], remainder := 0, tallies := tallies, run := .none }
    let motion : Motion :=
      { mode := .stop, arrival := .awaited, raw := 0, zero := 0, history := [], speed := 0, valid := false
        searchTimer := none, stallTimer := none, reverseRaised := false, limitRaised := false
        spindleDemand := 0, rpm := 0, spindleTimer := none, spindleRaised := false, watch := .off }
    let quench : Quench :=
      { valve := .closed, proofTimer := none, proofSeen := false, proofPeak := 0, proofResult := .none
        riseTimer := none, flowRaised := false, afterTimer := none, flood := none, flow := 0 }
    let first (active : Bool) : QualInput := { sampled := active, qualified := active, timer := none }
    let station (x : StationSamples) : StationState :=
      { mode := .unhomed, homingOrigin := .unhomed, homeResult := .none, queue := [], current := none
        finished := none, partConsumed := false, releaseOwed := none, haltCause := .none, handed := []
        lapsed := [], dwellTimer := none, dwells := [], walk := walk, trail := trail, motion := motion, quench := quench
        lines :=
          { present := first x.present, clamped := first x.clamped, hold := first x.hold
            axisFault := x.axisFault, homeSw := x.homeSw, coilFlow := x.coilFlow
            handshake := .idle, handshakeTimer := none }
        settings :=
          { powerLead := 2000, pitch := 2000, offset := 40000, quenchDelay := 3000, travelMin := 0
            travelMax := 1600000, runoutSpeed := 100, returnSpeed := 800, homeSpeed := 200, stallTime := 500
            spindleTolerance := 5, preOpen := 5000, afterQuench := 2000, flowRise := 500, flowMinimum := 600
            proofTime := 400, floodTime := 20000, stepLimit := 10000, powerWait := 0, bypassW3 := false
            bypassW6 := false, qualFactor := 3, qualRange := 1, handshakeType := .level, doneFactor := 5
            doneRange := 2, lowPresent := false, lowClamped := false, lowHold := false, lowAxisFault := false
            lowHomeSw := false, lowCoilFlow := false, lowReady := false, lowDone := false, lowReject := false } }
    let common : CommonSettings :=
      { ratedPower := 2500, changeoverTime := 150, responseLimit := 300, powerBand := 8, settleTime := 300
        warnThreshold := 350, criticalThreshold := 450, lowInvReady := false, lowInvFault := false
        lowReset := false, lowSwitch := false, lowAttn := false }
    let channel : Channel :=
      { state := if f.invFault then .faulted else .free, switchAt := .a, waiting := [], lastHolder := none
        changeover := none, response := none, noPowerGiven := false, settle := none, demand := 0
        measured := 0 }
    let link : Link :=
      { receiver := .hunt, gapTimer := none, idleTimer := none, buffer := [], overrun := false
        transaction := .none }
    exec (.coldReset f) s = .next
      { pending := s.pending, time := 0, link := link, slots := Vector.replicate 8 .empty, a := station f.a
        b := station f.b, channel := channel, tank := { state := .normal, reading := 0 }, records := []
        reservations := 0, run := .running, stopMode := .none, common := common, invReady := f.invReady
        invFault := f.invFault, resetLine := f.resetLine, freeIndex := s.freeIndex }

/-- The warm reset: what it does to the channel, to run control, to the library's counts, to the records and to each
station: the trail's list tallied FLOODED with the open slice, a flood begun where a quench-required slice was among
them and none runs, the cycle ended by its record, and the handshake of RELEASE begun again.
The faults not yet taken are dropped when taken (R177; log 40).
Without a qualification time a line whose sample differs is taken at once, in the order PRESENT, CLAMPED, HOLD (the
model's choice, log 24); the markers of RELEASE are stated with one. -/
def Obligations.WarmResetEndsEveryCycle : Prop :=
  ∀ s : State, let t := s.warmReset
    t.time = s.time ∧ t.link = s.link ∧ t.tank = s.tank ∧ t.common = s.common ∧ t.pending = s.pending
    ∧ t.invReady = s.invReady ∧ t.invFault = s.invFault ∧ t.resetLine = s.resetLine
    ∧ t.run = .running ∧ t.stopMode = .none
    ∧ t.channel.state = (if s.invFault then .faulted else .free) ∧ t.channel.switchAt = s.channel.switchAt
    ∧ t.channel.waiting = [] ∧ t.channel.lastHolder = none ∧ t.channel.demand = 0
    ∧ t.channel.changeover = none ∧ t.channel.response = none ∧ t.channel.settle = none
    ∧ t.channel.noPowerGiven = false ∧ t.channel.measured = s.channel.measured
    ∧ t.reservations = s.reservations - s.busyCount
    ∧ (∃ new, t.records = s.records ++ new ∧ new.length = s.busyCount
        ∧ (∀ u, (s.st u).busy = true → ∃ r ∈ new, r.station = u)
        ∧ ∀ r ∈ new, r.outcome = .interrupted ∧ r.heated = (t.st r.station).trail.tallies.heated
            ∧ r.walkReached = (s.st r.station).walk.reached ∧ r.bypassed = (s.st r.station).walk.bypassed
            ∧ ∃ c, (s.st r.station).current = some c ∧ r.job = c.job ∧ r.startTime = c.startTime
              ∧ r.firstFault = c.firstFault ∧ r.secondFault = c.secondFault
              ∧ r.heatTime =
                if (s.st r.station).mode = .heat then addHeatTime c.heatTime (s.time.since c.heatStart)
                else c.heatTime)
    ∧ (∀ x y, x + y < 2 ^ 32 → addHeatTime x y = x + y)
    ∧ (∀ k, (t.slot k).header? = (s.slot k).header? ∧ (t.slot k).entries = (s.slot k).entries
        ∧ (ReferencesSafe s → (t.slot k).refs = 0))
    ∧ ∀ u,
        let x := s.st u
        let y := t.st u
        let slices := x.trail.list ++
          match x.trail.phase with
          | .heating _ sl => [sl.stamp s.time]
          | _ => []
        let gone := x.lines.present.qualified = true ∧ x.lines.present.sampled = false ∧ x.settings.qualFactor < 2
        y.queue = [] ∧ y.current = none ∧ y.settings = x.settings
        ∧ y.handed = [] ∧ y.lapsed = x.lapsed ++ x.handed
        ∧ (∀ w, x.walk.current = some w →
            y.walk =
              { x.walk with
                current := none, timer := none, result := .interrupted, endedAt := some w, cause := .none })
        ∧ (x.walk.current = none → y.walk = { x.walk with timer := none })
        ∧ y.motion.mode = .stop ∧ y.motion.spindleDemand = 0 ∧ y.quench.valve = .closed
        ∧ y.trail.phase = .idle ∧ y.trail.list = [] ∧ y.trail.remainder = 0
        ∧ y.trail.tallies = (slices.foldl (fun t sl => t.tally none (sl.flag .flooded)) x.trail).tallies
        ∧ y.quench.flood =
            (if (∃ sl ∈ slices, sl.quench = true) ∧ x.quench.flood = none then
              some ⟨x.settings.floodTime, .warmReset⟩
            else x.quench.flood)
        ∧ (x.mode ≠ .release → y.lines.handshake = .idle ∧ y.lines.handshakeTimer = none
            ∧ y.partConsumed = if gone then false else x.partConsumed)
        ∧ (∀ c, x.current = some c → y.mode = .halted ∧ y.haltCause = .warmReset
            ∧ y.homeResult = x.homeResult ∧ y.finished = some c.job.tag
            ∧ y.releaseOwed = if c.job.kind = .harden then some true else x.releaseOwed)
        ∧ (x.current = none →
            (x.mode ≠ .release → y.finished = x.finished ∧ y.releaseOwed = x.releaseOwed)
            ∧ (x.mode = .unhomed → y.mode = .unhomed)
            ∧ (x.mode = .homing → y.mode = x.homingOrigin.mode ∧ y.homeResult = .failed)
            ∧ (x.mode = .idle ∨ x.mode = .waitPart → y.mode = .idle)
            ∧ (x.mode = .halted → y.mode = .halted ∧ y.haltCause = x.haltCause)
            ∧ (x.mode = .release →
                (y.mode = .release ∧ y.finished = x.finished ∧ y.releaseOwed = x.releaseOwed
                  ∨ y.mode = .idle ∧ y.finished = none ∧ y.releaseOwed = none)
                ∧ (2 ≤ x.settings.qualFactor →
                    (y.mode = .release ↔ x.Releases)
                    ∧ (x.Releases → (y.lines.handshake, y.lines.handshakeTimer) = handshakeBegun x)
                    ∧ y.partConsumed = consumedBegun x)))

/-- The RESET line becoming active performs one warm reset, staying active none, and becoming inactive it only updates
its state. RESET is answered ACCEPTED and does nothing yet; the last byte of its reply performs the warm reset. Any
other reply's last byte only ends the transaction. The oldest entry of the receive buffer is then taken, the rest staying
in it; with an empty buffer no transaction follows (R180).
A line event without a change does nothing, and RESET acts on the entry taken (the model's choice, log 5 and 7). -/
def Obligations.WarmResetIsPerformedOnce : Prop :=
  ∀ (s : State) (e : Entry) (r : Reply),
    let following : Link :=
      match s.link.buffer with
      | [] => { s.link with transaction := .none }
      | oldest :: rest => { s.link with transaction := .taken oldest, buffer := rest }
    (s.resetLine = false →
        exec .resetLineActive s = .next ({ s with resetLine := true } : State).warmReset)
      ∧ (s.resetLine = true → exec .resetLineActive s = .next s)
      ∧ exec .resetLineInactive s = .next { s with resetLine := false }
      ∧ (Asked .reset e s → exec .reset s = .next (s.answered e .accepted [] true))
      ∧ (s.link.transaction = .replying r false → exec .replySent s = .next { s with link := following })
      ∧ (s.link.transaction = .replying r true →
          exec .replySent s
            = .next
              { ({ s with link := { s.link with transaction := .none } } : State).warmReset with link := following })
      ∧ ((∀ r b, s.link.transaction ≠ .replying r b) → exec .replySent s = .next s)

/-! ### Receiver, buffer and transaction -/

/-- Between frames HUNT takes only the lead byte and DISCARD keeps the first three bytes and restarts its idle timer; a
framing error inside a frame abandons it. Inside a frame come the four header bytes, a length above 120 entering DISCARD
at once, then as many payload bytes as the length says, then the first CRC byte; each restarts the gap timer. With the
gap timer run out the frame is over before its expiry is taken, and the byte that ends the gap is taken in HUNT.
The second CRC byte, taken as a byte or as the completion of its frame, ends it: the receiver hunts again; a frame whose
CRC differs leaves no trace; a complete request joins the buffer, is taken at once where no transaction is in progress,
and is lost with the overrun flag where the buffer holds two. The expiry of the gap timer abandons the frame; that of the
idle timer places a too-long entry with the bytes that arrived, 0 for the others.
In DISCARD a byte with a framing error is a byte, and the length byte starts the idle timer (the model's choice,
log 23). That both commands mean the same, and that taking an entry is part of them, is the model's choice (log 5
and 6); an expiry lets the time left pass (log 2). -/
def Obligations.FramesAreReceived : Prop :=
  (∀ (s : State) (b : Byte) (bad : Bool) (kept header payload : List Byte) (high : Option Byte),
      (s.link.receiver = .hunt →
          exec (.byteTaken b bad) s = .next
            (if b = 0xA5 ∧ bad = false then
              { s with link := { s.link with receiver := .header [], gapTimer := some 5 } }
            else s))
        ∧ (s.link.receiver = .discard kept →
            exec (.byteTaken b bad) s = .next
              { s with
                link :=
                  { s.link with
                    receiver := .discard (if kept.length < 3 then kept ++ [b] else kept)
                    gapTimer := none
                    idleTimer := some 2 } })
        ∧ (s.link.receiver = .header kept ∨ s.link.receiver = .payload header kept
              ∨ s.link.receiver = .check header payload high →
            let hunting : Link := { s.link with receiver := .hunt, gapTimer := none, idleTimer := none }
            exec (.byteTaken b true) s = .next { s with link := hunting }
            ∧ (s.link.gapTimer = some 0 →
                exec (.byteTaken b false) s = .next
                  { s with
                    link :=
                      if b = 0xA5 then { hunting with receiver := .header [], gapTimer := some 5 } else hunting })))
  ∧ (∀ (s : State) (b : Byte) (kept header payload : List Byte), s.link.gapTimer ≠ some 0 →
      (s.link.receiver = .header [] → 120 < b.toNat →
          exec (.byteTaken b false) s = .next
            { s with
              link := { s.link with receiver := .discard [], gapTimer := none, idleTimer := some 2 } })
        ∧ (s.link.receiver = .header kept → kept.length < 3 → (kept = [] → b.toNat ≤ 120) →
            exec (.byteTaken b false) s = .next
              { s with link := { s.link with receiver := .header (kept ++ [b]), gapTimer := some 5 } })
        ∧ (s.link.receiver = .header kept → kept.length = 3 →
            exec (.byteTaken b false) s = .next
              { s with
                link :=
                  { s.link with
                    receiver := if kept.head? = some 0 then .check (kept ++ [b]) [] none
                      else .payload (kept ++ [b]) []
                    gapTimer := some 5 } })
        ∧ (s.link.receiver = .payload header kept → kept.length + 1 ≠ (header.getD 0 0).toNat →
            exec (.byteTaken b false) s = .next
              { s with link := { s.link with receiver := .payload header (kept ++ [b]), gapTimer := some 5 } })
        ∧ (s.link.receiver = .payload header kept → kept.length + 1 = (header.getD 0 0).toNat →
            exec (.byteTaken b false) s = .next
              { s with
                link := { s.link with receiver := .check header (kept ++ [b]) none, gapTimer := some 5 } })
        ∧ (s.link.receiver = .check header payload none →
            exec (.byteTaken b false) s = .next
              { s with
                link := { s.link with receiver := .check header payload (some b), gapTimer := some 5 } }))
  ∧ (∀ (s : State) (low high : Byte) (header payload : List Byte),
    s.link.receiver = .check header payload (some high) →
      let hunting : Link := { s.link with receiver := .hunt, gapTimer := none, idleTimer := none }
      let request := frameEntry header payload
      let byte := exec (.byteTaken low false) s
      exec (.requestComplete low) s = byte
      ∧ (s.link.gapTimer ≠ some 0 →
          (high ++ low ≠ crc (header ++ payload) → byte = .next { s with link := hunting })
          ∧ (high ++ low = crc (header ++ payload) →
              (2 ≤ s.link.buffer.length → byte = .next { s with link := { hunting with overrun := true } })
              ∧ (s.link.buffer.length < 2 → s.link.transaction ≠ .none →
                  byte = .next { s with link := { hunting with buffer := s.link.buffer ++ [request] } })
              ∧ (s.link.buffer = [] → s.link.transaction = .none →
                  byte = .next { s with link := { hunting with transaction := .taken request } }))))
  ∧ ∀ (s : State) (n : Nat) (kept : List Byte),
    (s.link.gapTimer = some n →
        exec .gapTimerExpiry s = .next
          { s.elapse n with
            link := { s.link with receiver := .hunt, gapTimer := none, idleTimer := none } })
      ∧ (s.link.idleTimer = some n → s.link.receiver = .discard kept →
          let hunting : Link := { s.link with receiver := .hunt, gapTimer := none, idleTimer := none }
          let lost : Entry := ⟨true, kept.getD 0 0, kept.getD 1 0, kept.getD 2 0, []⟩
          (2 ≤ s.link.buffer.length →
              exec .idleTimerExpiry s = .next { s.elapse n with link := { hunting with overrun := true } })
          ∧ (s.link.buffer.length < 2 → s.link.transaction ≠ .none →
              exec .idleTimerExpiry s
                = .next { s.elapse n with link := { hunting with buffer := s.link.buffer ++ [lost] } })
          ∧ (s.link.buffer = [] → s.link.transaction = .none →
              exec .idleTimerExpiry s
                = .next { s.elapse n with link := { hunting with transaction := .taken lost } }))

/-! ### Requests in general -/

/-- The checks of R181 before the owning block: a too-long entry, a unit above 2, a kind the unit does not define, and a
payload length the row does not allow are each refused with nothing else changed. The units and kinds of the rows and
their payload lengths are those of R181, and a number in a payload has its high byte first. A request command does
nothing unless the link has taken an entry of its row, and STOP with mode 2 is a row of its own (the model's choice,
log 5). -/
def Obligations.RequestsRefusedBeforeTheirBlock : Prop :=
  (∀ e : Entry,
    let common : List (Byte × RequestRow) :=
      [(0x01, .describe), (0x02, .status), (0x03, .set), (0x04, .get), (0x10, .profileOpen), (0x11, .profilePut),
        (0x12, .profileClose), (0x13, .profileDrop), (0x14, .profileRead), (0x20, .take), (0x21, .stopNormal),
        (0x22, .resume), (0x2F, .reset)]
    let station : List (Byte × RequestRow) :=
      [(0x03, .set), (0x04, .get), (0x30, .job), (0x31, .cancel), (0x32, .trail), (0x33, .home),
        (0x34, .stationReset)]
    let kinds := if e.unit = 0 then common else if e.unit = 1 ∨ e.unit = 2 then station else []
    e.row =
      if e.tooLong then .tooLong
      else if e.unit = 0 ∧ e.kind = 0x21 ∧ e.payload = [2] then .stopAbrupt
      else (kinds.lookup e.kind).getD .undefinedRequest)
  ∧ (∀ (row : RequestRow) (p : List Byte),
    let n := p.length
    lengthAllowed row p = true ↔
      match row with
      | .tooLong | .undefinedRequest => True
      | .describe | .take | .resume | .reset | .home | .stationReset => n = 0
      | .status | .profileClose | .profileDrop | .stopNormal | .stopAbrupt | .trail => n = 1
      | .profileRead | .cancel => n = 2
      | .profilePut => n = 28
      | .set => ∃ k, 1 ≤ k ∧ k ≤ 20 ∧ n = 5 * k
      | .get => 1 ≤ n ∧ n ≤ 20
      | .profileOpen => 11 ≤ n ∧ n = 11 + field p 10 1
      | .job => 6 ≤ n ∧ n = 6 + field p 5 1)
  ∧ (∀ (p : List Byte) (off n : Nat),
    field p off n = ((p.drop off).take n).foldl (fun v b => 256 * v + b.toNat) 0)
  ∧ ∀ (s : State) (e : Entry),
    (Asked .tooLong e s → exec .tooLong s = .next (s.answered e .tooLong [] false))
      ∧ (Asked .undefinedRequest e s → 2 < e.unit.toNat →
          exec .undefinedRequest s = .next (s.answered e .unsupportedUnit [] false))
      ∧ (Asked .undefinedRequest e s → e.unit.toNat ≤ 2 →
          exec .undefinedRequest s = .next (s.answered e .unknownKind [] false))
      ∧ (∀ row, s.link.transaction = .taken e → e.row = row → lengthAllowed row e.payload = false →
          exec row.command s = .next (s.answered e .badLength [] false))
      ∧ ∀ row, (∀ e, s.link.transaction = .taken e → e.row ≠ row) → exec row.command s = .next s

/-- The requests that only report, and change nothing else. DESCRIBE answers its 15 bytes. STATUS answers the part its
selector names, 39 bytes for the common part and 74 for a station's, field by field as R185 lays them out, and refuses a
selector above 2. GET answers each id in the request's order with the 4-byte value in force, high byte first; the first
id that is not defined for the unit gives BAD-VALUE with that id. TRAIL refuses an ordinal above 95 and otherwise answers
the snapshot of R189: 41 bytes and 18 for each of at most four slice records from that ordinal, at most 120 in all.
The codes of ended-at, flood origin and switch position are read from R185 and R187 (log 20). What a signed field sends
for a value outside its width is a free value (log 15). An absent context is sent as 0, and so are a current and a
finished tag without a job and a HARDEN job's repeats done and error count (the model's choice, log 18 and 39). -/
def Obligations.ReportsChangeNothing : Prop :=
  (∀ s : State,
    let c := s.channel
    let station (u : Option Station) : List Byte :=
      be8 (match u with | none => 0 | some .a => 1 | some .b => 2)
    let state : Nat × Option Station × Bool × Bool :=
      match c.state with
      | .free => (0, none, false, false)
      | .switching u w => (1, some u, w, false)
      | .held u h => (2, some u, false, h)
      | .faulted => (3, none, false, false)
    s.commonStatus =
      be32 s.time.toNat ++ be8 ([RunState.running, .stopping, .stopped].idxOf s.run)
        ++ be8 ([StopMode.none, .normal, .abrupt].idxOf s.stopMode) ++ be8 s.records.length
        ++ be8 s.reservations ++ be8 ([TankState.normal, .warm, .critical].idxOf s.tank.state)
        ++ signed16 s.tank.reading
        ++ (be8 state.1 ++ station state.2.1
          ++ be8 (bitsByte [state.2.2.1, state.2.2.2, s.invReady, s.invFault])
          ++ station (some c.switchAt) ++ (station c.waiting[0]? ++ station c.waiting[1]?)
          ++ station c.lastHolder ++ be16 c.demand ++ be16 c.measured)
        ++ be8 (bitsByte [s.resetLine, s.switchOut, s.attn])
        ++ s.slots.toList.flatMap fun x =>
          be8 (match x with | .empty => 0 | .building _ _ => 1 | .ready _ _ _ => 2)
            ++ be8 (match x with | .ready _ _ refs => refs | _ => 0))
  ∧ (∀ x : StationState,
    let m := x.motion
    let q := x.quench
    let l := x.lines
    let w := x.walk
    let checkpoint (w : Checkpoint) : Nat := [Checkpoint.w1, .w2, .w3, .w4, .w5, .w6, .w7, .w8].idxOf w
    let fault (f : Option FaultCode) : Nat :=
      match f with
      | none => 0
      | some f =>
        1 + [FaultCode.inverter, .invDrop, .noPower, .coilFlow, .spindle, .stall, .reverse, .limit, .axis,
          .quenchFlow].idxOf f
    let timer (t : Timer) : List Byte := be32 (t.getD 0xFFFFFFFF)
    x.status =
      (be8 ([Mode.unhomed, .homing, .idle, .waitPart, .walk, .heat, .runout, .quenchOut, .flood, .returning,
            .release, .halted].idxOf x.mode)
          ++ be8 ([HomeResult.none, .ok, .failed].idxOf x.homeResult)
          ++ be16 (match x.current with | some c => c.job.tag | none => 0)
          ++ be16 (x.finished.getD 0)
          ++ be8 (bitsByte [x.partConsumed, x.releaseOwed.isSome, x.releaseOwed == some true])
          ++ be8 ([HaltCause.none, .flood, .axis, .warmReset].idxOf x.haltCause) ++ be8 x.queue.length
          ++ (List.range 8).flatMap fun i => be16 (match x.queue[i]? with | some j => j.tag | none => 0))
        ++ (match x.current with
          | none => [0, 0, 0, 0, 0]
          | some c =>
            be8 ([AbortCause.none, .cancel, .stop, .fault].idxOf c.abortCause)
              ++ be8 ([PendingOutcome.none, .notStarted, .cancelled, .stopped, .faulted].idxOf c.pendingOutcome)
              ++ be8 (fault c.firstFault + 16 * fault c.secondFault) ++ be8 c.repeatsDone ++ be8 c.errorCount)
        ++ (be8 (match w.current with | none => 0 | some k => 1 + checkpoint k) ++ timer w.timer
          ++ be8 (w.reached + 16 * bitsByte [w.bypassed.w3, w.bypassed.w6])
          ++ be8 ([WalkResult.none, .running, .passed, .failed, .cancelled, .stopped, .axis,
            .interrupted].idxOf w.result)
          ++ be8 (match w.endedAt with | some k => checkpoint k | none => 8)
          ++ be8 ([FailureCause.none, .stepLimit, .powerWait, .tankCritical, .proofFailed,
            .invFault].idxOf w.cause)
          ++ be8 (match x.trail.phase with | .idle => 0 | .heating _ _ => 1 | .draining _ => 2))
        ++ (be8 (match m.mode with
            | .stop => 0 | .hold => 1 | .scan _ => 2 | .moveTo _ _ => 3 | .seekHome _ _ => 4)
          ++ be8 (bitsByte [m.valid, m.reverseRaised, m.limitRaised, m.spindleRaised, m.watch != .off])
          ++ signed32 (if m.valid then m.raw - m.zero else m.raw) ++ signed16 m.speedDemand ++ signed16 m.speed
          ++ be16 m.spindleDemand ++ be16 m.rpm)
        ++ (be8 ([RingValve.closed, .proof, .quench, .after].idxOf q.valve)
          ++ be8 (bitsByte [q.flood.isSome, q.flowRaised, q.proofSeen])
          ++ timer (q.flood.map fun f => f.remaining)
          ++ be8 (match q.flood with | some f => [FloodOrigin.floodEntry, .warmReset].idxOf f.origin | none => 2)
          ++ be8 ([ProofResult.none, .passed, .failed].idxOf q.proofResult) ++ be16 q.proofPeak ++ be16 q.flow)
        ++ (be8 (bitsByte
              [l.present.sampled, l.clamped.sampled, l.hold.sampled, l.axisFault, l.homeSw, l.coilFlow])
          ++ be8 (bitsByte [l.present.qualified, l.clamped.qualified, l.hold.qualified])
          ++ be8 (bitsByte [x.ready, x.doneOut, x.rejectOut])
          ++ be8 ([Handshake.idle, .heldBack, .delaying, .asserted, .pulsing].idxOf l.handshake)
          ++ timer l.handshakeTimer))
  ∧ bitsByte [] = 0 ∧ (∀ b bs, bitsByte (b :: bs) = (if b then 1 else 0) + 2 * bitsByte bs)
  ∧ (∀ v : Int, -32768 ≤ v → v < 32768 → signed16 v = be16 (v % 65536).toNat)
  ∧ (∀ v : Int, -2147483648 ≤ v → v < 2147483648 → signed32 v = be32 (v % 4294967296).toNat)
  ∧
  (∀ (s : State) (e : Entry),
    (Asked .describe e s →
        exec .describe s = .next (s.answered e .accepted
          [0x57, 0x5A, 0x2D, 0x37, 0x34, 0x32, 0x30, 1, 2, 8, 32, 96, 8, 16, 120] false))
      ∧ (Asked .status e s →
          exec .status s = .next
            (if e.payload = [0] then s.answered e .accepted s.commonStatus false
            else if e.payload = [1] then s.answered e .accepted s.a.status false
            else if e.payload = [2] then s.answered e .accepted s.b.status false
            else s.answered e .badValue [255, 40] false))
      ∧ s.commonStatus.length = 39 ∧ s.a.status.length = 74 ∧ s.b.status.length = 74)
  ∧ (∀ (s : State) (e : Entry) (get : Nat → Option Nat), Asked .get e s →
    (e.unit = 0 ∧ get = s.common.get ∨ e.unit = 1 ∧ get = s.a.settings.get
        ∨ e.unit = 2 ∧ get = s.b.settings.get) →
      ((∀ id ∈ e.payload, (get id.toNat).isSome = true) →
          exec .get s = .next (s.answered e .accepted
            (e.payload.flatMap fun id => id :: be32 ((get id.toNat).getD 0)) false))
      ∧ (∀ known id rest, e.payload = known ++ id :: rest →
          (∀ j ∈ known, (get j.toNat).isSome = true) → get id.toNat = none →
            exec .get s = .next (s.answered e .badValue [id] false)))
  ∧ ∀ (s : State) (e : Entry) (u : Station), Asked .trail e s → unitStation e.unit = some u →
    let n := field e.payload 0 1
    let t := (s.st u).trail
    let ta := t.tallies
    let sent := (t.list.drop n).take 4
    let flags (f : Flags) : Nat :=
      bitsByte [f.energyLow, f.energyHigh, f.powerBand, f.late, f.lowFlow, f.flooded, f.aborted]
    let at' (w : Option Time) : List Byte := be32 (match w with | some w => w.toNat | none => 0)
    let p : List Byte :=
      be8 (match t.phase with | .idle => 0 | .heating _ _ => 1 | .draining _ => 2) ++ be32 s.time.toNat
        ++ be8 t.list.length ++ be8 sent.length
        ++ (match t.high? with
          | none => List.replicate 8 0
          | some h => be32 h ++ signed32 ((h : Int) - (s.st u).settings.offset))
        ++ (match t.phase with
          | .heating _ sl => be16 sl.index ++ be32 sl.energy ++ be16 sl.peak ++ be8 (flags sl.flags)
          | _ => List.replicate 9 0)
        ++ (be32 ta.heated ++ be32 ta.energy ++ be16 (min 65535 ta.worstDelay) ++ be32 ta.flagged
          ++ be8 ta.zones.length ++ be8 ta.beyond ++ be8 (if ta.tankWarm then 1 else 0))
        ++ sent.flatMap fun sl =>
          be16 sl.index ++ be8 sl.segment ++ be32 sl.energy ++ be16 sl.peak ++ at' sl.heatEnd ++ at' sl.deadline
            ++ be8 (flags sl.flags + if sl.quench then 128 else 0)
    (95 < n → exec .trail s = .next (s.answered e .badValue [255, 38] false))
    ∧ (n ≤ 95 → exec .trail s = .next (s.answered e .accepted p false)
        ∧ p.length = 41 + 18 * min 4 (t.list.length - n) ∧ p.length ≤ 120)

/-! ### Settings -/

/-- SET is whole or nothing: the first pair that is undefined, repeated or out of range, then a failed relation, is
answered BAD-VALUE with its id; then the state, BUSY; at the common unit then the profile library, IN-USE. No
refusal changes a setting. -/
def Obligations.RefusedSetChangesNothing : Prop :=
  ∀ (s : State) (e : Entry) (u : Station) (id : Nat), Asked .set e s →
    let pairs := readPairs e.payload
    (e.unit = 0 →
        let new := s.common.putAll pairs
        (pairFailure commonInRange [] pairs = some id →
            exec .set s = .next (s.answered e .badValue (be8 id) false))
        ∧ (pairFailure commonInRange [] pairs = none →
            (new.criticalThreshold ≤ new.warnThreshold →
                exec .set s = .next
                  (s.answered e .badValue (if carries pairs 6 then [6] else [7]) false))
            ∧ (new.warnThreshold < new.criticalThreshold →
                (s.anyCurrent = true → pairs.map Prod.fst ≠ [1] →
                    exec .set s = .next (s.answered e .busy [] false))
                ∧ ((s.anyCurrent = true → pairs.map Prod.fst = [1]) → carries pairs 1 = true →
                    s.demandAbove new.ratedPower = true →
                    exec .set s = .next (s.answered e .inUse [] false)))))
      ∧ (unitStation e.unit = some u →
        let new := (s.st u).settings.putAll pairs
        (pairFailure stationInRange [] pairs = some id →
            exec .set s = .next (s.answered e .badValue (be8 id) false))
        ∧ (pairFailure stationInRange [] pairs = none →
            (new.relationFailure pairs = some id →
                exec .set s = .next (s.answered e .badValue (be8 id) false))
            ∧ (new.relationFailure pairs = none → (s.st u).mode.takesSettings = false →
                exec .set s = .next (s.answered e .busy [] false))))

/-- An accepted SET at the common unit applies every pair at once; a changed sense of RESET inverts the line as it
stands, and a changed sense of INV-READY or INV-FAULT is a change of the line, taken as that line's own event.
That a changed sense acts through the settings the SET leaves is the model's choice (log 25). -/
def Obligations.CommonSetAppliesEveryPair : Prop :=
  ∀ (s : State) (e : Entry), Asked .set e s → e.unit = 0 →
    let pairs := readPairs e.payload
    let new := s.common.putAll pairs
    pairFailure commonInRange [] pairs = none → new.warnThreshold < new.criticalThreshold →
    (s.anyCurrent = true → pairs.map Prod.fst = [1]) →
    (carries pairs 1 = true → s.demandAbove new.ratedPower = false) →
      let base : State :=
        { s with
          common := new
          resetLine := if new.lowReset = s.common.lowReset then s.resetLine else !s.resetLine }
      (new.lowInvReady = s.common.lowInvReady → new.lowInvFault = s.common.lowInvFault →
          exec .set s = .next (base.answered e .accepted [] false))
      ∧ ∀ t1 t2,
          taken (new.lowInvReady != s.common.lowInvReady)
            (if base.invReady then .invReadyInactive else .invReadyActive) base = .next t1 →
          taken (new.lowInvFault != s.common.lowInvFault)
            (if t1.invFault then .invFaultInactive else .invFaultActive) t1 = .next t2 →
            exec .set s = .next (t2.answered e .accepted [] false)

/-- An accepted SET at a station unit applies every pair at once. A changed sense of AXIS-FAULT, HOME-SW or COIL-FLOW
inverts the line; one of PRESENT, CLAMPED or HOLD is the sample of the inverted line, taken as that input's own
event, in that order.
That a changed sense acts through the settings the SET leaves is the model's choice (log 25). -/
def Obligations.StationSetAppliesEveryPair : Prop :=
  ∀ (s : State) (e : Entry) (u : Station), Asked .set e s → unitStation e.unit = some u →
    let pairs := readPairs e.payload
    let old := (s.st u).settings
    let new := old.putAll pairs
    pairFailure stationInRange [] pairs = none → new.relationFailure pairs = none →
    ((s.st u).mode = .unhomed ∨ (s.st u).mode = .idle ∨ (s.st u).mode = .waitPart ∨ (s.st u).mode = .halted) →
      let base : State :=
        s.modSt u fun x =>
          { x with
            settings := new
            lines :=
              { x.lines with
                axisFault := x.lines.axisFault != (old.lowAxisFault != new.lowAxisFault)
                homeSw := x.lines.homeSw != (old.lowHomeSw != new.lowHomeSw)
                coilFlow := x.lines.coilFlow != (old.lowCoilFlow != new.lowCoilFlow) } }
      (new.lowPresent = old.lowPresent → new.lowClamped = old.lowClamped → new.lowHold = old.lowHold →
          exec .set s = .next (base.answered e .accepted [] false))
      ∧ ∀ t1 t2 t3,
          taken (old.lowPresent != new.lowPresent)
            (.qualifiedInputSampleChange u .present (!(base.st u).lines.present.sampled)) base = .next t1 →
          taken (old.lowClamped != new.lowClamped)
            (.qualifiedInputSampleChange u .clamped (!(t1.st u).lines.clamped.sampled)) t1 = .next t2 →
          taken (old.lowHold != new.lowHold)
            (.qualifiedInputSampleChange u .hold (!(t2.st u).lines.hold.sampled)) t2 = .next t3 →
            exec .set s = .next (t3.answered e .accepted [] false)

/-- The settings' tables (R184): for each id its range, its default and the setting it reads, GET's value of it after a
SET being the value put, of the bypass set its bits 2 and 5 (R133); the judgement of the pairs in their order, which
names the first that is undefined, repeated or out of range; the relations of a station (R47, R104, R147), which
name the first id where the request carries it, else the second; the pairs as they are sent; the station states that
take settings; and which segments keep a rated power from being set (R86). -/
def Obligations.SettingsHaveTheirTables : Prop :=
  let common : List (Nat × Nat × Nat × Nat) :=
    [(1, 500, 6000, 2500), (2, 50, 500, 150), (3, 50, 2000, 300), (4, 1, 20, 8), (5, 0, 2000, 300),
      (6, 100, 800, 350), (7, 100, 800, 450), (8, 0, 1, 0), (9, 0, 1, 0), (10, 0, 1, 0), (11, 0, 1, 0), (12, 0, 1, 0)]
  let station : List (Nat × Nat × Nat × Nat) :=
    [(32, 0, 10000, 2000), (33, 1000, 4000, 2000), (34, 5000, 380000, 40000), (35, 100, 20000, 3000),
      (36, 0, 2000000, 0), (37, 0, 2000000, 1600000), (38, 10, 600, 100), (39, 50, 2000, 800), (40, 20, 500, 200),
      (41, 100, 2000, 500), (42, 1, 20, 5), (43, 0, 20000, 5000), (44, 0, 30000, 2000), (45, 100, 2000, 500)]
    ++ [(46, 50, 5000, 600), (47, 100, 2000, 400), (48, 1000, 120000, 20000), (49, 1000, 60000, 10000),
      (50, 0, 3600000, 0), (51, 0, 255, 0), (52, 0, 15, 3), (53, 0, 3, 1), (54, 0, 2, 0), (55, 0, 15, 5),
      (56, 0, 3, 2), (57, 0, 1, 0), (58, 0, 1, 0), (59, 0, 1, 0), (60, 0, 1, 0), (61, 0, 1, 0), (62, 0, 1, 0),
      (63, 0, 1, 0), (64, 0, 1, 0), (65, 0, 1, 0)]
  let sense (low : Bool) : Nat := if low then 1 else 0
  (∀ id v, commonInRange id v = true ↔ ∃ row ∈ common, row.1 = id ∧ row.2.1 ≤ v ∧ v ≤ row.2.2.1)
  ∧ (∀ id v, stationInRange id v = true ↔
      (∃ row ∈ station, row.1 = id ∧ row.2.1 ≤ v ∧ v ≤ row.2.2.1) ∧ (id = 33 → v = 1000 ∨ v = 2000 ∨ v = 4000))
  ∧ (∀ row ∈ common, ({} : CommonSettings).get row.1 = some row.2.2.2)
  ∧ (∀ row ∈ station, ({} : StationSettings).get row.1 = some row.2.2.2)
  ∧ (∀ (c : CommonSettings) (id : Nat), (c.get id).isSome = true ↔ id ∈ common.map Prod.fst)
  ∧ (∀ (c : StationSettings) (id : Nat), (c.get id).isSome = true ↔ id ∈ station.map Prod.fst)
  ∧ (∀ c : CommonSettings,
      (common.map Prod.fst).map c.get =
        [c.ratedPower, c.changeoverTime, c.responseLimit, c.powerBand, c.settleTime, c.warnThreshold,
          c.criticalThreshold, sense c.lowInvReady, sense c.lowInvFault, sense c.lowReset, sense c.lowSwitch,
          sense c.lowAttn].map some)
  ∧ (∀ c : StationSettings,
      (station.map Prod.fst).map c.get =
        ([c.powerLead, c.pitch, c.offset, c.quenchDelay, c.travelMin, c.travelMax, c.runoutSpeed, c.returnSpeed,
            c.homeSpeed, c.stallTime, c.spindleTolerance, c.preOpen, c.afterQuench, c.flowRise, c.flowMinimum,
            c.proofTime, c.floodTime, c.stepLimit, c.powerWait, 4 * sense c.bypassW3 + 32 * sense c.bypassW6]
          ++ [c.qualFactor, c.qualRange, [HandshakeType.level, .pulse, .delayed].idxOf c.handshakeType, c.doneFactor,
            c.doneRange, sense c.lowPresent, sense c.lowClamped, sense c.lowHold, sense c.lowAxisFault,
            sense c.lowHomeSw, sense c.lowCoilFlow, sense c.lowReady, sense c.lowDone, sense c.lowReject]).map some
      ∧ c.doneDelay = c.doneFactor * 10 ^ c.doneRange)
  ∧ (∀ (ok : Nat → Nat → Bool) (pairs : List (Nat × Nat)),
      (pairFailure ok [] pairs = none ↔ (pairs.map Prod.fst).Nodup ∧ ∀ q ∈ pairs, ok q.1 q.2 = true)
      ∧ ∀ before id v after, pairs = before ++ (id, v) :: after → pairFailure ok [] before = none →
          (id ∈ before.map Prod.fst ∨ ok id v = false) → pairFailure ok [] pairs = some id)
  ∧ (∀ (c : CommonSettings) (pairs : List (Nat × Nat)) (id : Nat), pairFailure commonInRange [] pairs = none →
      (∀ v, (id, v) ∈ pairs → (c.putAll pairs).get id = some v)
      ∧ (id ∉ pairs.map Prod.fst → (c.putAll pairs).get id = c.get id))
  ∧ (∀ (c : StationSettings) (pairs : List (Nat × Nat)) (id : Nat), pairFailure stationInRange [] pairs = none →
      (∀ v, (id, v) ∈ pairs → (c.putAll pairs).get id = some (if id = 51 then v &&& 36 else v))
      ∧ (id ∉ pairs.map Prod.fst → (c.putAll pairs).get id = c.get id))
  ∧ (∀ (c : StationSettings) (pairs : List (Nat × Nat)),
      let named (id other : Nat) := some (if id ∈ pairs.map Prod.fst then id else other)
      c.relationFailure pairs =
        if 96 < (c.offset + c.pitch - 1) / c.pitch + 1 then named 34 33
        else if c.travelMax ≤ c.travelMin then named 36 37
        else if c.handshakeType = .pulse ∧ c.doneFactor = 0 then named 54 55
        else none)
  ∧ (∀ (pairs : List (Nat × Nat)) (id : Nat), carries pairs id = true ↔ id ∈ pairs.map Prod.fst)
  ∧ readPairs [] = []
  ∧ (∀ (id b3 b2 b1 b0 : Byte) (rest : List Byte),
      readPairs (id :: b3 :: b2 :: b1 :: b0 :: rest) =
        (id.toNat, 16777216 * b3.toNat + 65536 * b2.toNat + 256 * b1.toNat + b0.toNat) :: readPairs rest)
  ∧ (∀ m : Mode, m.takesSettings = true ↔ m = .unhomed ∨ m = .idle ∨ m = .waitPart ∨ m = .halted)
  ∧ ∀ (s : State) (rated : Nat),
      s.demandAbove rated = true ↔ ∃ (k : Fin 8) (i : Nat) (g : Segment), (i, g) ∈ (s.slot k).entries ∧ rated < g.power

/-! ### The profile library -/

/-- PROFILE-OPEN: its checks in order, those of the header with their causes (R3, R8), and the slot BUILDING with the
new header and no entries. -/
def Obligations.ProfileOpenBuildsTheSlot : Prop :=
  ∀ (s : State) (e : Entry), Asked .profileOpen e s →
    let p := e.payload
    let n := field p 0 1
    let h := readHeader p
    h = { start := field p 1 4, stop := field p 5 4, count := field p 9 1, name := p.drop 11 }
    ∧ headerFailure h =
        (if 2000000 < h.start ∨ 2000000 < h.stop then some 2
        else if h.count = 0 ∨ 32 < h.count then some 3
        else if ¬ (h.name.length ≤ 12 ∧ ∀ ch ∈ h.name, 0x20 ≤ ch.toNat ∧ ch.toNat ≤ 0x7E) then some 4
        else none)
    ∧ (∀ (m : Nat) (k : Fin 8), slotIndex m = some k ↔ m = k.val + 1)
    ∧ (slotIndex n = none → exec .profileOpen s = .next (s.answered e .badValue [255, 1] false))
    ∧ ∀ k, slotIndex n = some k →
        ((∃ j, j ≠ k ∧ (s.slot j).isBuilding = true) →
            exec .profileOpen s = .next (s.answered e .busy [] false))
        ∧ ((∀ j, j ≠ k → (s.slot j).isBuilding = false) →
            (0 < (s.slot k).refs → exec .profileOpen s = .next (s.answered e .inUse [] false))
            ∧ ((s.slot k).refs = 0 →
                (∀ c, headerFailure h = some c →
                    exec .profileOpen s = .next (s.answered e .badValue [255, BitVec.ofNat 8 c] false))
                ∧ (headerFailure h = none →
                    exec .profileOpen s
                      = .next ((s.setSlot k (.building h [])).answered e .accepted [] false))))

/-- PROFILE-PUT: its checks in order, those of the segment record with their causes (R4, R8), an absent part not
checked; an accepted record stands at its index, alone there, and every other entry of the slot stays; the reply gives
the number of indices present. -/
def Obligations.ProfilePutStoresOneEntry : Prop :=
  ∀ (s : State) (e : Entry), Asked .profilePut e s →
    let p := e.payload
    let n := field p 0 1
    let i := field p 1 1
    let g := readSegment p
    let part (k : Nat) : Bool := field p 13 1 / 2 ^ k % 2 = 1
    g = { start := field p 2 4, power := field p 6 2, speed := field p 8 2, rotation := field p 10 2
          quench := field p 12 1, hasWindow := part 0, hasDelay := part 1, hasDwell := part 2, hasRamp := part 3
          energyMin := field p 14 4, energyMax := field p 18 4, delay := field p 22 2, dwell := field p 24 2
          ramp := field p 26 2 }
    ∧ segmentFailure g =
        (if 2000000 < g.start then some 2
        else if 6000 < g.power then some 6
        else if g.speed < 5 ∨ 600 < g.speed then some 7
        else if g.rotation < 30 ∨ 600 < g.rotation then some 8
        else if 1 < g.quench then some 9
        else if g.hasWindow = true ∧ (200000 < g.energyMin ∨ 200000 < g.energyMax) then some 10
        else if g.hasDelay = true ∧ (g.delay < 100 ∨ 20000 < g.delay) then some 11
        else if g.hasDwell = true ∧ (g.dwell < 100 ∨ 30000 < g.dwell) then some 12
        else if g.hasRamp = true ∧ 20000 < g.ramp then some 13
        else none)
    ∧ g.toSegment =
        { start := g.start, power := g.power, speed := g.speed, rotation := g.rotation
          quench := decide (g.quench = 1)
          window := if g.hasWindow then some (g.energyMin, g.energyMax) else none
          delay := if g.hasDelay then some g.delay else none
          dwell := if g.hasDwell then some g.dwell else none
          ramp := if g.hasRamp then some g.ramp else none }
    ∧ (slotIndex n = none → exec .profilePut s = .next (s.answered e .badValue [255, 1] false))
    ∧ ∀ k, slotIndex n = some k →
        ((s.slot k).isBuilding = false → exec .profilePut s = .next (s.answered e .wrongState [] false))
        ∧ ∀ h es, s.slot k = .building h es →
            (h.count ≤ i →
                exec .profilePut s = .next (s.answered e .badValue [BitVec.ofNat 8 i, 5] false))
            ∧ (i < h.count →
                (∀ c, segmentFailure g = some c →
                    exec .profilePut s
                      = .next (s.answered e .badValue [BitVec.ofNat 8 i, BitVec.ofNat 8 c] false))
                ∧ (segmentFailure g = none → ∃ es',
                    exec .profilePut s = .next ((s.setSlot k (.building h es')).answered e .accepted
                        [BitVec.ofNat 8 es'.length] false)
                    ∧ (es.Pairwise (fun x y => x.1 < y.1) →
                        es'.Pairwise (fun x y => x.1 < y.1)
                        ∧ ∀ j x, (j, x) ∈ es' ↔ (j = i ∧ x = g.toSegment) ∨ (j ≠ i ∧ (j, x) ∈ es))))

/-- PROFILE-CLOSE accepts a BUILDING slot exactly when its profile passes the six phases, and makes it READY with no
reference; a refused CLOSE leaves the slot as it was and carries the index and the cause of the first phase that fails,
and in it of the lowest index. -/
def Obligations.ProfileCloseValidates : Prop :=
  ∀ (s : State) (e : Entry), Asked .profileClose e s →
    let n := field e.payload 0 1
    (slotIndex n = none → exec .profileClose s = .next (s.answered e .badValue [255, 1] false))
    ∧ ∀ k, slotIndex n = some k →
        ((s.slot k).isBuilding = false →
            exec .profileClose s = .next (s.answered e .wrongState [] false))
        ∧ ∀ h es, s.slot k = .building h es →
            let p : Profile := ⟨h.start, h.stop, es.map Prod.snd⟩
            let seg := segGet p.segs
            let valid :=
              (∀ i, i < h.count → (entryAt es i).isSome = true) ∧ h.start + 4000 ≤ h.stop
              ∧ (seg 0).start = h.start
              ∧ (∀ i, i + 1 < h.count → (seg i).start < (seg (i + 1)).start)
              ∧ (seg (h.count - 1)).start < h.stop
              ∧ ∀ i, i < h.count →
                  (seg i).power ≤ s.common.ratedPower
                  ∧ (∀ lo hi, (seg i).window = some (lo, hi) → lo ≤ hi)
                  ∧ (i = 0 → (seg i).ramp = none)
                  ∧ (∀ r, (seg i).ramp = some r → r ≤ segLength p i)
            let refused (i c : Nat) :=
              exec .profileClose s
                = .next (s.answered e .badValue [BitVec.ofNat 8 i, BitVec.ofNat 8 c] false)
            let sound (i : Nat) :=
              (seg i).power ≤ s.common.ratedPower ∧ (∀ lo hi, (seg i).window = some (lo, hi) → lo ≤ hi)
                ∧ (i = 0 → (seg i).ramp = none) ∧ (∀ r, (seg i).ramp = some r → r ≤ segLength p i)
            let rising (n : Nat) := ∀ i, i + 1 < n → (seg i).start < (seg (i + 1)).start
            let present (n : Nat) := ∀ i, i < n → (entryAt es i).isSome = true
            (valid → exec .profileClose s = .next ((s.setSlot k (.ready h es 0)).answered e .accepted [] false))
            ∧ (∀ i, i < h.count → entryAt es i = none → present i → refused i 16)
            ∧ (present h.count →
                (h.stop < h.start + 4000 → refused 255 17)
                ∧ (h.start + 4000 ≤ h.stop →
                    ((seg 0).start ≠ h.start → refused 0 18)
                    ∧ ((seg 0).start = h.start →
                        (∀ i, i + 1 < h.count → (seg (i + 1)).start ≤ (seg i).start → rising (i + 1) →
                            refused (i + 1) 19)
                        ∧ (rising h.count →
                            (h.stop ≤ (seg (h.count - 1)).start → refused (h.count - 1) 20)
                            ∧ ((seg (h.count - 1)).start < h.stop →
                                ∀ i, i < h.count → (∀ j, j < i → sound j) →
                                  (s.common.ratedPower < (seg i).power → refused i 21)
                                  ∧ ((seg i).power ≤ s.common.ratedPower →
                                      (∀ lo hi, (seg i).window = some (lo, hi) → hi < lo → refused i 22)
                                      ∧ ((∀ lo hi, (seg i).window = some (lo, hi) → lo ≤ hi) →
                                          (∀ r, i = 0 → (seg i).ramp = some r → refused i 23)
                                          ∧ (∀ r, i ≠ 0 → (seg i).ramp = some r → segLength p i < r →
                                              refused i 24))))))))

/-- PROFILE-DROP: an EMPTY slot is answered ALREADY, a BUILDING slot and a READY slot without references become
EMPTY, and a READY slot with references is refused IN-USE. -/
def Obligations.ProfileDropEmptiesTheSlot : Prop :=
  ∀ (s : State) (e : Entry), Asked .profileDrop e s →
    let n := field e.payload 0 1
    (slotIndex n = none → exec .profileDrop s = .next (s.answered e .badValue [255, 1] false))
    ∧ ∀ k, slotIndex n = some k →
        (s.slot k = .empty → exec .profileDrop s = .next (s.answered e .already [] false))
        ∧ (∀ h es, s.slot k = .building h es →
            exec .profileDrop s = .next ((s.setSlot k .empty).answered e .accepted [] false)
            ∧ ((∀ j, j ≠ k → (s.slot j).isBuilding = false) →
                ∀ j, ((s.setSlot k .empty).slot j).isBuilding = false))
        ∧ (∀ h es, s.slot k = .ready h es 0 →
            exec .profileDrop s = .next ((s.setSlot k .empty).answered e .accepted [] false))
        ∧ (∀ h es refs, s.slot k = .ready h es (refs + 1) →
            exec .profileDrop s = .next (s.answered e .inUse [] false))

/-- PROFILE-READ: the header in every slot state, with zeros after the state of an EMPTY slot; an entry whole where
it is present, else NOT-FOUND; no slot changes. A segment is sent as the 26 bytes of R188, the fields of an absent part
as 0. -/
def Obligations.ProfileReadReturnsTheSlot : Prop :=
  (∀ g : Segment,
    let presence :=
      (if g.window = none then 0 else 1) + (if g.delay = none then 0 else 2) + (if g.dwell = none then 0 else 4)
        + (if g.ramp = none then 0 else 8)
    g.bytes =
      be32 g.start ++ be16 g.power ++ be16 g.speed ++ be16 g.rotation ++ be8 (if g.quench then 1 else 0)
        ++ be8 presence ++ be32 (g.window.getD (0, 0)).1 ++ be32 (g.window.getD (0, 0)).2 ++ be16 (g.delay.getD 0)
        ++ be16 (g.dwell.getD 0) ++ be16 (g.ramp.getD 0))
  ∧ (∀ (es : List (Nat × Segment)) (i : Nat) (g : Segment), es.Pairwise (fun x y => x.1 < y.1) →
      (entryAt es i = some g ↔ (i, g) ∈ es))
  ∧ (∀ h es n, (Slot.building h es).code = 1 ∧ (Slot.ready h es n).code = 2)
  ∧ ∀ (s : State) (e : Entry), Asked .profileRead e s →
    let n := field e.payload 0 1
    let sel := field e.payload 1 1
    (slotIndex n = none → exec .profileRead s = .next (s.answered e .badValue [255, 1] false))
    ∧ ∀ k, slotIndex n = some k →
        (sel = 255 → s.slot k = .empty →
            exec .profileRead s = .next (s.answered e .accepted (List.replicate 13 0) false))
        ∧ (∀ h es refs, sel = 255 → (s.slot k = .building h es ∧ refs = 0 ∨ s.slot k = .ready h es refs) →
            exec .profileRead s = .next (s.answered e .accepted
              (be8 (s.slot k).code ++ be8 refs ++ be32 h.start ++ be32 h.stop ++ be8 h.count
                ++ be8 es.length ++ be8 h.name.length ++ h.name) false))
        ∧ (sel ≠ 255 → s.slot k = .empty → exec .profileRead s = .next (s.answered e .notFound [] false))
        ∧ (∀ h, sel ≠ 255 → (s.slot k).header? = some h →
            (h.count ≤ sel →
                exec .profileRead s = .next (s.answered e .badValue [BitVec.ofNat 8 sel, 5] false))
            ∧ (sel < h.count → entryAt (s.slot k).entries sel = none →
                exec .profileRead s = .next (s.answered e .notFound [] false))
            ∧ (∀ g, sel < h.count → entryAt (s.slot k).entries sel = some g →
                exec .profileRead s
                  = .next (s.answered e .accepted (BitVec.ofNat 8 sel :: g.bytes) false)))

/-- How a profile is read at a position (R5, R13, R14, R15, R16, R29): the segment that contains it; the speed and the
rotation of that segment; the power of the segment the power lead further on, inside its ramp on the straight line from
the segment before, truncated toward that segment's power; the dwell segments whose start an advance reaches, in
ascending index; and the demand at HEAT entry, a dwell on segment 0 giving its own power. -/
def Obligations.ProfilesAreReadAtAPosition : Prop :=
  (∀ (s : State) (u : Station) (c : Context) (h : Header) (es : List (Nat × Segment)) (n : Nat),
      (s.st u).current = some c → s.slot c.job.slot = .ready h es n →
        s.profileOf u = ⟨h.start, h.stop, es.map Prod.snd⟩)
  ∧ (∀ (segs : List Segment) (x i : Nat), segs.Pairwise (fun a b => a.start < b.start) → i < segs.length →
      (segIndexAt segs x = i ↔
        (i = 0 ∨ (segGet segs i).start ≤ x) ∧ ∀ j, i < j → j < segs.length → x < (segGet segs j).start))
  ∧ ∀ (p : Profile) (lead h : Nat),
      let seg := segGet p.segs
      let j := segIndexAt p.segs (h + lead)
      let d := h + lead - (seg j).start
      let before := (seg (j - 1)).power
      let own := (seg j).power
      (∀ i g, p.segs[i]? = some g → seg i = g)
      ∧ (∀ i, i + 1 < p.segs.length → segLength p i = (seg (i + 1)).start - (seg i).start)
      ∧ (∀ i, p.segs.length ≤ i + 1 → segLength p i = p.stop - (seg i).start)
      ∧ speedAt p.segs h = (seg (segIndexAt p.segs h)).speed
      ∧ rotationAt p.segs h = (seg (segIndexAt p.segs h)).rotation
      ∧ segAt p.segs h = seg (segIndexAt p.segs h)
      ∧ (∀ r, (seg j).ramp = some r → 0 < r → h + lead < (seg j).start + r →
          powerAt p.segs lead h =
            if before ≤ own then before + (own - before) * d / r else before - (before - own) * d / r)
      ∧ ((∀ r, (seg j).ramp = some r → r = 0 ∨ (seg j).start + r ≤ h + lead) → powerAt p.segs lead h = own)
      ∧ ((seg 0).dwell ≠ none → entryDemand p lead = (seg 0).power)
      ∧ ((seg 0).dwell = none → entryDemand p lead = powerAt p.segs lead p.start)
      ∧ ∀ hit : Nat → Bool,
          (dwellSegments p.segs hit).Pairwise (· < ·)
          ∧ ∀ i, i ∈ dwellSegments p.segs hit ↔
              i < p.segs.length ∧ (seg i).dwell ≠ none ∧ hit (seg i).start = true

/-! ### Records and run control -/

/-- TAKE removes the oldest record and answers it, field by field as R187 lays it out; an empty list is answered EMPTY.
STOP NORMAL in RUNNING takes the run to STOPPING, or at once to STOPPED where no job is current, and marks each current
DRY job; STOP NORMAL otherwise is ALREADY, and a mode that is neither 1 nor 2 is refused. RESUME takes the run back to
RUNNING, or is ALREADY. The room a TAKE frees and the run that RESUME restarts are judged for the start conditions at
once (R25; log 8). -/
def Obligations.TakeStopNormalAndResume : Prop :=
  (∀ r : Record,
    let fault (f : FaultCode) : Nat :=
      1 + [FaultCode.inverter, .invDrop, .noPower, .coilFlow, .spindle, .stall, .reverse, .limit, .axis,
        .quenchFlow].idxOf f
    let field (f : Option FaultCode) : Nat := match f with | none => 0 | some f => fault f
    let flags (f : Flags) : Nat :=
      bitsByte [f.energyLow, f.energyHigh, f.powerBand, f.late, f.lowFlow, f.flooded, f.aborted]
    let c := r.counts
    r.bytes =
      be8 (bitsByte [r.station == .b, r.job.kind == .dry, r.tankWarm, r.soak.isSome] + 16 * r.zones.length)
        ++ be16 r.job.tag
        ++ be8 (r.job.slot.val + 1
          + 16 * [RecordOutcome.good, .reject, .dryGood, .dryFlagged, .faulted, .cancelled, .stopped, .notStarted,
            .refusedAtStart, .interrupted].idxOf r.outcome)
        ++ be8 (r.walkReached + 16 * bitsByte [r.bypassed.w3, r.bypassed.w6])
        ++ be8 (field r.firstFault + 16 * field r.secondFault)
        ++ be32 r.startTime.toNat ++ be32 r.heatTime ++ be32 r.heated ++ be32 r.energy
        ++ be16 (min 65535 r.worstDelay)
        ++ [c.energyLow, c.energyHigh, c.powerBand, c.late, c.lowFlow, c.flooded, c.aborted].flatMap be16
        ++ be8 r.beyond ++ (r.job.ident ++ List.replicate 16 0).take 16
        ++ (match r.soak with
          | none => []
          | some k =>
            be8 k.repeatsDone ++ be8 k.errorCount
              ++ be8 (match k.lastError with
                | .none => 0
                | .fault f => fault f
                | .flag f =>
                  0x11 + [SliceFlag.energyLow, .energyHigh, .powerBand, .late, .lowFlow, .flooded,
                    .aborted].idxOf f))
        ++ r.zones.flatMap fun z => be16 z.first ++ be16 z.count ++ be8 (flags z.flags))
  ∧ ∀ (s : State) (e : Entry),
    (Asked .take e s →
        (s.records = [] → exec .take s = .next (s.answered e .empty [] false))
        ∧ ∀ r rest, s.records = r :: rest →
            exec .take s
              = .next (({ s with records := rest } : State).judgeStarts.answered e .accepted r.bytes false))
      ∧ (Asked .stopNormal e s →
        let marked : StationState → StationState := fun x =>
          { x with
            current := x.current.map fun c =>
              if c.job.kind = .harden then c else { c with endAfterRepeat := true } }
        (e.payload ≠ [1] → exec .stopNormal s = .next (s.answered e .badValue [255, 39] false))
        ∧ (e.payload = [1] → s.run ≠ .running → exec .stopNormal s = .next (s.answered e .already [] false))
        ∧ (e.payload = [1] → s.run = .running →
            exec .stopNormal s = .next
              (({ s with
                  run := if s.a.busy = false ∧ s.b.busy = false then .stopped else .stopping
                  stopMode := .normal
                  a := marked s.a
                  b := marked s.b } : State).answered e .accepted [] false)))
      ∧ (Asked .resume e s →
        (s.run = .running → exec .resume s = .next (s.answered e .already [] false))
        ∧ (s.run ≠ .running →
            exec .resume s
              = .next (({ s with run := .running, stopMode := .none } : State).judgeStarts.answered e .accepted
                [] false)))

/-- STOP ABRUPT: in STOPPED it is ALREADY; else STOPPING and ABRUPT, or STOPPED where no job is current, and each
station with a current job takes the stop in its state (`StopTaken`): one station, or both one after the other, the
second in the state the first leaves, which a channel released to it may have changed.
Which of two stations takes it first is a free value (log 12). That a walk ended here keeps abort cause none, and that a
cause and a pending outcome FAULTED already recorded stay, is the model's choice (log 19). -/
def Obligations.StopAbruptEndsWalkAndHeat : Prop :=
  ∀ (s : State) (e : Entry), Asked .stopAbrupt e s →
    (s.run = .stopped → exec .stopAbrupt s = .next (s.answered e .already [] false))
    ∧ (s.run ≠ .stopped →
        let base : State := { s with run := .stopping, stopMode := .abrupt }
        (s.anyCurrent = false →
            exec .stopAbrupt s
              = .next (({ base with run := .stopped } : State).answered e .accepted [] false))
        ∧ (∀ u, (s.st u).busy = true → (s.st u.other).busy = false → ∃ t,
            exec .stopAbrupt s = .next (t.answered e .accepted [] false) ∧ StopTaken u base t
              ∧ t.run = .stopping ∧ (t.st u).busy = true)
        ∧ ((∀ u, (s.st u).busy = true) → ∃ v r t,
            exec .stopAbrupt s = .next (t.answered e .accepted [] false)
              ∧ StopTaken v { base with freeIndex := s.freeIndex + 1 } r ∧ StopTaken v.other r t
              ∧ t.run = .stopping ∧ ∀ u, (t.st u).busy = true))

/-! ### Jobs -/

/-- JOB: the nine checks in order, each with its refusal; an accepted entry joins the tail of the queue, its slot
gains a reference, an IDLE station enters WAIT-PART, the start conditions are judged, and the reply tells how many are
pending.
That the judgement is part of JOB itself, and that the number counts the new entry and those before it ahead of a job
taken by that judgement, is the model's choice (log 8). -/
def Obligations.JobJudgedInOrder : Prop :=
  ∀ (s : State) (e : Entry) (u : Station), Asked .job e s → unitStation e.unit = some u →
    let p := e.payload
    let r := readJob p
    let x := s.st u
    r = { tag := field p 0 2, kind := field p 2 1, profile := field p 3 1, repeats := field p 4 1, ident := p.drop 6 }
    ∧ exec .job s = .next
      (if r.tag = 0 then s.answered e .badValue [255, 32] false
      else if r.kind ≠ 1 ∧ r.kind ≠ 2 then s.answered e .badValue [255, 33] false
      else if (r.kind = 1 ∧ r.repeats ≠ 1) ∨ (r.kind = 2 ∧ ¬ (1 ≤ r.repeats ∧ r.repeats ≤ 255)) then
        s.answered e .badValue [255, 34] false
      else if ¬ (r.ident.length ≤ 16 ∧ ∀ ch ∈ r.ident, 0x20 ≤ ch.toNat ∧ ch.toNat ≤ 0x7E) then
        s.answered e .badValue [255, 35] false
      else
        match slotIndex r.profile with
        | none => s.answered e .badValue [255, 36] false
        | some k =>
          match s.slot k with
          | .ready h _ _ =>
            if ¬ Fits x.settings h.start h.stop then
              s.answered e .badValue [255, 37] false
            else if 8 ≤ x.queue.length then s.answered e .full [] false
            else if (∃ j ∈ x.queue, j.tag = r.tag) ∨ (∃ c, x.current = some c ∧ c.job.tag = r.tag) then
              s.answered e .dupTag [] false
            else
              ((s.modSt u fun x =>
                  { x with
                    queue := x.queue ++ [⟨r.tag, if r.kind = 1 then .harden else .dry, k, r.repeats, r.ident⟩]
                    mode := if x.mode = .idle then .waitPart else x.mode }).addRef k).judgeStarts.answered e
                .accepted [BitVec.ofNat 8 (x.queue.length + 1)] false
          | _ => s.answered e .notReady [] false)

/-- CANCEL, by what carries the tag. A pending entry leaves the queue with its reference, the last one taking WAIT-PART to
IDLE, and the start conditions are judged at once (R25; log 8); the finished job's tag is TOO-LATE, any other NOT-FOUND,
and a tag of 0 matches nothing. The current job, by the station's state: WALK ends CANCELLED, HEAT goes to QUENCH-OUT
with abort cause CANCEL, QUENCH-OUT and FLOOD answer ALREADY, and RUNOUT and RETURN answer TOO-LATE unless the repeat is a
non-final DRY one, which takes the marker.
That a walk ended here keeps abort cause none is the model's choice (log 19). -/
def Obligations.CancelActsOnTheTag : Prop :=
  (∀ (s : State) (e : Entry) (u : Station), Asked .cancel e s → unitStation e.unit = some u →
    let tag := field e.payload 0 2
    let x := s.st u
    (tag = 0 → exec .cancel s = .next (s.answered e .notFound [] false))
    ∧ (tag ≠ 0 → (∀ c, x.current = some c → c.job.tag ≠ tag) →
        (∀ before j after, x.queue = before ++ j :: after → j.tag = tag → (∀ i ∈ before, i.tag ≠ tag) →
            (x.mode ≠ .waitPart ∨ before ++ after ≠ [] →
                exec .cancel s
                  = .next (((s.modSt u fun x => { x with queue := before ++ after }).dropRef
                      j.slot).judgeStarts.answered e .accepted [] false))
            ∧ (x.mode = .waitPart → before ++ after = [] → ∃ t,
                exec .cancel s = .next (t.judgeStarts.answered e .accepted [] false)
                ∧ t = ((s.setSt u (t.st u)).dropRef j.slot)
                ∧ (t.st u).mode = .idle ∧ (t.st u).queue = [] ∧ (t.st u).finished = none
                ∧ (t.st u).current = x.current ∧ (t.st u).motion.mode = .stop))
        ∧ ((∀ j ∈ x.queue, j.tag ≠ tag) →
            exec .cancel s
              = .next (s.answered e (if x.finished = some tag then .tooLate else .notFound) [] false))))
  ∧ ∀ (s : State) (e : Entry) (u : Station) (c : Context), Asked .cancel e s → unitStation e.unit = some u →
    (s.st u).current = some c → c.job.tag = field e.payload 0 2 → field e.payload 0 2 ≠ 0 →
      ((s.st u).mode = .quenchOut ∨ (s.st u).mode = .flood →
          exec .cancel s = .next (s.answered e .already [] false))
      ∧ ((s.st u).mode = .runout ∨ (s.st u).mode = .returning →
          exec .cancel s = .next
            (if c.job.kind = .dry ∧ c.repeatsDone ≠ c.job.repeats ∧ c.pendingOutcome = .none
                ∧ c.firstFault = none then
              (s.modSt u fun x =>
                { x with current := some { c with endAfterRepeat := true, cancelMet := true } }).answered e
                .accepted [] false
            else s.answered e .tooLate [] false))
      ∧ (∀ w, (s.st u).mode = .walk → (s.st u).walk.current = some w →
          ∃ t, exec .cancel s = .next (t.answered e .accepted [] false)
            ∧ WalkEnded u w .cancelled .none .cancelled s t ∧ NoRecord s t ∧ Around s t)
      ∧ ((s.st u).mode = .heat → (s.st u).walk.current = none →
          ∃ t, exec .cancel s = .next (t.answered e .accepted [] false)
            ∧ (t.st u).mode = .quenchOut
            ∧ (t.st u).motion = modeSet (.scan (s.st u).settings.runoutSpeed) (s.st u).motion
            ∧ (t.st u).handed = (s.st u).handed ++ axisHanded (s.st u)
            ∧ HeatLeft u (fun c =>
                { c with
                  abortCause := if c.abortCause = .none then .cancel else c.abortCause
                  pendingOutcome :=
                    if c.pendingOutcome = .faulted then .faulted else .cancelled }) s t
            ∧ (∀ h sl, (s.st u).trail.phase = .heating h sl →
                (t.st u).trail.phase = .draining h
                  ∧ (t.st u).trail.list = abortedSlices s.time (s.st u).trail)
            ∧ NoRecord s t ∧ Around s t)

/-! ### Homing, station reset and taking a job -/

/-- The judgement of the start conditions, which the statements of R25's events name: it changes nothing where no head
job's conditions hold, and leaves none whose conditions hold; where one station's hold it is TAKE_HEAD_JOB there; where
both hold it is TAKE_HEAD_JOB at one of the two.
That the judgement is part of the event itself is read from R25 and R26 (log 8); which of two stations takes its job
first is a free value (log 12). -/
def Obligations.StartConditionsAreJudged : Prop :=
  (∀ s : State, (∀ u j rest, (s.st u).queue = j :: rest → ¬ Startable s u j) → s.judgeStarts = s)
  ∧ (∀ (s : State) (u : Station) (j : JobEntry) (rest : List JobEntry),
      (s.judgeStarts.st u).queue = j :: rest → ¬ Startable s.judgeStarts u j)
  ∧ (∀ (s : State) (u : Station) (j : JobEntry) (rest : List JobEntry),
      (s.st u).queue = j :: rest → Startable s u j →
      (∀ i more, (s.st u.other).queue = i :: more → ¬ Startable s u.other i) →
        exec (.takeHeadJob u) s = .next s.judgeStarts)
  ∧ ∀ s : State, (∀ u, ∃ j rest, (s.st u).queue = j :: rest ∧ Startable s u j) →
      ∃ u, exec (.takeHeadJob u) { s with freeIndex := s.freeIndex + 1 } = .next s.judgeStarts

/-- HOME: accepted in UNHOMED and in HALTED alone, remembering which as the homing origin; HOMING begins with the
search, in BACK-OFF where HOME-SW is active, and the home result stays. With AXIS-FAULT active the search fails at once
(R100), back to the origin.
That the search fails within HOME itself is the model's choice (log 9). -/
def Obligations.HomeBeginsTheSearch : Prop :=
  ∀ (s : State) (e : Entry) (u : Station), Asked .home e s → unitStation e.unit = some u →
    ((s.st u).mode ≠ .unhomed → (s.st u).mode ≠ .halted →
        exec .home s = .next (s.answered e .wrongState [] false))
    ∧ ((s.st u).mode = .unhomed ∨ (s.st u).mode = .halted →
        let origin : HomingOrigin := if (s.st u).mode = .halted then .halted else .unhomed
        ((s.st u).lines.axisFault = false →
            exec .home s = .next ((s.modSt u fun x =>
              { x with
                mode := .homing
                homingOrigin := origin
                motion :=
                  { x.motion with
                    mode := .seekHome (if x.lines.homeSw then .backOff else .seek) x.settings.homeSpeed
                    arrival := .awaited
                    valid := false
                    searchTimer := some 120000
                    stallTimer := none } }).answered e .accepted [] false))
        ∧ ((s.st u).lines.axisFault = true →
            exec .home s = .next ((s.modSt u fun x =>
              { x with
                homingOrigin := origin
                homeResult := .failed
                motion :=
                  { x.motion with
                    mode := .stop
                    arrival := .awaited
                    valid := false
                    searchTimer := none
                    stallTimer := none } }).answered e .accepted [] false)))

/-- STATION-RESET: accepted in UNHOMED, IDLE, WAIT-PART and HALTED, refused BUSY elsewhere. The queue empties and each
entry's slot loses its reference; the station's outputs go inactive; HALTED goes to UNHOMED with home result NONE; the
part-consumed flag, the release-owed marker, a flood in progress and the settings stay; the faults not yet taken are
dropped when taken (R177; log 40); the other station and the common blocks are untouched. -/
def Obligations.StationResetClearsTheStation : Prop :=
  ∀ (s : State) (e : Entry) (u : Station), Asked .stationReset e s → unitStation e.unit = some u →
    let x := s.st u
    ((x.mode ≠ .unhomed ∧ x.mode ≠ .idle ∧ x.mode ≠ .waitPart ∧ x.mode ≠ .halted) →
        exec .stationReset s = .next (s.answered e .busy [] false))
    ∧ ((x.mode = .unhomed ∨ x.mode = .idle ∨ x.mode = .waitPart ∨ x.mode = .halted) → ∃ t,
        exec .stationReset s = .next (t.answered e .accepted [] false)
        ∧ (t.st u).mode = (if x.mode = .unhomed ∨ x.mode = .halted then .unhomed else .idle)
        ∧ (t.st u).homeResult = (if x.mode = .halted then .none else x.homeResult)
        ∧ (t.st u).haltCause = (if x.mode = .halted then .none else x.haltCause)
        ∧ (t.st u).queue = [] ∧ (t.st u).current = x.current ∧ (t.st u).finished = none
        ∧ (t.st u).partConsumed = x.partConsumed ∧ (t.st u).releaseOwed = x.releaseOwed
        ∧ (t.st u).handed = [] ∧ (t.st u).lapsed = x.lapsed ++ x.handed
        ∧ (t.st u).settings = x.settings ∧ (t.st u).walk = {} ∧ (t.st u).trail = {}
        ∧ (t.st u).ready = false ∧ (t.st u).doneOut = false ∧ (t.st u).rejectOut = false
        ∧ (t.st u).motion.speedDemand = 0 ∧ (t.st u).motion.spindleDemand = 0
        ∧ (t.st u).quench.valve = .closed ∧ (t.st u).quench.flood = x.quench.flood
        ∧ (∀ k, (t.slot k).refs = (s.slot k).refs - (x.queue.filter fun j => j.slot == k).length)
        ∧ t.st u.other = s.st u.other ∧ t.channel = s.channel ∧ t.records = s.records
        ∧ t.reservations = s.reservations ∧ t.run = s.run ∧ Around s t)

/-- TAKE_HEAD_JOB with the start conditions met and a travel fit: the job is current with a fresh context, tallies
and walk, through a new reservation, and the walk stands at W2 for coolant, at W4 with the carriage sent to the profile
start, or has failed at W3 on a critical tank; each mode set has its timers, and AXIS is handed with MOVE-TO where
AXIS-FAULT is active (R100). The start conditions are judged again after it.
That the judgement is part of the event, and what the command does with no job startable, is log 8. -/
def Obligations.HeadJobEntersItsWalk : Prop :=
  ∀ (s : State) (u : Station) (j : JobEntry) (rest : List JobEntry),
    (s.st u).queue = j :: rest → Startable s u j →
    let x := s.st u
    let p := (s.slot j.slot).profile
    Fits x.settings p.start p.stop → ∃ t, exec (.takeHeadJob u) s = .next t.judgeStarts
      ∧ (t.st u).queue = rest ∧ t.reservations = s.reservations + 1 ∧ t.records = s.records
      ∧ t.slots = s.slots ∧ t.run = s.run ∧ t.channel = s.channel ∧ t.st u.other = s.st u.other
      ∧ Around s t ∧ (t.st u).trail.tallies = {}
      ∧ (∃ c, (t.st u).current = some c ∧ c.job = j ∧ c.startTime = s.time ∧ c.heatTime = 0
          ∧ c.abortCause = .none ∧ c.endAfterRepeat = false ∧ c.repeatsDone = 0 ∧ c.errorCount = 0
          ∧ c.lastError = .none ∧ c.firstFault = none ∧ c.secondFault = none)
      ∧ (j.kind = .harden → x.lines.coilFlow = false →
          (t.st u).mode = .walk ∧ (t.st u).motion = modeSet .stop x.motion ∧ (t.st u).handed = x.handed
          ∧ (t.st u).walk =
            { current := some .w2, timer := some x.settings.stepLimit, reached := 1, result := .running })
      ∧ ((j.kind = .dry ∨ x.lines.coilFlow = true) →
          (s.tank.state ≠ .critical ∨ x.settings.bypassW3 = true →
            (t.st u).mode = .walk ∧ (t.st u).motion = modeSet (.moveTo p.start x.settings.returnSpeed) x.motion
            ∧ (t.st u).handed = x.handed ++ axisHanded x
            ∧ (t.st u).walk =
              { current := some .w4
                timer := some x.settings.stepLimit
                reached := 3
                bypassed := { w3 := x.settings.bypassW3 }
                result := .running })
          ∧ (s.tank.state = .critical → x.settings.bypassW3 = false →
            (t.st u).mode = .returning ∧ (t.st u).motion = motionInReturn x.settings.returnSpeed x.motion
            ∧ (t.st u).handed = x.handed ++ axisHanded x
            ∧ (t.st u).walk =
              { reached := 2, result := .failed, endedAt := some .w3, cause := .tankCritical }
            ∧ ∀ c, (t.st u).current = some c → c.pendingOutcome = .notStarted))

/-- TAKE_HEAD_JOB does nothing while a start condition of R25 fails. With them met and no travel fit the record is
written at once with outcome REFUSED-AT-START and walk reached 0; a HARDEN station enters RELEASE with REJECT owed, a
DRY one WAIT-PART or IDLE. What RELEASE entry leaves of the handshake, its timer and the part-consumed flag is
`ReleaseEntered` (R43, R143, R144), here and below.
The start conditions are judged again after the record. That a job not startable is kept with no effect at all is
log 8; that the context is then absent is the model's choice (log 18). -/
def Obligations.HeadJobKeptOrRefused : Prop :=
  (∀ (s : State) (u : Station),
    (∀ j rest, (s.st u).queue = j :: rest → ¬ Startable s u j) → exec (.takeHeadJob u) s = .next s)
  ∧ ∀ (s : State) (u : Station) (j : JobEntry) (rest : List JobEntry),
    (s.st u).queue = j :: rest → Startable s u j →
    let p := (s.slot j.slot).profile
    ¬ Fits (s.st u).settings p.start p.stop → ∃ t r, exec (.takeHeadJob u) s = .next t.judgeStarts
      ∧ t.records = s.records ++ [r] ∧ t.reservations = s.reservations
      ∧ r.station = u ∧ r.job = j ∧ r.outcome = .refusedAtStart ∧ r.walkReached = 0 ∧ r.heated = 0
      ∧ (∀ k, (t.slot k).refs = if k = j.slot then (s.slot k).refs - 1 else (s.slot k).refs)
      ∧ t.run = s.run ∧ t.channel = s.channel ∧ t.st u.other = s.st u.other ∧ Around s t
      ∧ (t.st u).queue = rest ∧ (t.st u).current = none ∧ (t.st u).motion.mode = .stop
      ∧ (t.st u).motion.spindleDemand = 0 ∧ (t.st u).quench = (s.st u).quench
      ∧ (j.kind = .harden →
          (t.st u).mode = .release ∧ ReleaseEntered (s.st u) (t.st u) (some true) (some j.tag))
      ∧ (j.kind = .dry →
          (t.st u).mode = (if rest = [] then .idle else .waitPart)
            ∧ (t.st u).releaseOwed = (s.st u).releaseOwed ∧ (t.st u).finished = none
            ∧ (t.st u).partConsumed = (s.st u).partConsumed ∧ (t.st u).lines = (s.st u).lines)

/-! ### Moves, spindle and walk -/

/-- MOVE_ARRIVAL, once a reading has found the arrival: homing ends OK by R23; at W4 the walk goes on to W5 with the
spindle set to segment 0 and watched. It is reported once, and without a found arrival nothing happens. The end of homing
is judged for the start conditions (R25; log 8).
The latch between the reading and the report is the model's choice (log 10). -/
def Obligations.ArrivalEndsHomingOrPassesW4 : Prop :=
  ∀ (s : State) (u : Station),
    let x := s.st u
    (x.motion.arrival ≠ .found → exec (.moveArrival u) s = .next s)
    ∧ (x.motion.arrival = .found → x.mode = .homing → ∃ t, exec (.moveArrival u) s = .next t.judgeStarts
        ∧ t = s.setSt u (t.st u)
        ∧ (t.st u).homeResult = .ok ∧ (t.st u).haltCause = .none ∧ (t.st u).motion.mode = .stop
        ∧ (t.st u).motion.searchTimer = none ∧ (t.st u).queue = x.queue ∧ (t.st u).current = x.current
        ∧ (t.st u).settings = x.settings
        ∧ (x.releaseOwed = none → (t.st u).partConsumed = x.partConsumed ∧ (t.st u).lines = x.lines ∧
            (t.st u).mode = (if x.queue = [] then .idle else .waitPart) ∧ (t.st u).finished = none)
        ∧ (x.releaseOwed ≠ none → ReleaseEntered x (t.st u) x.releaseOwed x.finished))
    ∧ (x.motion.arrival = .found → x.mode = .walk → x.walk.current = some .w4 →
        exec (.moveArrival u) s = .next (s.modSt u fun x =>
          { x with
            walk :=
              { x.walk with current := some .w5, timer := some x.settings.stepLimit, reached := 4 }
            motion :=
              spindleSet (segGet (s.profileOf u).segs 0).rotation
                { x.motion with
                  mode := .stop, arrival := .awaited, searchTimer := none, stallTimer := none, watch := .on } }))
    ∧ (x.motion.arrival = .found → x.mode = .walk → x.walk.current ≠ some .w4 →
        exec (.moveArrival u) s = .next (s.modSt u fun x =>
          { x with motion := { x.motion with arrival := .reported } }))

/-- The RETURN arrival of a job that ends there writes its record, with the outcome in the order of R172: a HARDEN job
owes its release, with REJECT unless the outcome was GOOD, and a DRY job enters WAIT-PART or IDLE. The start conditions
are judged after it (R25; log 8). The faults not yet taken are dropped when taken (log 40).
The latch of the arrival and the absent context are the model's choice (log 10 and 18). -/
def Obligations.ReturnArrivalWritesTheRecord : Prop :=
  ∀ (s : State) (u : Station) (c : Context),
    (s.st u).motion.arrival = .found → (s.st u).mode = .returning → (s.st u).current = some c →
    (c.job.kind = .harden ∨ c.job.repeats ≤ c.repeatsDone ∨ c.endAfterRepeat = true ∨ c.firstFault ≠ none
      ∨ c.pendingOutcome ≠ .none) → ∃ t r, exec (.moveArrival u) s = .next t.judgeStarts
      ∧ RecordWritten u c r s t ∧ r.station = u ∧ r.job = c.job
      ∧ r.outcome = outcomeOrder ((s.st u).closing c) (s.st u).trail.tallies.flagged
      ∧ r.walkReached = (s.st u).walk.reached
      ∧ r.bypassed = (s.st u).walk.bypassed ∧ r.firstFault = c.firstFault ∧ r.secondFault = c.secondFault
      ∧ r.startTime = c.startTime ∧ r.heatTime = c.heatTime
      ∧ r.heated = (s.st u).trail.tallies.heated ∧ r.energy = (s.st u).trail.tallies.energy
      ∧ r.worstDelay = (s.st u).trail.tallies.worstDelay ∧ r.counts = (s.st u).trail.tallies.counts
      ∧ r.zones = (s.st u).trail.tallies.zones ∧ r.beyond = (s.st u).trail.tallies.beyond
      ∧ r.tankWarm = (s.st u).trail.tallies.tankWarm
      ∧ r.soak =
        (let f := (s.st u).trail.tallies.repeatUnion
        let flags : List (Bool × SliceFlag) :=
          [(f.energyLow, .energyLow), (f.energyHigh, .energyHigh), (f.powerBand, .powerBand), (f.late, .late),
            (f.lowFlow, .lowFlow), (f.flooded, .flooded), (f.aborted, .aborted)]
        if c.job.kind = .dry ∧ 1 < c.job.repeats then
          match c.heated, c.firstFault, flags.find? Prod.fst with
          | true, some g, _ => some ⟨c.repeatsDone, min 255 (c.errorCount + 1), .fault g⟩
          | true, none, some q => some ⟨c.repeatsDone, min 255 (c.errorCount + 1), .flag q.2⟩
          | _, _, _ => some ⟨c.repeatsDone, c.errorCount, c.lastError⟩
        else none)
      ∧ t.st u.other = s.st u.other ∧ t.channel = s.channel ∧ Around s t
      ∧ (t.st u).queue = (s.st u).queue
      ∧ (t.st u).handed = [] ∧ (t.st u).lapsed = (s.st u).lapsed ++ (s.st u).handed
      ∧ (c.job.kind = .dry → (t.st u).mode = (if (s.st u).queue = [] then .idle else .waitPart)
          ∧ (t.st u).releaseOwed = (s.st u).releaseOwed ∧ (t.st u).finished = none
          ∧ (t.st u).partConsumed = (s.st u).partConsumed ∧ (t.st u).lines = (s.st u).lines)
      ∧ (c.job.kind = .harden →
          ReleaseEntered (s.st u) (t.st u) (some (r.outcome != .good)) (some c.job.tag))

/-- The RETURN arrival of a DRY job with repeats to go begins the next repeat: no record is written, and the walk
starts again behind W2, standing at W4 or failed at W3, with AXIS handed where AXIS-FAULT is active (R100).
The latch of the arrival is the model's choice (log 10). -/
def Obligations.ReturnArrivalRepeatsADryJob : Prop :=
  ∀ (s : State) (u : Station) (c : Context),
    (s.st u).motion.arrival = .found → (s.st u).mode = .returning → (s.st u).current = some c →
    c.job.kind = .dry → c.repeatsDone < c.job.repeats → c.endAfterRepeat = false → c.firstFault = none →
    c.pendingOutcome = .none → ∃ t, exec (.moveArrival u) s = .next t
      ∧ NoRecord s t ∧ Around s t ∧ t.channel = s.channel ∧ t.st u.other = s.st u.other
      ∧ (t.st u).queue = (s.st u).queue ∧ (t.st u).trail.tallies = (s.st u).trail.tallies
      ∧ (∃ d, (t.st u).current = some d ∧ d.job = c.job ∧ d.repeatsDone = c.repeatsDone
          ∧ d.errorCount = (if c.heated = true ∧ (s.st u).trail.tallies.repeatUnion.any = true
              then min 255 (c.errorCount + 1) else c.errorCount))
      ∧ (s.tank.state ≠ .critical ∨ (s.st u).settings.bypassW3 = true →
          (t.st u).mode = .walk ∧ (t.st u).walk.current = some .w4 ∧ (t.st u).walk.reached = 3
            ∧ (t.st u).walk.result = .running
            ∧ (t.st u).motion
              = modeSet (.moveTo (s.profileOf u).start (s.st u).settings.returnSpeed) (s.st u).motion
            ∧ (t.st u).handed = (s.st u).handed ++ axisHanded (s.st u))
      ∧ (s.tank.state = .critical → (s.st u).settings.bypassW3 = false →
          (t.st u).mode = .returning ∧ (t.st u).walk.result = .failed
            ∧ (t.st u).walk.cause = .tankCritical ∧ (t.st u).walk.reached = 2
            ∧ (t.st u).motion = motionInReturn (s.st u).settings.returnSpeed (s.st u).motion
            ∧ (t.st u).handed = (s.st u).handed ++ axisHanded (s.st u))

/-- SPINDLE_AT_SPEED, once a watched reading has been within tolerance: the watch turns off, and at W5 the walk goes on
to W6, whose proof opens the ring valve, or with W6 bypassed to the request of W7, or for a DRY job into HEAT; without such
a reading nothing happens.
The latch between the reading and the report is the model's choice (log 10). -/
def Obligations.SpindleAtSpeedPassesW5 : Prop :=
  ∀ (s : State) (u : Station),
    let x := s.st u
    (x.motion.watch ≠ .found → exec (.spindleAtSpeed u) s = .next s)
    ∧ (x.motion.watch = .found → x.walk.current ≠ some .w5 →
        exec (.spindleAtSpeed u) s
          = .next (s.modSt u fun x => { x with motion := { x.motion with watch := .off } }))
    ∧ (x.motion.watch = .found → x.walk.current = some .w5 → x.settings.bypassW6 = false →
        exec (.spindleAtSpeed u) s = .next (s.modSt u fun x =>
          { x with
            motion := { x.motion with watch := .off }
            walk :=
              { x.walk with current := some .w6, timer := some x.settings.stepLimit, reached := 5 }
            quench :=
              { x.quench with
                valve := .proof
                proofTimer := some x.settings.proofTime
                proofSeen := false
                proofPeak := 0 } }))
    ∧ (x.motion.watch = .found → x.walk.current = some .w5 → x.settings.bypassW6 = true → x.harden = true →
        ∃ t, exec (.spindleAtSpeed u) s = .next t
          ∧ Requested u
            (s.modSt u fun x =>
              { x with
                motion := { x.motion with watch := .off }
                walk :=
                  { x.walk with
                    current := some .w7
                    timer := if x.settings.powerWait = 0 then none else some x.settings.powerWait
                    reached := 6
                    bypassed := { x.walk.bypassed with w6 := true } } }) t)
    ∧ (x.motion.watch = .found → x.walk.current = some .w5 → x.settings.bypassW6 = true →
        x.harden = false → s.channel.holder ≠ some u → ∃ t, exec (.spindleAtSpeed u) s = .next t
          ∧ t = s.setSt u (t.st u)
          ∧ HeatEntered u
            (s.modSt u fun x =>
              { x with
                motion := { x.motion with watch := .off }
                walk := { x.walk with bypassed := { x.walk.bypassed with w6 := true } } }) t)

/-- The proof time with the proof seen: the valve closes, the result is PASSED, and a HARDEN walk at W6 goes on to W7
with its request at the channel, in whatever state that stands; a DRY walk passes into HEAT without the channel.
The expiry lets the time left pass, and proof seen stays as it is after the proof (the model's choice, log 2 and 37). -/
def Obligations.ProofPassedGoesOn : Prop :=
  ∀ (s : State) (u : Station) (n : Nat),
    let x := s.st u
    x.quench.proofTimer = some n → x.walk.current = some .w6 → x.quench.proofSeen = true →
      (x.harden = true → ∃ t, exec (.proofTimerExpiry u) s = .next t
          ∧ Requested u
            ((s.elapse n).modSt u fun x =>
              { x with
                quench :=
                  { x.quench with
                    valve := .closed
                    proofTimer := none
                    riseTimer := none
                    afterTimer := none
                    proofResult := .passed }
                walk :=
                  { x.walk with
                    current := some .w7
                    timer := if x.settings.powerWait = 0 then none else some x.settings.powerWait
                    reached := 6 } }) t)
      ∧ (x.harden = false → s.channel.holder ≠ some u → ∃ t, exec (.proofTimerExpiry u) s = .next t
          ∧ t.channel = s.channel.elapse n ∧ t.st u.other = (s.st u.other).elapse n ∧ NoRecord s t
          ∧ HeatEntered u
            ((s.elapse n).modSt u fun x =>
              { x with
                quench :=
                  { x.quench with
                    valve := .closed
                    proofTimer := none
                    riseTimer := none
                    afterTimer := none
                    proofResult := .passed } }) t)

/-- The proof time without a sufficient reading: the valve closes, the result is FAILED, and the walk ends with
PROOF-FAILED. The step timer fails the current checkpoint, W7 with POWER-WAIT and any other with STEP-LIMIT. The request at
W7 is withdrawn, and a channel held at W8 is released, to the other station where it waits.
Each expiry lets the time left pass (the model's choice, log 2). That the pending outcome is NOT-STARTED only where no
fault has fixed FAULTED is the model's choice (log 19). -/
def Obligations.ProofAndStepLimitFailTheWalk : Prop :=
  ∀ (s : State) (u : Station) (n : Nat) (w : Checkpoint),
    let x := s.st u
    (x.quench.proofTimer = some n → x.walk.current = some .w6 → x.quench.proofSeen = false →
        ∃ t, exec (.proofTimerExpiry u) s = .next t
          ∧ WalkEnded u .w6 .failed .proofFailed .notStarted (s.elapse n) t
          ∧ (t.st u).quench.proofResult = .failed ∧ NoRecord s t ∧ Around (s.elapse n) t)
    ∧ (x.walk.timer = some n → x.walk.current = some w →
        ∃ t, exec (.stepTimerExpiry u) s = .next t
          ∧ WalkEnded u w .failed (if w = .w7 then .powerWait else .stepLimit) .notStarted (s.elapse n) t
          ∧ NoRecord s t ∧ Around (s.elapse n) t)

/-! ### Faults -/

/-- A handed fault taken in HEAT is recorded and ends HEAT by its class: a quench-out fault leads to QUENCH-OUT, the
trail aborted and draining; a flood fault to FLOOD, the trail aborted, tallied and empty, the ring valve closed and the
flood valve open for the flood time. A channel held here is released, to the other station where it waits; AXIS is
handed with the SCAN of QUENCH-OUT where AXIS-FAULT is active (R100).
That faults are handed first and taken by a command of their own is the model's choice (log 9); that an abort cause
already recorded stays is the model's choice (log 19). -/
def Obligations.FaultInHeatEndsHeat : Prop :=
  ∀ (s : State) (u : Station) (f : FaultCode) (c : Context),
    f ∉ (s.st u).lapsed → f ∈ (s.st u).handed → (s.st u).mode = .heat → (s.st u).current = some c →
    (s.st u).walk.current = none →
      ∃ t, exec (.faultTaken u f) s = .next t
        ∧ HeatLeft u (fun c =>
            { faultRecorded f c with
              abortCause := if c.abortCause = .none then .fault else c.abortCause }) s t
        ∧ NoRecord s t ∧ Around s t
        ∧ (f = .inverter ∨ f = .invDrop ∨ f = .noPower ∨ f = .coilFlow ∨ f = .spindle →
            (t.st u).mode = .quenchOut
            ∧ (t.st u).motion = modeSet (.scan (s.st u).settings.runoutSpeed) (s.st u).motion
            ∧ (t.st u).handed = (s.st u).handed.erase f ++ axisHanded (s.st u)
            ∧ ∀ h sl, (s.st u).trail.phase = .heating h sl →
                (t.st u).trail.phase = .draining h
                  ∧ (t.st u).trail.list = abortedSlices s.time (s.st u).trail)
        ∧ (f = .stall ∨ f = .reverse ∨ f = .limit ∨ f = .quenchFlow ∨ f = .axis →
            (t.st u).mode = .flood
            ∧ (t.st u).motion =
              { modeSet .stop (s.st u).motion with
                spindleTimer := none, reverseRaised := false, limitRaised := false }
            ∧ (t.st u).handed = (s.st u).handed.erase f ∧ (t.st u).trail.phase = .idle
            ∧ (t.st u).trail.list = [] ∧ (t.st u).quench.valve = .closed
            ∧ (t.st u).quench.flood = some ⟨(s.st u).settings.floodTime, .floodEntry⟩
            ∧ ∀ h sl, (s.st u).trail.phase = .heating h sl →
                (t.st u).trail.tallies.heated
                  = (s.st u).trail.tallies.heated + (s.st u).trail.list.length + 1)

/-- A fault taken elsewhere: dropped without a current job, and in every state where it was handed before a reset or
before the record of its cycle; recorded in FLOOD, WALK and RETURN, and in RUNOUT and QUENCH-OUT where it is of the
quench-out class; a flood fault there floods. AXIS at W4 and in RETURN writes the record and halts, and the record is
judged for the start conditions (R25; log 8). A fault not handed changes nothing.
That faults are handed first and taken by a command of their own, and what a taking without one does, is the model's
choice (log 7 and 9); which faults lapse with a record is read from R167 (log 40). -/
def Obligations.FaultOutsideHeat : Prop :=
  ∀ (s : State) (u : Station) (f : FaultCode),
    let x := s.st u
    (f ∉ x.lapsed → f ∉ x.handed → exec (.faultTaken u f) s = .next s)
    ∧ (f ∈ x.lapsed →
        exec (.faultTaken u f) s = .next (s.modSt u fun x => { x with lapsed := x.lapsed.erase f }))
    ∧ (f ∉ x.lapsed → f ∈ x.handed → x.current = none →
        exec (.faultTaken u f) s = .next (s.modSt u fun x => { x with handed := x.handed.erase f }))
    ∧ ∀ c, f ∉ x.lapsed → f ∈ x.handed → x.current = some c →
        let recorded : State :=
          s.modSt u fun x => { x with handed := x.handed.erase f, current := some (faultRecorded f c) }
        (x.mode = .flood ∨ (x.mode = .walk ∧ (f ≠ .axis ∨ x.walk.current ≠ some .w4))
            ∨ (x.mode = .returning ∧ f ≠ .axis)
            ∨ ((x.mode = .runout ∨ x.mode = .quenchOut) ∧ floodClass f = false) →
          exec (.faultTaken u f) s = .next recorded)
        ∧ (x.mode = .runout ∨ x.mode = .quenchOut → floodClass f = true → ∃ t,
            exec (.faultTaken u f) s = .next t ∧ t = s.setSt u (t.st u)
            ∧ (t.st u).mode = .flood ∧ (t.st u).current = some (faultRecorded f c)
            ∧ (t.st u).motion =
              { modeSet .stop x.motion with spindleTimer := none, reverseRaised := false, limitRaised := false }
            ∧ (t.st u).handed = x.handed.erase f ∧ (t.st u).trail.list = [] ∧ (t.st u).trail.phase = .idle
            ∧ (t.st u).trail.tallies.heated = x.trail.tallies.heated + x.trail.list.length
            ∧ (t.st u).quench.valve = .closed
            ∧ (t.st u).quench.flood = some ⟨x.settings.floodTime, .floodEntry⟩)
        ∧ (f = .axis → (x.mode = .walk ∧ x.walk.current = some .w4) ∨ x.mode = .returning → ∃ t r,
            exec (.faultTaken u f) s = .next t.judgeStarts ∧ RecordWritten u c r s t ∧ r.outcome = .faulted
            ∧ r.firstFault = (faultRecorded f c).firstFault
            ∧ r.secondFault = (faultRecorded f c).secondFault
            ∧ (t.st u).mode = .halted ∧ (t.st u).haltCause = .axis ∧ (t.st u).motion.mode = .stop
            ∧ (t.st u).motion.spindleDemand = 0
            ∧ (t.st u).releaseOwed = (if c.job.kind = .harden then some true else x.releaseOwed)
            ∧ (x.mode = .walk → (t.st u).walk.result = .axis ∧ (t.st u).walk.endedAt = some .w4)
            ∧ t.channel = s.channel ∧ t.st u.other = s.st u.other ∧ Around s t)

/-! ### Input lines -/

/-- PRESENT, CLAMPED and HOLD: a sample equal to the one before it does nothing, one equal to the qualified state stops
the timer, and a differing one starts it with (f - 1) times the range, or with f of 0 or 1 takes the state at once; at the
expiry the qualified state takes the sampled one, and PRESENT or CLAMPED active at W1 passes it where both are active
then: to W2 without coil flow, with it on to W4, or to a failed W3 on a critical tank. A changed qualified state is
judged for the start conditions (R25; log 8). AXIS is handed with the MOVE-TO of W4 where AXIS-FAULT is active (R100).
A sample without a change does nothing, and the expiry lets the time left pass (the model's choice, log 2 and 7). -/
def Obligations.LoaderLinesAreQualified : Prop :=
  ∀ (s : State) (u : Station) (line : LoaderLine) (a : Bool) (n : Nat),
    let x := s.st u
    let q := x.lines.qual line
    let put (b : State) (r : QualInput) : State :=
      b.modSt u fun x => { x with lines := x.lines.setQual line r }
    (q.sampled = a → exec (.qualifiedInputSampleChange u line a) s = .next s)
    ∧ (q.sampled ≠ a → a = q.qualified →
        exec (.qualifiedInputSampleChange u line a) s = .next (put s ⟨a, q.qualified, none⟩))
    ∧ (q.sampled ≠ a → a ≠ q.qualified → 2 ≤ x.settings.qualFactor →
        exec (.qualifiedInputSampleChange u line a) s = .next
          (put s ⟨a, q.qualified, some ((x.settings.qualFactor - 1) * 10 ^ x.settings.qualRange)⟩))
    ∧ (q.sampled ≠ a → a ≠ q.qualified → x.settings.qualFactor < 2 →
        ∀ t, exec (.qualificationExpiry u line) (put s ⟨a, q.qualified, some 0⟩) = .next t →
          exec (.qualifiedInputSampleChange u line a) s = .next t)
    ∧ (q.timer = some n →
        let done := put (s.elapse n) ⟨q.sampled, q.sampled, none⟩
        (q.sampled = q.qualified → exec (.qualificationExpiry u line) s = .next done)
        ∧ (line = .clamped → q.sampled = false → q.qualified = true →
            exec (.qualificationExpiry u line) s = .next done.judgeStarts)
        ∧ (line ≠ .hold → q.sampled = true → q.qualified = false → x.walk.current ≠ some .w1 →
            exec (.qualificationExpiry u line) s = .next done.judgeStarts)
        ∧ (line ≠ .hold → q.sampled = true → q.qualified = false → x.walk.current = some .w1 →
            (done.st u).lines.present.qualified = true → (done.st u).lines.clamped.qualified = true →
            x.harden = true → x.lines.coilFlow = false →
            exec (.qualificationExpiry u line) s = .next (done.modSt u fun x =>
              { x with
                walk :=
                  { x.walk with
                    current := some .w2, timer := some x.settings.stepLimit, reached := 1 } }).judgeStarts)
        ∧ (line ≠ .hold → q.sampled = true → q.qualified = false → x.walk.current = some .w1 →
            (done.st u).lines.present.qualified = true → (done.st u).lines.clamped.qualified = true →
            x.lines.coilFlow = true ∨ x.harden = false →
            (s.tank.state ≠ .critical ∨ x.settings.bypassW3 = true →
              exec (.qualificationExpiry u line) s = .next (done.modSt u fun x =>
                { x with
                  motion := modeSet (.moveTo (s.profileOf u).start x.settings.returnSpeed) x.motion
                  handed := x.handed ++ axisHanded x
                  walk :=
                    { x.walk with
                      current := some .w4
                      timer := some x.settings.stepLimit
                      reached := 3
                      bypassed :=
                        { x.walk.bypassed with w3 := x.settings.bypassW3 || x.walk.bypassed.w3 } } }).judgeStarts)
            ∧ (s.tank.state = .critical → x.settings.bypassW3 = false → ∃ t,
                exec (.qualificationExpiry u line) s = .next t.judgeStarts ∧ t = done.setSt u (t.st u)
                ∧ WalkEnded u .w3 .failed .tankCritical .notStarted
                  (done.modSt u fun x => { x with walk := { x.walk with reached := 2 } }) t))
        ∧ (line ≠ .hold → q.sampled = true → q.qualified = false → x.walk.current = some .w1 →
            (done.st u).lines.present.qualified = false ∨ (done.st u).lines.clamped.qualified = false →
            exec (.qualificationExpiry u line) s = .next done.judgeStarts))

/-- The release handshake at its lines and its timer: HOLD active takes DELAYING back to HELD-BACK, HOLD inactive takes
the start step, PRESENT inactive clears the part-consumed flag and completes ASSERTED, and the timer asserts DONE in
DELAYING and completes PULSING; completing leaves RELEASE for WAIT-PART or IDLE. Each is judged for the start conditions
(R25; log 8).
Each expiry lets the time left pass (the model's choice, log 2). -/
def Obligations.HandshakeFollowsItsLines : Prop :=
  ∀ (s : State) (u : Station) (n : Nat),
    let x := s.st u
    let set := x.settings
    let left (t : State) : Prop :=
      (t.st u).lines.handshake = .idle ∧ (t.st u).lines.handshakeTimer = none
        ∧ (t.st u).mode = (if x.queue = [] then .idle else .waitPart) ∧ (t.st u).releaseOwed = none
        ∧ (t.st u).finished = none
    (∀ q : QualInput, x.lines.hold = q → q.timer = some n → q.sampled ≠ q.qualified →
      ∃ t, exec (.qualificationExpiry u .hold) s = .next t.judgeStarts ∧ t = (s.elapse n).setSt u (t.st u)
        ∧ (t.st u).lines.hold = ⟨q.sampled, q.sampled, none⟩
        ∧ (q.sampled = true → x.lines.handshake = .delaying →
            (t.st u).lines.handshake = .heldBack ∧ (t.st u).lines.handshakeTimer = none)
        ∧ (q.sampled = true → x.lines.handshake ≠ .delaying →
            (t.st u).lines.handshake = x.lines.handshake)
        ∧ (q.sampled = false → x.lines.handshake ≠ .heldBack →
            (t.st u).lines.handshake = x.lines.handshake)
        ∧ (q.sampled = false → x.lines.handshake = .heldBack →
            (set.handshakeType = .delayed → 0 < set.doneDelay →
              (t.st u).lines.handshake = .delaying
                ∧ (t.st u).lines.handshakeTimer = some set.doneDelay)
            ∧ (set.handshakeType = .pulse →
              (t.st u).lines.handshake = .pulsing ∧ (t.st u).lines.handshakeTimer = some set.doneDelay
                ∧ (t.st u).partConsumed = (x.partConsumed || x.lines.present.qualified))
            ∧ (set.handshakeType = .level ∨ set.handshakeType = .delayed ∧ set.doneDelay = 0 →
              x.lines.present.qualified = true →
              (t.st u).lines.handshake = .asserted ∧ (t.st u).lines.handshakeTimer = none
                ∧ (t.st u).partConsumed = true)
            ∧ (set.handshakeType = .level → x.lines.present.qualified = false → 0 < set.doneDelay →
              (t.st u).lines.handshake = .pulsing ∧ (t.st u).lines.handshakeTimer = some set.doneDelay
                ∧ (t.st u).partConsumed = x.partConsumed)
            ∧ (set.handshakeType ≠ .pulse → x.lines.present.qualified = false → set.doneDelay = 0 →
              x.mode = .release → left t)))
    ∧ (x.lines.present.timer = some n → x.lines.present.sampled = false → x.lines.present.qualified = true →
        ∃ t, exec (.qualificationExpiry u .present) s = .next t.judgeStarts ∧ t = (s.elapse n).setSt u (t.st u)
          ∧ (t.st u).partConsumed = false
          ∧ (x.lines.handshake = .asserted → x.mode = .release → left t)
          ∧ (x.lines.handshake ≠ .asserted →
              (t.st u).lines.handshake = x.lines.handshake ∧ (t.st u).mode = x.mode))
    ∧ (x.lines.handshakeTimer = some n →
        ∃ t, exec (.handshakeTimerExpiry u) s = .next t.judgeStarts ∧ t = (s.elapse n).setSt u (t.st u)
          ∧ (x.lines.handshake = .delaying → set.handshakeType ≠ .pulse →
              x.lines.present.qualified = true →
              (t.st u).lines.handshake = .asserted ∧ (t.st u).partConsumed = true
                ∧ (t.st u).mode = x.mode)
          ∧ (x.lines.handshake = .delaying → set.handshakeType ≠ .pulse →
              x.lines.present.qualified = false → 0 < set.doneDelay →
              (t.st u).lines.handshake = .pulsing ∧ (t.st u).lines.handshakeTimer = some set.doneDelay
                ∧ (t.st u).partConsumed = x.partConsumed ∧ (t.st u).mode = x.mode)
          ∧ (x.lines.handshake = .delaying → set.handshakeType ≠ .pulse →
              x.lines.present.qualified = false → set.doneDelay = 0 → x.mode = .release → left t)
          ∧ (x.lines.handshake = .delaying → set.handshakeType = .pulse →
              (t.st u).lines.handshake = .pulsing ∧ (t.st u).lines.handshakeTimer = some set.doneDelay
                ∧ (t.st u).partConsumed = (x.partConsumed || x.lines.present.qualified))
          ∧ (x.lines.handshake = .pulsing → x.mode = .release →
              left t ∧ (t.st u).partConsumed = x.partConsumed))

/-- AXIS-FAULT, HOME-SW and the search timer: AXIS is handed in HOLD and SCAN, ends homing in SEEK-HOME, and in RETURN and
at W4 writes the record, halts and is judged for the start conditions (R25; log 8); HOME-SW ends BACK-OFF and zeroes
the position at the end of SEEK; the search limit fails homing.
A line event without a change does nothing, AXIS in RETURN and at W4 is taken at once, and the search limit lets the
time left pass (the model's choice, log 2, 7 and 9). -/
def Obligations.AxisAndHomeSwitch : Prop :=
  ∀ (s : State) (u : Station) (a : Bool) (n : Nat),
    let x := s.st u
    let raised (y : StationState) : StationState := { y with lines := { y.lines with axisFault := true } }
    let failed (y : StationState) : StationState :=
      { y with
        homeResult := .failed
        mode := if y.mode = .homing then y.homingOrigin.mode else y.mode
        motion :=
          { y.motion with mode := .stop, arrival := .awaited, searchTimer := none, stallTimer := none } }
    exec (.axisFaultInactive u) s
        = .next (s.modSt u fun x => { x with lines := { x.lines with axisFault := false } })
    ∧ (x.lines.axisFault = true → exec (.axisFaultActive u) s = .next s)
    ∧ (x.lines.axisFault = false →
        (x.motion.mode = .stop → exec (.axisFaultActive u) s = .next (s.modSt u raised))
        ∧ ((∃ v, x.motion.mode = .scan v) ∨ x.motion.mode = .hold →
            exec (.axisFaultActive u) s = .next (s.modSt u fun x =>
              { raised x with handed := x.handed ++ [.axis] }))
        ∧ (∀ ph v, x.motion.mode = .seekHome ph v →
            exec (.axisFaultActive u) s = .next (s.modSt u fun x => failed (raised x)))
        ∧ (∀ g v, x.motion.mode = .moveTo g v →
            (x.current = none → exec (.axisFaultActive u) s = .next (s.modSt u raised))
            ∧ (∀ c, x.current = some c →
                (x.mode = .walk ∧ x.walk.current = some .w4) ∨ x.mode = .returning → ∃ t r,
                exec (.axisFaultActive u) s = .next t.judgeStarts ∧ RecordWritten u c r s t ∧ r.outcome = .faulted
                ∧ r.firstFault = (faultRecorded .axis c).firstFault
                ∧ (t.st u).lines.axisFault = true ∧ (t.st u).mode = .halted
                ∧ (t.st u).haltCause = .axis ∧ (t.st u).motion.mode = .stop
                ∧ t.channel = s.channel ∧ t.st u.other = s.st u.other ∧ Around s t)))
    ∧ (x.lines.homeSw = a → exec (.homeSwChange u a) s = .next s)
    ∧ (x.lines.homeSw ≠ a →
        exec (.homeSwChange u a) s = .next (s.modSt u fun x =>
          { x with
            lines := { x.lines with homeSw := a }
            motion :=
              match x.motion.mode, a with
              | .seekHome .backOff v, false => { x.motion with mode := .seekHome .seek v }
              | .seekHome .seek v, true =>
                { x.motion with
                  mode := .seekHome .settle v
                  zero := x.motion.raw
                  valid := true
                  arrival := .awaited }
              | _, _ => x.motion }))
    ∧ (x.motion.searchTimer = some n →
        exec (.searchTimerExpiry u) s = .next ((s.elapse n).modSt u failed))

/-- COIL-FLOW: becoming inactive in HEAT with the channel held hands COIL-FLOW, and elsewhere does nothing; becoming
active passes W2 on to W4, or to a failed W3 on a critical tank, with AXIS handed where AXIS-FAULT is active
(R100).
A line event without a change does nothing, the fault is handed, and it is handed again where the line comes and goes
before it is taken (the model's choice, log 7, 9 and 38). -/
def Obligations.CoilFlowLine : Prop :=
  ∀ (s : State) (u : Station),
    let x := s.st u
    let p := s.profileOf u
    (x.lines.coilFlow = false → exec (.coilFlowInactive u) s = .next s)
    ∧ (x.lines.coilFlow = true →
        exec (.coilFlowInactive u) s = .next (s.modSt u fun x =>
          { x with
            lines := { x.lines with coilFlow := false }
            handed :=
              if x.mode = .heat ∧ s.channel.holder = some u then x.handed ++ [.coilFlow] else x.handed }))
    ∧ (x.lines.coilFlow = true → exec (.coilFlowActive u) s = .next s)
    ∧ (x.lines.coilFlow = false →
        let flowing : State := s.modSt u fun x => { x with lines := { x.lines with coilFlow := true } }
        (x.walk.current ≠ some .w2 → exec (.coilFlowActive u) s = .next flowing)
        ∧ (x.walk.current = some .w2 → s.tank.state ≠ .critical ∨ x.settings.bypassW3 = true →
            exec (.coilFlowActive u) s = .next (flowing.modSt u fun x =>
              { x with
                motion := modeSet (.moveTo p.start x.settings.returnSpeed) x.motion
                handed := x.handed ++ axisHanded x
                walk :=
                  { x.walk with
                    current := some .w4
                    timer := some x.settings.stepLimit
                    reached := 3
                    bypassed := { x.walk.bypassed with w3 := x.settings.bypassW3 || x.walk.bypassed.w3 } } }))
        ∧ (x.walk.current = some .w2 → s.tank.state = .critical → x.settings.bypassW3 = false → ∃ t,
            exec (.coilFlowActive u) s = .next t ∧ t = s.setSt u (t.st u)
            ∧ WalkEnded u .w3 .failed .tankCritical .notStarted
              (flowing.modSt u fun x => { x with walk := { x.walk with reached := 2 } }) t))

/-- INV-READY: becoming inactive with the holder in HEAT hands it INV-DROP whatever the demand, and elsewhere leaves the
channel alone; becoming active passes W8 into HEAT (`HeatEntered`), where the channel takes the first demand.
A line event without a change does nothing, and the fault is handed (the model's choice, log 7 and 9). -/
def Obligations.InverterReadyLine : Prop :=
  ∀ (s : State) (u : Station),
    (s.invReady = false → exec .invReadyInactive s = .next s)
    ∧ (s.invReady = true →
        (s.channel.state = .held u true →
            exec .invReadyInactive s = .next (({ s with invReady := false } : State).modSt u fun x =>
              { x with handed := x.handed ++ [.invDrop] }))
        ∧ ((∀ v, s.channel.state ≠ .held v true) →
            exec .invReadyInactive s = .next { s with invReady := false }))
    ∧ (s.invReady = true → exec .invReadyActive s = .next s)
    ∧ (s.invReady = false →
        (s.a.walk.current ≠ some .w8 → s.b.walk.current ≠ some .w8 →
            exec .invReadyActive s = .next { s with invReady := true })
        ∧ ((s.st u).walk.current = some .w8 → (s.st u.other).walk.current ≠ some .w8 →
            s.channel.state = .held u false → ∃ t, exec .invReadyActive s = .next t
              ∧ t.invReady = true ∧ HeatEntered u { s with invReady := true } t))

/-- INV-FAULT becoming active, by the channel's state, and becoming inactive, which in FAULTED frees the channel and
grants by R73.
That a failed W8 fixes NOT-STARTED only where no fault has fixed FAULTED is the model's choice (log 19); so is that a
line event without a change does nothing, and that the fault is handed (log 7 and 9). -/
def Obligations.InverterFaultLine : Prop :=
  ∀ (s : State) (u : Station),
    let on : State := { s with invFault := true }
    let off : State := { s with invFault := false }
    let dead : Channel := { s.channel with state := .faulted, demand := 0, response := none, settle := none }
    (s.invFault = true → exec .invFaultActive s = .next s)
    ∧ (s.invFault = false →
        (s.channel.state = .free →
            exec .invFaultActive s = .next { on with channel := { s.channel with state := .faulted } })
        ∧ ((∃ v w, s.channel.state = .switching v w) ∨ s.channel.state = .faulted →
            exec .invFaultActive s = .next on)
        ∧ (s.channel.state = .held u true →
            exec .invFaultActive s = .next ((on.setChannel dead).modSt u fun x =>
              { x with handed := x.handed ++ [.inverter] }))
        ∧ (s.channel.state = .held u false → (s.st u).walk.current = some .w8 → ∃ t,
            exec .invFaultActive s = .next t
            ∧ WalkEnded u .w8 .failed .invFault .notStarted (on.setChannel dead) t
            ∧ t.channel = dead ∧ t.st u.other = s.st u.other ∧ NoRecord s t ∧ Around on t))
    ∧ (s.invFault = false → exec .invFaultInactive s = .next s)
    ∧ (s.invFault = true →
        (s.channel.state ≠ .faulted → exec .invFaultInactive s = .next off)
        ∧ (s.channel.state = .faulted →
            ∃ t, exec .invFaultInactive s = .next t
              ∧ GrantMade { off with channel := { s.channel with state := .free } } t))

/-- The expiry of the changeover timer: FAULTED with INV-FAULT active, the request back as the oldest unless withdrawn;
else HELD by the target, told so; else, withdrawn, FREE and a grant by R73.
The expiry lets the time left pass (the model's choice, log 2). -/
def Obligations.ChangeoverEnds : Prop :=
  ∀ (s : State) (u : Station) (withdrawn : Bool) (n : Nat),
    s.channel.changeover = some n → s.channel.state = .switching u withdrawn →
      let b := s.elapse n
      let c : Channel := { b.channel with changeover := none }
      (s.invFault = true →
          exec .changeoverExpiry s = .next { b with
            channel :=
              { c with
                state := .faulted
                waiting := if withdrawn then s.channel.waiting else u :: s.channel.waiting } })
      ∧ (s.invFault = false → withdrawn = false → ∃ t, exec .changeoverExpiry s = .next t
          ∧ Granted u { b with channel := c } t)
      ∧ (s.invFault = false → withdrawn = true → ∃ t, exec .changeoverExpiry s = .next t
          ∧ GrantMade { b with channel := { c with state := .free } } t)

/-! ### Readings and their timers -/

/-- A power reading is measured power; with the holder in HEAT it also runs the response timer, is credited in whole
joules to the open slice with its peak, and marks POWER-BAND where it is out of band with the settle timer stopped. The
response timer's expiry hands NO-POWER once in a turn, the settle timer's stops it. A sum past 32 bits is a free value
(log 13).
Each expiry lets the time left pass, faults are handed, the comparisons are exact, and the marker of a NO-POWER given
keeps a second one back (the model's choice, log 2, 9, 28 and 35). -/
def Obligations.PowerReadingIsCredited : Prop :=
  ∀ (s : State) (u : Station) (power : BitVec 16) (h n : Nat) (sl : SliceRec),
    let w := power.toNat
    let c := s.channel
    let measured : Channel :=
      { c with
        measured := w
        response := if 0 < c.demand ∧ 10 * w < c.demand then some (c.response.getD s.common.responseLimit)
          else none }
    let apart := (w - c.demand) + (c.demand - w)
    let outside := c.settle = none ∧ max (s.common.powerBand * c.demand) s.common.ratedPower < 100 * apart
    ((∀ v, c.state ≠ .held v true) →
        exec (.powerReading power) s = .next { s with channel := { c with measured := w } })
    ∧ (c.state = .held u true → (s.st u).trail.phase = .heating h sl →
        exec (.powerReading power) s = .next ((s.setChannel measured).modSt u fun x =>
          { x with
            trail :=
              { x.trail with
                remainder := (x.trail.remainder + w) % 10
                phase := .heating h
                  { sl with
                    energy := addEnergy sl.energy ((x.trail.remainder + w) / 10)
                    peak := max sl.peak w
                    flags := if outside then { sl.flags with powerBand := true } else sl.flags } } }))
    ∧ (c.state = .held u true → (s.st u).trail.phase = .draining h ∨ (s.st u).trail.phase = .idle →
        exec (.powerReading power) s = .next (s.setChannel measured))
    ∧ (∀ x y, x + y < 2 ^ 32 → addEnergy x y = x + y)
    ∧ (c.response = some n →
        let stopped : State := (s.elapse n).setChannel { (s.elapse n).channel with response := none }
        (c.state = .held u true → c.noPowerGiven = false →
            exec .responseTimerExpiry s = .next
              (({ stopped with channel := { stopped.channel with noPowerGiven := true } } : State).modSt u fun x =>
                { x with handed := x.handed ++ [.noPower] }))
        ∧ (c.noPowerGiven = true ∨ (∀ v, c.state ≠ .held v true) →
            exec .responseTimerExpiry s = .next stopped))
    ∧ (c.settle = some n →
        exec .settleTimerExpiry s
          = .next ((s.elapse n).setChannel { (s.elapse n).channel with settle := none }))

/-- An encoder reading that does not advance the trail, being no higher than the high-water position or no change of
position: position and speed, the arrival of a move within 0.2 mm of its
target and at rest, the stall timer in a HEAT scan, and REVERSE and LIMIT, each raised once while its condition lasts.
Nothing else changes.
Position before a zeroing, the speed of the first 20 readings, the arrival latch, the exact comparisons and the handing
of faults are the model's choice (log 9, 10, 27 and 28). -/
def Obligations.EncoderReadingIsJudged : Prop :=
  ∀ (s : State) (u : Station) (raw : BitVec 32) (order : ReadingOrder),
    let x := s.st u
    let m := x.motion
    let pos := if m.valid then raw.toInt - m.zero else raw.toInt
    let speed := match m.history[19]? with
      | some old => (raw.toInt - old).tdiv 2
      | none => 0
    let atTarget := m.moveTarget.any fun g => decide ((pos - g.1).natAbs ≤ 200)
    let back := x.trail.high?.any fun h => decide (pos + 2000 < h)
    let beyond := x.trail.high?.isSome && decide (pos < x.settings.travelMin ∨ (x.settings.travelMax : Int) < pos)
    let before := if m.valid then m.raw - m.zero else m.raw
    (pos = before ∨ ∀ h, x.trail.high? = some h → pos ≤ h) →
      exec (.encoderReading u raw order) s = .next (s.modSt u fun x =>
        { x with
          motion :=
            { m with
              raw := raw.toInt
              history := (raw.toInt :: m.history).take 20
              speed := speed
              arrival := if m.arrival = .awaited ∧ atTarget = true ∧ speed = 0 then .found else m.arrival
              stallTimer :=
                match x.mode, m.mode with
                | .heat, .scan v => if 5 * speed < v then some (m.stallTimer.getD x.settings.stallTime) else none
                | _, _ => m.stallTimer
              reverseRaised := if x.trail.high?.isSome then back else m.reverseRaised
              limitRaised := if x.trail.high?.isSome then beyond else m.limitRaised }
          handed :=
            x.handed ++ (if back && !m.reverseRaised then [.reverse] else [])
              ++ (if beyond && !m.limitRaised then [.limit] else []) })

/-- An encoder reading that changes the position to one above the high-water position raises it, and the trail takes the
appends, arrivals and openings of the ring valve that `advanceTrail` makes (SlicesAppendAndArrive says which). The motion
unit takes the reading as in EncoderReadingIsJudged: readings, measured speed, the arrival of a move and the stall timer
of a HEAT scan, against the mode speed before or after the advance by the order; the spindle demand is that of the
position; REVERSE's marker is no, and LIMIT is raised once while the position lies outside the limits, and is not
judged on a trail that the reading has taken to IDLE before.
In HEAT below the profile end the power and speed are read there outside a dwell, or the dwell reached begins; a HARDEN
job's demand is issued, and restarts the settle timer where it differs from the one in force (`demandIssued`); a DRY job's
channel is untouched. At the profile end HEAT ends in RUNOUT: the last slice is appended, tank-warm is set on a tank
not NORMAL (R62), the ring's arrivals are taken, the heat time is added, a channel held here is released, to the
other station where it waits. There and in RUNOUT and QUENCH-OUT the station then enters RETURN exactly where the list is
empty and the ring valve closed, and stops the carriage where the list is empty. AXIS is handed with each HOLD, SCAN and
MOVE-TO set where AXIS-FAULT is active (R100).
The order of the blocks within one reading is an operand, an advance inside a dwell is read as log 22 says, the position
before a zeroing and the speed of the first 20 readings as log 27 says, and the arrival latch, the handing of faults and
the exact comparisons are the model's choice (log 9, 10, 11, 22, 27 and 28). -/
def Obligations.EncoderReadingAdvancesTheTrail : Prop :=
  ∀ (s : State) (u : Station) (raw : BitVec 32) (order : ReadingOrder) (old : Nat),
    let x := s.st u
    let m := x.motion
    let p := s.profileOf u
    let before := if m.valid then m.raw - m.zero else m.raw
    let pos := if m.valid then raw.toInt - m.zero else raw.toInt
    let h := pos.toNat
    let speed := match m.history[19]? with
      | some old => (raw.toInt - old).tdiv 2
      | none => 0
    let atTarget := m.moveTarget.any fun g => decide ((pos - g.1).natAbs ≤ 200)
    let beyond := decide (pos < x.settings.travelMin ∨ (x.settings.travelMax : Int) < pos)
    let read : Motion :=
      spindleSet (rotationAt p.segs h)
        { m with
          raw := raw.toInt
          history := (raw.toInt :: m.history).take 20
          speed := speed
          arrival := if m.arrival = .awaited ∧ atTarget = true ∧ speed = 0 then .found else m.arrival
          reverseRaised := false
          limitRaised := beyond }
    let stall (mode : TravelMode) : Timer :=
      match mode with
      | .scan v => if 5 * speed < v then some (m.stallTimer.getD x.settings.stallTime) else none
      | _ => m.stallTimer
    let handed (axes : List FaultCode) (judged : Bool) : List FaultCode :=
      let limit : List FaultCode := if beyond && !m.limitRaised then [.limit] else []
      x.handed ++ if order.judgeFirst then limit ++ axes else axes ++ if judged then limit else []
    let y := x.advanceTrail order.openFirst x.harden s.time p h
    let reached := dwellSegments p.segs fun start => old < start && start ≤ h
    let issued (d : Nat) : State := { s with channel := if x.harden then demandIssued u d s else s.channel }
    let ended (w y : StationState) (axes : List FaultCode) (moving : Motion) : StationState :=
      let z := { w with trail := y.trail, quench := y.quench }
      if y.trail.list ≠ [] then { z with motion := moving, handed := handed axes true }
      else if y.quench.valve ≠ .closed then { z with motion := modeSet .stop read, handed := handed axes true }
      else
        { z with
          mode := .returning
          trail := { y.trail with phase := .idle }
          motion := motionInReturn x.settings.returnSpeed read
          handed := handed (axes ++ axisHanded x) false }
    x.trail.high? = some old → (old : Int) < pos → pos ≠ before →
      (x.mode = .heat → pos < p.stop →
        let advanced := { x with trail := y.trail, quench := y.quench }
        (x.dwells = [] → reached = [] →
          let mode : TravelMode := match m.mode with
            | .scan _ => .scan (speedAt p.segs h)
            | other => other
          exec (.encoderReading u raw order) s = .next ((issued (powerAt p.segs x.settings.powerLead h)).setSt u
            { advanced with
              motion := { read with mode := mode, stallTimer := stall (if order.judgeFirst then m.mode else mode) }
              handed := handed [] true }))
        ∧ (∀ i rest, x.dwells = [] → reached = i :: rest →
          exec (.encoderReading u raw order) s = .next ((issued (segGet p.segs i).power).setSt u
            { advanced with
              motion := modeSet .hold read
              handed := handed (axisHanded x) true
              dwellTimer := (segGet p.segs i).dwell
              dwells := reached }))
        ∧ (x.dwells ≠ [] →
          exec (.encoderReading u raw order) s = .next (s.setSt u
            { advanced with
              motion := { read with stallTimer := stall m.mode }
              handed := handed [] true
              dwells := x.dwells ++ reached })))
      ∧ (∀ c, x.mode = .heat → p.stop ≤ pos → x.current = some c → x.walk.current = none → ∃ t,
          exec (.encoderReading u raw order) s = .next t ∧ NoRecord s t ∧ Around s t ∧ HeatLeft u id s t
          ∧ ∃ tail, tail = y.appendLast x.harden s.time p
            ∧ t.st u =
              ended { x with mode := .runout, current := (t.st u).current, dwellTimer := none, dwells := [] }
                (StationState.takeArrivals s.time p
                  { tail with
                    trail :=
                      { tail.trail with
                        tallies :=
                          { tail.trail.tallies with
                            tankWarm := tail.trail.tallies.tankWarm || decide (s.tank.state ≠ .normal) } } })
                (axisHanded x) (modeSet (.scan x.settings.runoutSpeed) read))
      ∧ (x.mode = .runout ∨ x.mode = .quenchOut → x.trail.phase = .draining old →
          exec (.encoderReading u raw order) s = .next (s.setSt u (ended x y [] read)))

/-- What the trail's own operations do. An advance raises the high-water position and sweeps (R52, R55), the ring valve
judged before or after by the operand (log 11). An append judges the open slice's energy against its window for a HARDEN
job, stamps it and puts it at the tail, and opens the next slice, or at the end of heat drains; a quench-required one
takes AFTER back to QUENCH, and is judged for the opening where the list held none. An arrival takes the head of the list
with its quench delay and, quench required at a low flow, LOW-FLOW, and tallies it; a quench-required one that finds the
valve CLOSED meets its opening first (R108), a departure that leaves no quench-required slice takes QUENCH to AFTER or
closes it, any other is judged for the opening. The opening wants the valve CLOSED and the ring within the pre-open
distance of the oldest quench-required midpoint (R108).
The operand is log 11; that LOW-FLOW is judged whatever the flood valve is the model's choice (log 36). -/
def Obligations.SlicesAppendAndArrive : Prop :=
  ∀ (x : StationState) (p : Profile) (harden openFirst : Bool) (now : Time) (h : Nat) (sl : SliceRec)
    (rest : List SliceRec),
    let set := x.settings
    let lower (k : Nat) : Nat := p.start + k * set.pitch
    let upper (k : Nat) : Nat := min (p.start + (k + 1) * set.pitch) p.stop
    let mid (k : Nat) : Nat := lower k + (upper k - lower k) / 2
    let opened : StationState :=
      { x with quench := { x.quench with valve := .quench, riseTimer := some set.flowRise, flowRaised := false } }
    let window : Flags → Flags := fun f =>
      match harden, sl.window with
      | true, some (lo, hi) =>
        let e := sl.energy * 1000 / (upper sl.index - lower sl.index)
        { f with
          energyLow := f.energyLow || decide (e < lo), energyHigh := f.energyHigh || decide (hi < e) }
      | _, _ => f
    let closed : SliceRec :=
      { sl with
        heatEnd := some now
        deadline := sl.maxDelay.map fun d => now + BitVec.ofNat 32 d
        timer := sl.maxDelay
        flags := window sl.flags }
    let grown : StationState :=
      { x with
        trail := { x.trail with list := x.trail.list ++ [closed] }
        quench :=
          if sl.quench = true ∧ x.quench.valve = .after then
            { x.quench with valve := .quench, afterTimer := none }
          else x.quench }
    let judged : StationState :=
      if sl.quench = true ∧ ∀ o ∈ x.trail.list, o.quench = false then grown.judgeOpen p else grown
    let gone : SliceRec :=
      if sl.quench = true ∧ x.quench.flow < set.flowMinimum then
        { sl with flags := { sl.flags with lowFlow := true } }
      else sl
    let met : StationState := if sl.quench then x.judgeOpen p else x
    let left : StationState :=
      { met with
        trail :=
          Trail.tally (if sl.quench then some (now.since (sl.heatEnd.getD now)) else none) gone
            { x.trail with list := rest } }
    let raised : StationState :=
      { x with
        trail :=
          { x.trail with
            phase :=
              match x.trail.phase with
              | .idle => .idle
              | .heating _ o => .heating h o
              | .draining _ => .draining h } }
    (∃ y, Swept harden now p (if openFirst then raised.judgeOpen p else raised) y
      ∧ x.advanceTrail openFirst harden now p h = if openFirst then y else y.judgeOpen p)
    ∧ ((∀ h o, x.trail.phase ≠ .heating h o) → Swept harden now p x (x.takeArrivals now p))
    ∧ (x.openReached p = true ↔
        ∃ h o, x.trail.phase = .heating h o ∧ upper o.index ≤ h ∧ upper o.index < p.stop)
    ∧ (x.headReached p = true ↔
        ∃ h o more, x.trail.high? = some h ∧ x.trail.list = o :: more ∧ mid o.index + set.offset ≤ h)
    ∧ (∀ o, x.quench.valve = .closed → x.trail.high? = some h → x.trail.list.find? (·.quench) = some o →
        x.judgeOpen p = if mid o.index + set.offset ≤ h + set.preOpen then opened else x)
    ∧ (x.quench.valve ≠ .closed ∨ x.trail.high? = none ∨ (∀ o ∈ x.trail.list, o.quench = false) →
        x.judgeOpen p = x)
    ∧ (x.trail.phase = .heating h sl →
        x.appendOpen harden now p
            = { judged with
                trail := { judged.trail with phase := .heating h (newSlice set p (sl.index + 1)) } }
          ∧ x.appendLast harden now p = { judged with trail := { judged.trail with phase := .draining h } })
    ∧ (x.trail.list = sl :: rest →
        (sl.quench = false → x.arriveHead now p = left)
        ∧ (sl.quench = true → (∃ o ∈ rest, o.quench = true) → x.arriveHead now p = left.judgeOpen p)
        ∧ (sl.quench = true → x.quench.valve = .closed → x.headReached p = true → met = opened)
        ∧ (sl.quench = true → (∀ o ∈ rest, o.quench = false) →
            (met.quench.valve ≠ .quench → x.arriveHead now p = left)
            ∧ (met.quench.valve = .quench → 0 < set.afterQuench →
                x.arriveHead now p
                  = { left with
                      quench := { met.quench with valve := .after, afterTimer := some set.afterQuench } })
            ∧ (met.quench.valve = .quench → set.afterQuench = 0 →
                x.arriveHead now p
                  = { left with
                      quench :=
                        { met.quench with
                          valve := .closed, proofTimer := none, riseTimer := none, afterTimer := none } })))

/-- Tallying one slice: the counts, the sums and the repeat flag union of R60, and the defect zones of R61. A flood
tallies every slice of the list in its order, FLOODED (R64). A slice opens empty, with what its segment says (R50).
A sum of joules past 32 bits is a free value (log 13). -/
def Obligations.SlicesAreTallied : Prop :=
  ∀ (t : Trail) (delay : Option Nat) (sl : SliceRec),
    let f := sl.flags
    let ta := t.tallies
    let union (g f : Flags) : Flags :=
      ⟨g.energyLow || f.energyLow, g.energyHigh || f.energyHigh, g.powerBand || f.powerBand, g.late || f.late,
        g.lowFlow || f.lowFlow, g.flooded || f.flooded, g.aborted || f.aborted⟩
    let up (b : Bool) (n : Nat) : Nat := if b then min 65535 (n + 1) else n
    let counted : Tallies :=
      { ta with
        heated := ta.heated + 1
        energy := addEnergy ta.energy sl.energy
        worstDelay := max ta.worstDelay (delay.getD 0)
        counts :=
          { energyLow := up f.energyLow ta.counts.energyLow
            energyHigh := up f.energyHigh ta.counts.energyHigh
            powerBand := up f.powerBand ta.counts.powerBand
            late := up f.late ta.counts.late
            lowFlow := up f.lowFlow ta.counts.lowFlow
            flooded := up f.flooded ta.counts.flooded
            aborted := up f.aborted ta.counts.aborted }
        flagged := if f = {} then ta.flagged else ta.flagged + 1
        repeatUnion := union ta.repeatUnion f }
    (f = {} → t.tally delay sl = { t with tallies := counted, run := .none })
    ∧ (f ≠ {} → t.run = .none → ta.zones.length < 8 →
        t.tally delay sl
          = { t with tallies := { counted with zones := ta.zones ++ [⟨sl.index, 1, f⟩] }, run := .listed })
    ∧ (f ≠ {} → t.run = .none → 8 ≤ ta.zones.length →
        t.tally delay sl
          = { t with tallies := { counted with beyond := min 255 (ta.beyond + 1) }, run := .beyond })
    ∧ (∀ zones z, f ≠ {} → t.run = .listed → ta.zones = zones ++ [z] →
        t.tally delay sl
          = { t with
              tallies :=
                { counted with zones := zones ++ [{ z with count := z.count + 1, flags := union z.flags f }] } })
    ∧ (f ≠ {} → t.run = .beyond → t.tally delay sl = { t with tallies := counted })
    ∧ t.tallyFlooded
        = { t.list.foldl (fun t sl => t.tally none { sl with flags := { sl.flags with flooded := true } }) t with
            phase := .idle, list := [] }
    ∧ (∀ x y, x + y < 2 ^ 32 → addEnergy x y = x + y)
    ∧ (∀ now : Time, sl.stamp now =
        { sl with
          heatEnd := some now
          deadline := sl.maxDelay.map fun d => now + BitVec.ofNat 32 d
          timer := sl.maxDelay })
    ∧ sl.flag .flooded = { sl with flags := { f with flooded := true } }
    ∧ sl.flag .aborted = { sl with flags := { f with aborted := true } }
    ∧ (∀ now earlier : Time, now.since earlier = (now - earlier).toNat)
    ∧ ∀ (set : StationSettings) (p : Profile) (k : Nat),
        let g := segAt p.segs (p.start + k * set.pitch)
        newSlice set p k
          = { index := k
              segment := segIndexAt p.segs (p.start + k * set.pitch)
              energy := 0
              peak := 0
              quench := g.quench
              maxDelay := if g.quench then some (g.delay.getD set.quenchDelay) else none
              window := g.window
              heatEnd := none
              deadline := none
              timer := none
              flags := {} }

/-- An rpm reading: within tolerance a watch turned on has found its report, and in HEAT, RUNOUT and QUENCH-OUT the
spindle timer and marker clear; outside it the timer starts unless it runs or SPINDLE has been raised. The expiries of the
spindle and stall timers hand SPINDLE and STALL.
The latch of the watch, the expiries and the handing of faults, and that a reading within tolerance in other states leaves
the spindle raised marker, are the model's choice (log 2, 9, 10 and 41). -/
def Obligations.RpmReadingIsJudged : Prop :=
  ∀ (s : State) (u : Station) (rpm : BitVec 16) (n : Nat),
    let x := s.st u
    let m := x.motion
    let half := max 1 (m.spindleDemand * x.settings.spindleTolerance / 100)
    let ok := rpm.toNat ≤ m.spindleDemand + half ∧ m.spindleDemand ≤ rpm.toNat + half
    let judged := x.mode = .heat ∨ x.mode = .runout ∨ x.mode = .quenchOut
    exec (.rpmReading u rpm) s = .next (s.modSt u fun x =>
        { x with
          motion :=
            { m with
              rpm := rpm.toNat
              watch := if ok ∧ m.watch = .on then .found else m.watch
              spindleTimer :=
                if judged then
                  if ok then none
                  else if m.spindleRaised then m.spindleTimer
                  else some (m.spindleTimer.getD 250)
                else m.spindleTimer
              spindleRaised := if judged ∧ ok then false else m.spindleRaised } })
    ∧ (m.spindleTimer = some n →
        exec (.spindleTimerExpiry u) s = .next ((s.elapse n).modSt u fun x =>
          { x with
            motion := { x.motion with spindleTimer := none, spindleRaised := true }
            handed := x.handed ++ [.spindle] }))
    ∧ (m.stallTimer = some n →
        exec (.stallTimerExpiry u) s = .next ((s.elapse n).modSt u fun x =>
          { x with
            motion := { x.motion with stallTimer := none }
            handed := x.handed ++ [.stall] }))

/-- A ring flow reading is the latest; in PROOF it raises the peak and a sufficient one is seen; in QUENCH with the rise
timer expired a low one hands QUENCH-FLOW once. The expiry of the rise timer judges the latest reading.
The expiry and the handing of faults, and that flow is judged whatever the flood valve, are the model's choice (log 2, 9
and 36). -/
def Obligations.FlowReadingIsJudged : Prop :=
  ∀ (s : State) (u : Station) (flow : BitVec 16) (n : Nat),
    let x := s.st u
    let q := x.quench
    let low := flow.toNat < x.settings.flowMinimum
    let raise := q.valve = .quench ∧ q.riseTimer = none ∧ low ∧ q.flowRaised = false
    let late := q.valve = .quench ∧ q.flow < x.settings.flowMinimum ∧ q.flowRaised = false
    exec (.flowReading u flow) s = .next (s.modSt u fun x =>
        { x with
          quench :=
            { q with
              flow := flow.toNat
              proofPeak := if q.valve = .proof then max q.proofPeak flow.toNat else q.proofPeak
              proofSeen := if q.valve = .proof ∧ ¬ low then true else q.proofSeen
              flowRaised := if raise then true else q.flowRaised }
          handed := if raise then x.handed ++ [.quenchFlow] else x.handed })
    ∧ (q.riseTimer = some n →
        exec (.flowRiseExpiry u) s = .next ((s.elapse n).modSt u fun x =>
          { x with
            quench :=
              { x.quench with riseTimer := none, flowRaised := if late then true else q.flowRaised }
            handed := if late then x.handed ++ [.quenchFlow] else x.handed }))

/-- A tank reading is classified by the two tables of R118, each state left 1.0 °C below its threshold and a reading
outside the sensor's range CRITICAL; a change into WARM or CRITICAL sets tank-warm at a station in HEAT or RUNOUT. -/
def Obligations.TankReadingIsClassified : Prop :=
  ∀ (s : State) (reading : BitVec 16),
    let r := reading.toInt
    let w : Int := s.common.warnThreshold
    let c : Int := s.common.criticalThreshold
    let next : TankState :=
      if r < -100 ∨ 1200 < r then .critical
      else
        match s.tank.state with
        | .normal => if c ≤ r then .critical else if w ≤ r then .warm else .normal
        | .warm => if c ≤ r then .critical else if w ≤ r then .warm else if w - 10 ≤ r then .warm else .normal
        | .critical => if c - 10 ≤ r then .critical else if w - 10 ≤ r then .warm else .normal
    let told (x : StationState) : StationState :=
      if next ≠ s.tank.state ∧ next ≠ .normal ∧ (x.mode = .heat ∨ x.mode = .runout) then
        { x with trail := { x.trail with tallies := { x.trail.tallies with tankWarm := true } } }
      else x
    exec (.tankReading reading) s
      = .next { s with tank := ⟨next, r⟩, a := told s.a, b := told s.b }

/-! ### Timers of HEAT, of the trail and of the quench unit -/

/-- The dwell time begins the next dwell reached, or reads the profile at the unchanged high-water position and scans on.
A HARDEN job's demand is issued to the channel, whose settle timer starts again where it differs from the one in force
(R84, `demandIssued`); a DRY job's channel is untouched. AXIS is handed with HOLD or SCAN where AXIS-FAULT is active
(R100). The deadline of a slice in the list marks it LATE and stops its timer.
Each expiry lets the time left pass, and dwells queue (the model's choice, log 2 and 22). -/
def Obligations.DwellAndDeadlineExpire : Prop :=
  ∀ (s : State) (u : Station) (n h i : Nat) (rest : List Nat) (k : Nat),
    let x := s.st u
    let p := s.profileOf u
    let b := s.elapse n
    let issued (d : Nat) : Channel := if x.harden then demandIssued u d b else b.channel
    (x.dwellTimer = some n → x.dwells = i :: rest → x.trail.high? = some h →
        (rest = [] →
          exec (.dwellExpiry u) s = .next
            (({ b with channel := issued (powerAt p.segs x.settings.powerLead h) } : State).modSt u fun x =>
              { x with
                dwells := []
                dwellTimer := none
                motion := modeSet (.scan (speedAt p.segs h)) x.motion
                handed := x.handed ++ axisHanded x }))
        ∧ (∀ j more, rest = j :: more →
          exec (.dwellExpiry u) s = .next
            (({ b with channel := issued (segGet p.segs j).power } : State).modSt u fun x =>
              { x with
                dwells := rest
                dwellTimer := (segGet p.segs j).dwell
                motion := modeSet .hold x.motion
                handed := x.handed ++ axisHanded x })))
    ∧ (∀ before sl after, x.trail.list = before ++ sl :: after → sl.index = k → sl.timer = some n →
        (∀ o ∈ before ++ after, o.index ≠ k) →
        exec (.deadlineExpiry u k) s = .next ((s.elapse n).modSt u fun x =>
          { x with
            trail :=
              { x.trail with
                list := before.map (SliceRec.elapse n)
                  ++ { sl with flags := { sl.flags with late := true }, timer := none }
                    :: after.map (SliceRec.elapse n) } }))

/-- The after-quench time closes the ring valve, and a station in RUNOUT or QUENCH-OUT whose trail is empty leaves for
RETURN. The flood time closes the flood valve; in FLOOD the record is written FAULTED, the station halts and
the start conditions are judged (R25; log 8), elsewhere nothing follows.
Each expiry lets the time left pass, and the context is absent after the record (the model's choice, log 2 and 18). -/
def Obligations.AfterQuenchAndFloodExpire : Prop :=
  ∀ (s : State) (u : Station) (n : Nat) (f : Flood),
    let x := s.st u
    let b := s.elapse n
    (x.quench.afterTimer = some n →
        ((∀ h, x.trail.phase ≠ .draining h) ∨ x.trail.list ≠ [] →
            exec (.afterQuenchExpiry u) s = .next (b.modSt u fun x =>
              { x with
                quench :=
                  { x.quench with
                    valve := .closed, proofTimer := none, riseTimer := none, afterTimer := none } }))
        ∧ (∀ h, x.trail.phase = .draining h → x.trail.list = [] →
            exec (.afterQuenchExpiry u) s = .next (b.modSt u fun x =>
              { x with
                mode := .returning
                trail := { x.trail with phase := .idle, list := [] }
                motion := motionInReturn x.settings.returnSpeed x.motion
                handed := x.handed ++ axisHanded x
                quench :=
                  { x.quench with
                    valve := .closed, proofTimer := none, riseTimer := none, afterTimer := none } })))
    ∧ (x.quench.flood = some f → f.remaining = n →
        (x.mode ≠ .flood →
            exec (.floodTimerExpiry u) s
              = .next (b.modSt u fun x => { x with quench := { x.quench with flood := none } }))
        ∧ (∀ c, x.mode = .flood → x.current = some c → c.firstFault ≠ none → ∃ t r,
            exec (.floodTimerExpiry u) s = .next t.judgeStarts ∧ RecordWritten u c r b t ∧ r.outcome = .faulted
            ∧ r.heated = x.trail.tallies.heated ∧ r.firstFault = c.firstFault
            ∧ (t.st u).mode = .halted ∧ (t.st u).haltCause = .flood ∧ (t.st u).quench.flood = none
            ∧ (t.st u).motion.mode = .stop ∧ (t.st u).motion.spindleDemand = 0
            ∧ (t.st u).finished = some c.job.tag
            ∧ (t.st u).releaseOwed = (if c.job.kind = .harden then some true else x.releaseOwed)
            ∧ t.channel = b.channel ∧ t.st u.other = b.st u.other ∧ Around b t))

/-! ### Outputs -/

/-- What the part sends, as functions of the state: READY (R142), DONE and REJECT (R143),
SWITCH (R148), ATTN (R149), the level driven for each of the five by its sense, high for active unless the sense is
active-low, so that a changed sense changes the level alone (R139), the travel speed demand by mode (R90, R94), and the
power demand as a proportion of the rated power, of which the demand is what it represents (R71, R86). The speed of a
move falls inside the last 10 mm and is zero within 0.2 mm of the target and from the arrival on. The attention summary has its bits from R182; a reply's bytes are
those of R179, with the outcome by its code (R181) and the CRC.
That the outputs are read off the state, and the proportion held as an exact fraction, is the model's choice (log 17
and 31). -/
def Obligations.OutputsFollowTheState : Prop :=
  ∀ (s : State) (u : Station),
    let x := s.st u
    let m := x.motion
    let pos := if m.valid then m.raw - m.zero else m.raw
    let move (target : Int) (speed : Nat) : Int :=
      let d := (pos - target).natAbs
      let size : Nat := if d < 10000 then max 5 (speed * d / 10000) else speed
      if m.arrival ≠ .awaited ∨ d ≤ 200 then 0 else if pos < target then size else -size
    (x.ready = true ↔ x.mode = .waitPart ∧ (∃ j rest, x.queue = j :: rest ∧ j.kind = .harden)
        ∧ x.lines.hold.qualified = false ∧ x.partConsumed = false)
    ∧ (x.doneOut = true ↔ x.lines.handshake = .asserted ∨ x.lines.handshake = .pulsing)
    ∧ (x.rejectOut = true ↔ x.doneOut = true ∧ x.releaseOwed = some true)
    ∧ x.readyLevel = (x.ready ^^ x.settings.lowReady) ∧ x.doneLevel = (x.doneOut ^^ x.settings.lowDone)
    ∧ x.rejectLevel = (x.rejectOut ^^ x.settings.lowReject)
    ∧ s.switchLevel = (s.switchOut ^^ s.common.lowSwitch) ∧ s.attnLevel = (s.attn ^^ s.common.lowAttn)
    ∧ (∀ y : StationState,
        y = { x with
          settings :=
            { x.settings with
              lowReady := !x.settings.lowReady
              lowDone := !x.settings.lowDone
              lowReject := !x.settings.lowReject } } →
        y.ready = x.ready ∧ y.doneOut = x.doneOut ∧ y.rejectOut = x.rejectOut
          ∧ y.readyLevel = !x.readyLevel ∧ y.doneLevel = !x.doneLevel ∧ y.rejectLevel = !x.rejectLevel)
    ∧ (∀ t : State,
        t = { s with
          common := { s.common with lowSwitch := !s.common.lowSwitch, lowAttn := !s.common.lowAttn } } →
        t.switchOut = s.switchOut ∧ t.attn = s.attn
          ∧ t.switchLevel = !s.switchLevel ∧ t.attnLevel = !s.attnLevel)
    ∧ (s.switchOut = true ↔ s.channel.switchAt = .b)
    ∧ (s.attn = true ↔ s.records ≠ [] ∨ (∃ v, (s.st v).mode = .halted) ∨ s.link.overrun = true)
    ∧ m.speedDemand =
        (match m.mode with
        | .stop | .hold => 0
        | .scan v => v
        | .moveTo target v => move target v
        | .seekHome .backOff v => v
        | .seekHome .seek v => -v
        | .seekHome .settle v => move 0 v)
    ∧ (s.channel.demand = 0 → s.powerOutput = 0)
    ∧ (0 < s.common.ratedPower → s.powerOutput * s.common.ratedPower = s.channel.demand)
    ∧ s.summary.getLsbD 0 = !s.records.isEmpty
    ∧ s.summary.getLsbD 1 = (s.a.mode == .halted) ∧ s.summary.getLsbD 2 = (s.b.mode == .halted)
    ∧ s.summary.getLsbD 3 = (s.tank.state == .warm) ∧ s.summary.getLsbD 4 = (s.tank.state == .critical)
    ∧ s.summary.getLsbD 5 = s.link.overrun
    ∧ s.summary.toNat / 64 = [RunState.running, .stopping, .stopped].idxOf s.run
    ∧ (∀ r : Reply,
        let outcome := [ReplyOutcome.accepted, .unsupportedUnit, .unknownKind, .tooLong, .badLength, .badValue,
          .busy, .full, .inUse, .notFound, .notReady, .dupTag, .tooLate, .already, .empty, .wrongState].idxOf
            r.outcome
        let body := [BitVec.ofNat 8 r.payload.length, r.unit, r.kind, r.tag, BitVec.ofNat 8 outcome, r.summary]
          ++ r.payload
        r.frame = 0x5A :: body ++ be16 (crc body).toNat)
    ∧ crc [] = 0xFFFF
    ∧ (∀ (bs : List Byte) (b : Byte),
        let shift (r : BitVec 16) := if r.msb then (r <<< 1) ^^^ 0x1021 else r <<< 1
        crc (bs ++ [b])
          = shift (shift (shift (shift (shift (shift (shift (shift (crc bs ^^^ (b.zeroExtend 16 <<< 8))))))))))
    ∧ ∀ n, be8 n = [BitVec.ofNat 8 n] ∧ be16 n = be8 (n / 256) ++ be8 n ∧ be32 n = be16 (n / 65536) ++ be16 n

/-! ### Invariants -/

/-- Records held and reservations never exceed 16, and each current job holds the one reservation (R158). -/
def Obligations.RecordsStaySafe : Prop :=
  ∀ s t : State, RecordsSafe s → step s = .next t → RecordsSafe t

/-- The power demand output is nonzero only while the channel is HELD with its holder in HEAT (R71). -/
def Obligations.DemandStaysSafe : Prop :=
  ∀ s t : State, DemandSafe s → step s = .next t → DemandSafe t

/-- The receive buffer holds at most two entries, waiting only behind a transaction (R180). -/
def Obligations.LinkStaysSafe : Prop :=
  ∀ s t : State, LinkSafe s → step s = .next t → LinkSafe t

/-- A station's queue holds at most 8 jobs, and no two of its pending and current jobs share a tag (R154). -/
def Obligations.QueuesStaySafe : Prop :=
  ∀ s t : State, QueuesSafe s → step s = .next t → QueuesSafe t

/-- Each slot's reference count is the number of pending and current jobs that name it (R11). -/
def Obligations.ReferencesStaySafe : Prop :=
  ∀ s t : State, ReferencesSafe s → step s = .next t → ReferencesSafe t

/-- No station is left waiting with a head job whose start conditions hold: the job is taken at the event that makes
them hold (R25). That the judgement is part of the event is log 8. -/
def Obligations.NoStartIsMissed : Prop :=
  ∀ s t : State, StartsTaken s → step s = .next t → StartsTaken t

/-- The six invariants hold in the model's reset state.
What its lines and readings hold is the model's choice (log 16). -/
def Obligations.InvariantsHoldAtReset : Prop :=
  RecordsSafe State.reset ∧ DemandSafe State.reset ∧ LinkSafe State.reset ∧ QueuesSafe State.reset
    ∧ ReferencesSafe State.reset ∧ StartsTaken State.reset
end

