-- ==== Sys2Proof/Laws/State.lean ====
section
/-! SUPPORT. One lemma per field per update of the state and of a station, so that no proof unfolds a record
update. -/

namespace Sys2Proof.Machine

/-! ### The two stations -/

@[simp] theorem st_a (s : State) : s.st .a = s.a := rfl
@[simp] theorem st_b (s : State) : s.st .b = s.b := rfl
@[simp] theorem other_a : Station.a.other = .b := rfl
@[simp] theorem other_b : Station.b.other = .a := rfl

@[simp] theorem other_ne (u : Station) : u.other ≠ u := by cases u <;> decide
@[simp] theorem ne_other (u : Station) : u ≠ u.other := by cases u <;> decide
@[simp] theorem other_other (u : Station) : u.other.other = u := by cases u <;> rfl

theorem eq_or_other (u v : Station) : v = u ∨ v = u.other := by cases u <;> cases v <;> simp

@[simp] theorem st_setSt_self (s : State) (u : Station) (x : StationState) : (s.setSt u x).st u = x := by
  cases u <;> rfl

@[simp] theorem st_setSt_other (s : State) (u : Station) (x : StationState) :
    (s.setSt u x).st u.other = s.st u.other := by cases u <;> rfl

theorem st_setSt (s : State) (u v : Station) (x : StationState) :
    (s.setSt u x).st v = if v = u then x else s.st v := by cases u <;> cases v <;> rfl

@[simp] theorem st_modSt_self (s : State) (u : Station) (f : StationState → StationState) :
    (s.modSt u f).st u = f (s.st u) := by cases u <;> rfl

@[simp] theorem st_modSt_other (s : State) (u : Station) (f : StationState → StationState) :
    (s.modSt u f).st u.other = s.st u.other := by cases u <;> rfl

theorem st_modSt (s : State) (u v : Station) (f : StationState → StationState) :
    (s.modSt u f).st v = if v = u then f (s.st v) else s.st v := by cases u <;> cases v <;> rfl

@[simp] theorem modSt_modSt (s : State) (u : Station) (f g : StationState → StationState) :
    (s.modSt u f).modSt u g = s.modSt u fun x => g (f x) := by cases u <;> rfl

/-! ### `setSt` and `modSt` -/

@[simp] theorem pending_setSt (s : State) (u : Station) (x : StationState) : (s.setSt u x).pending = s.pending := by cases u <;> rfl
@[simp] theorem pending_modSt (s : State) (u : Station) (f : StationState → StationState) :
    (s.modSt u f).pending = s.pending := by cases u <;> rfl
@[simp] theorem time_setSt (s : State) (u : Station) (x : StationState) : (s.setSt u x).time = s.time := by cases u <;> rfl
@[simp] theorem time_modSt (s : State) (u : Station) (f : StationState → StationState) :
    (s.modSt u f).time = s.time := by cases u <;> rfl
@[simp] theorem link_setSt (s : State) (u : Station) (x : StationState) : (s.setSt u x).link = s.link := by cases u <;> rfl
@[simp] theorem link_modSt (s : State) (u : Station) (f : StationState → StationState) :
    (s.modSt u f).link = s.link := by cases u <;> rfl
@[simp] theorem slots_setSt (s : State) (u : Station) (x : StationState) : (s.setSt u x).slots = s.slots := by cases u <;> rfl
@[simp] theorem slots_modSt (s : State) (u : Station) (f : StationState → StationState) :
    (s.modSt u f).slots = s.slots := by cases u <;> rfl
@[simp] theorem channel_setSt (s : State) (u : Station) (x : StationState) : (s.setSt u x).channel = s.channel := by cases u <;> rfl
@[simp] theorem channel_modSt (s : State) (u : Station) (f : StationState → StationState) :
    (s.modSt u f).channel = s.channel := by cases u <;> rfl
@[simp] theorem tank_setSt (s : State) (u : Station) (x : StationState) : (s.setSt u x).tank = s.tank := by cases u <;> rfl
@[simp] theorem tank_modSt (s : State) (u : Station) (f : StationState → StationState) :
    (s.modSt u f).tank = s.tank := by cases u <;> rfl
@[simp] theorem records_setSt (s : State) (u : Station) (x : StationState) : (s.setSt u x).records = s.records := by cases u <;> rfl
@[simp] theorem records_modSt (s : State) (u : Station) (f : StationState → StationState) :
    (s.modSt u f).records = s.records := by cases u <;> rfl
@[simp] theorem reservations_setSt (s : State) (u : Station) (x : StationState) : (s.setSt u x).reservations = s.reservations := by cases u <;> rfl
@[simp] theorem reservations_modSt (s : State) (u : Station) (f : StationState → StationState) :
    (s.modSt u f).reservations = s.reservations := by cases u <;> rfl
@[simp] theorem run_setSt (s : State) (u : Station) (x : StationState) : (s.setSt u x).run = s.run := by cases u <;> rfl
@[simp] theorem run_modSt (s : State) (u : Station) (f : StationState → StationState) :
    (s.modSt u f).run = s.run := by cases u <;> rfl
@[simp] theorem stopMode_setSt (s : State) (u : Station) (x : StationState) : (s.setSt u x).stopMode = s.stopMode := by cases u <;> rfl
@[simp] theorem stopMode_modSt (s : State) (u : Station) (f : StationState → StationState) :
    (s.modSt u f).stopMode = s.stopMode := by cases u <;> rfl
@[simp] theorem common_setSt (s : State) (u : Station) (x : StationState) : (s.setSt u x).common = s.common := by cases u <;> rfl
@[simp] theorem common_modSt (s : State) (u : Station) (f : StationState → StationState) :
    (s.modSt u f).common = s.common := by cases u <;> rfl
@[simp] theorem invReady_setSt (s : State) (u : Station) (x : StationState) : (s.setSt u x).invReady = s.invReady := by cases u <;> rfl
@[simp] theorem invReady_modSt (s : State) (u : Station) (f : StationState → StationState) :
    (s.modSt u f).invReady = s.invReady := by cases u <;> rfl
@[simp] theorem invFault_setSt (s : State) (u : Station) (x : StationState) : (s.setSt u x).invFault = s.invFault := by cases u <;> rfl
@[simp] theorem invFault_modSt (s : State) (u : Station) (f : StationState → StationState) :
    (s.modSt u f).invFault = s.invFault := by cases u <;> rfl
@[simp] theorem resetLine_setSt (s : State) (u : Station) (x : StationState) : (s.setSt u x).resetLine = s.resetLine := by cases u <;> rfl
@[simp] theorem resetLine_modSt (s : State) (u : Station) (f : StationState → StationState) :
    (s.modSt u f).resetLine = s.resetLine := by cases u <;> rfl
@[simp] theorem freeIndex_setSt (s : State) (u : Station) (x : StationState) : (s.setSt u x).freeIndex = s.freeIndex := by cases u <;> rfl
@[simp] theorem freeIndex_modSt (s : State) (u : Station) (f : StationState → StationState) :
    (s.modSt u f).freeIndex = s.freeIndex := by cases u <;> rfl

/-! ### `setChannel` -/

@[simp] theorem pending_setChannel (s : State) (c : Channel) : (s.setChannel c).pending = s.pending := rfl
@[simp] theorem time_setChannel (s : State) (c : Channel) : (s.setChannel c).time = s.time := rfl
@[simp] theorem link_setChannel (s : State) (c : Channel) : (s.setChannel c).link = s.link := rfl
@[simp] theorem slots_setChannel (s : State) (c : Channel) : (s.setChannel c).slots = s.slots := rfl
@[simp] theorem a_setChannel (s : State) (c : Channel) : (s.setChannel c).a = s.a := rfl
@[simp] theorem b_setChannel (s : State) (c : Channel) : (s.setChannel c).b = s.b := rfl
@[simp] theorem channel_setChannel (s : State) (c : Channel) : (s.setChannel c).channel = c := rfl
@[simp] theorem tank_setChannel (s : State) (c : Channel) : (s.setChannel c).tank = s.tank := rfl
@[simp] theorem records_setChannel (s : State) (c : Channel) : (s.setChannel c).records = s.records := rfl
@[simp] theorem reservations_setChannel (s : State) (c : Channel) : (s.setChannel c).reservations = s.reservations := rfl
@[simp] theorem run_setChannel (s : State) (c : Channel) : (s.setChannel c).run = s.run := rfl
@[simp] theorem stopMode_setChannel (s : State) (c : Channel) : (s.setChannel c).stopMode = s.stopMode := rfl
@[simp] theorem common_setChannel (s : State) (c : Channel) : (s.setChannel c).common = s.common := rfl
@[simp] theorem invReady_setChannel (s : State) (c : Channel) : (s.setChannel c).invReady = s.invReady := rfl
@[simp] theorem invFault_setChannel (s : State) (c : Channel) : (s.setChannel c).invFault = s.invFault := rfl
@[simp] theorem resetLine_setChannel (s : State) (c : Channel) : (s.setChannel c).resetLine = s.resetLine := rfl
@[simp] theorem freeIndex_setChannel (s : State) (c : Channel) : (s.setChannel c).freeIndex = s.freeIndex := rfl
@[simp] theorem st_setChannel (s : State) (c : Channel) (u : Station) : (s.setChannel c).st u = s.st u := by
  cases u <;> rfl

/-! ### `setLink` -/

@[simp] theorem pending_setLink (s : State) (l : Link) : (s.setLink l).pending = s.pending := rfl
@[simp] theorem time_setLink (s : State) (l : Link) : (s.setLink l).time = s.time := rfl
@[simp] theorem link_setLink (s : State) (l : Link) : (s.setLink l).link = l := rfl
@[simp] theorem slots_setLink (s : State) (l : Link) : (s.setLink l).slots = s.slots := rfl
@[simp] theorem a_setLink (s : State) (l : Link) : (s.setLink l).a = s.a := rfl
@[simp] theorem b_setLink (s : State) (l : Link) : (s.setLink l).b = s.b := rfl
@[simp] theorem channel_setLink (s : State) (l : Link) : (s.setLink l).channel = s.channel := rfl
@[simp] theorem tank_setLink (s : State) (l : Link) : (s.setLink l).tank = s.tank := rfl
@[simp] theorem records_setLink (s : State) (l : Link) : (s.setLink l).records = s.records := rfl
@[simp] theorem reservations_setLink (s : State) (l : Link) : (s.setLink l).reservations = s.reservations := rfl
@[simp] theorem run_setLink (s : State) (l : Link) : (s.setLink l).run = s.run := rfl
@[simp] theorem stopMode_setLink (s : State) (l : Link) : (s.setLink l).stopMode = s.stopMode := rfl
@[simp] theorem common_setLink (s : State) (l : Link) : (s.setLink l).common = s.common := rfl
@[simp] theorem invReady_setLink (s : State) (l : Link) : (s.setLink l).invReady = s.invReady := rfl
@[simp] theorem invFault_setLink (s : State) (l : Link) : (s.setLink l).invFault = s.invFault := rfl
@[simp] theorem resetLine_setLink (s : State) (l : Link) : (s.setLink l).resetLine = s.resetLine := rfl
@[simp] theorem freeIndex_setLink (s : State) (l : Link) : (s.setLink l).freeIndex = s.freeIndex := rfl
@[simp] theorem st_setLink (s : State) (l : Link) (u : Station) : (s.setLink l).st u = s.st u := by
  cases u <;> rfl

/-! ### `setSlots` -/

@[simp] theorem pending_setSlots (s : State) (v : Vector Slot 8) : (s.setSlots v).pending = s.pending := rfl
@[simp] theorem time_setSlots (s : State) (v : Vector Slot 8) : (s.setSlots v).time = s.time := rfl
@[simp] theorem link_setSlots (s : State) (v : Vector Slot 8) : (s.setSlots v).link = s.link := rfl
@[simp] theorem slots_setSlots (s : State) (v : Vector Slot 8) : (s.setSlots v).slots = v := rfl
@[simp] theorem a_setSlots (s : State) (v : Vector Slot 8) : (s.setSlots v).a = s.a := rfl
@[simp] theorem b_setSlots (s : State) (v : Vector Slot 8) : (s.setSlots v).b = s.b := rfl
@[simp] theorem channel_setSlots (s : State) (v : Vector Slot 8) : (s.setSlots v).channel = s.channel := rfl
@[simp] theorem tank_setSlots (s : State) (v : Vector Slot 8) : (s.setSlots v).tank = s.tank := rfl
@[simp] theorem records_setSlots (s : State) (v : Vector Slot 8) : (s.setSlots v).records = s.records := rfl
@[simp] theorem reservations_setSlots (s : State) (v : Vector Slot 8) : (s.setSlots v).reservations = s.reservations := rfl
@[simp] theorem run_setSlots (s : State) (v : Vector Slot 8) : (s.setSlots v).run = s.run := rfl
@[simp] theorem stopMode_setSlots (s : State) (v : Vector Slot 8) : (s.setSlots v).stopMode = s.stopMode := rfl
@[simp] theorem common_setSlots (s : State) (v : Vector Slot 8) : (s.setSlots v).common = s.common := rfl
@[simp] theorem invReady_setSlots (s : State) (v : Vector Slot 8) : (s.setSlots v).invReady = s.invReady := rfl
@[simp] theorem invFault_setSlots (s : State) (v : Vector Slot 8) : (s.setSlots v).invFault = s.invFault := rfl
@[simp] theorem resetLine_setSlots (s : State) (v : Vector Slot 8) : (s.setSlots v).resetLine = s.resetLine := rfl
@[simp] theorem freeIndex_setSlots (s : State) (v : Vector Slot 8) : (s.setSlots v).freeIndex = s.freeIndex := rfl
@[simp] theorem st_setSlots (s : State) (v : Vector Slot 8) (u : Station) : (s.setSlots v).st u = s.st u := by
  cases u <;> rfl

/-! ### `setRecords` -/

@[simp] theorem pending_setRecords (s : State) (rs : List Record) (n : Nat) : (s.setRecords rs n).pending = s.pending := rfl
@[simp] theorem time_setRecords (s : State) (rs : List Record) (n : Nat) : (s.setRecords rs n).time = s.time := rfl
@[simp] theorem link_setRecords (s : State) (rs : List Record) (n : Nat) : (s.setRecords rs n).link = s.link := rfl
@[simp] theorem slots_setRecords (s : State) (rs : List Record) (n : Nat) : (s.setRecords rs n).slots = s.slots := rfl
@[simp] theorem a_setRecords (s : State) (rs : List Record) (n : Nat) : (s.setRecords rs n).a = s.a := rfl
@[simp] theorem b_setRecords (s : State) (rs : List Record) (n : Nat) : (s.setRecords rs n).b = s.b := rfl
@[simp] theorem channel_setRecords (s : State) (rs : List Record) (n : Nat) : (s.setRecords rs n).channel = s.channel := rfl
@[simp] theorem tank_setRecords (s : State) (rs : List Record) (n : Nat) : (s.setRecords rs n).tank = s.tank := rfl
@[simp] theorem records_setRecords (s : State) (rs : List Record) (n : Nat) : (s.setRecords rs n).records = rs := rfl
@[simp] theorem reservations_setRecords (s : State) (rs : List Record) (n : Nat) : (s.setRecords rs n).reservations = n := rfl
@[simp] theorem run_setRecords (s : State) (rs : List Record) (n : Nat) : (s.setRecords rs n).run = s.run := rfl
@[simp] theorem stopMode_setRecords (s : State) (rs : List Record) (n : Nat) : (s.setRecords rs n).stopMode = s.stopMode := rfl
@[simp] theorem common_setRecords (s : State) (rs : List Record) (n : Nat) : (s.setRecords rs n).common = s.common := rfl
@[simp] theorem invReady_setRecords (s : State) (rs : List Record) (n : Nat) : (s.setRecords rs n).invReady = s.invReady := rfl
@[simp] theorem invFault_setRecords (s : State) (rs : List Record) (n : Nat) : (s.setRecords rs n).invFault = s.invFault := rfl
@[simp] theorem resetLine_setRecords (s : State) (rs : List Record) (n : Nat) : (s.setRecords rs n).resetLine = s.resetLine := rfl
@[simp] theorem freeIndex_setRecords (s : State) (rs : List Record) (n : Nat) : (s.setRecords rs n).freeIndex = s.freeIndex := rfl
@[simp] theorem st_setRecords (s : State) (rs : List Record) (n : Nat) (u : Station) : (s.setRecords rs n).st u = s.st u := by
  cases u <;> rfl

/-! ### `setRun` -/

@[simp] theorem pending_setRun (s : State) (r : RunState) (m : StopMode) : (s.setRun r m).pending = s.pending := rfl
@[simp] theorem time_setRun (s : State) (r : RunState) (m : StopMode) : (s.setRun r m).time = s.time := rfl
@[simp] theorem link_setRun (s : State) (r : RunState) (m : StopMode) : (s.setRun r m).link = s.link := rfl
@[simp] theorem slots_setRun (s : State) (r : RunState) (m : StopMode) : (s.setRun r m).slots = s.slots := rfl
@[simp] theorem a_setRun (s : State) (r : RunState) (m : StopMode) : (s.setRun r m).a = s.a := rfl
@[simp] theorem b_setRun (s : State) (r : RunState) (m : StopMode) : (s.setRun r m).b = s.b := rfl
@[simp] theorem channel_setRun (s : State) (r : RunState) (m : StopMode) : (s.setRun r m).channel = s.channel := rfl
@[simp] theorem tank_setRun (s : State) (r : RunState) (m : StopMode) : (s.setRun r m).tank = s.tank := rfl
@[simp] theorem records_setRun (s : State) (r : RunState) (m : StopMode) : (s.setRun r m).records = s.records := rfl
@[simp] theorem reservations_setRun (s : State) (r : RunState) (m : StopMode) : (s.setRun r m).reservations = s.reservations := rfl
@[simp] theorem run_setRun (s : State) (r : RunState) (m : StopMode) : (s.setRun r m).run = r := rfl
@[simp] theorem stopMode_setRun (s : State) (r : RunState) (m : StopMode) : (s.setRun r m).stopMode = m := rfl
@[simp] theorem common_setRun (s : State) (r : RunState) (m : StopMode) : (s.setRun r m).common = s.common := rfl
@[simp] theorem invReady_setRun (s : State) (r : RunState) (m : StopMode) : (s.setRun r m).invReady = s.invReady := rfl
@[simp] theorem invFault_setRun (s : State) (r : RunState) (m : StopMode) : (s.setRun r m).invFault = s.invFault := rfl
@[simp] theorem resetLine_setRun (s : State) (r : RunState) (m : StopMode) : (s.setRun r m).resetLine = s.resetLine := rfl
@[simp] theorem freeIndex_setRun (s : State) (r : RunState) (m : StopMode) : (s.setRun r m).freeIndex = s.freeIndex := rfl
@[simp] theorem st_setRun (s : State) (r : RunState) (m : StopMode) (u : Station) : (s.setRun r m).st u = s.st u := by
  cases u <;> rfl

/-! ### `elapse` -/

@[simp] theorem pending_elapse (s : State) (n : Nat) : (s.elapse n).pending = s.pending := rfl
@[simp] theorem time_elapse (s : State) (n : Nat) : (s.elapse n).time = s.time + BitVec.ofNat 32 n := rfl
@[simp] theorem link_elapse (s : State) (n : Nat) : (s.elapse n).link = s.link.elapse n := rfl
@[simp] theorem slots_elapse (s : State) (n : Nat) : (s.elapse n).slots = s.slots := rfl
@[simp] theorem a_elapse (s : State) (n : Nat) : (s.elapse n).a = s.a.elapse n := rfl
@[simp] theorem b_elapse (s : State) (n : Nat) : (s.elapse n).b = s.b.elapse n := rfl
@[simp] theorem channel_elapse (s : State) (n : Nat) : (s.elapse n).channel = s.channel.elapse n := rfl
@[simp] theorem tank_elapse (s : State) (n : Nat) : (s.elapse n).tank = s.tank := rfl
@[simp] theorem records_elapse (s : State) (n : Nat) : (s.elapse n).records = s.records := rfl
@[simp] theorem reservations_elapse (s : State) (n : Nat) : (s.elapse n).reservations = s.reservations := rfl
@[simp] theorem run_elapse (s : State) (n : Nat) : (s.elapse n).run = s.run := rfl
@[simp] theorem stopMode_elapse (s : State) (n : Nat) : (s.elapse n).stopMode = s.stopMode := rfl
@[simp] theorem common_elapse (s : State) (n : Nat) : (s.elapse n).common = s.common := rfl
@[simp] theorem invReady_elapse (s : State) (n : Nat) : (s.elapse n).invReady = s.invReady := rfl
@[simp] theorem invFault_elapse (s : State) (n : Nat) : (s.elapse n).invFault = s.invFault := rfl
@[simp] theorem resetLine_elapse (s : State) (n : Nat) : (s.elapse n).resetLine = s.resetLine := rfl
@[simp] theorem freeIndex_elapse (s : State) (n : Nat) : (s.elapse n).freeIndex = s.freeIndex := rfl
@[simp] theorem st_elapse (s : State) (n : Nat) (u : Station) : (s.elapse n).st u = (s.st u).elapse n := by
  cases u <;> rfl

/-! ### A station's updates -/

@[simp] theorem mode_modWalk (x : StationState) (f : Walk → Walk) : (x.modWalk f).mode = x.mode := rfl
@[simp] theorem homingOrigin_modWalk (x : StationState) (f : Walk → Walk) : (x.modWalk f).homingOrigin = x.homingOrigin := rfl
@[simp] theorem homeResult_modWalk (x : StationState) (f : Walk → Walk) : (x.modWalk f).homeResult = x.homeResult := rfl
@[simp] theorem queue_modWalk (x : StationState) (f : Walk → Walk) : (x.modWalk f).queue = x.queue := rfl
@[simp] theorem current_modWalk (x : StationState) (f : Walk → Walk) : (x.modWalk f).current = x.current := rfl
@[simp] theorem finished_modWalk (x : StationState) (f : Walk → Walk) : (x.modWalk f).finished = x.finished := rfl
@[simp] theorem partConsumed_modWalk (x : StationState) (f : Walk → Walk) : (x.modWalk f).partConsumed = x.partConsumed := rfl
@[simp] theorem releaseOwed_modWalk (x : StationState) (f : Walk → Walk) : (x.modWalk f).releaseOwed = x.releaseOwed := rfl
@[simp] theorem haltCause_modWalk (x : StationState) (f : Walk → Walk) : (x.modWalk f).haltCause = x.haltCause := rfl
@[simp] theorem handed_modWalk (x : StationState) (f : Walk → Walk) : (x.modWalk f).handed = x.handed := rfl
@[simp] theorem lapsed_modWalk (x : StationState) (f : Walk → Walk) : (x.modWalk f).lapsed = x.lapsed := rfl
@[simp] theorem dwellTimer_modWalk (x : StationState) (f : Walk → Walk) : (x.modWalk f).dwellTimer = x.dwellTimer := rfl
@[simp] theorem dwells_modWalk (x : StationState) (f : Walk → Walk) : (x.modWalk f).dwells = x.dwells := rfl
@[simp] theorem walk_modWalk (x : StationState) (f : Walk → Walk) : (x.modWalk f).walk = f x.walk := rfl
@[simp] theorem trail_modWalk (x : StationState) (f : Walk → Walk) : (x.modWalk f).trail = x.trail := rfl
@[simp] theorem motion_modWalk (x : StationState) (f : Walk → Walk) : (x.modWalk f).motion = x.motion := rfl
@[simp] theorem quench_modWalk (x : StationState) (f : Walk → Walk) : (x.modWalk f).quench = x.quench := rfl
@[simp] theorem lines_modWalk (x : StationState) (f : Walk → Walk) : (x.modWalk f).lines = x.lines := rfl
@[simp] theorem settings_modWalk (x : StationState) (f : Walk → Walk) : (x.modWalk f).settings = x.settings := rfl

@[simp] theorem mode_modTrail (x : StationState) (f : Trail → Trail) : (x.modTrail f).mode = x.mode := rfl
@[simp] theorem homingOrigin_modTrail (x : StationState) (f : Trail → Trail) : (x.modTrail f).homingOrigin = x.homingOrigin := rfl
@[simp] theorem homeResult_modTrail (x : StationState) (f : Trail → Trail) : (x.modTrail f).homeResult = x.homeResult := rfl
@[simp] theorem queue_modTrail (x : StationState) (f : Trail → Trail) : (x.modTrail f).queue = x.queue := rfl
@[simp] theorem current_modTrail (x : StationState) (f : Trail → Trail) : (x.modTrail f).current = x.current := rfl
@[simp] theorem finished_modTrail (x : StationState) (f : Trail → Trail) : (x.modTrail f).finished = x.finished := rfl
@[simp] theorem partConsumed_modTrail (x : StationState) (f : Trail → Trail) : (x.modTrail f).partConsumed = x.partConsumed := rfl
@[simp] theorem releaseOwed_modTrail (x : StationState) (f : Trail → Trail) : (x.modTrail f).releaseOwed = x.releaseOwed := rfl
@[simp] theorem haltCause_modTrail (x : StationState) (f : Trail → Trail) : (x.modTrail f).haltCause = x.haltCause := rfl
@[simp] theorem handed_modTrail (x : StationState) (f : Trail → Trail) : (x.modTrail f).handed = x.handed := rfl
@[simp] theorem lapsed_modTrail (x : StationState) (f : Trail → Trail) : (x.modTrail f).lapsed = x.lapsed := rfl
@[simp] theorem dwellTimer_modTrail (x : StationState) (f : Trail → Trail) : (x.modTrail f).dwellTimer = x.dwellTimer := rfl
@[simp] theorem dwells_modTrail (x : StationState) (f : Trail → Trail) : (x.modTrail f).dwells = x.dwells := rfl
@[simp] theorem walk_modTrail (x : StationState) (f : Trail → Trail) : (x.modTrail f).walk = x.walk := rfl
@[simp] theorem trail_modTrail (x : StationState) (f : Trail → Trail) : (x.modTrail f).trail = f x.trail := rfl
@[simp] theorem motion_modTrail (x : StationState) (f : Trail → Trail) : (x.modTrail f).motion = x.motion := rfl
@[simp] theorem quench_modTrail (x : StationState) (f : Trail → Trail) : (x.modTrail f).quench = x.quench := rfl
@[simp] theorem lines_modTrail (x : StationState) (f : Trail → Trail) : (x.modTrail f).lines = x.lines := rfl
@[simp] theorem settings_modTrail (x : StationState) (f : Trail → Trail) : (x.modTrail f).settings = x.settings := rfl

@[simp] theorem mode_modMotion (x : StationState) (f : Motion → Motion) : (x.modMotion f).mode = x.mode := rfl
@[simp] theorem homingOrigin_modMotion (x : StationState) (f : Motion → Motion) : (x.modMotion f).homingOrigin = x.homingOrigin := rfl
@[simp] theorem homeResult_modMotion (x : StationState) (f : Motion → Motion) : (x.modMotion f).homeResult = x.homeResult := rfl
@[simp] theorem queue_modMotion (x : StationState) (f : Motion → Motion) : (x.modMotion f).queue = x.queue := rfl
@[simp] theorem current_modMotion (x : StationState) (f : Motion → Motion) : (x.modMotion f).current = x.current := rfl
@[simp] theorem finished_modMotion (x : StationState) (f : Motion → Motion) : (x.modMotion f).finished = x.finished := rfl
@[simp] theorem partConsumed_modMotion (x : StationState) (f : Motion → Motion) : (x.modMotion f).partConsumed = x.partConsumed := rfl
@[simp] theorem releaseOwed_modMotion (x : StationState) (f : Motion → Motion) : (x.modMotion f).releaseOwed = x.releaseOwed := rfl
@[simp] theorem haltCause_modMotion (x : StationState) (f : Motion → Motion) : (x.modMotion f).haltCause = x.haltCause := rfl
@[simp] theorem handed_modMotion (x : StationState) (f : Motion → Motion) : (x.modMotion f).handed = x.handed := rfl
@[simp] theorem lapsed_modMotion (x : StationState) (f : Motion → Motion) : (x.modMotion f).lapsed = x.lapsed := rfl
@[simp] theorem dwellTimer_modMotion (x : StationState) (f : Motion → Motion) : (x.modMotion f).dwellTimer = x.dwellTimer := rfl
@[simp] theorem dwells_modMotion (x : StationState) (f : Motion → Motion) : (x.modMotion f).dwells = x.dwells := rfl
@[simp] theorem walk_modMotion (x : StationState) (f : Motion → Motion) : (x.modMotion f).walk = x.walk := rfl
@[simp] theorem trail_modMotion (x : StationState) (f : Motion → Motion) : (x.modMotion f).trail = x.trail := rfl
@[simp] theorem motion_modMotion (x : StationState) (f : Motion → Motion) : (x.modMotion f).motion = f x.motion := rfl
@[simp] theorem quench_modMotion (x : StationState) (f : Motion → Motion) : (x.modMotion f).quench = x.quench := rfl
@[simp] theorem lines_modMotion (x : StationState) (f : Motion → Motion) : (x.modMotion f).lines = x.lines := rfl
@[simp] theorem settings_modMotion (x : StationState) (f : Motion → Motion) : (x.modMotion f).settings = x.settings := rfl

@[simp] theorem mode_modQuench (x : StationState) (f : Quench → Quench) : (x.modQuench f).mode = x.mode := rfl
@[simp] theorem homingOrigin_modQuench (x : StationState) (f : Quench → Quench) : (x.modQuench f).homingOrigin = x.homingOrigin := rfl
@[simp] theorem homeResult_modQuench (x : StationState) (f : Quench → Quench) : (x.modQuench f).homeResult = x.homeResult := rfl
@[simp] theorem queue_modQuench (x : StationState) (f : Quench → Quench) : (x.modQuench f).queue = x.queue := rfl
@[simp] theorem current_modQuench (x : StationState) (f : Quench → Quench) : (x.modQuench f).current = x.current := rfl
@[simp] theorem finished_modQuench (x : StationState) (f : Quench → Quench) : (x.modQuench f).finished = x.finished := rfl
@[simp] theorem partConsumed_modQuench (x : StationState) (f : Quench → Quench) : (x.modQuench f).partConsumed = x.partConsumed := rfl
@[simp] theorem releaseOwed_modQuench (x : StationState) (f : Quench → Quench) : (x.modQuench f).releaseOwed = x.releaseOwed := rfl
@[simp] theorem haltCause_modQuench (x : StationState) (f : Quench → Quench) : (x.modQuench f).haltCause = x.haltCause := rfl
@[simp] theorem handed_modQuench (x : StationState) (f : Quench → Quench) : (x.modQuench f).handed = x.handed := rfl
@[simp] theorem lapsed_modQuench (x : StationState) (f : Quench → Quench) : (x.modQuench f).lapsed = x.lapsed := rfl
@[simp] theorem dwellTimer_modQuench (x : StationState) (f : Quench → Quench) : (x.modQuench f).dwellTimer = x.dwellTimer := rfl
@[simp] theorem dwells_modQuench (x : StationState) (f : Quench → Quench) : (x.modQuench f).dwells = x.dwells := rfl
@[simp] theorem walk_modQuench (x : StationState) (f : Quench → Quench) : (x.modQuench f).walk = x.walk := rfl
@[simp] theorem trail_modQuench (x : StationState) (f : Quench → Quench) : (x.modQuench f).trail = x.trail := rfl
@[simp] theorem motion_modQuench (x : StationState) (f : Quench → Quench) : (x.modQuench f).motion = x.motion := rfl
@[simp] theorem quench_modQuench (x : StationState) (f : Quench → Quench) : (x.modQuench f).quench = f x.quench := rfl
@[simp] theorem lines_modQuench (x : StationState) (f : Quench → Quench) : (x.modQuench f).lines = x.lines := rfl
@[simp] theorem settings_modQuench (x : StationState) (f : Quench → Quench) : (x.modQuench f).settings = x.settings := rfl

@[simp] theorem mode_modLines (x : StationState) (f : Lines → Lines) : (x.modLines f).mode = x.mode := rfl
@[simp] theorem homingOrigin_modLines (x : StationState) (f : Lines → Lines) : (x.modLines f).homingOrigin = x.homingOrigin := rfl
@[simp] theorem homeResult_modLines (x : StationState) (f : Lines → Lines) : (x.modLines f).homeResult = x.homeResult := rfl
@[simp] theorem queue_modLines (x : StationState) (f : Lines → Lines) : (x.modLines f).queue = x.queue := rfl
@[simp] theorem current_modLines (x : StationState) (f : Lines → Lines) : (x.modLines f).current = x.current := rfl
@[simp] theorem finished_modLines (x : StationState) (f : Lines → Lines) : (x.modLines f).finished = x.finished := rfl
@[simp] theorem partConsumed_modLines (x : StationState) (f : Lines → Lines) : (x.modLines f).partConsumed = x.partConsumed := rfl
@[simp] theorem releaseOwed_modLines (x : StationState) (f : Lines → Lines) : (x.modLines f).releaseOwed = x.releaseOwed := rfl
@[simp] theorem haltCause_modLines (x : StationState) (f : Lines → Lines) : (x.modLines f).haltCause = x.haltCause := rfl
@[simp] theorem handed_modLines (x : StationState) (f : Lines → Lines) : (x.modLines f).handed = x.handed := rfl
@[simp] theorem lapsed_modLines (x : StationState) (f : Lines → Lines) : (x.modLines f).lapsed = x.lapsed := rfl
@[simp] theorem dwellTimer_modLines (x : StationState) (f : Lines → Lines) : (x.modLines f).dwellTimer = x.dwellTimer := rfl
@[simp] theorem dwells_modLines (x : StationState) (f : Lines → Lines) : (x.modLines f).dwells = x.dwells := rfl
@[simp] theorem walk_modLines (x : StationState) (f : Lines → Lines) : (x.modLines f).walk = x.walk := rfl
@[simp] theorem trail_modLines (x : StationState) (f : Lines → Lines) : (x.modLines f).trail = x.trail := rfl
@[simp] theorem motion_modLines (x : StationState) (f : Lines → Lines) : (x.modLines f).motion = x.motion := rfl
@[simp] theorem quench_modLines (x : StationState) (f : Lines → Lines) : (x.modLines f).quench = x.quench := rfl
@[simp] theorem lines_modLines (x : StationState) (f : Lines → Lines) : (x.modLines f).lines = f x.lines := rfl
@[simp] theorem settings_modLines (x : StationState) (f : Lines → Lines) : (x.modLines f).settings = x.settings := rfl

@[simp] theorem mode_modContext (x : StationState) (f : Context → Context) :
    (x.modContext f).mode = x.mode := rfl
@[simp] theorem homingOrigin_modContext (x : StationState) (f : Context → Context) :
    (x.modContext f).homingOrigin = x.homingOrigin := rfl
@[simp] theorem homeResult_modContext (x : StationState) (f : Context → Context) :
    (x.modContext f).homeResult = x.homeResult := rfl
@[simp] theorem queue_modContext (x : StationState) (f : Context → Context) :
    (x.modContext f).queue = x.queue := rfl
@[simp] theorem current_modContext (x : StationState) (f : Context → Context) :
    (x.modContext f).current = x.current.map f := rfl
@[simp] theorem finished_modContext (x : StationState) (f : Context → Context) :
    (x.modContext f).finished = x.finished := rfl
@[simp] theorem partConsumed_modContext (x : StationState) (f : Context → Context) :
    (x.modContext f).partConsumed = x.partConsumed := rfl
@[simp] theorem releaseOwed_modContext (x : StationState) (f : Context → Context) :
    (x.modContext f).releaseOwed = x.releaseOwed := rfl
@[simp] theorem haltCause_modContext (x : StationState) (f : Context → Context) :
    (x.modContext f).haltCause = x.haltCause := rfl
@[simp] theorem handed_modContext (x : StationState) (f : Context → Context) :
    (x.modContext f).handed = x.handed := rfl
@[simp] theorem lapsed_modContext (x : StationState) (f : Context → Context) :
    (x.modContext f).lapsed = x.lapsed := rfl
@[simp] theorem dwellTimer_modContext (x : StationState) (f : Context → Context) :
    (x.modContext f).dwellTimer = x.dwellTimer := rfl
@[simp] theorem dwells_modContext (x : StationState) (f : Context → Context) :
    (x.modContext f).dwells = x.dwells := rfl
@[simp] theorem walk_modContext (x : StationState) (f : Context → Context) :
    (x.modContext f).walk = x.walk := rfl
@[simp] theorem trail_modContext (x : StationState) (f : Context → Context) :
    (x.modContext f).trail = x.trail := rfl
@[simp] theorem motion_modContext (x : StationState) (f : Context → Context) :
    (x.modContext f).motion = x.motion := rfl
@[simp] theorem quench_modContext (x : StationState) (f : Context → Context) :
    (x.modContext f).quench = x.quench := rfl
@[simp] theorem lines_modContext (x : StationState) (f : Context → Context) :
    (x.modContext f).lines = x.lines := rfl
@[simp] theorem settings_modContext (x : StationState) (f : Context → Context) :
    (x.modContext f).settings = x.settings := rfl

@[simp] theorem mode_hand (x : StationState) (c : FaultCode) : (x.hand c).mode = x.mode := rfl
@[simp] theorem homingOrigin_hand (x : StationState) (c : FaultCode) : (x.hand c).homingOrigin = x.homingOrigin := rfl
@[simp] theorem homeResult_hand (x : StationState) (c : FaultCode) : (x.hand c).homeResult = x.homeResult := rfl
@[simp] theorem queue_hand (x : StationState) (c : FaultCode) : (x.hand c).queue = x.queue := rfl
@[simp] theorem current_hand (x : StationState) (c : FaultCode) : (x.hand c).current = x.current := rfl
@[simp] theorem finished_hand (x : StationState) (c : FaultCode) : (x.hand c).finished = x.finished := rfl
@[simp] theorem partConsumed_hand (x : StationState) (c : FaultCode) : (x.hand c).partConsumed = x.partConsumed := rfl
@[simp] theorem releaseOwed_hand (x : StationState) (c : FaultCode) : (x.hand c).releaseOwed = x.releaseOwed := rfl
@[simp] theorem haltCause_hand (x : StationState) (c : FaultCode) : (x.hand c).haltCause = x.haltCause := rfl
@[simp] theorem handed_hand (x : StationState) (c : FaultCode) : (x.hand c).handed = x.handed ++ [c] := rfl
@[simp] theorem lapsed_hand (x : StationState) (c : FaultCode) : (x.hand c).lapsed = x.lapsed := rfl
@[simp] theorem dwellTimer_hand (x : StationState) (c : FaultCode) : (x.hand c).dwellTimer = x.dwellTimer := rfl
@[simp] theorem dwells_hand (x : StationState) (c : FaultCode) : (x.hand c).dwells = x.dwells := rfl
@[simp] theorem walk_hand (x : StationState) (c : FaultCode) : (x.hand c).walk = x.walk := rfl
@[simp] theorem trail_hand (x : StationState) (c : FaultCode) : (x.hand c).trail = x.trail := rfl
@[simp] theorem motion_hand (x : StationState) (c : FaultCode) : (x.hand c).motion = x.motion := rfl
@[simp] theorem quench_hand (x : StationState) (c : FaultCode) : (x.hand c).quench = x.quench := rfl
@[simp] theorem lines_hand (x : StationState) (c : FaultCode) : (x.hand c).lines = x.lines := rfl
@[simp] theorem settings_hand (x : StationState) (c : FaultCode) : (x.hand c).settings = x.settings := rfl

@[simp] theorem mode_lapse (x : StationState) : x.lapse.mode = x.mode := rfl
@[simp] theorem homingOrigin_lapse (x : StationState) : x.lapse.homingOrigin = x.homingOrigin := rfl
@[simp] theorem homeResult_lapse (x : StationState) : x.lapse.homeResult = x.homeResult := rfl
@[simp] theorem queue_lapse (x : StationState) : x.lapse.queue = x.queue := rfl
@[simp] theorem current_lapse (x : StationState) : x.lapse.current = x.current := rfl
@[simp] theorem finished_lapse (x : StationState) : x.lapse.finished = x.finished := rfl
@[simp] theorem partConsumed_lapse (x : StationState) : x.lapse.partConsumed = x.partConsumed := rfl
@[simp] theorem releaseOwed_lapse (x : StationState) : x.lapse.releaseOwed = x.releaseOwed := rfl
@[simp] theorem haltCause_lapse (x : StationState) : x.lapse.haltCause = x.haltCause := rfl
@[simp] theorem dwellTimer_lapse (x : StationState) : x.lapse.dwellTimer = x.dwellTimer := rfl
@[simp] theorem dwells_lapse (x : StationState) : x.lapse.dwells = x.dwells := rfl
@[simp] theorem walk_lapse (x : StationState) : x.lapse.walk = x.walk := rfl
@[simp] theorem trail_lapse (x : StationState) : x.lapse.trail = x.trail := rfl
@[simp] theorem motion_lapse (x : StationState) : x.lapse.motion = x.motion := rfl
@[simp] theorem quench_lapse (x : StationState) : x.lapse.quench = x.quench := rfl
@[simp] theorem lines_lapse (x : StationState) : x.lapse.lines = x.lines := rfl
@[simp] theorem settings_lapse (x : StationState) : x.lapse.settings = x.settings := rfl
@[simp] theorem handed_lapse (x : StationState) : x.lapse.handed = [] := rfl
@[simp] theorem lapsed_lapse (x : StationState) : x.lapse.lapsed = x.lapsed ++ x.handed := rfl

end Sys2Proof.Machine
end

