-- ==== Sys2Proof/Laws/Frame.lean ====
section
/-! SUPPORT. What the shared operations leave alone: relations between the state before and after, closed
under composition, for a step's proof to cite in place of unfolding. -/

namespace Sys2Proof.Machine

/-! ### Relations -/

/-- What no operation of a cycle changes: the queue, the clock, the link, the tank, the settings of the part,
the common inputs. -/
structure Frame (s t : State) : Prop where
  pending : t.pending = s.pending
  time : t.time = s.time
  link : t.link = s.link
  tank : t.tank = s.tank
  common : t.common = s.common
  invReady : t.invReady = s.invReady
  invFault : t.invFault = s.invFault
  resetLine : t.resetLine = s.resetLine
  freeIndex : t.freeIndex = s.freeIndex
  stopMode : t.stopMode = s.stopMode

theorem Frame.refl (s : State) : Frame s s := ⟨rfl, rfl, rfl, rfl, rfl, rfl, rfl, rfl, rfl, rfl⟩

theorem Frame.trans {s t r : State} (h : Frame s t) (k : Frame t r) : Frame s r :=
  ⟨k.pending.trans h.pending, k.time.trans h.time, k.link.trans h.link, k.tank.trans h.tank,
    k.common.trans h.common, k.invReady.trans h.invReady, k.invFault.trans h.invFault,
    k.resetLine.trans h.resetLine, k.freeIndex.trans h.freeIndex, k.stopMode.trans h.stopMode⟩

theorem Frame.modSt (s : State) (u : Station) (f : StationState → StationState) :
    Frame s (s.modSt u f) := by constructor <;> simp

theorem Frame.setChannel (s : State) (c : Channel) : Frame s (s.setChannel c) := by
  constructor <;> simp

theorem Frame.setRecords (s : State) (r : List Record) (n : Nat) : Frame s (s.setRecords r n) := by
  constructor <;> simp

theorem Frame.dropRef (s : State) (k : Fin 8) : Frame s (s.dropRef k) := by
  constructor <;> rfl

theorem Frame.judgeRun (s : State) : Frame s s.judgeRun := by
  unfold State.judgeRun; split <;> constructor <;> rfl

/-- A station keeps its jobs: the same current job, the same queue, and a station state with a current job
where it was in one. -/
structure Jobs (x y : StationState) : Prop where
  job : y.current.map (fun c => c.job) = x.current.map fun c => c.job
  queue : y.queue = x.queue
  cycling : x.busy = true → x.mode.cycling = true → y.mode.cycling = true

theorem Jobs.refl (x : StationState) : Jobs x x := ⟨rfl, rfl, fun _ h => h⟩

theorem busy_of_job {x y : StationState}
    (h : y.current.map (fun c => c.job) = x.current.map fun c => c.job) : y.busy = x.busy := by
  have := congrArg Option.isSome h
  simpa [StationState.busy] using this

theorem Jobs.busy {x y : StationState} (h : Jobs x y) : y.busy = x.busy := busy_of_job h.job

theorem Jobs.trans {x y z : StationState} (h : Jobs x y) (k : Jobs y z) : Jobs x z :=
  ⟨k.job.trans h.job, k.queue.trans h.queue,
    fun b c => k.cycling (h.busy ▸ b) (h.cycling b c)⟩

/-- An update of a station that touches neither its jobs nor its state. -/
theorem Jobs.of_eq {x y : StationState} (hc : y.current = x.current) (hq : y.queue = x.queue)
    (hm : y.mode = x.mode) : Jobs x y := ⟨by rw [hc], hq, fun _ h => by rw [hm]; exact h⟩

/-- What the start conditions read of a station beside its state and its queue (R25). -/
def StationState.signs (x : StationState) : Bool × Bool × Bool × Bool :=
  (x.partConsumed, x.lines.present.qualified, x.lines.clamped.qualified, x.lines.hold.qualified)

/-- A station keeps its jobs, and it is in WAIT-PART only where it was before, with the same signs: no start
condition of it can have become true. -/
structure Carries (x y : StationState) : Prop extends Jobs x y where
  waits : y.mode = .waitPart → x.mode = .waitPart ∧ y.signs = x.signs

theorem Carries.refl (x : StationState) : Carries x x := ⟨Jobs.refl x, fun h => ⟨h, rfl⟩⟩

theorem Carries.trans {x y z : StationState} (h : Carries x y) (k : Carries y z) : Carries x z :=
  ⟨h.toJobs.trans k.toJobs, fun m =>
    ⟨(h.waits (k.waits m).1).1, (k.waits m).2.trans (h.waits (k.waits m).1).2⟩⟩

/-- An update of a station that touches neither its jobs nor its state nor its signs. -/
theorem Carries.of_eq {x y : StationState} (hc : y.current = x.current) (hq : y.queue = x.queue)
    (hm : y.mode = x.mode) (hs : y.signs = x.signs := by rfl) : Carries x y :=
  ⟨.of_eq hc hq hm, fun h => ⟨hm ▸ h, hs⟩⟩

/-- An operation of a cycle that writes no record and takes no job: the frame, the library, the records and
the jobs of both stations stay. -/
structure Calm (s t : State) : Prop extends Frame s t where
  slots : t.slots = s.slots
  records : t.records = s.records
  reservations : t.reservations = s.reservations
  run : t.run = s.run
  carries : ∀ u, Carries (s.st u) (t.st u)

theorem Calm.refl (s : State) : Calm s s := ⟨Frame.refl s, rfl, rfl, rfl, rfl, fun _ => Carries.refl _⟩

theorem Calm.trans {s t r : State} (h : Calm s t) (k : Calm t r) : Calm s r :=
  ⟨h.toFrame.trans k.toFrame, k.slots.trans h.slots, k.records.trans h.records,
    k.reservations.trans h.reservations, k.run.trans h.run,
    fun u => (h.carries u).trans (k.carries u)⟩

theorem Calm.modSt (s : State) (u : Station) {f : StationState → StationState}
    (h : Carries (s.st u) (f (s.st u))) : Calm s (s.modSt u f) :=
  ⟨Frame.modSt s u f, by simp, by simp, by simp, by simp, fun v => by
    rw [st_modSt]; split
    · next e => subst e; exact h
    · exact Carries.refl _⟩

theorem Calm.setChannel (s : State) (c : Channel) : Calm s (s.setChannel c) :=
  ⟨Frame.setChannel s c, rfl, rfl, rfl, rfl, fun u => by rw [st_setChannel]; exact Carries.refl _⟩

/-! ### Carries, for the operations on a station -/

theorem carries_modWalk (x : StationState) (f : Walk → Walk) : Carries x (x.modWalk f) :=
  .of_eq rfl rfl rfl

theorem carries_modTrail (x : StationState) (f : Trail → Trail) : Carries x (x.modTrail f) :=
  .of_eq rfl rfl rfl

theorem carries_modMotion (x : StationState) (f : Motion → Motion) : Carries x (x.modMotion f) :=
  .of_eq rfl rfl rfl

theorem carries_modQuench (x : StationState) (f : Quench → Quench) : Carries x (x.modQuench f) :=
  .of_eq rfl rfl rfl

/-- A change of the lines that leaves the qualified states. -/
theorem carries_modLines (x : StationState) (f : Lines → Lines)
    (h : (x.modLines f).signs = x.signs := by rfl) : Carries x (x.modLines f) := .of_eq rfl rfl rfl h

theorem jobs_modLines (x : StationState) (f : Lines → Lines) : Jobs x (x.modLines f) :=
  .of_eq rfl rfl rfl

theorem carries_hand (x : StationState) (c : FaultCode) : Carries x (x.hand c) := .of_eq rfl rfl rfl

theorem carries_dropLapsed (x : StationState) (c : FaultCode) : Carries x (x.dropLapsed c) := .of_eq rfl rfl rfl

theorem carries_lapse (x : StationState) : Carries x x.lapse := .of_eq rfl rfl rfl

theorem carries_unhand (x : StationState) (c : FaultCode) : Carries x (x.unhand c) := .of_eq rfl rfl rfl

/-- A change of the cycle context that keeps its job. -/
theorem carries_modContext (x : StationState) {f : Context → Context} (h : ∀ c, (f c).job = c.job) :
    Carries x (x.modContext f) :=
  ⟨⟨by simp only [current_modContext, Option.map_map, Function.comp_def, h], rfl, fun _ k => k⟩,
    fun k => ⟨k, rfl⟩⟩

theorem carries_setTravel (x : StationState) (m : TravelMode) : Carries x (x.setTravel m) := by
  unfold StationState.setTravel; dsimp only; split <;> exact .of_eq rfl rfl rfl

/-- A change of state to one with a current job. -/
theorem carries_mode (x : StationState) (m : Mode) (h : m.cycling = true) : Carries x { x with mode := m } :=
  ⟨⟨rfl, rfl, fun _ _ => h⟩, fun k => by
    simp only at k; rw [k] at h; cases h⟩

theorem carries_judgeOpen (p : Profile) (x : StationState) : Carries x (x.judgeOpen p) := by
  unfold StationState.judgeOpen; split
  · exact carries_modQuench _ _
  · exact .refl _

theorem carries_judgeFlow (x : StationState) : Carries x x.judgeFlow := by
  unfold StationState.judgeFlow; split
  · exact (carries_modQuench _ _).trans (carries_hand _ _)
  · exact .refl _

theorem carries_readFlow (n : Nat) (x : StationState) : Carries x (x.readFlow n) := by
  unfold StationState.readFlow
  refine Carries.trans ?_ (carries_judgeFlow _)
  split
  · exact (carries_modQuench _ _).trans (carries_modQuench _ _)
  · exact carries_modQuench _ _

theorem carries_placeSlice (p : Profile) (sl : SliceRec) (x : StationState) :
    Carries x (x.placeSlice p sl) := by
  unfold StationState.placeSlice; dsimp only
  split
  · split
    · exact ((carries_modTrail _ _).trans (carries_modQuench _ _)).trans (carries_judgeOpen _ _)
    · exact (carries_modTrail _ _).trans (carries_modQuench _ _)
  · exact carries_modTrail _ _

theorem carries_appendOpen (h : Bool) (now : Time) (p : Profile) (x : StationState) :
    Carries x (x.appendOpen h now p) := by
  unfold StationState.appendOpen; split
  · exact (carries_placeSlice _ _ _).trans (carries_modTrail _ _)
  · exact .refl _

theorem carries_appendLast (h : Bool) (now : Time) (p : Profile) (x : StationState) :
    Carries x (x.appendLast h now p) := by
  unfold StationState.appendLast; split
  · exact (carries_placeSlice _ _ _).trans (carries_modTrail _ _)
  · exact .refl _

theorem carries_abortTrail (now : Time) (p : Profile) (x : StationState) :
    Carries x (x.abortTrail now p) := by
  unfold StationState.abortTrail; split
  · exact ((carries_modTrail _ _).trans (carries_placeSlice _ _ _)).trans (carries_modTrail _ _)
  · exact .refl _

theorem carries_departQuench (p : Profile) (x : StationState) : Carries x (x.departQuench p) := by
  unfold StationState.departQuench; split
  · exact carries_judgeOpen _ _
  · exact carries_modQuench _ _

theorem carries_arriveHead (now : Time) (p : Profile) (x : StationState) :
    Carries x (x.arriveHead now p) := by
  unfold StationState.arriveHead; split
  · exact .refl _
  · dsimp only; split
    · exact ((carries_judgeOpen _ _).trans (carries_modTrail _ _)).trans (carries_departQuench _ _)
    · exact carries_modTrail _ _

theorem carries_arrivals (now : Time) (p : Profile) (n : Nat) (x : StationState) :
    Carries x (x.arrivals now p n) := by
  induction n generalizing x with
  | zero => exact .refl _
  | succ n ih =>
    unfold StationState.arrivals; split
    · exact (carries_arriveHead _ _ _).trans (ih _)
    · exact .refl _

theorem carries_takeArrivals (now : Time) (p : Profile) (x : StationState) :
    Carries x (x.takeArrivals now p) := carries_arrivals _ _ _ _

theorem carries_sweep (h : Bool) (now : Time) (p : Profile) (n : Nat) (x : StationState) :
    Carries x (x.sweep h now p n) := by
  induction n generalizing x with
  | zero => exact carries_takeArrivals _ _ _
  | succ n ih =>
    unfold StationState.sweep; dsimp only; split
    · exact ((carries_takeArrivals _ _ _).trans (carries_appendOpen _ _ _ _)).trans (ih _)
    · exact carries_takeArrivals _ _ _

theorem carries_advanceTrail (o h : Bool) (now : Time) (p : Profile) (n : Nat) (x : StationState) :
    Carries x (x.advanceTrail o h now p n) := by
  unfold StationState.advanceTrail; dsimp only
  cases o
  · exact ((carries_modTrail _ _).trans (carries_sweep _ _ _ _ _)).trans (carries_judgeOpen _ _)
  · exact ((carries_modTrail _ _).trans (carries_judgeOpen _ _)).trans (carries_sweep _ _ _ _ _)

theorem carries_idleTrail (x : StationState) : Carries x x.idleTrail := .of_eq rfl rfl rfl

theorem carries_floodTally (x : StationState) : Carries x x.floodTally := .of_eq rfl rfl rfl

theorem carries_startFlood (o : FloodOrigin) (x : StationState) : Carries x (x.startFlood o) :=
  .of_eq rfl rfl rfl

theorem carries_enterReturn (x : StationState) : Carries x x.enterReturn := by
  unfold StationState.enterReturn
  exact (((carries_idleTrail _).trans (carries_modMotion _ _)).trans (carries_setTravel _ _)).trans
    (carries_mode _ _ rfl)

theorem carries_enterFlood (x : StationState) : Carries x x.enterFlood := by
  unfold StationState.enterFlood
  exact ((((carries_setTravel _ _).trans (carries_modMotion _ _)).trans
    (carries_startFlood _ _)).trans (carries_floodTally _)).trans (carries_mode _ _ rfl)

theorem carries_checkDrained (x : StationState) : Carries x x.checkDrained := by
  unfold StationState.checkDrained; split
  · split
    · exact (carries_setTravel _ _).trans (carries_enterReturn _)
    · exact carries_setTravel _ _
  · exact .refl _

theorem carries_judgeStall (x : StationState) : Carries x x.judgeStall := by
  unfold StationState.judgeStall; split
  · exact carries_modMotion _ _
  · exact .refl _

theorem carries_judgeReverse (h : Nat) (x : StationState) : Carries x (x.judgeReverse h) := by
  unfold StationState.judgeReverse; split
  · split
    · exact .refl _
    · exact (carries_modMotion _ _).trans (carries_hand _ _)
  · exact carries_modMotion _ _

theorem carries_judgeLimit (x : StationState) : Carries x x.judgeLimit := by
  unfold StationState.judgeLimit; split
  · split
    · exact .refl _
    · exact (carries_modMotion _ _).trans (carries_hand _ _)
  · exact carries_modMotion _ _

theorem carries_judgeTravel (x : StationState) : Carries x x.judgeTravel := by
  unfold StationState.judgeTravel; dsimp only; split
  · exact ((carries_judgeStall _).trans (carries_judgeReverse _ _)).trans (carries_judgeLimit _)
  · exact carries_judgeStall _

theorem carries_readRpm (n : Nat) (x : StationState) : Carries x (x.readRpm n) := by
  unfold StationState.readRpm; dsimp only
  split <;> split <;> exact .of_eq rfl rfl rfl

theorem carries_tankAtEntry (t : TankState) (x : StationState) : Carries x (x.tankAtEntry t) := by
  unfold StationState.tankAtEntry; split
  · exact carries_modTrail _ _
  · exact .refl _

theorem carries_tankChanged (x : StationState) : Carries x x.tankChanged := by
  unfold StationState.tankChanged; split
  · exact carries_modTrail _ _
  · exact .refl _

theorem carries_startProof (x : StationState) : Carries x x.startProof := carries_modQuench _ _

theorem carries_enterCheckpoint (w : Checkpoint) (x : StationState) :
    Carries x (x.enterCheckpoint w) := carries_modWalk _ _

theorem carries_completeCheckpoint (w : Checkpoint) (x : StationState) :
    Carries x (x.completeCheckpoint w) := carries_modWalk _ _

theorem carries_stopHeat (now : Time) (x : StationState) : Carries x (x.stopHeat now) := by
  unfold StationState.stopHeat
  exact (carries_modContext (f := Context.addHeat now) x fun _ => rfl).trans (.of_eq rfl rfl rfl)

theorem carries_runOut (m : Mode) (h : m.cycling = true) (x : StationState) :
    Carries x (x.runOut m) := by
  unfold StationState.runOut
  exact (carries_setTravel _ _).trans (carries_mode _ _ h)

theorem fix_job (o : PendingOutcome) (c : Context) : (c.fix o).job = c.job := by
  unfold Context.fix; split <;> rfl

theorem abort_job (a : AbortCause) (c : Context) : (c.abort a).job = c.job := by
  unfold Context.abort; split <;> rfl

theorem closeRepeat_job (g : Flags) (c : Context) : (c.closeRepeat g).job = c.job := by
  unfold Context.closeRepeat; split <;> rfl

theorem carries_enterHeat (now : Time) (t : TankState) (p : Profile) (x : StationState) :
    Carries x (x.enterHeat now t p) := by
  unfold StationState.enterHeat
  dsimp only
  have h1 : Carries x { (x.modContext (Context.enterHeat now)).openTrail p with mode := .heat } :=
    ((carries_modContext (f := Context.enterHeat now) x fun _ => rfl).trans
      (carries_modTrail _ _)).trans (carries_mode _ _ rfl)
  exact (((h1.trans (carries_tankAtEntry t _)).trans (carries_modMotion _ _)).trans
    (carries_setTravel _ _)).trans (.of_eq rfl rfl rfl)

theorem carries_enterWalk (n : Nat) (x : StationState) : Carries x (x.enterWalk n) := by
  unfold StationState.enterWalk
  exact ((carries_modWalk _ _).trans (carries_setTravel _ _)).trans (carries_mode _ _ rfl)

end Sys2Proof.Machine
end

