-- ==== Sys2Proof/Laws/Cycle.lean ====
section
/-! SUPPORT. What the operations of the channel, the walk and the cycle leave alone (`Calm`, `Frame`), and that each
keeps the power demand safe (R71). -/

namespace Sys2Proof.Machine

/-! ### The channel alone -/

/-- R71, of the channel alone. -/
def Channel.DemandOk (c : Channel) : Prop := c.demand ≠ 0 → c.holderInHeat.isSome = true

theorem demandSafe_iff (s : State) : DemandSafe s ↔ s.channel.DemandOk := Iff.rfl

theorem demandOk_hold {c : Channel} (u : Station) (h : c.DemandOk) (n : c.holderInHeat = none) :
    (c.hold u).DemandOk := by
  intro d; have := h d; rw [n] at this; cases this

/-- Where no holder is in HEAT a change of channel state that keeps the demand is safe: the demand is 0. -/
theorem demandOk_idle {c d : Channel} (h : c.DemandOk) (n : c.holderInHeat = none)
    (e : d.demand = c.demand) : d.DemandOk := by
  intro k; rw [e] at k; have := h k; rw [n] at this; cases this

theorem demandOk_leaveHeld (next : ChannelState) (c : Channel) : (c.leaveHeld next).DemandOk := by
  intro k; exact absurd rfl k

/-- A change that keeps the channel state and the demand. -/
theorem demandOk_same {c d : Channel} (h : c.DemandOk) (hs : d.state = c.state)
    (e : d.demand = c.demand) : d.DemandOk := by
  intro k; rw [e] at k; have := h k
  unfold Channel.holderInHeat at *; rw [hs]; exact this

theorem demandOk_enqueue {c : Channel} (u : Station) (h : c.DemandOk) : (c.enqueue u).DemandOk := by
  unfold Channel.enqueue; split
  · next v hs =>
    have n : c.holderInHeat = none := by simp [Channel.holderInHeat, hs]
    split <;> exact demandOk_idle h n rfl
  · exact demandOk_same h rfl rfl

theorem demandOk_noticeHeat {c : Channel} (u : Station) (d t : Nat) (h : c.DemandOk) :
    (c.noticeHeat u d t).DemandOk := by
  unfold Channel.noticeHeat; split
  · split
    · intro _; rfl
    · exact h
  · exact h

theorem demandOk_issue {c : Channel} (u : Station) (d t : Nat) (h : c.DemandOk) :
    (c.issue u d t).DemandOk := by
  unfold Channel.issue; split
  · next k => intro _; have := k.1; simp only [Channel.holderInHeat] at *; simp [this]
  · exact h

theorem demandOk_judgeResponse {c : Channel} (l p : Nat) (h : c.DemandOk) :
    (c.judgeResponse l p).DemandOk := by
  unfold Channel.judgeResponse; split <;> exact demandOk_same h rfl rfl

/-! ### HEAT entry, grant, release, withdrawal -/

/-- A calm operation that keeps the power demand safe. -/
structure Served (s t : State) : Prop extends Calm s t where
  demand : s.channel.DemandOk → t.channel.DemandOk

theorem Served.refl (s : State) : Served s s := ⟨Calm.refl s, id⟩

theorem Served.trans {s t r : State} (h : Served s t) (k : Served t r) : Served s r :=
  ⟨h.toCalm.trans k.toCalm, fun d => k.demand (h.demand d)⟩

theorem Served.modSt (s : State) (u : Station) {f : StationState → StationState}
    (h : Carries (s.st u) (f (s.st u))) : Served s (s.modSt u f) :=
  ⟨Calm.modSt s u h, by rw [channel_modSt]; exact id⟩

theorem Served.setChannel (s : State) {c : Channel} (h : s.channel.DemandOk → c.DemandOk) :
    Served s (s.setChannel c) := ⟨Calm.setChannel s c, h⟩

theorem issueDemand_served (s : State) (u : Station) (d : Nat) : Served s (s.issueDemand u d) := by
  unfold State.issueDemand; split
  · exact .setChannel s (demandOk_issue u d _)
  · exact .refl s

theorem enterHeat_served (s : State) (u : Station) : Served s (s.enterHeat u) := by
  unfold State.enterHeat; dsimp only
  have h1 : Served s (s.modSt u (StationState.enterHeat s.time s.tank.state (s.profileOf u))) :=
    .modSt _ _ (carries_enterHeat _ _ _ _)
  have h2 := h1.trans (.setChannel _ (demandOk_noticeHeat u
    (entryDemand (s.profileOf u) (s.st u).settings.powerLead)
    (s.modSt u (StationState.enterHeat s.time s.tank.state (s.profileOf u))).common.settleTime))
  split
  · exact h2.trans (.modSt _ _ (carries_hand _ _))
  · exact h2

theorem passWalk_served (s : State) (u : Station) : Served s (s.passWalk u) :=
  (Served.modSt _ _ (carries_modWalk _ _)).trans (enterHeat_served _ _)

theorem enterW8_served (s : State) (u : Station) : Served s (s.enterW8 u) := by
  unfold State.enterW8; dsimp only; split
  · exact (Served.modSt _ _ (carries_enterCheckpoint _ _)).trans (passWalk_served _ _)
  · exact .modSt _ _ (carries_enterCheckpoint _ _)

theorem passW7_served (s : State) (u : Station) : Served s (s.passW7 u) := by
  unfold State.passW7; split
  · exact (Served.modSt _ _ (carries_completeCheckpoint _ _)).trans (enterW8_served _ _)
  · exact .refl _

theorem holdChannel_served (s : State) (u : Station) (n : s.channel.holderInHeat = none) :
    Served s (s.holdChannel u) :=
  (Served.setChannel s fun h => demandOk_hold u h n).trans (passW7_served _ _)

theorem grant_served (s : State) : Served s s.grant := by
  unfold State.grant; split
  · next hf =>
    have n : s.channel.holderInHeat = none := by simp [Channel.holderInHeat, hf]
    split
    · exact .refl _
    · dsimp only; split
      · refine Served.trans ?_ (holdChannel_served _ _ ?_)
        · exact .setChannel s fun h => demandOk_idle h n rfl
        simp only [channel_setChannel]; simpa [Channel.holderInHeat] using n
      · exact .setChannel s fun h => demandOk_idle h n rfl
  · exact .refl _

theorem requestPower_served (s : State) (u : Station) : Served s (s.requestPower u) :=
  (Served.setChannel s (demandOk_enqueue u)).trans (grant_served _)

theorem release_served (s : State) (u : Station) : Served s (s.release u) := by
  unfold State.release; split
  · exact (Served.setChannel s fun _ => demandOk_leaveHeld _ _).trans (grant_served _)
  · exact .refl _

theorem withdraw_served (s : State) (u : Station) : Served s (s.withdraw u) := by
  unfold State.withdraw; split
  · next v w hs =>
    have n : s.channel.holderInHeat = none := by simp [Channel.holderInHeat, hs]
    split <;> exact .setChannel s fun h => demandOk_idle h n rfl
  · split
    · exact release_served _ _
    · exact .setChannel s fun h => demandOk_same h rfl rfl
  · exact .setChannel s fun h => demandOk_same h rfl rfl

theorem changeoverDue_served (s : State) : Served s s.changeoverDue := by
  unfold State.changeoverDue; split
  · next u w hs =>
    have n : s.channel.holderInHeat = none := by simp [Channel.holderInHeat, hs]
    dsimp only; split
    · exact .setChannel s fun h => demandOk_idle h n rfl
    · split
      · refine Served.trans ?_ (grant_served _)
        exact .setChannel s fun h => demandOk_idle h n rfl
      · refine Served.trans ?_ (holdChannel_served _ _ ?_)
        · exact .setChannel s fun h => demandOk_idle h n rfl
        simp only [channel_setChannel]; simpa [Channel.holderInHeat] using n
  · exact .refl _

/-! ### Records -/

theorem frame_of_calm {s t : State} (h : Calm s t) : Frame s t := h.toFrame

theorem writeRecord_frame (s : State) (u : Station) (o : Option RecordOutcome) :
    Frame s (s.writeRecord u o) := by
  unfold State.writeRecord; split
  · exact .refl _
  · exact (((Frame.setRecords _ _ _).trans (Frame.modSt _ _ _)).trans (Frame.dropRef _ _)).trans
      (Frame.judgeRun _)

@[simp] theorem channel_judgeRun (s : State) : s.judgeRun.channel = s.channel := by
  unfold State.judgeRun; split <;> rfl

@[simp] theorem st_judgeRun (s : State) (u : Station) : s.judgeRun.st u = s.st u := by
  unfold State.judgeRun; split
  · exact st_setRun _ _ _ _
  · rfl

@[simp] theorem records_judgeRun (s : State) : s.judgeRun.records = s.records := by
  unfold State.judgeRun; split <;> rfl

@[simp] theorem reservations_judgeRun (s : State) : s.judgeRun.reservations = s.reservations := by
  unfold State.judgeRun; split <;> rfl

@[simp] theorem slots_judgeRun (s : State) : s.judgeRun.slots = s.slots := by
  unfold State.judgeRun; split <;> rfl

@[simp] theorem channel_dropRef (s : State) (k : Fin 8) : (s.dropRef k).channel = s.channel := rfl
@[simp] theorem st_dropRef (s : State) (k : Fin 8) (u : Station) : (s.dropRef k).st u = s.st u :=
  st_setSlots _ _ _
@[simp] theorem records_dropRef (s : State) (k : Fin 8) : (s.dropRef k).records = s.records := rfl
@[simp] theorem reservations_dropRef (s : State) (k : Fin 8) :
    (s.dropRef k).reservations = s.reservations := rfl
@[simp] theorem channel_addRef (s : State) (k : Fin 8) : (s.addRef k).channel = s.channel := rfl
@[simp] theorem st_addRef (s : State) (k : Fin 8) (u : Station) : (s.addRef k).st u = s.st u :=
  st_setSlots _ _ _

@[simp] theorem channel_writeRecord (s : State) (u : Station) (o : Option RecordOutcome) :
    (s.writeRecord u o).channel = s.channel := by
  unfold State.writeRecord; split
  · rfl
  · simp

/-- Everything a record write does where a job is current: one record behind those held, through the
station's reservation; the job is no longer current and becomes the finished job; its profile loses a
reference; run control judges (R37, R38, R159, R165). -/
theorem writeRecord_busy (s : State) (u : Station) (o : Option RecordOutcome) {c : Context}
    (h : (s.st u).current = some c) :
    s.writeRecord u o =
      (((s.setRecords (s.records ++ [(s.st u).recordOf u o c]) (s.reservations - 1)).modSt u
        (StationState.recordWritten ((s.st u).outcomeOf o c) ((s.st u).closing c))).dropRef
          c.job.slot).judgeRun := by
  unfold State.writeRecord; rw [h]

theorem writeRecord_idle (s : State) (u : Station) (o : Option RecordOutcome)
    (h : (s.st u).current = none) : s.writeRecord u o = s := by
  unfold State.writeRecord; rw [h]

end Sys2Proof.Machine
end

