-- ==== Sys2Proof/Laws/Course.lean ====
section
/-! SUPPORT. The walk and the course of a cycle: every operation of them that writes no record is `Served`, and
what a calm operation keeps of the part's invariants. -/

namespace Sys2Proof.Machine

/-! ### The walk -/

theorem undoWalk_served (s : State) (u : Station) (w : Checkpoint) : Served s (s.undoWalk u w) := by
  unfold State.undoWalk; split
  · exact .modSt _ _ (carries_modMotion _ _)
  · exact .modSt _ _ (carries_modQuench _ _)
  · exact withdraw_served _ _
  · exact release_served _ _
  · exact .refl _

theorem takeWalkReport_served (s : State) (u : Station) {r : WalkResult} (h : r ≠ .axis) :
    Served s (s.takeWalkReport u r) := by
  unfold State.takeWalkReport; split
  · exact absurd rfl h
  all_goals
    exact .modSt _ _ ((carries_modContext _ fun c => fix_job _ c).trans (carries_enterReturn _))

/-- A walk that ends FAILED, CANCELLED or STOPPED (R135): calm, and the power demand stays safe. -/
theorem endWalk_served (s : State) (u : Station) {r : WalkResult} (h : r ≠ .axis) (f : FailureCause) :
    Served s (s.endWalk u r f) := by
  unfold State.endWalk; split
  · exact .refl _
  · exact ((Served.modSt _ _ (carries_modWalk _ _)).trans (undoWalk_served _ _ _)).trans
      (takeWalkReport_served _ _ h)

theorem enterW7_served (s : State) (u : Station) : Served s (s.enterW7 u) := by
  unfold State.enterW7; split
  · exact (Served.modSt _ _ (carries_modWalk _ _)).trans (requestPower_served _ _)
  · exact passWalk_served _ _

theorem enterW6_served (s : State) (u : Station) : Served s (s.enterW6 u) := by
  unfold State.enterW6; split
  · exact (Served.modSt _ _ ((carries_modWalk _ _).trans (carries_completeCheckpoint _ _))).trans
      (enterW7_served _ _)
  · exact .modSt _ _ ((carries_enterCheckpoint _ _).trans (carries_startProof _))

theorem passW6_served (s : State) (u : Station) : Served s (s.passW6 u) :=
  (Served.modSt _ _ (carries_completeCheckpoint _ _)).trans (enterW7_served _ _)

theorem enterW5_served (s : State) (u : Station) : Served s (s.enterW5 u) := by
  unfold State.enterW5
  exact .modSt _ _ ((carries_enterCheckpoint _ _).trans (carries_modMotion _ _))

theorem passW5_served (s : State) (u : Station) : Served s (s.passW5 u) :=
  (Served.modSt _ _ (carries_completeCheckpoint _ _)).trans (enterW6_served _ _)

theorem enterW4_served (s : State) (u : Station) : Served s (s.enterW4 u) := by
  unfold State.enterW4
  exact .modSt _ _ ((carries_enterCheckpoint _ _).trans (carries_setTravel _ _))

theorem passW4_served (s : State) (u : Station) : Served s (s.passW4 u) :=
  (Served.modSt _ _ ((carries_completeCheckpoint _ _).trans (carries_setTravel _ _))).trans
    (enterW5_served _ _)

theorem enterW3_served (s : State) (u : Station) : Served s (s.enterW3 u) := by
  unfold State.enterW3; split
  · exact (Served.modSt _ _ ((carries_modWalk _ _).trans (carries_completeCheckpoint _ _))).trans
      (enterW4_served _ _)
  · split
    · exact (Served.modSt _ _ (carries_enterCheckpoint _ _)).trans (endWalk_served _ _ (by decide) _)
    · exact (Served.modSt _ _ (carries_completeCheckpoint _ _)).trans (enterW4_served _ _)

theorem passW2_served (s : State) (u : Station) : Served s (s.passW2 u) :=
  (Served.modSt _ _ (carries_completeCheckpoint _ _)).trans (enterW3_served _ _)

theorem enterW2_served (s : State) (u : Station) : Served s (s.enterW2 u) := by
  unfold State.enterW2; split
  · exact .modSt _ _ (carries_enterCheckpoint _ _)
  · exact passW2_served _ _

theorem passW1_served (s : State) (u : Station) : Served s (s.passW1 u) :=
  (Served.modSt _ _ (carries_completeCheckpoint _ _)).trans (enterW2_served _ _)

theorem enterW1_served (s : State) (u : Station) : Served s (s.enterW1 u) := by
  unfold State.enterW1; split
  · exact .modSt _ _ (carries_enterCheckpoint _ _)
  · exact passW1_served _ _

theorem judgeW1_served (s : State) (u : Station) : Served s (s.judgeW1 u) := by
  unfold State.judgeW1; split
  · exact passW1_served _ _
  · exact .refl _

theorem startWalk_served (s : State) (u : Station) : Served s (s.startWalk u) :=
  (Served.modSt _ _ (carries_enterWalk _ _)).trans (enterW1_served _ _)

theorem nextRepeat_job (g : Flags) (c : Context) : (c.nextRepeat g).job = c.job := closeRepeat_job g c

theorem startNextRepeat_served (s : State) (u : Station) : Served s (s.startNextRepeat u) := by
  unfold State.startNextRepeat
  refine Served.trans (Served.modSt _ _ ?_) (enterW2_served _ _)
  exact Carries.trans (carries_modContext _ fun c => nextRepeat_job _ c) (carries_enterWalk _ _)

theorem passW8_served (s : State) (u : Station) : Served s (s.passW8 u) := by
  unfold State.passW8; split
  · exact passWalk_served _ _
  · exact .refl _

/-! ### HEAT and its end -/

theorem endOfHeat_served (s : State) (u : Station) : Served s (s.endOfHeat u) := by
  unfold State.endOfHeat; dsimp only
  refine Served.trans (Served.trans (Served.modSt _ _ ?_) (release_served _ u)) (Served.modSt _ _ ?_)
  · exact (carries_stopHeat _ _).trans (carries_appendLast _ _ _ _)
  · exact (carries_runOut _ rfl _).trans (carries_tankAtEntry _ _)

theorem leaveHeat_served (s : State) (u : Station) : Served s (s.leaveHeat u) := by
  unfold State.leaveHeat; dsimp only
  exact (Served.modSt _ _ ((carries_stopHeat _ _).trans (carries_abortTrail _ _ _))).trans
    (release_served _ _)

theorem quenchOut_served (s : State) (u : Station) : Served s (s.quenchOut u) :=
  (leaveHeat_served _ _).trans (Served.modSt _ _ (carries_runOut _ rfl _))

theorem abortByHost_served (s : State) (u : Station) (a : AbortCause) (o : PendingOutcome) :
    Served s (s.abortByHost u a o) :=
  (Served.modSt _ _ (carries_modContext _ fun c => by rw [fix_job, abort_job])).trans
    (quenchOut_served _ _)

theorem startDwell_served (s : State) (u : Station) (i : Nat) : Served s (s.startDwell u i) := by
  unfold State.startDwell; dsimp only
  refine Served.trans ?_ (issueDemand_served _ _ _)
  exact .modSt _ _ ((carries_setTravel _ _).trans (.of_eq rfl rfl rfl))

theorem readProfile_served (s : State) (u : Station) (old h : Nat) :
    Served s (s.readProfile u old h) := by
  unfold State.readProfile; dsimp only
  have h1 : ∀ l, Served s (s.modSt u fun x => { x with dwells := l }) :=
    fun l => .modSt _ _ (.of_eq rfl rfl rfl)
  split
  · exact ((h1 _).trans (Served.modSt _ _ (carries_modMotion _ _))).trans (issueDemand_served _ _ _)
  · exact (h1 _).trans (startDwell_served _ _ _)
  · exact h1 _

theorem dwellDue_served (s : State) (u : Station) : Served s (s.dwellDue u) := by
  unfold State.dwellDue; dsimp only
  have h1 : ∀ l, Served s (s.modSt u fun x => { x with dwells := l, dwellTimer := none }) :=
    fun l => .modSt _ _ (.of_eq rfl rfl rfl)
  split
  · exact (h1 _).trans (startDwell_served _ _ _)
  · exact ((h1 _).trans (issueDemand_served _ _ _)).trans (Served.modSt _ _ (carries_setTravel _ _))
  · exact h1 _

theorem advance_served (s : State) (u : Station) (o : Bool) (old h : Nat) :
    Served s (s.advance u o old h) := by
  unfold State.advance; dsimp only
  refine Served.trans (t := s.modSt u _)
    (Served.modSt s u (f := fun x => (x.advanceTrail o x.harden s.time (s.profileOf u) h).modMotion
      (Motion.setSpindle (rotationAt (s.profileOf u).segs h)))
      ((carries_advanceTrail _ _ _ _ _ _).trans (carries_modMotion _ _))) ?_
  split
  · split
    · exact (endOfHeat_served _ _).trans
        (Served.modSt _ _ ((carries_takeArrivals _ _ _).trans (carries_checkDrained _)))
    · exact readProfile_served _ _ _ _
  · exact .modSt _ _ (carries_checkDrained _)

theorem reportPosition_served (s : State) (u : Station) (o : Bool) (before : Int) :
    Served s (s.reportPosition u o before) := by
  unfold State.reportPosition; split
  · exact .refl _
  · dsimp only; split
    · exact advance_served _ _ _ _ _
    · exact .refl _

theorem readEncoder_served (s : State) (u : Station) (raw : Int) (o : ReadingOrder) :
    Served s (s.readEncoder u raw o) := by
  unfold State.readEncoder; dsimp only
  split
  · exact ((Served.modSt _ _ (carries_modMotion _ _)).trans
      (Served.modSt _ _ (carries_judgeTravel _))).trans (reportPosition_served _ _ _ _)
  · exact ((Served.modSt _ _ (carries_modMotion _ _)).trans (reportPosition_served _ _ _ _)).trans
      (Served.modSt _ _ (carries_judgeTravel _))

theorem recordFault_job (f : FaultCode) (c : Context) : (c.recordFault f).job = c.job := rfl

/-- Taking a fault other than AXIS writes no record (R167). -/
theorem takeFault_served (s : State) (u : Station) {f : FaultCode} (h : f ≠ .axis) :
    Served s (s.takeFault u f) := by
  unfold State.takeFault; split
  · refine Served.trans (t := s.modSt u fun x => x.modContext (Context.recordFault f))
      (Served.modSt s u (carries_modContext _ fun c => recordFault_job f c)) ?_
    unfold State.actOnFault; split
    · dsimp only
      refine Served.trans
        (Served.modSt _ u (f := fun x => x.modContext (Context.abort .fault))
          (carries_modContext _ fun c => abort_job _ c)) ?_
      split
      · exact (leaveHeat_served _ _).trans (Served.modSt _ _ (carries_enterFlood _))
      · exact quenchOut_served _ _
    · split
      · exact .modSt _ _ (carries_enterFlood _)
      · exact .refl _
    · split
      · exact .modSt _ _ (carries_enterFlood _)
      · exact .refl _
    · simp only [h, false_and, if_false]; exact .refl _
    · simp only [h, if_false]; exact .refl _
    · exact .refl _
  · exact .refl _

/-! ### What a calm operation keeps -/

theorem Calm.busyCount {s t : State} (h : Calm s t) : t.busyCount = s.busyCount := by
  have ha := (h.carries .a).busy; have hb := (h.carries .b).busy
  simp only [st_a, st_b] at ha hb
  simp only [State.busyCount, ha, hb]

theorem Calm.recordsSafe {s t : State} (h : Calm s t) (k : RecordsSafe s) : RecordsSafe t := by
  refine ⟨by rw [h.reservations, h.busyCount]; exact k.1, by rw [h.records, h.reservations]; exact k.2.1,
    fun u b => ?_⟩
  have hb := (h.carries u).busy ▸ b
  exact (h.carries u).cycling hb (k.2.2 u hb)

theorem Jobs.tags {x y : StationState} (h : Jobs x y) : y.tags = x.tags := by
  have := congrArg (Option.map fun j : JobEntry => j.tag) h.job
  simp only [Option.map_map, Function.comp_def] at this
  unfold StationState.tags; rw [this, h.queue]

theorem Calm.queuesSafe {s t : State} (h : Calm s t) (k : QueuesSafe s) : QueuesSafe t := fun u => by
  rw [(h.carries u).tags, (h.carries u).queue]; exact k u

theorem Jobs.naming {x y : StationState} (h : Jobs x y) (k : Fin 8) : y.naming k = x.naming k := by
  have hj := h.job
  unfold StationState.naming; rw [h.queue]
  cases hx : x.current <;> cases hy : y.current <;> simp_all [List.filter]
  split <;> rfl

theorem Calm.referencesSafe {s t : State} (h : Calm s t) (k : ReferencesSafe s) :
    ReferencesSafe t := by
  refine ⟨fun i => ?_, fun u b => ?_⟩
  · have ha := (h.carries .a).naming i; have hb := (h.carries .b).naming i
    simp only [st_a, st_b] at ha hb
    simp only [State.slot, h.slots, ha, hb]; exact k.1 i
  · have hb := (h.carries u).busy ▸ b
    exact (h.carries u).cycling hb (k.2 u hb)

theorem Frame.linkSafe {s t : State} (h : Frame s t) (k : LinkSafe s) : LinkSafe t := by
  unfold LinkSafe; rw [h.link]; exact k

end Sys2Proof.Machine
end

