-- ==== Sys2Proof/Laws/Records.lean ====
section
/-! SUPPORT. Jobs, records and references: what a record write, a queue change and the reset of a station do to the
invariants of R11, R154 and R158. -/

namespace Sys2Proof.Machine

/-! ### Operations that keep jobs, records and the library -/

/-- The library, the records and every station's jobs stay: all that the three invariants read. -/
structure Kept (s t : State) : Prop where
  slots : t.slots = s.slots
  records : t.records = s.records
  reservations : t.reservations = s.reservations
  carries : ∀ u, Jobs (s.st u) (t.st u)

theorem Kept.refl (s : State) : Kept s s := ⟨rfl, rfl, rfl, fun _ => Jobs.refl _⟩

theorem Kept.trans {s t r : State} (h : Kept s t) (k : Kept t r) : Kept s r :=
  ⟨k.slots.trans h.slots, k.records.trans h.records, k.reservations.trans h.reservations,
    fun u => (h.carries u).trans (k.carries u)⟩

theorem Calm.kept {s t : State} (h : Calm s t) : Kept s t :=
  ⟨h.slots, h.records, h.reservations, fun u => (h.carries u).toJobs⟩

theorem Served.kept {s t : State} (h : Served s t) : Kept s t := h.toCalm.kept

theorem Kept.modSt (s : State) (u : Station) {f : StationState → StationState}
    (h : Jobs (s.st u) (f (s.st u))) : Kept s (s.modSt u f) :=
  ⟨by simp, by simp, by simp, fun v => by
    rw [st_modSt]; split
    · next e => subst e; exact h
    · exact Jobs.refl _⟩

theorem Kept.setChannel (s : State) (c : Channel) : Kept s (s.setChannel c) := (Calm.setChannel s c).kept

theorem Kept.setLink (s : State) (l : Link) : Kept s (s.setLink l) :=
  ⟨rfl, rfl, rfl, fun u => by rw [st_setLink]; exact .refl _⟩

theorem Kept.setRun (s : State) (r : RunState) (m : StopMode) : Kept s (s.setRun r m) :=
  ⟨rfl, rfl, rfl, fun u => by rw [st_setRun]; exact .refl _⟩

theorem Kept.judgeRun (s : State) : Kept s s.judgeRun := by
  unfold State.judgeRun; split
  · exact .setRun _ _ _
  · exact .refl _

theorem carries_elapse (x : StationState) (n : Nat) : Carries x (x.elapse n) := .of_eq rfl rfl rfl

theorem Kept.elapse (s : State) (n : Nat) : Kept s (s.elapse n) :=
  ⟨rfl, rfl, rfl, fun u => by rw [st_elapse]; exact (carries_elapse _ _).toJobs⟩

/-- An expiry keeps what its act keeps. -/
theorem Kept.expire (s : State) (t : Timer) (act : State → State) (h : ∀ b, Kept b (act b)) :
    Kept s (s.expire t act) := by
  unfold State.expire; split
  · exact .refl _
  · exact (Kept.elapse _ _).trans (h _)

theorem Kept.busyCount {s t : State} (h : Kept s t) : t.busyCount = s.busyCount := by
  have ha := (h.carries .a).busy; have hb := (h.carries .b).busy
  simp only [st_a, st_b] at ha hb
  simp only [State.busyCount, ha, hb]

theorem Kept.recordsSafe {s t : State} (h : Kept s t) (k : RecordsSafe s) : RecordsSafe t := by
  refine ⟨by rw [h.reservations, h.busyCount]; exact k.1, by rw [h.records, h.reservations]; exact k.2.1,
    fun u b => ?_⟩
  have hb := (h.carries u).busy ▸ b
  exact (h.carries u).cycling hb (k.2.2 u hb)

theorem Kept.queuesSafe {s t : State} (h : Kept s t) (k : QueuesSafe s) : QueuesSafe t := fun u => by
  rw [(h.carries u).tags, (h.carries u).queue]; exact k u

theorem Kept.referencesSafe {s t : State} (h : Kept s t) (k : ReferencesSafe s) : ReferencesSafe t := by
  refine ⟨fun i => ?_, fun u b => ?_⟩
  · have ha := (h.carries .a).naming i; have hb := (h.carries .b).naming i
    simp only [st_a, st_b] at ha hb
    simp only [State.slot, h.slots, ha, hb]; exact k.1 i
  · have hb := (h.carries u).busy ▸ b
    exact (h.carries u).cycling hb (k.2 u hb)

/-! ### A station without a current job -/

theorem not_busy {x : StationState} (h : x.busy = false) : x.current = none := by
  cases hc : x.current with
  | none => rfl
  | some c => simp [StationState.busy, hc] at h

/-- Without a current job any change of state carries the jobs. -/
theorem Jobs.idle {x y : StationState} (hx : x.busy = false) (hc : y.current = x.current)
    (hq : y.queue = x.queue) : Jobs x y :=
  ⟨by rw [hc], hq, fun h => by rw [hx] at h; cases h⟩

@[simp] theorem current_setTravel (x : StationState) (m : TravelMode) :
    (x.setTravel m).current = x.current := by
  unfold StationState.setTravel; dsimp only; split <;> rfl

@[simp] theorem queue_setTravel (x : StationState) (m : TravelMode) :
    (x.setTravel m).queue = x.queue := by
  unfold StationState.setTravel; dsimp only; split <;> rfl

@[simp] theorem mode_setTravel (x : StationState) (m : TravelMode) :
    (x.setTravel m).mode = x.mode := by
  unfold StationState.setTravel; dsimp only; split <;> rfl

theorem enterHalted_jobs (x : StationState) (c : HaltCause) :
    (x.enterHalted c).current = x.current ∧ (x.enterHalted c).queue = x.queue := by
  unfold StationState.enterHalted; simp

theorem enterIdleOrWait_jobs (x : StationState) :
    x.enterIdleOrWait.current = x.current ∧ x.enterIdleOrWait.queue = x.queue := by
  unfold StationState.enterIdleOrWait; simp

theorem completeHandshake_jobs (x : StationState) :
    x.completeHandshake.current = x.current ∧ x.completeHandshake.queue = x.queue := by
  unfold StationState.completeHandshake; dsimp only; split
  · exact enterIdleOrWait_jobs _
  · exact ⟨rfl, rfl⟩

theorem assertDone_jobs (x : StationState) :
    x.assertDone.current = x.current ∧ x.assertDone.queue = x.queue := by
  unfold StationState.assertDone; dsimp only
  split
  · exact ⟨rfl, rfl⟩
  · split
    · exact ⟨rfl, rfl⟩
    · split
      · exact completeHandshake_jobs _
      · exact ⟨rfl, rfl⟩

theorem startStep_jobs (x : StationState) :
    x.startStep.current = x.current ∧ x.startStep.queue = x.queue := by
  unfold StationState.startStep; split
  · exact ⟨rfl, rfl⟩
  · exact assertDone_jobs _

theorem beginHandshake_jobs (x : StationState) :
    x.beginHandshake.current = x.current ∧ x.beginHandshake.queue = x.queue := by
  unfold StationState.beginHandshake; split
  · exact ⟨rfl, rfl⟩
  · exact startStep_jobs _

theorem enterRelease_jobs (x : StationState) :
    x.enterRelease.current = x.current ∧ x.enterRelease.queue = x.queue := by
  unfold StationState.enterRelease
  have h := beginHandshake_jobs
    { ((x.setTravel .stop).modMotion (Motion.setSpindle 0)) with mode := .release }
  simpa using h

theorem enterReleaseOrIdle_jobs (x : StationState) :
    x.enterReleaseOrIdle.current = x.current ∧ x.enterReleaseOrIdle.queue = x.queue := by
  unfold StationState.enterReleaseOrIdle; split
  · exact enterRelease_jobs _
  · exact enterIdleOrWait_jobs _

theorem homingFailed_jobs (x : StationState) :
    x.homingFailed.current = x.current ∧ x.homingFailed.queue = x.queue := by
  unfold StationState.homingFailed; simp

theorem homingComplete_jobs (x : StationState) :
    x.homingComplete.current = x.current ∧ x.homingComplete.queue = x.queue := by
  unfold StationState.homingComplete
  have h := enterReleaseOrIdle_jobs { x.setTravel .stop with homeResult := .ok, haltCause := .none }
  simpa using h

theorem startSearch_jobs (x : StationState) :
    x.startSearch.current = x.current ∧ x.startSearch.queue = x.queue := by
  unfold StationState.startSearch; simp

theorem enterHoming_jobs (x : StationState) :
    x.enterHoming.current = x.current ∧ x.enterHoming.queue = x.queue := by
  unfold StationState.enterHoming
  generalize (if x.mode = .halted then HomingOrigin.halted else HomingOrigin.unhomed) = o
  have h := startSearch_jobs { x with mode := .homing, homingOrigin := o }
  have k := homingFailed_jobs (StationState.startSearch { x with mode := .homing, homingOrigin := o })
  dsimp only; split
  · exact ⟨k.1.trans h.1, k.2.trans h.2⟩
  · exact h

theorem holdChanged_jobs (x : StationState) (b : Bool) :
    (x.holdChanged b).current = x.current ∧ (x.holdChanged b).queue = x.queue := by
  unfold StationState.holdChanged; split
  · exact ⟨rfl, rfl⟩
  · exact startStep_jobs _
  · exact ⟨rfl, rfl⟩

theorem presentGone_jobs (x : StationState) :
    x.presentGone.current = x.current ∧ x.presentGone.queue = x.queue := by
  unfold StationState.presentGone; dsimp only; split
  · exact completeHandshake_jobs { x with partConsumed := false }
  · exact ⟨rfl, rfl⟩

theorem handshakeDue_jobs (x : StationState) :
    x.handshakeDue.current = x.current ∧ x.handshakeDue.queue = x.queue := by
  unfold StationState.handshakeDue; split
  · exact assertDone_jobs _
  · exact completeHandshake_jobs _
  · exact ⟨rfl, rfl⟩

/-! ### The handshake of a station at work changes no state: it leaves only RELEASE -/

theorem completeHandshake_mode {x : StationState} (h : x.mode ≠ .release) :
    x.completeHandshake.mode = x.mode := by
  unfold StationState.completeHandshake; rw [if_neg h]; rfl

theorem assertDone_mode {x : StationState} (h : x.mode ≠ .release) : x.assertDone.mode = x.mode := by
  unfold StationState.assertDone; dsimp only
  split
  · rfl
  · split
    · rfl
    · split
      · exact completeHandshake_mode h
      · rfl

theorem startStep_mode {x : StationState} (h : x.mode ≠ .release) : x.startStep.mode = x.mode := by
  unfold StationState.startStep; split
  · rfl
  · exact assertDone_mode h

theorem not_release {m : Mode} (h : m.cycling = true) : m ≠ .release := by
  rintro rfl; cases h

theorem jobs_holdChanged (x : StationState) (b : Bool) : Jobs x (x.holdChanged b) :=
  ⟨by rw [(holdChanged_jobs x b).1], (holdChanged_jobs x b).2, fun _ h => by
    unfold StationState.holdChanged; split
    · exact h
    · rw [startStep_mode (not_release h)]; exact h
    · exact h⟩

theorem jobs_presentGone (x : StationState) : Jobs x x.presentGone :=
  ⟨by rw [(presentGone_jobs x).1], (presentGone_jobs x).2, fun _ h => by
    unfold StationState.presentGone; dsimp only; split
    · rw [completeHandshake_mode]
      · exact h
      · exact not_release h
    · exact h⟩

theorem jobs_handshakeDue (x : StationState) : Jobs x x.handshakeDue :=
  ⟨by rw [(handshakeDue_jobs x).1], (handshakeDue_jobs x).2, fun _ h => by
    unfold StationState.handshakeDue; split
    · rw [assertDone_mode (not_release h)]; exact h
    · rw [completeHandshake_mode (not_release h)]; exact h
    · exact h⟩

theorem carries_homingFailed (x : StationState) : Carries x x.homingFailed := by
  refine ⟨⟨by rw [(homingFailed_jobs x).1], (homingFailed_jobs x).2, fun _ h => ?_⟩, fun h => ?_⟩
  · unfold StationState.homingFailed
    have : x.mode ≠ .homing := by rintro e; rw [e] at h; cases h
    rw [if_neg this]; exact h
  · unfold StationState.homingFailed at h ⊢
    dsimp only at h; split at h
    · exfalso; revert h; cases x.homingOrigin <;> decide
    · refine ⟨h, ?_⟩
      unfold StationState.setTravel; dsimp only; split <;> rfl

/-! ### Slots -/

theorem refs_addRef (x : Slot) (h : ∃ hd es n, x = .ready hd es n) : x.addRef.refs = x.refs + 1 := by
  obtain ⟨hd, es, n, rfl⟩ := h; rfl

theorem refs_dropRef (x : Slot) : x.dropRef.refs = x.refs - 1 := by cases x <;> rfl

theorem slot_setSlot (s : State) (k j : Fin 8) (x : Slot) :
    (s.setSlot k x).slot j = if j = k then x else s.slot j := by
  unfold State.slot State.setSlot State.setSlots
  simp only [Fin.getElem_fin, Vector.getElem_set]
  by_cases h : k = j
  · subst h; simp
  · have h1 : ¬ (k.val = j.val) := fun e => h (Fin.ext e)
    have h2 : ¬ j = k := fun e => h e.symm
    simp [h1, h2]

@[simp] theorem st_setSlot (s : State) (k : Fin 8) (x : Slot) (u : Station) :
    (s.setSlot k x).st u = s.st u := st_setSlots _ _ _

/-- The counts after one reference is dropped. -/
theorem refs_of_dropRef (s : State) (k j : Fin 8) :
    ((s.dropRef k).slot j).refs = (s.slot j).refs - if j = k then 1 else 0 := by
  unfold State.dropRef; rw [slot_setSlot]; split
  · next e => subst e; exact refs_dropRef _
  · rfl

/-! ### The record write -/

/-- What a record write leaves at its station, jobs and state apart unchanged. -/
theorem st_writeRecord_self (s : State) (u : Station) (o : Option RecordOutcome) {c : Context}
    (h : (s.st u).current = some c) :
    (s.writeRecord u o).st u
      = (s.st u).recordWritten ((s.st u).outcomeOf o c) ((s.st u).closing c) := by
  rw [writeRecord_busy s u o h]; simp

theorem st_writeRecord_other (s : State) (u : Station) (o : Option RecordOutcome) :
    (s.writeRecord u o).st u.other = s.st u.other := by
  unfold State.writeRecord; split
  · rfl
  · simp

/-- After a record write its station has no current job. -/
theorem writeRecord_current (s : State) (u : Station) (o : Option RecordOutcome) :
    ((s.writeRecord u o).st u).current = none := by
  cases h : (s.st u).current with
  | none => rw [writeRecord_idle s u o h]; exact h
  | some c => rw [st_writeRecord_self s u o h]; rfl

theorem writeRecord_queue (s : State) (u : Station) (o : Option RecordOutcome) :
    ((s.writeRecord u o).st u).queue = (s.st u).queue := by
  cases h : (s.st u).current with
  | none => rw [writeRecord_idle s u o h]
  | some c => rw [st_writeRecord_self s u o h]; rfl

theorem busyCount_eq (s : State) (u : Station) :
    s.busyCount = (s.st u).busy.toNat + (s.st u.other).busy.toNat := by
  unfold State.busyCount; cases u
  · rfl
  · exact Nat.add_comm _ _

/-- A record write takes one record through its reservation (R37, R159), whatever state its station is in. -/
theorem writeRecord_recordsSafe_of (s : State) (u : Station) (o : Option RecordOutcome) {c : Context}
    (hc : (s.st u).current = some c) (h1 : s.reservations = s.busyCount)
    (h2 : s.records.length + s.reservations ≤ Config.recordCapacity)
    (h3 : (s.st u.other).busy = true → (s.st u.other).mode.cycling = true) :
    RecordsSafe (s.writeRecord u o) := by
  have hb : (s.st u).busy = true := by simp [StationState.busy, hc]
  have hn : ((s.writeRecord u o).st u).busy = false := by
    simp [StationState.busy, writeRecord_current]
  have hr : (s.writeRecord u o).reservations = s.reservations - 1 := by
    rw [writeRecord_busy s u o hc]; simp
  have hl : (s.writeRecord u o).records.length = s.records.length + 1 := by
    rw [writeRecord_busy s u o hc]; simp
  rw [busyCount_eq s u, hb, Bool.toNat_true] at h1
  refine ⟨?_, ?_, fun v hv => ?_⟩
  · rw [busyCount_eq _ u, hn, st_writeRecord_other, hr, h1]; simp
  · rw [hl, hr]; omega
  · rcases eq_or_other u v with rfl | rfl
    · rw [hn] at hv; cases hv
    · rw [st_writeRecord_other] at hv ⊢; exact h3 hv

theorem writeRecord_recordsSafe (s : State) (u : Station) (o : Option RecordOutcome)
    (h : RecordsSafe s) : RecordsSafe (s.writeRecord u o) := by
  cases hc : (s.st u).current with
  | none => rw [writeRecord_idle s u o hc]; exact h
  | some c => exact writeRecord_recordsSafe_of s u o hc h.1 h.2.1 (h.2.2 _)

/-- A record write leaves the queues and only drops a current tag (R154). -/
theorem writeRecord_queuesSafe (s : State) (u : Station) (o : Option RecordOutcome)
    (h : QueuesSafe s) : QueuesSafe (s.writeRecord u o) := fun v => by
  rcases eq_or_other u v with rfl | rfl
  · refine ⟨by rw [writeRecord_queue]; exact (h _).1, ?_⟩
    have := (h v).2
    unfold StationState.tags at this ⊢
    rw [writeRecord_current, writeRecord_queue]
    simp only [Option.map_none, Option.toList_none, List.nil_append]
    exact (List.nodup_append.mp this).2.1
  · rw [st_writeRecord_other]; exact h _

theorem naming_split (k : Fin 8) {x : StationState} {c : Context} (h : x.current = some c) :
    x.naming k = (x.queue.filter fun j => j.slot == k).length + if c.job.slot = k then 1 else 0 := by
  unfold StationState.naming; rw [h]
  by_cases e : c.job.slot = k <;> simp [List.filter, e]

theorem naming_idle (k : Fin 8) {x : StationState} (h : x.current = none) :
    x.naming k = (x.queue.filter fun j => j.slot == k).length := by
  unfold StationState.naming; rw [h]; rfl

theorem naming_sum (s : State) (u : Station) (k : Fin 8) :
    s.a.naming k + s.b.naming k = (s.st u).naming k + (s.st u.other).naming k := by
  cases u
  · rfl
  · exact Nat.add_comm _ _

/-- A record write drops the one reference of its job (R11, R37), whatever state its station is in. -/
theorem writeRecord_referencesSafe_of (s : State) (u : Station) (o : Option RecordOutcome) {c : Context}
    (hc : (s.st u).current = some c) (h1 : ∀ k : Fin 8, (s.slot k).refs = s.a.naming k + s.b.naming k)
    (h2 : (s.st u.other).busy = true → (s.st u.other).mode.cycling = true) :
    ReferencesSafe (s.writeRecord u o) := by
  have hn : ((s.writeRecord u o).st u).busy = false := by
    simp [StationState.busy, writeRecord_current]
  refine ⟨fun k => ?_, fun v hv => ?_⟩
  · have hs : ((s.writeRecord u o).slot k).refs
        = (s.slot k).refs - if k = c.job.slot then 1 else 0 := by
      rw [writeRecord_busy s u o hc]
      have := refs_of_dropRef
        ((s.setRecords (s.records ++ [(s.st u).recordOf u o c]) (s.reservations - 1)).modSt u
          (StationState.recordWritten ((s.st u).outcomeOf o c) ((s.st u).closing c))) c.job.slot k
      simpa [State.slot] using this
    rw [hs, h1 k, naming_sum s u, naming_sum _ u, st_writeRecord_other, naming_split k hc,
      naming_idle k (writeRecord_current s u o), writeRecord_queue]
    by_cases e : k = c.job.slot
    · subst e; simp
    · have e' : ¬ c.job.slot = k := fun q => e q.symm
      simp [e, e']
  · rcases eq_or_other u v with rfl | rfl
    · rw [hn] at hv; cases hv
    · rw [st_writeRecord_other] at hv ⊢; exact h2 hv

theorem writeRecord_referencesSafe (s : State) (u : Station) (o : Option RecordOutcome)
    (h : ReferencesSafe s) : ReferencesSafe (s.writeRecord u o) := by
  cases hc : (s.st u).current with
  | none => rw [writeRecord_idle s u o hc]; exact h
  | some c => exact writeRecord_referencesSafe_of s u o hc h.1 (h.2 _)

end Sys2Proof.Machine
end

