-- ==== Sys2Proof/Laws/Invariants.lean ====
section
/-! SUPPORT. What each operation of a step does to the invariants of Safety: `Keeps`, closed under composition,
for the proof of an invariant to cite in place of unfolding an operation. -/

namespace Sys2Proof.Machine

/-- Each of the five invariants that holds before holds after. -/
structure Keeps (s t : State) : Prop where
  records : RecordsSafe s → RecordsSafe t
  queues : QueuesSafe s → QueuesSafe t
  references : ReferencesSafe s → ReferencesSafe t
  demand : DemandSafe s → DemandSafe t
  link : LinkSafe s → LinkSafe t

theorem Keeps.refl (s : State) : Keeps s s := ⟨id, id, id, id, id⟩

theorem Keeps.trans {s t r : State} (h : Keeps s t) (k : Keeps t r) : Keeps s r :=
  ⟨fun x => k.records (h.records x), fun x => k.queues (h.queues x),
    fun x => k.references (h.references x), fun x => k.demand (h.demand x), fun x => k.link (h.link x)⟩

/-! ### Operations that keep jobs, records and the library -/

theorem Keeps.of_kept {s t : State} (h : Kept s t) (hd : DemandSafe s → DemandSafe t)
    (hl : LinkSafe s → LinkSafe t) : Keeps s t :=
  ⟨h.recordsSafe, h.queuesSafe, h.referencesSafe, hd, hl⟩

theorem demandSafe_same {s t : State} (h : t.channel = s.channel) : DemandSafe s → DemandSafe t := by
  unfold DemandSafe; rw [h]; exact id

theorem linkSafe_same {s t : State} (h : t.link = s.link) : LinkSafe s → LinkSafe t := by
  unfold LinkSafe; rw [h]; exact id

theorem Keeps.same {s t : State} (h : Kept s t) (hc : t.channel = s.channel) (hl : t.link = s.link) :
    Keeps s t := .of_kept h (demandSafe_same hc) (linkSafe_same hl)

theorem Served.keeps {s t : State} (h : Served s t) : Keeps s t :=
  .of_kept h.kept h.demand h.linkSafe

theorem Keeps.modSt (s : State) (u : Station) {f : StationState → StationState}
    (h : Carries (s.st u) (f (s.st u))) : Keeps s (s.modSt u f) := (Served.modSt s u h).keeps

theorem Keeps.modJobs (s : State) (u : Station) {f : StationState → StationState}
    (h : Jobs (s.st u) (f (s.st u))) : Keeps s (s.modSt u f) :=
  .same (.modSt s u h) (by simp) (by simp)

theorem Keeps.setRun (s : State) (r : RunState) (m : StopMode) : Keeps s (s.setRun r m) :=
  .same (.setRun s r m) rfl rfl

theorem Keeps.judgeRun (s : State) : Keeps s s.judgeRun := by
  unfold State.judgeRun; split
  · exact .setRun _ _ _
  · exact .refl _

theorem Keeps.elapse (s : State) (n : Nat) : Keeps s (s.elapse n) :=
  .of_kept (.elapse s n) id id

/-- An expiry keeps what its act keeps. -/
theorem Keeps.expire (s : State) (t : Timer) (act : State → State) (h : ∀ b, Keeps b (act b)) :
    Keeps s (s.expire t act) := by
  unfold State.expire; split
  · exact .refl _
  · exact (Keeps.elapse _ _).trans (h _)

theorem Keeps.setInvReady (s : State) (b : Bool) : Keeps s { s with invReady := b } :=
  .same ⟨rfl, rfl, rfl, fun u => by cases u <;> exact .refl _⟩ rfl rfl

theorem Keeps.setInvFault (s : State) (b : Bool) : Keeps s { s with invFault := b } :=
  .same ⟨rfl, rfl, rfl, fun u => by cases u <;> exact .refl _⟩ rfl rfl

theorem Keeps.setResetLine (s : State) (b : Bool) : Keeps s { s with resetLine := b } :=
  .same ⟨rfl, rfl, rfl, fun u => by cases u <;> exact .refl _⟩ rfl rfl

theorem Keeps.setCommon (s : State) (c : CommonSettings) : Keeps s { s with common := c } :=
  .same ⟨rfl, rfl, rfl, fun u => by cases u <;> exact .refl _⟩ rfl rfl

theorem Keeps.setFreeIndex (s : State) (n : Nat) : Keeps s { s with freeIndex := n } :=
  .same ⟨rfl, rfl, rfl, fun u => by cases u <;> exact .refl _⟩ rfl rfl

/-! ### The record write, and a station without a current job -/

theorem writeRecord_keeps (s : State) (u : Station) (o : Option RecordOutcome) :
    Keeps s (s.writeRecord u o) :=
  ⟨writeRecord_recordsSafe s u o, writeRecord_queuesSafe s u o, writeRecord_referencesSafe s u o,
    demandSafe_same (channel_writeRecord s u o), (writeRecord_frame s u o).linkSafe⟩

/-- A record write and then any change of its station that leaves the jobs alone. -/
theorem writeRecord_modSt_keeps (s : State) (u : Station) (o : Option RecordOutcome)
    {f : StationState → StationState}
    (hf : ∀ x : StationState, (f x).current = x.current ∧ (f x).queue = x.queue) :
    Keeps s ((s.writeRecord u o).modSt u f) :=
  (writeRecord_keeps s u o).trans (.modJobs _ u
    (.idle (by simp [StationState.busy, writeRecord_current]) (hf _).1 (hf _).2))

/-- A station state without a current job has none, where each current job is in a state of a cycle. -/
theorem idle_of_mode {s : State} (h : ∀ u, (s.st u).busy = true → (s.st u).mode.cycling = true)
    {u : Station} (hm : (s.st u).mode.cycling = false) : (s.st u).busy = false := by
  cases hb : (s.st u).busy with
  | false => rfl
  | true => rw [h u hb] at hm; cases hm

/-- In a state without a current job any change that leaves the jobs alone. -/
theorem Keeps.modIdle (s : State) (u : Station) {f : StationState → StationState}
    (hm : (s.st u).mode.cycling = false)
    (hf : (f (s.st u)).current = (s.st u).current ∧ (f (s.st u)).queue = (s.st u).queue) :
    Keeps s (s.modSt u f) where
  records h := (Keeps.modJobs s u (.idle (idle_of_mode h.2.2 hm) hf.1 hf.2)).records h
  queues h v := by
    rcases eq_or_other u v with rfl | rfl
    · simpa [StationState.tags, hf] using h _
    · simpa using h _
  references h := (Keeps.modJobs s u (.idle (idle_of_mode h.2 hm) hf.1 hf.2)).references h
  demand := demandSafe_same (by simp)
  link := linkSafe_same (by simp)

/-! ### Taking the head job -/

/-- The head job has become current with a reservation of its own, the station's state yet to be set (R26). -/
def State.headTaken (u : Station) (j : JobEntry) (s : State) : State :=
  (s.modSt u (StationState.takeJob j s.time)).setRecords s.records (s.reservations + 1)

theorem st_headTaken (s : State) (u : Station) (j : JobEntry) :
    (s.headTaken u j).st u = (s.st u).takeJob j s.time ∧ (s.headTaken u j).st u.other = s.st u.other := by
  unfold State.headTaken; constructor
  · rw [st_setRecords]; simp
  · rw [st_setRecords]; simp

/-- What the start conditions give the counts: room for a record, and no current job where each has a state. -/
theorem headTaken_counts {s : State} {u : Station} {j : JobEntry} (hs : s.startConditions u j = true) :
    (s.st u).mode = .waitPart ∧ s.records.length + s.reservations < Config.recordCapacity := by
  simp only [State.startConditions, Bool.and_eq_true, beq_iff_eq, decide_eq_true_eq] at hs
  exact ⟨hs.1.1.1.1, hs.1.2⟩

theorem headTaken_recordsSafe {s : State} {u : Station} {j : JobEntry}
    (hs : s.startConditions u j = true) (h : RecordsSafe s) :
    (s.headTaken u j).reservations = (s.headTaken u j).busyCount
      ∧ (s.headTaken u j).records.length + (s.headTaken u j).reservations ≤ Config.recordCapacity := by
  obtain ⟨hm, hr⟩ := headTaken_counts hs
  have hi := idle_of_mode h.2.2 (u := u) (by rw [hm]; rfl)
  have h1 := h.1; rw [busyCount_eq s u, hi] at h1
  obtain ⟨hu, ho⟩ := st_headTaken s u j
  rw [busyCount_eq _ u, hu, ho]
  refine ⟨?_, ?_⟩
  · show s.reservations + 1 = 1 + _
    rw [h1]; simp; omega
  · show s.records.length + (s.reservations + 1) ≤ _
    omega

theorem headTaken_queuesSafe {s : State} {u : Station} {j : JobEntry} {rest : List JobEntry}
    (hq : (s.st u).queue = j :: rest) (h : QueuesSafe s) : QueuesSafe (s.headTaken u j) := fun v => by
  obtain ⟨hu, ho⟩ := st_headTaken s u j
  rcases eq_or_other u v with rfl | rfl
  · rw [hu]; have := h v; rw [hq] at this
    refine ⟨?_, ?_⟩
    · simp only [StationState.takeJob, hq, List.tail_cons]
      have := this.1; simp only [List.length_cons] at this; omega
    · have := this.2
      simp only [StationState.tags, StationState.takeJob, hq, List.tail_cons, newContext, Option.map_some,
        Option.toList_some, List.map_cons] at this ⊢
      exact (List.nodup_append.mp this).2.1
  · rw [ho]; exact h _

theorem naming_takeJob (j : JobEntry) (now : Time) (x : StationState) (k : Fin 8) :
    (x.takeJob j now).naming k
      = (x.queue.tail.filter fun i => i.slot == k).length + if j.slot = k then 1 else 0 :=
  naming_split k (c := newContext j now) rfl

theorem headTaken_referencesSafe {s : State} {u : Station} {j : JobEntry} {rest : List JobEntry}
    (hq : (s.st u).queue = j :: rest) (hs : s.startConditions u j = true) (h : ReferencesSafe s) (k : Fin 8) :
    ((s.headTaken u j).slot k).refs = (s.headTaken u j).a.naming k + (s.headTaken u j).b.naming k := by
  obtain ⟨hm, -⟩ := headTaken_counts hs
  have hi := not_busy (idle_of_mode h.2 (u := u) (by rw [hm]; rfl))
  obtain ⟨hu, ho⟩ := st_headTaken s u j
  have h1 := h.1 k; rw [naming_sum s u, naming_idle k hi, hq] at h1
  have h2 : ((s.headTaken u j).slot k).refs = (s.slot k).refs := by simp [State.headTaken, State.slot]
  rw [h2, h1, naming_sum _ u, hu, ho, naming_takeJob, hq, List.tail_cons]
  by_cases e : j.slot = k
  · subst e; simp [List.filter]
  · simp [List.filter, e, beq_eq_false_iff_ne.mpr e]

/-- The head job taken, and the station then in a state of a cycle. -/
theorem headTaken_modSt_keeps {s : State} {u : Station} {j : JobEntry} {rest : List JobEntry}
    (hq : (s.st u).queue = j :: rest) (hs : s.startConditions u j = true)
    {f : StationState → StationState} (hf : ∀ x, Carries x (f x)) (hm : ∀ x, (f x).mode.cycling = true) :
    Keeps s ((s.headTaken u j).modSt u f) := by
  have hu : ((s.headTaken u j).modSt u f).st u = f ((s.headTaken u j).st u) := by simp
  have ho : ((s.headTaken u j).modSt u f).st u.other = s.st u.other := by
    simp [(st_headTaken s u j).2]
  have hcal := Kept.modSt (s.headTaken u j) u (hf ((s.headTaken u j).st u)).toJobs
  have hc : ∀ v, ((s.st v).busy = true → (s.st v).mode.cycling = true) →
      (((s.headTaken u j).modSt u f).st v).busy = true →
      (((s.headTaken u j).modSt u f).st v).mode.cycling = true := fun v k hv => by
    rcases eq_or_other u v with rfl | rfl
    · rw [hu]; exact hm _
    · rw [ho] at hv ⊢; exact k hv
  refine ⟨fun h => ⟨?_, ?_, fun v => hc v (h.2.2 v)⟩, fun h => hcal.queuesSafe (headTaken_queuesSafe hq h),
    fun h => ⟨fun k => ?_, fun v => hc v (h.2 v)⟩, demandSafe_same (by simp [State.headTaken]),
    linkSafe_same (by simp [State.headTaken])⟩
  · rw [hcal.reservations, hcal.busyCount]; exact (headTaken_recordsSafe hs h).1
  · rw [hcal.records, hcal.reservations]; exact (headTaken_recordsSafe hs h).2
  · have ha := (hcal.carries .a).naming k; have hb := (hcal.carries .b).naming k
    simp only [st_a, st_b] at ha hb
    rw [ha, hb, ← headTaken_referencesSafe hq hs h k]; simp only [State.slot, hcal.slots]

/-- A failed recheck: the record of the job just taken. -/
theorem refuseStart_keeps {s : State} {u : Station} {j : JobEntry} {rest : List JobEntry}
    (hq : (s.st u).queue = j :: rest) (hs : s.startConditions u j = true) :
    Keeps s ((s.headTaken u j).refuseStart u j) := by
  have hcur : ((s.headTaken u j).st u).current = some (newContext j s.time) := by
    rw [(st_headTaken s u j).1]; rfl
  have ho := (st_headTaken s u j).2
  refine Keeps.trans (t := (s.headTaken u j).writeRecord u (some .refusedAtStart)) ?_ ?_
  · refine ⟨fun h => ?_, fun h => writeRecord_queuesSafe _ u _ (headTaken_queuesSafe hq h), fun h => ?_,
      demandSafe_same ?_, linkSafe_same ?_⟩
    · have := headTaken_recordsSafe hs h
      exact writeRecord_recordsSafe_of _ u _ hcur this.1 this.2 (by rw [ho]; exact h.2.2 _)
    · exact writeRecord_referencesSafe_of _ u _ hcur (headTaken_referencesSafe hq hs h)
        (by rw [ho]; exact h.2 _)
    · rw [channel_writeRecord]; simp [State.headTaken]
    · rw [(writeRecord_frame _ u _).link]; simp [State.headTaken]
  · refine .modJobs _ _ (.idle (by simp [StationState.busy, writeRecord_current]) ?_ ?_)
    · split
      · exact (enterRelease_jobs _).1
      · exact (enterIdleOrWait_jobs _).1
    · split
      · exact (enterRelease_jobs _).2
      · exact (enterIdleOrWait_jobs _).2

theorem takeHead_keeps (s : State) (u : Station) : Keeps s (s.takeHead u) := by
  unfold State.takeHead; split
  · exact .refl _
  · next j rest hq =>
    split
    · next hs =>
      show Keeps s (if travelFits ((s.headTaken u j).st u).settings ((s.headTaken u j).slot j.slot).profile.start
          ((s.headTaken u j).slot j.slot).profile.stop then (s.headTaken u j).startWalk u
        else (s.headTaken u j).refuseStart u j)
      split
      · exact (headTaken_modSt_keeps hq hs (f := StationState.enterWalk 1) (carries_enterWalk 1)
          fun x => by unfold StationState.enterWalk; rfl).trans (enterW1_served _ _).keeps
      · exact refuseStart_keeps hq hs
    · exact .refl _

theorem takeStarts_keeps (n : Nat) (s : State) : Keeps s (s.takeStarts n) := by
  induction n generalizing s with
  | zero => exact .refl _
  | succ n ih =>
    unfold State.takeStarts; split
    · split
      · exact ((Keeps.setFreeIndex s _).trans (takeHead_keeps _ _)).trans (ih _)
      · exact (takeHead_keeps _ _).trans (ih _)
    · split
      · exact (takeHead_keeps _ _).trans (ih _)
      · exact .refl _

theorem judgeStarts_keeps (s : State) : Keeps s s.judgeStarts := takeStarts_keeps _ _

/-- An event of R25: the start conditions are judged after what it does. -/
theorem Keeps.judgeStarts {s t : State} (h : Keeps s t) : Keeps s t.judgeStarts :=
  h.trans (judgeStarts_keeps t)

/-! ### The end of a walk and a fault taken -/

theorem takeWalkReport_keeps (s : State) (u : Station) (r : WalkResult) : Keeps s (s.takeWalkReport u r) := by
  by_cases h : r = .axis
  · subst h; unfold State.takeWalkReport; exact writeRecord_modSt_keeps _ _ _ fun x => enterHalted_jobs x _
  · exact (takeWalkReport_served s u h).keeps

theorem endWalk_keeps (s : State) (u : Station) (r : WalkResult) (c : FailureCause) :
    Keeps s (s.endWalk u r c) := by
  unfold State.endWalk; split
  · exact .refl _
  · exact ((Served.modSt _ _ (carries_modWalk _ _)).trans (undoWalk_served _ _ _)).keeps.trans
      (takeWalkReport_keeps _ _ _)

theorem actOnFault_axis_keeps (s : State) (u : Station) : Keeps s (s.actOnFault u .axis) := by
  unfold State.actOnFault; split
  · dsimp only
    refine (Served.trans (Served.modSt s u (f := fun x => x.modContext (Context.abort .fault))
      (carries_modContext _ fun c => abort_job _ c)) ?_).keeps
    split
    · exact (leaveHeat_served _ _).trans (.modSt _ _ (carries_enterFlood _))
    · exact quenchOut_served _ _
  · split
    · exact .modSt _ _ (carries_enterFlood _)
    · exact .refl _
  · split
    · exact .modSt _ _ (carries_enterFlood _)
    · exact .refl _
  · split
    · exact (endWalk_keeps _ _ _ _).judgeStarts
    · exact .refl _
  · split
    · exact (writeRecord_modSt_keeps _ _ _ fun x => enterHalted_jobs x _).judgeStarts
    · exact .refl _
  · exact .refl _

theorem takeFault_keeps (s : State) (u : Station) (f : FaultCode) : Keeps s (s.takeFault u f) := by
  by_cases h : f = .axis
  · subst h; unfold State.takeFault; split
    · exact (Keeps.modSt s u (f := fun x => x.modContext (Context.recordFault .axis))
        (carries_modContext _ fun c => rfl)).trans (actOnFault_axis_keeps _ _)
    · exact .refl _
  · exact (takeFault_served s u h).keeps

theorem takeHanded_keeps (s : State) (u : Station) (f : FaultCode) : Keeps s (s.takeHanded u f) := by
  unfold State.takeHanded; split
  · exact Keeps.modSt s u (carries_dropLapsed _ _)
  split
  · exact (Keeps.modSt s u (carries_unhand _ _)).trans (takeFault_keeps _ _ _)
  · exact .refl _

/-! ### Homing and arrivals -/

theorem moveArrived_keeps (s : State) (u : Station) : Keeps s (s.moveArrived u) := by
  unfold State.moveArrived; split
  · have h := Keeps.modSt s u (carries_modMotion (s.st u) fun m => { m with arrival := .reported })
    dsimp only
    generalize (s.modSt u fun x => x.modMotion fun m => { m with arrival := .reported }) = b at *
    refine h.trans ?_
    split
    · next hm => exact (Keeps.modIdle b u (by rw [hm]; rfl) (homingComplete_jobs _)).judgeStarts
    · split
      · exact (passW4_served _ _).keeps
      · exact .refl _
    · unfold State.returnArrived; split
      · exact .refl _
      · split
        · exact (startNextRepeat_served _ _).keeps
        · refine (writeRecord_modSt_keeps _ _ _ fun x => ?_).judgeStarts
          split
          · exact enterRelease_jobs x
          · exact enterIdleOrWait_jobs x
    · exact .refl _
  · exact .refl _

theorem startHome_keeps (s : State) (u : Station) : Keeps s (s.startHome u).1 := by
  unfold State.startHome; split
  · next h => exact .modIdle s u (by rw [h]; rfl) (enterHoming_jobs _)
  · next h => exact .modIdle s u (by rw [h]; rfl) (enterHoming_jobs _)
  · exact .refl _

theorem axisRaised_keeps (s : State) (u : Station) : Keeps s (s.axisRaised u) := by
  unfold State.axisRaised; dsimp only
  refine (Keeps.modSt s u (f := StationState.setAxisLine true) (carries_modLines _ _)).trans ?_
  split
  · exact .refl _
  · exact .modSt _ _ (carries_homingFailed _)
  · exact takeFault_keeps _ _ _
  · exact .modSt _ _ (carries_hand _ _)
  · exact .modSt _ _ (carries_hand _ _)

/-! ### Slots of the library -/

/-- A slot changes and keeps its reference count. -/
theorem setSlot_keeps (s : State) (k : Fin 8) (x : Slot) (h : x.refs = (s.slot k).refs) :
    Keeps s (s.setSlot k x) where
  records j := ⟨j.1, j.2.1, fun u => by rw [st_setSlot]; exact j.2.2 u⟩
  queues j u := by rw [st_setSlot]; exact j u
  references j := by
    refine ⟨fun i => ?_, fun u => by rw [st_setSlot]; exact j.2 u⟩
    rw [slot_setSlot]; split
    · next e => subst e; rw [h]; exact j.1 _
    · exact j.1 _
  demand := demandSafe_same rfl
  link := linkSafe_same rfl

theorem openSlot_keeps (n : Nat) (h : Header) (s : State) : Keeps s (openSlot n h s).1 := by
  unfold openSlot; split
  · exact .refl _
  · split
    · exact .refl _
    · split
      · exact .refl _
      · next hr =>
        split
        · exact .refl _
        · refine setSlot_keeps _ _ _ ?_
          simp only [show ∀ h es, (Slot.building h es).refs = 0 from fun _ _ => rfl]; omega

theorem putSegment_keeps (n i : Nat) (g : RawSegment) (s : State) : Keeps s (putSegment n i g s).1 := by
  unfold putSegment; split
  · exact .refl _
  · split
    · next hs =>
      split
      · exact .refl _
      · split
        · exact .refl _
        · exact setSlot_keeps _ _ _ (by rw [hs]; rfl)
    · exact .refl _

theorem closeSlot_keeps (n : Nat) (s : State) : Keeps s (closeSlot n s).1 := by
  unfold closeSlot; split
  · exact .refl _
  · split
    · next hs =>
      split
      · exact .refl _
      · exact setSlot_keeps _ _ _ (by rw [hs]; rfl)
    · exact .refl _

theorem dropSlot_keeps (n : Nat) (s : State) : Keeps s (dropSlot n s).1 := by
  unfold dropSlot; split
  · exact .refl _
  · split
    · exact .refl _
    · next hs => exact setSlot_keeps _ _ _ (by rw [hs]; rfl)
    · next hs =>
      split
      · exact .refl _
      · exact setSlot_keeps _ _ _ (by rw [hs]; simp only [Slot.refs]; omega)

/-! ### The record list and run control -/

theorem takeRecord_keeps (s : State) : Keeps s (State.takeRecord s).1 := by
  unfold State.takeRecord; split
  · exact .refl _
  · next r rest hr =>
    refine Keeps.judgeStarts (t := s.setRecords rest s.reservations) ⟨fun j => ⟨j.1, ?_, fun u => by
      rw [st_setRecords]; exact j.2.2 u⟩, fun j u => by rw [st_setRecords]; exact j u,
      fun j => ⟨fun i => j.1 i, fun u => by rw [st_setRecords]; exact j.2 u⟩, demandSafe_same rfl,
      linkSafe_same rfl⟩
    have := j.2.1; rw [hr] at this; simp at this ⊢; omega

theorem stopNormal_keeps (s : State) : Keeps s (State.stopNormal s).1 := by
  unfold State.stopNormal; split
  · have c : ∀ x : StationState, Carries x x.markNormalStop := fun x =>
      carries_modContext _ fun c => by split <;> rfl
    exact ((((Keeps.setRun _ _ _).trans (.modSt _ _ (c _))).trans (.modSt _ _ (c _))).trans (.judgeRun _))
  · exact .refl _

theorem handStop_keeps (u : Station) (s : State) : Keeps s (State.handStop u s) := by
  have m : Keeps s (s.modSt u fun x => x.modContext Context.markStop) :=
    .modSt s u (carries_modContext _ fun c => rfl)
  unfold State.handStop; split
  · exact .refl _
  · split
    · exact endWalk_keeps _ _ _ _
    · exact (abortByHost_served _ _ _ _).keeps
    · split
      · exact m
      · exact .refl _
    · split
      · exact m
      · exact .refl _
    · exact .refl _

/-- One thing done to both stations, in either order. -/
theorem bothStations_keeps (s : State) (act : Station → State → State)
    (h : ∀ u b, Keeps b (act u b)) : Keeps s (s.bothStations act) := by
  unfold State.bothStations; split
  · exact ((Keeps.setFreeIndex _ _).trans (h _ _)).trans (h _ _)
  · exact (h _ _).trans (h _ _)

theorem stopAbrupt_keeps (s : State) : Keeps s (State.stopAbrupt s).1 := by
  unfold State.stopAbrupt; split
  · exact .refl _
  · exact ((Keeps.setRun _ _ _).trans (bothStations_keeps _ _ handStop_keeps)).trans (.judgeRun _)

theorem resumeRun_keeps (s : State) : Keeps s (State.resumeRun s).1 := by
  unfold State.resumeRun; split
  · exact .refl _
  · exact (Keeps.setRun _ _ _).judgeStarts

/-! ### JOB -/

theorem nodup_push {l a : List Nat} {t : Nat} (h : (a ++ l).Nodup) (ha : t ∉ a) (hl : t ∉ l) :
    (a ++ (l ++ [t])).Nodup := by
  rw [← List.append_assoc, List.nodup_append]
  refine ⟨h, by simp, fun x hx y hy => ?_⟩
  simp only [List.mem_singleton] at hy; subst hy; rintro rfl; simp at hx; tauto

theorem refs_of_addRef (s : State) (k : Fin 8) {h : Header} {es : List (Nat × Segment)} {n : Nat}
    (hs : s.slot k = .ready h es n) (i : Fin 8) :
    ((s.addRef k).slot i).refs = (s.slot i).refs + if i = k then 1 else 0 := by
  unfold State.addRef; rw [slot_setSlot]; split
  · next e => subst e; rw [hs]; rfl
  · rfl

theorem enqueueJob_cycling (e : JobEntry) {x : StationState} (h : x.mode.cycling = true) :
    (x.enqueueJob e).mode.cycling = true := by
  have : x.mode ≠ .idle := by rintro q; rw [q] at h; cases h
  simp only [StationState.enqueueJob, if_neg this]; exact h

theorem naming_enqueueJob (e : JobEntry) (x : StationState) (i : Fin 8) :
    (x.enqueueJob e).naming i = x.naming i + if i = e.slot then 1 else 0 := by
  simp only [StationState.naming, StationState.enqueueJob, List.filter_append, List.length_append]
  by_cases q : i = e.slot
  · subst q; simp [List.filter]; omega
  · have : ¬ e.slot = i := fun z => q z.symm
    simp [List.filter, q, beq_eq_false_iff_ne.mpr this]

/-- An entry with a free tag joins a queue with room, and its READY slot gains a reference (R153). -/
theorem enqueueJob_keeps (s : State) (u : Station) (e : JobEntry) {h : Header}
    {es : List (Nat × Segment)} {n : Nat} (hs : s.slot e.slot = .ready h es n)
    (hq : (s.st u).queue.length < Config.queueDepth) (ht : (s.st u).tagFree e.tag = true) :
    Keeps s ((s.modSt u (StationState.enqueueJob e)).addRef e.slot) := by
  simp only [StationState.tagFree, Bool.and_eq_true, List.all_eq_true] at ht
  have hu : ((s.modSt u (StationState.enqueueJob e)).addRef e.slot).st u = (s.st u).enqueueJob e := by simp
  have ho : ((s.modSt u (StationState.enqueueJob e)).addRef e.slot).st u.other = s.st u.other := by simp
  have hr : ((s.modSt u (StationState.enqueueJob e)).addRef e.slot).reservations = s.reservations
      ∧ ((s.modSt u (StationState.enqueueJob e)).addRef e.slot).records = s.records
      ∧ ((s.modSt u (StationState.enqueueJob e)).addRef e.slot).channel = s.channel
      ∧ ((s.modSt u (StationState.enqueueJob e)).addRef e.slot).link = s.link := by
    cases u <;> exact ⟨rfl, rfl, rfl, rfl⟩
  have hi := fun i => refs_of_addRef (s.modSt u (StationState.enqueueJob e)) e.slot (h := h) (es := es)
    (n := n) (by simpa [State.slot] using hs) i
  generalize (s.modSt u (StationState.enqueueJob e)).addRef e.slot = t at *
  have hb : (t.st u).busy = (s.st u).busy := by rw [hu]; rfl
  have hc : ∀ v, ((s.st v).busy = true → (s.st v).mode.cycling = true) →
      (t.st v).busy = true → (t.st v).mode.cycling = true := fun v j hv => by
    rcases eq_or_other u v with rfl | rfl
    · rw [hb] at hv; rw [hu]; exact enqueueJob_cycling e (j hv)
    · rw [ho] at hv ⊢; exact j hv
  refine ⟨fun j => ⟨?_, by rw [hr.1, hr.2.1]; exact j.2.1, fun v => hc v (j.2.2 v)⟩, fun j v => ?_,
    fun j => ⟨fun i => ?_, fun v => hc v (j.2 v)⟩, demandSafe_same hr.2.2.1, linkSafe_same hr.2.2.2⟩
  · rw [busyCount_eq _ u, hb, ho, ← busyCount_eq s u, hr.1]; exact j.1
  · rcases eq_or_other u v with rfl | rfl
    · rw [hu]; refine ⟨?_, ?_⟩
      · simp only [StationState.enqueueJob, Config.queueDepth, List.length_append, List.length_cons,
          List.length_nil] at hq ⊢; omega
      · have := (j v).2
        simp only [StationState.tags, StationState.enqueueJob, List.map_append, List.map_cons, List.map_nil]
        refine nodup_push this ?_ ?_
        · cases hx : (s.st v).current with
          | none => simp
          | some c =>
            have := ht.2; rw [hx] at this
            simp at this; simp; exact fun x => this x.symm
        · simp; intro x hx hx2; have := ht.1 x hx; simp at this; exact this hx2
    · rw [ho]; exact j _
  · have h1 := j.1 i; rw [naming_sum _ u] at h1
    have h2 : ((s.modSt u (StationState.enqueueJob e)).slot i).refs = (s.slot i).refs := by
      simp [State.slot]
    rw [hi, naming_sum _ u, hu, ho, h2, h1, naming_enqueueJob]; omega

theorem placeJob_keeps (s : State) (u : Station) (e : JobEntry) : Keeps s (s.placeJob u e).1 := by
  unfold State.placeJob; split
  · next hs =>
    split
    · exact .refl _
    · split
      · exact .refl _
      · next hq =>
        split
        · exact .refl _
        · next ht => exact (enqueueJob_keeps s u e hs (by omega) (by simpa using ht)).judgeStarts
  · exact .refl _

theorem submitJob_keeps (s : State) (u : Station) (r : RawJob) : Keeps s (s.submitJob u r).1 := by
  unfold State.submitJob; split
  · exact .refl _
  · split
    · exact placeJob_keeps _ _ _
    · exact .refl _

/-! ### CANCEL -/

/-- One pending entry leaves the queue, with its reference (R155). -/
theorem dropPending_keeps (s : State) (u : Station) (q : List JobEntry) (e : JobEntry) (x : StationState)
    (hq : ∀ k, ((s.st u).queue.filter fun i => i.slot == k).length
      = (q.filter fun i => i.slot == k).length + if k = e.slot then 1 else 0)
    (hs : q.Sublist (s.st u).queue) (hx : x.queue = q) (hc : x.current = (s.st u).current)
    (hm : (s.st u).mode.cycling = true → x.mode = (s.st u).mode) :
    Keeps s ((s.setSt u x).dropRef e.slot) := by
  have hu : ((s.setSt u x).dropRef e.slot).st u = x := by simp
  have ho : ((s.setSt u x).dropRef e.slot).st u.other = s.st u.other := by simp
  have hr : ((s.setSt u x).dropRef e.slot).reservations = s.reservations
      ∧ ((s.setSt u x).dropRef e.slot).records = s.records
      ∧ ((s.setSt u x).dropRef e.slot).channel = s.channel
      ∧ ((s.setSt u x).dropRef e.slot).link = s.link := by
    cases u <;> exact ⟨rfl, rfl, rfl, rfl⟩
  have hi := fun i => refs_of_dropRef (s.setSt u x) e.slot i
  generalize (s.setSt u x).dropRef e.slot = t at *
  have hb : (t.st u).busy = (s.st u).busy := by rw [hu]; simp [StationState.busy, hc]
  have hcy : ∀ v, ((s.st v).busy = true → (s.st v).mode.cycling = true) →
      (t.st v).busy = true → (t.st v).mode.cycling = true := fun v j hv => by
    rcases eq_or_other u v with rfl | rfl
    · rw [hb] at hv; rw [hu, hm (j hv)]; exact j hv
    · rw [ho] at hv ⊢; exact j hv
  refine ⟨fun j => ⟨?_, by rw [hr.1, hr.2.1]; exact j.2.1, fun v => hcy v (j.2.2 v)⟩, fun j v => ?_,
    fun j => ⟨fun i => ?_, fun v => hcy v (j.2 v)⟩, demandSafe_same hr.2.2.1, linkSafe_same hr.2.2.2⟩
  · rw [busyCount_eq _ u, hb, ho, ← busyCount_eq s u, hr.1]; exact j.1
  · rcases eq_or_other u v with rfl | rfl
    · rw [hu]; refine ⟨by rw [hx]; exact le_trans hs.length_le (j v).1, ?_⟩
      have := (j v).2
      unfold StationState.tags at *; rw [hx, hc]
      exact this.sublist ((List.Sublist.refl _).append (hs.map _))
    · rw [ho]; exact j _
  · have h2 : ((s.setSt u x).slot i).refs = (s.slot i).refs := by simp [State.slot]
    have h1 := j.1 i; rw [naming_sum _ u] at h1
    have h3 : (s.st u).naming i = x.naming i + if i = e.slot then 1 else 0 := by
      unfold StationState.naming; rw [hx, hc, hq i]; omega
    rw [hi, h2, h1, naming_sum _ u, hu, ho]; omega

/-- The first entry of a tag splits its queue, and leaves it at its removal. -/
theorem erase_split {l : List JobEntry} {tag : Nat} {e : JobEntry}
    (h : l.find? (fun j => j.tag == tag) = some e) :
    ∃ a b, l = a ++ e :: b ∧ l.eraseP (fun j => j.tag == tag) = a ++ b := by
  induction l with
  | nil => cases h
  | cons x xs ih =>
    by_cases q : (x.tag == tag) = true
    · rw [List.find?_cons, q] at h; cases h
      exact ⟨[], xs, rfl, by simp [List.eraseP, q]⟩
    · rw [List.find?_cons, show (x.tag == tag) = false by simpa using q] at h
      obtain ⟨a, b, h1, h2⟩ := ih h
      exact ⟨x :: a, b, by rw [h1]; rfl, by simp [List.eraseP, q, h2]⟩

theorem cancelCurrent_keeps (s : State) (u : Station) (c : Context) : Keeps s (s.cancelCurrent u c).1 := by
  unfold State.cancelCurrent; split
  · exact endWalk_keeps _ _ _ _
  · exact (abortByHost_served _ _ _ _).keeps
  · exact .refl _
  · exact .refl _
  · split
    · exact .modSt s u (carries_modContext (f := Context.markCancel) _ fun c => rfl)
    · exact .refl _

theorem removeJob_keeps (s : State) (u : Station) (tag : Nat) {e : JobEntry}
    (h : (s.st u).queue.find? (fun j => j.tag == tag) = some e) :
    Keeps s ((s.modSt u (StationState.removeJob tag)).dropRef e.slot) := by
  obtain ⟨a, b, h1, h2⟩ := erase_split h
  have hq : (StationState.removeJob tag (s.st u)).queue = a ++ b
      ∧ (StationState.removeJob tag (s.st u)).current = (s.st u).current := by
    unfold StationState.removeJob; dsimp only; split
    · exact ⟨(enterIdleOrWait_jobs _).2.trans h2, (enterIdleOrWait_jobs _).1⟩
    · exact ⟨h2, rfl⟩
  refine dropPending_keeps s u (a ++ b) e _ (fun k => ?_) ?_ hq.1 hq.2 fun hm => ?_
  · rw [h1]; by_cases q : k = e.slot
    · subst q; simp [List.filter_append, List.filter]; omega
    · have : ¬ e.slot = k := fun z => q z.symm
      simp [List.filter_append, List.filter, q, beq_eq_false_iff_ne.mpr this]
  · rw [h1]; exact (List.Sublist.refl a).append (List.sublist_cons_self _ _)
  · unfold StationState.removeJob; dsimp only; split
    · next hw => rw [hw.1] at hm; cases hm
    · rfl

theorem cancelJob_keeps (s : State) (u : Station) (tag : Nat) : Keeps s (s.cancelJob u tag).1 := by
  unfold State.cancelJob; dsimp only; split
  · exact .refl _
  · split
    · exact cancelCurrent_keeps _ _ _
    · split
      · next h => exact (removeJob_keeps s u tag h).judgeStarts
      · split <;> exact .refl _

/-! ### A queue cleared, and the station reset -/

/-- The references of a whole queue dropped. -/
theorem dropAll (s : State) (l : List JobEntry) :
    (∀ k, ((l.foldl (fun s j => s.dropRef j.slot) s).slot k).refs
        = (s.slot k).refs - (l.filter fun j => j.slot == k).length)
      ∧ (∀ u, (l.foldl (fun s j => s.dropRef j.slot) s).st u = s.st u)
      ∧ (l.foldl (fun s j => s.dropRef j.slot) s).records = s.records
      ∧ (l.foldl (fun s j => s.dropRef j.slot) s).reservations = s.reservations
      ∧ (l.foldl (fun s j => s.dropRef j.slot) s).channel = s.channel
      ∧ (l.foldl (fun s j => s.dropRef j.slot) s).link = s.link := by
  induction l generalizing s with
  | nil => simp
  | cons x xs ih =>
    obtain ⟨h1, h2, h3, h4, h5, h6⟩ := ih (s.dropRef x.slot)
    refine ⟨fun k => ?_, fun u => ?_, h3, h4, h5, h6⟩
    · rw [List.foldl_cons, h1 k, refs_of_dropRef]
      by_cases e : k = x.slot
      · subst e; simp [List.filter]; omega
      · have : ¬ x.slot = k := fun z => e z.symm
        simp [List.filter, e, beq_eq_false_iff_ne.mpr this]
    · rw [List.foldl_cons, h2]; simp

/-- What clearing a queue leaves of each station. -/
theorem st_clearQueue (s : State) (u v : Station) :
    (s.clearQueue u).st v = if v = u then { s.st v with queue := [] } else s.st v := by
  obtain ⟨-, h2, -⟩ := dropAll s (s.st u).queue
  unfold State.clearQueue; rw [st_modSt, h2]

theorem clearQueue_keeps (s : State) (u : Station) : Keeps s (s.clearQueue u) := by
  obtain ⟨h1, -, h3, h4, h5, h6⟩ := dropAll s (s.st u).queue
  have hu : (s.clearQueue u).st u = { s.st u with queue := [] } := by rw [st_clearQueue, if_pos rfl]
  have ho : (s.clearQueue u).st u.other = s.st u.other := by
    rw [st_clearQueue, if_neg (by cases u <;> decide)]
  have hi : ∀ i, ((s.clearQueue u).slot i).refs
      = (s.slot i).refs - ((s.st u).queue.filter fun j => j.slot == i).length := fun i => by
    rw [← h1 i]; unfold State.clearQueue; simp [State.slot]
  have hr : (s.clearQueue u).records = s.records ∧ (s.clearQueue u).reservations = s.reservations
      ∧ (s.clearQueue u).channel = s.channel ∧ (s.clearQueue u).link = s.link := by
    unfold State.clearQueue; simp [h3, h4, h5, h6]
  generalize s.clearQueue u = t at *
  have hc : ∀ v, ((s.st v).busy = true → (s.st v).mode.cycling = true) →
      (t.st v).busy = true → (t.st v).mode.cycling = true := fun v j hv => by
    rcases eq_or_other u v with rfl | rfl
    · rw [hu] at hv ⊢; exact j hv
    · rw [ho] at hv ⊢; exact j hv
  refine ⟨fun j => ⟨?_, by rw [hr.1, hr.2.1]; exact j.2.1, fun v => hc v (j.2.2 v)⟩, fun j v => ?_,
    fun j => ⟨fun i => ?_, fun v => hc v (j.2 v)⟩, demandSafe_same hr.2.2.1, linkSafe_same hr.2.2.2⟩
  · rw [busyCount_eq _ u, hu, ho, hr.2.1, j.1, busyCount_eq s u]; rfl
  · rcases eq_or_other u v with rfl | rfl
    · rw [hu]; refine ⟨by simp, ?_⟩
      have := (j v).2; unfold StationState.tags at *; simp
      exact (List.nodup_append.mp this).1
    · rw [ho]; exact j _
  · rw [hi, j.1, naming_sum _ u, naming_sum _ u, hu, ho]
    unfold StationState.naming; simp; omega

theorem resetStation_keeps (s : State) (u : Station) : Keeps s (s.resetStation u).1 := by
  unfold State.resetStation; split
  · next h =>
    refine (clearQueue_keeps s u).trans (.modIdle _ u ?_ ⟨rfl, rfl⟩)
    rw [st_clearQueue, if_pos rfl]
    revert h; cases (s.st u).mode <;> simp [Mode.takesSettings, Mode.cycling]
  · exact .refl _

/-! ### Input lines -/

theorem lineChanged_keeps (s : State) (u : Station) (k : LoaderLine) (a : Bool) :
    Keeps s (s.lineChanged u k a) := by
  unfold State.lineChanged; split
  · exact (judgeW1_served _ _).keeps
  · exact (judgeW1_served _ _).keeps
  · exact .modJobs _ _ (jobs_presentGone _)
  · exact .refl _
  · exact .modJobs _ _ (jobs_holdChanged _ _)

theorem qualify_keeps (s : State) (u : Station) (k : LoaderLine) : Keeps s (s.qualify u k) := by
  have h := Keeps.modJobs s u (jobs_modLines (s.st u)
    (Lines.setQual k ⟨((s.st u).lines.qual k).sampled, ((s.st u).lines.qual k).sampled, none⟩))
  unfold State.qualify; dsimp only; split
  · exact h
  · exact h.trans (lineChanged_keeps _ _ _ _)

theorem sampleLine_keeps (s : State) (u : Station) (k : LoaderLine) (a : Bool) :
    Keeps s (s.sampleLine u k a) := by
  have h : Keeps s (s.modSt u fun x =>
      x.modLines (Lines.setQual k ⟨a, ((s.st u).lines.qual k).qualified, x.settings.qualTime⟩)) :=
    .modJobs s u (jobs_modLines _ _)
  unfold State.sampleLine; dsimp only; split
  · exact .refl _
  · split
    · exact .modJobs _ _ (jobs_modLines _ _)
    · split
      · exact h.trans (qualify_keeps _ _ _)
      · exact h

theorem Keeps.judgeLine {s t : State} (h : Keeps s t) (u : Station) (k : LoaderLine) (b : Bool) :
    Keeps s (t.judgeLine u k b) := by
  unfold State.judgeLine; split
  · exact h
  · exact h.judgeStarts

theorem takeSample_keeps (s : State) (u : Station) (k : LoaderLine) (a : Bool) :
    Keeps s (s.takeSample u k a) := (sampleLine_keeps s u k a).judgeLine _ _ _

theorem takeQualified_keeps (s : State) (u : Station) (k : LoaderLine) : Keeps s (s.takeQualified u k) :=
  (qualify_keeps s u k).judgeLine _ _ _

theorem requalify_keeps (s : State) (u : Station) (k : LoaderLine) : Keeps s (s.requalify u k) := by
  have h : Keeps s (s.modSt u fun x =>
      x.modLines (Lines.setQual k { (s.st u).lines.qual k with timer := x.settings.qualTime })) :=
    .modJobs s u (jobs_modLines _ _)
  unfold State.requalify; dsimp only; split
  · exact .modJobs _ _ (jobs_modLines _ _)
  · split
    · exact h.trans (qualify_keeps _ _ _)
    · exact h

theorem channelFault_keeps (s : State) : Keeps s s.channelFault := by
  have leave : Served s (s.setChannel (s.channel.leaveHeld .faulted)) :=
    .setChannel s fun _ => demandOk_leaveHeld _ _
  unfold State.channelFault; split
  · next h =>
    exact (Served.setChannel s (c := { s.channel with state := .faulted }) fun hd =>
      demandOk_idle hd (by simp [Channel.holderInHeat, h]) rfl).keeps
  · exact .refl _
  · exact (leave.trans (.modSt _ _ (carries_hand _ _))).keeps
  · dsimp only; split
    · exact leave.keeps.trans (endWalk_keeps _ _ _ _)
    · exact leave.keeps
  · exact .refl _

theorem invReadyOn_keeps (s : State) : Keeps s s.invReadyOn :=
  ((Keeps.setInvReady _ _).trans (passW8_served _ _).keeps).trans (passW8_served _ _).keeps

theorem invReadyOff_keeps (s : State) : Keeps s s.invReadyOff := by
  unfold State.invReadyOff; dsimp only; split
  · exact (Keeps.setInvReady _ _).trans (.modSt _ _ (carries_hand _ _))
  · exact .setInvReady _ _

theorem invFaultOn_keeps (s : State) : Keeps s s.invFaultOn :=
  (Keeps.setInvFault _ _).trans (channelFault_keeps _)

theorem invFaultOff_keeps (s : State) : Keeps s s.invFaultOff := by
  unfold State.invFaultOff; dsimp only; split
  · next h =>
    refine (Keeps.setInvFault s false).trans
      (Served.trans (Served.setChannel _ fun hd => ?_) (grant_served _)).keeps
    exact demandOk_idle hd (by simp [Channel.holderInHeat, h]) rfl
  · exact .setInvFault _ _

theorem coilFlowOn_keeps (s : State) (u : Station) : Keeps s (s.coilFlowOn u) := by
  have h : Keeps s (s.modSt u fun x => x.modLines fun l => { l with coilFlow := true }) :=
    .modSt s u (carries_modLines _ _)
  unfold State.coilFlowOn; dsimp only; split
  · exact h.trans (passW2_served _ _).keeps
  · exact h

theorem coilFlowOff_keeps (s : State) (u : Station) : Keeps s (s.coilFlowOff u) := by
  have h : Keeps s (s.modSt u fun x => x.modLines fun l => { l with coilFlow := false }) :=
    .modSt s u (carries_modLines _ _)
  unfold State.coilFlowOff; dsimp only; split
  · exact h.trans (.modSt _ _ (carries_hand _ _))
  · exact h

/-! ### Settings -/

theorem Keeps.ite {s t r : State} {p : Prop} [Decidable p] (ht : Keeps s t) (hr : Keeps s r) :
    Keeps s (if p then t else r) := by
  split
  · exact ht
  · exact hr

theorem setCommon_keeps (s : State) (p : List (Nat × Nat)) : Keeps s (s.setCommon p).1 := by
  unfold State.setCommon; dsimp only; split
  · exact .refl _
  · split
    · exact .refl _
    · split
      · exact .refl _
      · split
        · exact .refl _
        · unfold State.applyCommon; dsimp only
          refine Keeps.trans ?_ (.ite (.refl _) (.ite (invFaultOff_keeps _) (invFaultOn_keeps _)))
          refine Keeps.trans ?_ (.ite (.refl _) (.ite (invReadyOff_keeps _) (invReadyOn_keeps _)))
          exact (Keeps.setCommon s (s.common.putAll p)).trans (.ite (.refl _) (.setResetLine _ _))

theorem invertLine_keeps (s : State) (c : Bool) (u : Station) (k : LoaderLine) :
    Keeps s (s.invertLine c u k) := by
  unfold State.invertLine; split
  · exact takeSample_keeps _ _ _ _
  · exact .refl _

theorem setStation_keeps (s : State) (u : Station) (p : List (Nat × Nat)) :
    Keeps s (s.setStation u p).1 := by
  unfold State.setStation; dsimp only; split
  · exact .refl _
  · split
    · exact .refl _
    · split
      · unfold State.applyStation; dsimp only
        exact (((Keeps.modSt s u (f := fun x =>
          StationState.invertInputs (s.st u).settings ((s.st u).settings.putAll p)
            { x with settings := (s.st u).settings.putAll p }) (.of_eq rfl rfl rfl)).trans
          (invertLine_keeps _ _ _ _)).trans (invertLine_keeps _ _ _ _)).trans (invertLine_keeps _ _ _ _)
      · exact .refl _

/-! ### Readings -/

theorem readPower_keeps (s : State) (p : Nat) : Keeps s (s.readPower p) := by
  have h1 : Served s (s.setChannel { s.channel with measured := p }) :=
    .setChannel s fun h => demandOk_same h rfl rfl
  unfold State.readPower; dsimp only; split
  · exact h1.keeps
  · next u _ =>
    generalize s.setChannel { s.channel with measured := p } = b at *
    have h2 : Served b (b.modSt u fun x => x.modTrail (Trail.credit p)) := .modSt b u (carries_modTrail _ _)
    generalize (b.modSt u fun x => x.modTrail (Trail.credit p)) = c at *
    have h3 : Served c (c.setChannel (c.channel.judgeResponse c.common.responseLimit p)) :=
      .setChannel c fun h => demandOk_judgeResponse _ _ h
    split
    · exact (((h1.trans h2).trans h3).trans (.modSt _ _ (carries_modTrail _ _))).keeps
    · exact ((h1.trans h2).trans h3).keeps

theorem readTank_keeps (s : State) (r : Int) : Keeps s (s.readTank r) := by
  have h : ∀ k : Tank, Keeps s { s with tank := k } := fun k =>
    .same ⟨rfl, rfl, rfl, fun u => by cases u <;> exact .refl _⟩ rfl rfl
  unfold State.readTank; dsimp only; split
  · exact ((h _).trans (.modSt _ .a (carries_tankChanged _))).trans (.modSt _ .b (carries_tankChanged _))
  · exact h _

/-! ### The link -/

/-- The buffer and the transaction as R180 has them. -/
def Link.Safe (l : Link) : Prop :=
  l.buffer.length ≤ Config.bufferCapacity ∧ (l.transaction = .none → l.buffer = [])

theorem linkSafe_iff (s : State) : LinkSafe s ↔ s.link.Safe := Iff.rfl

/-- A change of the link alone. -/
theorem Keeps.setLink (s : State) {l : Link} (h : s.link.Safe → l.Safe) : Keeps s (s.setLink l) :=
  .of_kept (.setLink s l) (demandSafe_same rfl) h

theorem Link.takeNext_safe {l : Link} (h : l.buffer.length ≤ Config.bufferCapacity) : l.takeNext.Safe := by
  unfold Link.takeNext; split
  · next hb => refine ⟨?_, fun q => by cases q⟩; rw [hb] at h; simp at h ⊢; omega
  · next hn =>
    refine ⟨h, fun q => ?_⟩
    cases hb : l.buffer with
    | nil => rfl
    | cons e rest => exact absurd hb (hn e rest q)

theorem Link.place_safe (e : Entry) {l : Link} (h : l.Safe) : (l.place e).Safe := by
  unfold Link.place; split
  · next hl =>
    apply takeNext_safe
    simp only [List.length_append, List.length_cons, List.length_nil]; omega
  · exact h

theorem Link.endGap_safe {l : Link} (h : l.Safe) : l.endGap.Safe := by
  unfold Link.endGap; split <;> exact h

theorem Link.receiveByte_safe (b : Byte) (bad : Bool) {l : Link} (h : l.Safe) : (l.receiveByte b bad).Safe := by
  unfold Link.receiveByte; split
  · split <;> exact h
  · split
    · exact h
    · unfold Link.headerByte; split
      · exact h
      · split
        · exact h
        · split <;> exact h
  · split
    · exact h
    · unfold Link.payloadByte; split <;> exact h
  · split <;> exact h
  · split
    · exact h
    · unfold Link.judgeFrame; split
      · exact place_safe _ h
      · exact h
  · exact h

theorem Link.takeByte_safe (b : Byte) (bad : Bool) {l : Link} (h : l.Safe) : (l.takeByte b bad).Safe :=
  receiveByte_safe b bad (endGap_safe h)

theorem Link.lastByte_safe (b : Byte) {l : Link} (h : l.Safe) : (l.lastByte b).Safe := by
  unfold Link.lastByte; split
  · exact takeByte_safe _ _ h
  · exact h

theorem Link.idleDue_safe {l : Link} (h : l.Safe) : l.idleDue.Safe := by
  unfold Link.idleDue; split
  · exact place_safe _ h
  · exact h

/-- A request served keeps what its block keeps. -/
theorem serve_keeps (s : State) (row : RequestRow) (act : Entry → State → State × Answer)
    (h : ∀ e, Keeps s (act e s).1) : Keeps s (s.serve row act) := by
  have r : ∀ (e : Entry) (b : Bool) (q : State × Answer), s.link.transaction = .taken e → Keeps s q.1 →
      Keeps s (State.reply e b q) := fun e b q ht hq =>
    hq.trans (.setLink _ fun hl => ⟨hl.1, fun x => by cases x⟩)
  unfold State.serve; split
  · next ht =>
    split
    · split
      · exact r _ _ _ ht (h _)
      · exact r _ _ (s, _) ht (.refl _)
    · exact .refl _
  · exact .refl _

theorem serveStation_keeps (s : State) (row : RequestRow) (act : Station → Entry → State → State × Answer)
    (h : ∀ u e, Keeps s (act u e s).1) : Keeps s (s.serveStation row act) :=
  serve_keeps s row _ fun e => by
    split
    · exact h _ _
    · exact .refl _

/-! ### Resets -/

theorem carries_warmBlocks (now : Time) (x : StationState) : Carries x (x.warmBlocks now) := by
  have q : ∀ b (y : StationState), Carries y (y.warmQuench b) := fun b y => by
    unfold StationState.warmQuench; dsimp only; split
    · exact (carries_modQuench _ _).trans (carries_startFlood _ _)
    · exact carries_modQuench _ _
  have w : Carries (x.modWalk Walk.interrupt) ((x.modWalk Walk.interrupt).warmTally now).1 := by
    unfold StationState.warmTally; dsimp only; split <;> exact .of_eq rfl rfl rfl
  exact (((carries_modWalk x _).trans w).trans (q _ _)).trans (carries_modMotion _ _)

theorem warmIdle_jobs (x : StationState) :
    x.warmIdle.current = x.current ∧ x.warmIdle.queue = x.queue := by
  unfold StationState.warmIdle; dsimp only; split
  · exact homingFailed_jobs x
  · exact ⟨rfl, rfl⟩
  · exact ⟨rfl, rfl⟩

theorem warmSequencer_keeps (u : Station) (s : State) : Keeps s (s.warmSequencer u) := by
  unfold State.warmSequencer; split
  · dsimp only
    have h : Keeps s (if (s.st u).mode = .heat then s.modSt u (StationState.stopHeat s.time) else s) :=
      .ite (.modSt s u (carries_stopHeat _ _)) (.refl _)
    exact h.trans (writeRecord_modSt_keeps _ _ _ fun x => enterHalted_jobs x _)
  · next h =>
    exact .modJobs s u (.idle (by simpa using h) (warmIdle_jobs _).1 (warmIdle_jobs _).2)

theorem jobs_handshakeAgain (x : StationState) :
    Jobs x (let y := x.setHandshake .idle none
      if y.mode = .release then y.beginHandshake else y) := by
  dsimp only; split
  · next h =>
    have k := beginHandshake_jobs (x.setHandshake .idle none)
    refine ⟨by rw [k.1]; rfl, k.2, fun _ hc => ?_⟩
    exact absurd h (not_release hc)
  · exact .of_eq rfl rfl rfl

theorem warmLines_keeps (s : State) (u : Station) : Keeps s (s.warmLines u) :=
  (((Keeps.modJobs s u (jobs_handshakeAgain _)).trans (requalify_keeps _ _ _)).trans
    (requalify_keeps _ _ _)).trans (requalify_keeps _ _ _)

theorem warmReset_keeps (s : State) : Keeps s s.warmReset := by
  unfold State.warmReset; dsimp only
  refine Keeps.trans ?_ (.ite (channelFault_keeps _) (.refl _))
  refine Keeps.trans (Keeps.trans ?_ (warmLines_keeps _ .a)) (warmLines_keeps _ .b)
  refine Keeps.trans (Keeps.trans (Keeps.trans ?_ (clearQueue_keeps _ .a)) (clearQueue_keeps _ .b))
    (.setRun _ _ _)
  refine Keeps.trans ?_ (bothStations_keeps _ _ warmSequencer_keeps)
  refine Keeps.trans (Keeps.trans ?_ (.modSt _ .a (carries_warmBlocks _ _)))
    (.modSt _ .b (carries_warmBlocks _ _))
  exact (Served.setChannel s fun _ h => absurd rfl h).keeps

end Sys2Proof.Machine
end

