-- ==== Sys2Proof/Laws/Results.lean ====
section
/-! SUPPORT. What the shared operations leave: the fields of a station after a mode set and a spindle demand, after
each entry to a station state, and of the part after a record, after HEAT entry and after the end of a walk. -/

namespace Sys2Proof.Machine

/-! ### Motion -/

@[simp] theorem mode_setMode (t : TravelMode) (m : Motion) : (m.setMode t).mode = t := rfl
@[simp] theorem spindleDemand_setMode (t : TravelMode) (m : Motion) :
    (m.setMode t).spindleDemand = m.spindleDemand := rfl
@[simp] theorem watch_setMode (t : TravelMode) (m : Motion) : (m.setMode t).watch = m.watch := rfl
@[simp] theorem raw_setMode (t : TravelMode) (m : Motion) : (m.setMode t).raw = m.raw := rfl
@[simp] theorem spindleDemand_setSpindle (d : Nat) (m : Motion) : (m.setSpindle d).spindleDemand = d := by
  unfold Motion.setSpindle; split
  · assumption
  · rfl
@[simp] theorem mode_setSpindle (d : Nat) (m : Motion) : (m.setSpindle d).mode = m.mode := by
  unfold Motion.setSpindle; split <;> rfl
@[simp] theorem watch_setSpindle (d : Nat) (m : Motion) : (m.setSpindle d).watch = m.watch := by
  unfold Motion.setSpindle; split <;> rfl
@[simp] theorem raw_setSpindle (d : Nat) (m : Motion) : (m.setSpindle d).raw = m.raw := by
  unfold Motion.setSpindle; split <;> rfl
@[simp] theorem spindleDemand_stopSpindleTimer (m : Motion) :
    m.stopSpindleTimer.spindleDemand = m.spindleDemand := rfl
@[simp] theorem mode_stopSpindleTimer (m : Motion) : m.stopSpindleTimer.mode = m.mode := rfl
@[simp] theorem watch_stopSpindleTimer (m : Motion) : m.stopSpindleTimer.watch = m.watch := rfl
@[simp] theorem raw_stopSpindleTimer (m : Motion) : m.stopSpindleTimer.raw = m.raw := rfl

/-! ### A mode set -/

@[simp] theorem motion_setTravel (x : StationState) (m : TravelMode) :
    (x.setTravel m).motion = x.motion.setMode m := by
  unfold StationState.setTravel; dsimp only; split <;> rfl
@[simp] theorem homingOrigin_setTravel (x : StationState) (m : TravelMode) : (x.setTravel m).homingOrigin = x.homingOrigin := by
  unfold StationState.setTravel; dsimp only; split <;> rfl
@[simp] theorem homeResult_setTravel (x : StationState) (m : TravelMode) : (x.setTravel m).homeResult = x.homeResult := by
  unfold StationState.setTravel; dsimp only; split <;> rfl
@[simp] theorem finished_setTravel (x : StationState) (m : TravelMode) : (x.setTravel m).finished = x.finished := by
  unfold StationState.setTravel; dsimp only; split <;> rfl
@[simp] theorem partConsumed_setTravel (x : StationState) (m : TravelMode) : (x.setTravel m).partConsumed = x.partConsumed := by
  unfold StationState.setTravel; dsimp only; split <;> rfl
@[simp] theorem releaseOwed_setTravel (x : StationState) (m : TravelMode) : (x.setTravel m).releaseOwed = x.releaseOwed := by
  unfold StationState.setTravel; dsimp only; split <;> rfl
@[simp] theorem haltCause_setTravel (x : StationState) (m : TravelMode) : (x.setTravel m).haltCause = x.haltCause := by
  unfold StationState.setTravel; dsimp only; split <;> rfl
@[simp] theorem dwellTimer_setTravel (x : StationState) (m : TravelMode) : (x.setTravel m).dwellTimer = x.dwellTimer := by
  unfold StationState.setTravel; dsimp only; split <;> rfl
@[simp] theorem dwells_setTravel (x : StationState) (m : TravelMode) : (x.setTravel m).dwells = x.dwells := by
  unfold StationState.setTravel; dsimp only; split <;> rfl
@[simp] theorem walk_setTravel (x : StationState) (m : TravelMode) : (x.setTravel m).walk = x.walk := by
  unfold StationState.setTravel; dsimp only; split <;> rfl
@[simp] theorem trail_setTravel (x : StationState) (m : TravelMode) : (x.setTravel m).trail = x.trail := by
  unfold StationState.setTravel; dsimp only; split <;> rfl
@[simp] theorem quench_setTravel (x : StationState) (m : TravelMode) : (x.setTravel m).quench = x.quench := by
  unfold StationState.setTravel; dsimp only; split <;> rfl
@[simp] theorem lines_setTravel (x : StationState) (m : TravelMode) : (x.setTravel m).lines = x.lines := by
  unfold StationState.setTravel; dsimp only; split <;> rfl
@[simp] theorem settings_setTravel (x : StationState) (m : TravelMode) : (x.setTravel m).settings = x.settings := by
  unfold StationState.setTravel; dsimp only; split <;> rfl

/-! ### Entry to IDLE or WAIT-PART -/

@[simp] theorem homingOrigin_enterIdleOrWait (x : StationState) : (x.enterIdleOrWait).homingOrigin = x.homingOrigin := by
  unfold StationState.enterIdleOrWait; simp
@[simp] theorem homeResult_enterIdleOrWait (x : StationState) : (x.enterIdleOrWait).homeResult = x.homeResult := by
  unfold StationState.enterIdleOrWait; simp
@[simp] theorem queue_enterIdleOrWait (x : StationState) : (x.enterIdleOrWait).queue = x.queue := by
  unfold StationState.enterIdleOrWait; simp
@[simp] theorem current_enterIdleOrWait (x : StationState) : (x.enterIdleOrWait).current = x.current := by
  unfold StationState.enterIdleOrWait; simp
@[simp] theorem finished_enterIdleOrWait (x : StationState) : (x.enterIdleOrWait).finished = none := by
  unfold StationState.enterIdleOrWait; simp
@[simp] theorem partConsumed_enterIdleOrWait (x : StationState) : (x.enterIdleOrWait).partConsumed = x.partConsumed := by
  unfold StationState.enterIdleOrWait; simp
@[simp] theorem releaseOwed_enterIdleOrWait (x : StationState) : (x.enterIdleOrWait).releaseOwed = x.releaseOwed := by
  unfold StationState.enterIdleOrWait; simp
@[simp] theorem haltCause_enterIdleOrWait (x : StationState) : (x.enterIdleOrWait).haltCause = x.haltCause := by
  unfold StationState.enterIdleOrWait; simp
@[simp] theorem dwellTimer_enterIdleOrWait (x : StationState) : (x.enterIdleOrWait).dwellTimer = x.dwellTimer := by
  unfold StationState.enterIdleOrWait; simp
@[simp] theorem dwells_enterIdleOrWait (x : StationState) : (x.enterIdleOrWait).dwells = x.dwells := by
  unfold StationState.enterIdleOrWait; simp
@[simp] theorem walk_enterIdleOrWait (x : StationState) : (x.enterIdleOrWait).walk = x.walk := by
  unfold StationState.enterIdleOrWait; simp
@[simp] theorem trail_enterIdleOrWait (x : StationState) : (x.enterIdleOrWait).trail = x.trail := by
  unfold StationState.enterIdleOrWait; simp
@[simp] theorem motion_enterIdleOrWait (x : StationState) : (x.enterIdleOrWait).motion = (x.motion.setMode .stop).setSpindle 0 := by
  unfold StationState.enterIdleOrWait; simp
@[simp] theorem quench_enterIdleOrWait (x : StationState) : (x.enterIdleOrWait).quench = x.quench := by
  unfold StationState.enterIdleOrWait; simp
@[simp] theorem lines_enterIdleOrWait (x : StationState) : (x.enterIdleOrWait).lines = x.lines := by
  unfold StationState.enterIdleOrWait; simp
@[simp] theorem settings_enterIdleOrWait (x : StationState) : (x.enterIdleOrWait).settings = x.settings := by
  unfold StationState.enterIdleOrWait; simp
@[simp] theorem mode_enterIdleOrWait (x : StationState) : (x.enterIdleOrWait).mode = if x.queue = [] then .idle else .waitPart := by
  unfold StationState.enterIdleOrWait; simp

/-! ### Entry to HALTED -/

@[simp] theorem homingOrigin_enterHalted (x : StationState) (c : HaltCause) : (x.enterHalted c).homingOrigin = x.homingOrigin := by
  unfold StationState.enterHalted; simp
@[simp] theorem homeResult_enterHalted (x : StationState) (c : HaltCause) : (x.enterHalted c).homeResult = x.homeResult := by
  unfold StationState.enterHalted; simp
@[simp] theorem queue_enterHalted (x : StationState) (c : HaltCause) : (x.enterHalted c).queue = x.queue := by
  unfold StationState.enterHalted; simp
@[simp] theorem current_enterHalted (x : StationState) (c : HaltCause) : (x.enterHalted c).current = x.current := by
  unfold StationState.enterHalted; simp
@[simp] theorem finished_enterHalted (x : StationState) (c : HaltCause) : (x.enterHalted c).finished = x.finished := by
  unfold StationState.enterHalted; simp
@[simp] theorem partConsumed_enterHalted (x : StationState) (c : HaltCause) : (x.enterHalted c).partConsumed = x.partConsumed := by
  unfold StationState.enterHalted; simp
@[simp] theorem releaseOwed_enterHalted (x : StationState) (c : HaltCause) : (x.enterHalted c).releaseOwed = x.releaseOwed := by
  unfold StationState.enterHalted; simp
@[simp] theorem haltCause_enterHalted (x : StationState) (c : HaltCause) : (x.enterHalted c).haltCause = c := by
  unfold StationState.enterHalted; simp
@[simp] theorem dwellTimer_enterHalted (x : StationState) (c : HaltCause) : (x.enterHalted c).dwellTimer = x.dwellTimer := by
  unfold StationState.enterHalted; simp
@[simp] theorem dwells_enterHalted (x : StationState) (c : HaltCause) : (x.enterHalted c).dwells = x.dwells := by
  unfold StationState.enterHalted; simp
@[simp] theorem walk_enterHalted (x : StationState) (c : HaltCause) : (x.enterHalted c).walk = x.walk := by
  unfold StationState.enterHalted; simp
@[simp] theorem trail_enterHalted (x : StationState) (c : HaltCause) : (x.enterHalted c).trail = x.trail := by
  unfold StationState.enterHalted; simp
@[simp] theorem motion_enterHalted (x : StationState) (c : HaltCause) : (x.enterHalted c).motion = ((x.motion.setMode .stop).setSpindle 0).stopSpindleTimer := by
  unfold StationState.enterHalted; simp
@[simp] theorem quench_enterHalted (x : StationState) (c : HaltCause) : (x.enterHalted c).quench = x.quench := by
  unfold StationState.enterHalted; simp
@[simp] theorem lines_enterHalted (x : StationState) (c : HaltCause) : (x.enterHalted c).lines = x.lines := by
  unfold StationState.enterHalted; simp
@[simp] theorem settings_enterHalted (x : StationState) (c : HaltCause) : (x.enterHalted c).settings = x.settings := by
  unfold StationState.enterHalted; simp
@[simp] theorem mode_enterHalted (x : StationState) (c : HaltCause) : (x.enterHalted c).mode = .halted := by
  unfold StationState.enterHalted; simp

/-! ### The trail idle -/

@[simp] theorem homingOrigin_idleTrail (x : StationState) : (x.idleTrail).homingOrigin = x.homingOrigin := by
  unfold StationState.idleTrail; simp
@[simp] theorem homeResult_idleTrail (x : StationState) : (x.idleTrail).homeResult = x.homeResult := by
  unfold StationState.idleTrail; simp
@[simp] theorem queue_idleTrail (x : StationState) : (x.idleTrail).queue = x.queue := by
  unfold StationState.idleTrail; simp
@[simp] theorem current_idleTrail (x : StationState) : (x.idleTrail).current = x.current := by
  unfold StationState.idleTrail; simp
@[simp] theorem finished_idleTrail (x : StationState) : (x.idleTrail).finished = x.finished := by
  unfold StationState.idleTrail; simp
@[simp] theorem partConsumed_idleTrail (x : StationState) : (x.idleTrail).partConsumed = x.partConsumed := by
  unfold StationState.idleTrail; simp
@[simp] theorem releaseOwed_idleTrail (x : StationState) : (x.idleTrail).releaseOwed = x.releaseOwed := by
  unfold StationState.idleTrail; simp
@[simp] theorem haltCause_idleTrail (x : StationState) : (x.idleTrail).haltCause = x.haltCause := by
  unfold StationState.idleTrail; simp
@[simp] theorem dwellTimer_idleTrail (x : StationState) : (x.idleTrail).dwellTimer = x.dwellTimer := by
  unfold StationState.idleTrail; simp
@[simp] theorem dwells_idleTrail (x : StationState) : (x.idleTrail).dwells = x.dwells := by
  unfold StationState.idleTrail; simp
@[simp] theorem walk_idleTrail (x : StationState) : (x.idleTrail).walk = x.walk := by
  unfold StationState.idleTrail; simp
@[simp] theorem trail_idleTrail (x : StationState) : (x.idleTrail).trail = { x.trail with phase := .idle, list := [] } := by
  unfold StationState.idleTrail; simp
@[simp] theorem motion_idleTrail (x : StationState) : (x.idleTrail).motion = { x.motion with reverseRaised := false, limitRaised := false } := by
  unfold StationState.idleTrail; simp
@[simp] theorem quench_idleTrail (x : StationState) : (x.idleTrail).quench = x.quench := by
  unfold StationState.idleTrail; simp
@[simp] theorem lines_idleTrail (x : StationState) : (x.idleTrail).lines = x.lines := by
  unfold StationState.idleTrail; simp
@[simp] theorem settings_idleTrail (x : StationState) : (x.idleTrail).settings = x.settings := by
  unfold StationState.idleTrail; simp
@[simp] theorem mode_idleTrail (x : StationState) : (x.idleTrail).mode = x.mode := by
  unfold StationState.idleTrail; simp

/-! ### Entry to RETURN -/

@[simp] theorem homingOrigin_enterReturn (x : StationState) : (x.enterReturn).homingOrigin = x.homingOrigin := by
  unfold StationState.enterReturn; simp
@[simp] theorem homeResult_enterReturn (x : StationState) : (x.enterReturn).homeResult = x.homeResult := by
  unfold StationState.enterReturn; simp
@[simp] theorem queue_enterReturn (x : StationState) : (x.enterReturn).queue = x.queue := by
  unfold StationState.enterReturn; simp
@[simp] theorem current_enterReturn (x : StationState) : (x.enterReturn).current = x.current := by
  unfold StationState.enterReturn; simp
@[simp] theorem finished_enterReturn (x : StationState) : (x.enterReturn).finished = x.finished := by
  unfold StationState.enterReturn; simp
@[simp] theorem partConsumed_enterReturn (x : StationState) : (x.enterReturn).partConsumed = x.partConsumed := by
  unfold StationState.enterReturn; simp
@[simp] theorem releaseOwed_enterReturn (x : StationState) : (x.enterReturn).releaseOwed = x.releaseOwed := by
  unfold StationState.enterReturn; simp
@[simp] theorem haltCause_enterReturn (x : StationState) : (x.enterReturn).haltCause = x.haltCause := by
  unfold StationState.enterReturn; simp
@[simp] theorem dwellTimer_enterReturn (x : StationState) : (x.enterReturn).dwellTimer = x.dwellTimer := by
  unfold StationState.enterReturn; simp
@[simp] theorem dwells_enterReturn (x : StationState) : (x.enterReturn).dwells = x.dwells := by
  unfold StationState.enterReturn; simp
@[simp] theorem walk_enterReturn (x : StationState) : (x.enterReturn).walk = x.walk := by
  unfold StationState.enterReturn; simp
@[simp] theorem trail_enterReturn (x : StationState) : (x.enterReturn).trail = { x.trail with phase := .idle, list := [] } := by
  unfold StationState.enterReturn; simp
@[simp] theorem motion_enterReturn (x : StationState) : (x.enterReturn).motion = Motion.setMode (.moveTo 0 x.settings.returnSpeed) (Motion.stopSpindleTimer (Motion.setSpindle 0
      { x.motion with reverseRaised := false, limitRaised := false })) := by
  unfold StationState.enterReturn; simp
@[simp] theorem quench_enterReturn (x : StationState) : (x.enterReturn).quench = x.quench := by
  unfold StationState.enterReturn; simp
@[simp] theorem lines_enterReturn (x : StationState) : (x.enterReturn).lines = x.lines := by
  unfold StationState.enterReturn; simp
@[simp] theorem settings_enterReturn (x : StationState) : (x.enterReturn).settings = x.settings := by
  unfold StationState.enterReturn; simp
@[simp] theorem mode_enterReturn (x : StationState) : (x.enterReturn).mode = .returning := by
  unfold StationState.enterReturn; simp

/-! ### Entry to FLOOD -/

@[simp] theorem homingOrigin_enterFlood (x : StationState) : (x.enterFlood).homingOrigin = x.homingOrigin := by
  unfold StationState.enterFlood StationState.floodTally StationState.startFlood; simp
@[simp] theorem homeResult_enterFlood (x : StationState) : (x.enterFlood).homeResult = x.homeResult := by
  unfold StationState.enterFlood StationState.floodTally StationState.startFlood; simp
@[simp] theorem queue_enterFlood (x : StationState) : (x.enterFlood).queue = x.queue := by
  unfold StationState.enterFlood StationState.floodTally StationState.startFlood; simp
@[simp] theorem current_enterFlood (x : StationState) : (x.enterFlood).current = x.current := by
  unfold StationState.enterFlood StationState.floodTally StationState.startFlood; simp
@[simp] theorem finished_enterFlood (x : StationState) : (x.enterFlood).finished = x.finished := by
  unfold StationState.enterFlood StationState.floodTally StationState.startFlood; simp
@[simp] theorem partConsumed_enterFlood (x : StationState) : (x.enterFlood).partConsumed = x.partConsumed := by
  unfold StationState.enterFlood StationState.floodTally StationState.startFlood; simp
@[simp] theorem releaseOwed_enterFlood (x : StationState) : (x.enterFlood).releaseOwed = x.releaseOwed := by
  unfold StationState.enterFlood StationState.floodTally StationState.startFlood; simp
@[simp] theorem haltCause_enterFlood (x : StationState) : (x.enterFlood).haltCause = x.haltCause := by
  unfold StationState.enterFlood StationState.floodTally StationState.startFlood; simp
@[simp] theorem dwellTimer_enterFlood (x : StationState) : (x.enterFlood).dwellTimer = x.dwellTimer := by
  unfold StationState.enterFlood StationState.floodTally StationState.startFlood; simp
@[simp] theorem dwells_enterFlood (x : StationState) : (x.enterFlood).dwells = x.dwells := by
  unfold StationState.enterFlood StationState.floodTally StationState.startFlood; simp
@[simp] theorem walk_enterFlood (x : StationState) : (x.enterFlood).walk = x.walk := by
  unfold StationState.enterFlood StationState.floodTally StationState.startFlood; simp
@[simp] theorem trail_enterFlood (x : StationState) : (x.enterFlood).trail = { x.trail.tallyFlooded with phase := .idle, list := [] } := by
  unfold StationState.enterFlood StationState.floodTally StationState.startFlood; simp
@[simp] theorem motion_enterFlood (x : StationState) : (x.enterFlood).motion = { (x.motion.setMode .stop).stopSpindleTimer with
      reverseRaised := false, limitRaised := false } := by
  unfold StationState.enterFlood StationState.floodTally StationState.startFlood; simp
@[simp] theorem quench_enterFlood (x : StationState) : (x.enterFlood).quench = { x.quench.closeRing with flood := some ⟨x.settings.floodTime, .floodEntry⟩ } := by
  unfold StationState.enterFlood StationState.floodTally StationState.startFlood; simp
@[simp] theorem lines_enterFlood (x : StationState) : (x.enterFlood).lines = x.lines := by
  unfold StationState.enterFlood StationState.floodTally StationState.startFlood; simp
@[simp] theorem settings_enterFlood (x : StationState) : (x.enterFlood).settings = x.settings := by
  unfold StationState.enterFlood StationState.floodTally StationState.startFlood; simp
@[simp] theorem mode_enterFlood (x : StationState) : (x.enterFlood).mode = .flood := by
  unfold StationState.enterFlood StationState.floodTally StationState.startFlood; simp

/-! ### Modes, spindle and entries as the statements say them -/

theorem setMode_eq (t : TravelMode) (m : Motion) : m.setMode t = modeSet t m := rfl

theorem setSpindle_eq (d : Nat) (m : Motion) : m.setSpindle d = spindleSet d m := by
  unfold Motion.setSpindle spindleSet; split
  · next h => subst h; rfl
  · rfl

/-- A travel mode set (R90, R97, R100). -/
theorem setTravel_eq (x : StationState) (m : TravelMode) :
    x.setTravel m =
      { x with
        motion := modeSet m x.motion
        handed := x.handed ++ if m.handsAxis then axisHanded x else [] } := by
  unfold StationState.setTravel axisHanded
  cases m.handsAxis <;> cases h : x.lines.axisFault <;>
    simp [StationState.modMotion, StationState.hand, setMode_eq]

/-- RETURN entered (R36, R48). -/
theorem enterReturn_eq (x : StationState) :
    x.enterReturn =
      { x with
        mode := .returning
        trail := { x.trail with phase := .idle, list := [] }
        motion := motionInReturn x.settings.returnSpeed x.motion
        handed := x.handed ++ axisHanded x } := by
  unfold StationState.enterReturn; simp only [setTravel_eq, setSpindle_eq]; rfl

/-- FLOOD entered (R35, R64, R115). -/
theorem enterFlood_eq (x : StationState) :
    x.enterFlood =
      { x with
        mode := .flood
        trail := { x.trail.tallyFlooded with phase := .idle, list := [] }
        motion := { modeSet .stop x.motion with spindleTimer := none, reverseRaised := false, limitRaised := false }
        quench := { x.quench.closeRing with flood := some ⟨x.settings.floodTime, .floodEntry⟩ } } := by
  have h : x.setTravel .stop = { x with motion := modeSet .stop x.motion } := by
    rw [setTravel_eq]; simp [TravelMode.handsAxis]
  unfold StationState.enterFlood StationState.floodTally StationState.startFlood StationState.idleTrail; rw [h]
  simp only [StationState.modMotion, StationState.modTrail, StationState.modQuench, Motion.stopSpindleTimer]

/-! ### Calm operations -/

theorem Calm.noRecord {s t : State} (h : Calm s t) : NoRecord s t :=
  ⟨h.slots, h.records, h.reservations, h.run⟩

theorem Calm.around {s t : State} (h : Calm s t) : Around s t :=
  ⟨h.pending, h.time, h.link, h.tank, h.common, h.invReady, h.invFault, h.resetLine, h.stopMode, fun k => by
    unfold State.slot; rw [h.slots]; exact ⟨rfl, rfl⟩⟩

/-! ### A record written -/

theorem header_dropRef (s : State) (j k : Fin 8) :
    ((s.dropRef j).slot k).header? = (s.slot k).header?
      ∧ ((s.dropRef j).slot k).entries = (s.slot k).entries := by
  unfold State.dropRef; rw [slot_setSlot]; split
  · next h => subst h; cases s.slot k <;> exact ⟨rfl, rfl⟩
  · exact ⟨rfl, rfl⟩

theorem writeRecord_around (s : State) (u : Station) (o : Option RecordOutcome) :
    Around s (s.writeRecord u o) := by
  have h := writeRecord_frame s u o
  refine ⟨h.pending, h.time, h.link, h.tank, h.common, h.invReady, h.invFault, h.resetLine, h.stopMode, fun k => ?_⟩
  cases hc : (s.st u).current with
  | none => rw [writeRecord_idle s u o hc]; exact ⟨rfl, rfl⟩
  | some c =>
    rw [writeRecord_busy s u o hc]
    unfold State.slot; rw [slots_judgeRun]
    have := header_dropRef ((s.setRecords (s.records ++ [(s.st u).recordOf u o c]) (s.reservations - 1)).modSt u
        (StationState.recordWritten ((s.st u).outcomeOf o c) ((s.st u).closing c))) c.job.slot k
    simpa [State.slot] using this

theorem Around.modSt {s t : State} (h : Around s t) (u : Station) (f : StationState → StationState) :
    Around s (t.modSt u f) :=
  ⟨by simp [h.pending], by simp [h.time], by simp [h.link], by simp [h.tank], by simp [h.common],
    by simp [h.invReady], by simp [h.invFault], by simp [h.resetLine], by simp [h.stopMode], fun k => by
      unfold State.slot; rw [slots_modSt]; exact h.slots k⟩

/-- The record of a job, written while the station is busy with it (R37, R159, R165). -/
theorem writeRecord_written (s : State) (u : Station) (o : Option RecordOutcome) {c : Context}
    (h : (s.st u).current = some c) :
    RecordWritten u c ((s.st u).recordOf u o c) s (s.writeRecord u o) := by
  refine ⟨?_, ?_, ?_, writeRecord_current s u o, ?_⟩
  · rw [writeRecord_busy s u o h]; simp
  · rw [writeRecord_busy s u o h]; simp
  · rw [writeRecord_busy s u o h]; simp [State.dropRef, State.setSlot, State.slot]
  · rw [writeRecord_busy s u o h]
    unfold State.judgeRun
    have e : ((((s.setRecords (s.records ++ [(s.st u).recordOf u o c]) (s.reservations - 1)).modSt u
        (StationState.recordWritten ((s.st u).outcomeOf o c) ((s.st u).closing c))).dropRef
          c.job.slot).anyCurrent = false) ↔ (s.st u.other).busy = false := by
      cases u <;> simp [State.anyCurrent, State.dropRef, State.setSlot, StationState.busy,
        StationState.recordWritten, State.modSt, State.setSt]
    have r : (((s.setRecords (s.records ++ [(s.st u).recordOf u o c]) (s.reservations - 1)).modSt u
        (StationState.recordWritten ((s.st u).outcomeOf o c) ((s.st u).closing c))).dropRef
          c.job.slot).run = s.run := by simp [State.dropRef, State.setSlot]
    by_cases hh : s.run = .stopping ∧ (s.st u.other).busy = false
    · rw [if_pos hh, if_pos ⟨r.trans hh.1, e.mpr hh.2⟩]; simp
    · rw [if_neg hh, if_neg fun x => hh ⟨r ▸ x.1, e.mp x.2⟩]; exact r

theorem RecordWritten.modSt {u : Station} {c : Context} {r : Record} {s t : State}
    (h : RecordWritten u c r s t) {f : StationState → StationState}
    (hf : (f (t.st u)).current = (t.st u).current) : RecordWritten u c r s (t.modSt u f) := by
  obtain ⟨h1, h2, h3, h4, h5⟩ := h
  exact ⟨by simp [h1], by simp [h2], by simp [h3], by simp [hf, h4], by simp [h5]⟩

/-- The outcome a record takes in the order of R172, where neither a warm reset nor a failed recheck gives it. -/
theorem outcome_recordOf (u : Station) (c : Context) (x : StationState) :
    (x.recordOf u none c).outcome = outcomeOrder (x.closing c) x.trail.tallies.flagged := by
  show (x.closing c).outcome _ = _
  unfold Context.outcome outcomeOrder
  cases hf : (x.closing c).firstFault
  · cases hp : (x.closing c).pendingOutcome <;> cases hk : (x.closing c).job.kind <;> simp
  · simp

@[simp] theorem firstFault_closing (c : Context) (x : StationState) :
    (x.closing c).firstFault = c.firstFault := by
  unfold StationState.closing Context.closeRepeat; split <;> rfl
@[simp] theorem secondFault_closing (c : Context) (x : StationState) :
    (x.closing c).secondFault = c.secondFault := by
  unfold StationState.closing Context.closeRepeat; split <;> rfl
@[simp] theorem startTime_closing (c : Context) (x : StationState) :
    (x.closing c).startTime = c.startTime := by
  unfold StationState.closing Context.closeRepeat; split <;> rfl
@[simp] theorem heatTime_closing (c : Context) (x : StationState) :
    (x.closing c).heatTime = c.heatTime := by
  unfold StationState.closing Context.closeRepeat; split <;> rfl
@[simp] theorem job_closing (c : Context) (x : StationState) : (x.closing c).job = c.job := by
  unfold StationState.closing; exact closeRepeat_job _ _

/-! ### HEAT entry -/

theorem tankAtEntry_rest (t : TankState) (x : StationState) :
    ∃ ta, x.tankAtEntry t = { x with trail := { x.trail with tallies := ta } } := by
  unfold StationState.tankAtEntry; split
  · exact ⟨_, rfl⟩
  · exact ⟨_, rfl⟩

/-- The station after HEAT entry (R29, R49, R66). -/
theorem enterHeat_station (now : Time) (tank : TankState) (p : Profile) (x : StationState) :
    let y := x.enterHeat now tank p
    y.mode = .heat ∧ y.walk = x.walk ∧ y.queue = x.queue ∧ y.lines = x.lines ∧ y.settings = x.settings
      ∧ y.quench = x.quench ∧ y.current = x.current.map (Context.enterHeat now)
      ∧ y.trail.phase = .heating p.start (newSlice x.settings p 0) ∧ y.trail.list = [] ∧ y.trail.remainder = 0
      ∧ y.motion.spindleDemand = (segGet p.segs 0).rotation
      ∧ y.motion.mode = (if (segGet p.segs 0).dwell.isSome then .hold else .scan (segGet p.segs 0).speed) := by
  intro y
  obtain ⟨ta, h⟩ := tankAtEntry_rest tank { (x.modContext (Context.enterHeat now)).openTrail p with mode := .heat }
  simp only [y, StationState.enterHeat, h]
  simp [StationState.openTrail]

/-- The part after HEAT entry. -/
theorem enterHeat_part (s : State) (u : Station) :
    let t := s.enterHeat u
    let p := s.profileOf u
    let x := s.st u
    t.channel = s.channel.noticeHeat u (entryDemand p x.settings.powerLead) s.common.settleTime
      ∧ (t.st u).mode = .heat ∧ (t.st u).walk = x.walk ∧ (t.st u).queue = x.queue
      ∧ (t.st u).quench = x.quench ∧ (t.st u).current = x.current.map (Context.enterHeat s.time)
      ∧ (t.st u).trail.phase = .heating p.start (newSlice x.settings p 0) ∧ (t.st u).trail.list = []
      ∧ (t.st u).trail.remainder = 0 ∧ (t.st u).motion.spindleDemand = (segGet p.segs 0).rotation := by
  intro t p x
  obtain ⟨h1, h2, h3, h4, h5, h6, h7, h8, h9, h10, h11, -⟩ := enterHeat_station s.time s.tank.state p x
  simp only [t, State.enterHeat]
  split <;> simp [h1, h2, h3, h6, h7, h8, h9, h10, h11, x, p] at *

/-! ### The profile of a station -/

/-- A change that keeps the current job keeps the profile its station reads. -/
theorem profileOf_modSt (s : State) (u : Station) (f : StationState → StationState)
    (h : ((f (s.st u)).current).map (fun c => c.job.slot) = (s.st u).current.map fun c => c.job.slot) :
    (s.modSt u f).profileOf u = s.profileOf u := by
  unfold State.profileOf; rw [st_modSt_self]; unfold State.slot; rw [slots_modSt]
  cases h1 : (f (s.st u)).current <;> cases h2 : (s.st u).current <;> simp [h1, h2] at h ⊢
  rw [h]

theorem modSt_congr (s : State) (u : Station) {f g : StationState → StationState}
    (h : f (s.st u) = g (s.st u)) : s.modSt u f = s.modSt u g := by
  unfold State.modSt; rw [h]

/-! ### The release and the context -/

theorem release_not (s : State) (u : Station) (h : s.channel.holder ≠ some u) : s.release u = s := by
  unfold State.release; rw [if_neg h]

theorem Context.fix_eq (o : PendingOutcome) (c : Context) :
    c.fix o = { c with pendingOutcome := if c.pendingOutcome = .faulted then .faulted else o } := by
  unfold Context.fix; split
  · next h => rw [← h]
  · rfl

/-! ### A grant at the stations -/

@[simp] theorem st_enterHeat_other (s : State) (u : Station) : (s.enterHeat u).st u.other = s.st u.other := by
  unfold State.enterHeat; dsimp only; split <;> simp

@[simp] theorem st_passWalk_other (s : State) (u : Station) : (s.passWalk u).st u.other = s.st u.other := by
  unfold State.passWalk; simp

@[simp] theorem st_enterW8_other (s : State) (u : Station) : (s.enterW8 u).st u.other = s.st u.other := by
  unfold State.enterW8; dsimp only; split <;> simp

@[simp] theorem st_passW7_other (s : State) (u : Station) : (s.passW7 u).st u.other = s.st u.other := by
  unfold State.passW7; split <;> simp

theorem passW7_not (s : State) (u : Station) (h : (s.st u).walk.current ≠ some .w7) : s.passW7 u = s := by
  unfold State.passW7; rw [if_neg h]

/-- A station that does not wait at W7 is not touched by a grant. -/
theorem st_grant (s : State) (u : Station) (h : (s.st u).walk.current ≠ some .w7) :
    s.grant.st u = s.st u := by
  unfold State.grant; split
  · split
    · rfl
    · next v _ =>
      dsimp only; split
      · unfold State.holdChannel
        rcases eq_or_other v u with rfl | rfl
        · rw [passW7_not _ _ (by simpa using h)]; simp
        · simp
      · simp
  · rfl

theorem st_release (s : State) (v u : Station) (h : (s.st u).walk.current ≠ some .w7) :
    (s.release v).st u = s.st u := by
  unfold State.release; split
  · rw [st_grant _ _ (by simpa using h)]; simp
  · rfl

theorem st_withdraw (s : State) (v u : Station) (h : (s.st u).walk.current ≠ some .w7) :
    (s.withdraw v).st u = s.st u := by
  unfold State.withdraw; split
  · split <;> simp
  · split
    · exact st_release _ _ _ h
    · simp
  · simp

/-! ### HEAT entry of the part -/

/-- The tank-warm flag at an entry is a disjunction (R62). -/
theorem tankAtEntry_eq (t : TankState) (x : StationState) :
    x.tankAtEntry t =
      { x with
        trail :=
          { x.trail with
            tallies :=
              { x.trail.tallies with tankWarm := x.trail.tallies.tankWarm || decide (t ≠ .normal) } } } := by
  unfold StationState.tankAtEntry StationState.markTankWarm
  cases t <;> simp [TankState.hot, StationState.modTrail]

theorem holder_noticeHeat (c : Channel) (u : Station) (d k : Nat) : (c.noticeHeat u d k).holder = c.holder := by
  unfold Channel.noticeHeat; split
  · next v w h =>
    split
    · next e => subst e; unfold Channel.holder; rw [h]
    · rfl
  · rfl

/-- The station after HEAT entry, field by field (R29, R62, R66, R100). -/
theorem enterHeat_eq (now : Time) (tank : TankState) (p : Profile) (x : StationState) :
    x.enterHeat now tank p =
      { x with
        mode := .heat
        current := x.current.map (Context.enterHeat now)
        trail :=
          { phase := .heating p.start (newSlice x.settings p 0)
            list := []
            remainder := 0
            run := .none
            tallies :=
              { x.trail.tallies with
                repeatUnion := {}, tankWarm := x.trail.tallies.tankWarm || decide (tank ≠ .normal) } }
        motion :=
          ({ x.motion.setSpindle (segGet p.segs 0).rotation with spindleRaised := false } : Motion).setMode
            (if (segGet p.segs 0).dwell.isSome then .hold else .scan (segGet p.segs 0).speed)
        handed := x.handed ++ if x.lines.axisFault then [.axis] else []
        dwellTimer := (segGet p.segs 0).dwell
        dwells := if (segGet p.segs 0).dwell.isSome then [0] else [] } := by
  unfold StationState.enterHeat; simp only [tankAtEntry_eq]
  unfold StationState.setTravel
  cases hd : (segGet p.segs 0).dwell <;> cases ha : x.lines.axisFault <;>
    simp [TravelMode.handsAxis, StationState.openTrail, StationState.modTrail, StationState.modMotion, StationState.modContext, StationState.hand, ha]

/-- A walk that passes enters HEAT as R29 says. -/
theorem passWalk_entered (s : State) (u : Station) : HeatEntered u s (s.passWalk u) := by
  have hp : (s.modSt u fun x => x.modWalk Walk.pass).profileOf u = s.profileOf u := profileOf_modSt _ _ _ rfl
  have hf : Calm s (s.passWalk u) := (passWalk_served s u).toCalm
  have ch : (s.passWalk u).channel = s.channel.noticeHeat u
      (entryDemand (s.profileOf u) (s.st u).settings.powerLead) s.common.settleTime := by
    have := (enterHeat_part (s.modSt u fun x => x.modWalk Walk.pass) u).1
    rw [hp] at this; unfold State.passWalk; simpa using this
  have st : (s.passWalk u).st u =
      let y := ((s.st u).modWalk Walk.pass).enterHeat s.time s.tank.state (s.profileOf u)
      { y with
        handed := y.handed ++
          if s.channel.holder = some u ∧ (s.st u).lines.coilFlow = false then [.coilFlow] else [] } := by
    have hl : (((s.st u).modWalk Walk.pass).enterHeat s.time s.tank.state (s.profileOf u)).lines
        = (s.st u).lines := (enterHeat_station _ _ _ _).2.2.2.1
    unfold State.passWalk State.enterHeat; dsimp only; rw [hp]
    simp only [st_modSt_self, time_modSt, tank_modSt, modSt_modSt, channel_setChannel, channel_modSt, common_modSt,
      settings_modWalk, st_setChannel, holder_noticeHeat]
    by_cases h : s.channel.holder = some u ∧ (s.st u).lines.coilFlow = false
    · rw [if_pos (by rw [hl]; exact h), if_pos h]; simp only [st_modSt_self, st_setChannel]; rfl
    · rw [if_neg (by rw [hl]; exact h), if_neg h]; simp only [List.append_nil, st_modSt_self, st_setChannel]
  rw [enterHeat_eq] at st
  exact {
    mode := by rw [st]
    walk := by rw [st]; simp [Walk.pass]
    job := by
      rw [st]; simp only [current_modWalk]; congr 1; funext c; simp [Context.enterHeat, Context.harden]
    trail := by rw [st]; simp
    motion := by rw [st]; simp only [setSpindle_eq, setMode_eq, StationState.modWalk]; rfl
    scans := by intro h; rw [st]; simp [h]
    holds := by intro n h; rw [st]; simp [h]
    faults := by rw [st]; rfl
    kept := by rw [st]; simp
    power := by
      intro h; rw [ch]; unfold Channel.holder at h; unfold Channel.noticeHeat
      split at h <;> simp_all [Timer.startUnlessZero]
    unheld := by
      intro h; rw [ch]; unfold Channel.holder at h; unfold Channel.noticeHeat; split <;> simp_all
    other := st_passWalk_other s u
    records := hf.noRecord
    around := hf.around }

/-- HEAT entry does not depend on where the passed walk stood. -/
theorem HeatEntered.of_walk {u : Station} {s t : State} {f : Walk → Walk}
    (h : HeatEntered u (s.modSt u fun x => x.modWalk f) t)
    (e : ({ f (s.st u).walk with current := none, timer := none, reached := 8, result := .passed } : Walk)
      = { (s.st u).walk with current := none, timer := none, reached := 8, result := .passed }) :
    HeatEntered u s t := by
  have hp : (s.modSt u fun x => x.modWalk f).profileOf u = s.profileOf u := profileOf_modSt _ _ _ rfl
  obtain ⟨h1, h2, h3, h4, h5, h6, h7, h8, h9, h10, h11, h12, h13, h14⟩ := h
  simp only [hp, st_modSt_self, st_modSt_other, walk_modWalk, motion_modWalk, axisHanded, current_modWalk, trail_modWalk,
    settings_modWalk, time_modSt, tank_modSt, handed_modWalk, lines_modWalk, channel_modSt, queue_modWalk,
    quench_modWalk, common_modSt] at *
  exact ⟨h1, h2.trans e, h3, h4, h5, h6, h7, h8, h9, h10, h11, h12,
    ⟨by simpa using h13.slots, by simpa using h13.records, by simpa using h13.reservations, by simpa using h13.run⟩,
    ⟨by simpa using h14.pending, by simpa using h14.time, by simpa using h14.link, by simpa using h14.tank, by simpa using h14.common,
     by simpa using h14.invReady, by simpa using h14.invFault, by simpa using h14.resetLine, by simpa using h14.stopMode,
     fun k => by simpa [State.slot] using h14.slots k⟩⟩

/-- HEAT entry of one station, with a change of the other before and after it. -/
theorem HeatEntered.modSt_other {u v : Station} {s t : State} (h : HeatEntered u s t) (hv : v = u.other)
    (f : StationState → StationState) : HeatEntered u (s.modSt v f) (t.modSt v f) := by
  subst hv
  have hp : (s.modSt u.other f).profileOf u = s.profileOf u := by
    unfold State.profileOf State.slot; cases u <;> simp [State.modSt, State.setSt]
  have o : ∀ r : State, (r.modSt u.other f).st u = r.st u := fun r => by cases u <;> rfl
  obtain ⟨h1, h2, h3, h4, h5, h6, h7, h8, h9, h10, h11, h12, h13, h14⟩ := h
  constructor
  all_goals try simp only [hp, o, time_modSt, tank_modSt, channel_modSt, common_modSt]
  all_goals first | assumption | skip
  · rw [st_modSt_self, st_modSt_self, h12]
  · exact ⟨by simp [h13.slots], by simp [h13.records], by simp [h13.reservations], by simp [h13.run]⟩
  · obtain ⟨a, b, c, d, e, g, i, j, k, l⟩ := h14
    exact ⟨by simp [a], by simp [b], by simp [c], by simp [d], by simp [e], by simp [g], by simp [i],
      by simp [j], by simp [k], fun n => by simpa [State.slot] using l n⟩

/-! ### A grant (R73, R74) -/

theorem choose_chosen {c : Channel} {v : Station} (h : Chosen c v) : c.choose = some v := by
  unfold Channel.choose
  rcases h with h | ⟨h | h, k⟩
  · rw [h]
  · rw [h]; rcases k with k | ⟨k, l⟩
    · simp [k]
    · rw [h] at l; simp at l; simp [k, l]
  · rw [h]; rcases k with k | ⟨k, l⟩
    · simp [k]
    · rw [h] at l; simp at l; simp [k, l]

/-- What holding the channel does to the station that is told so (R74, R131, R132). -/
theorem holdChannel_granted (s : State) (v : Station) : Granted v s (s.holdChannel v) := by
  have h0 : Calm s (s.holdChannel v) := (Calm.setChannel s _).trans (passW7_served _ _).toCalm
  have hn : (s.st v).walk.current ≠ some .w7 → s.holdChannel v = s.setChannel (s.channel.hold v) := by
    intro h; unfold State.holdChannel; rw [passW7_not _ _ (by simpa using h)]
  have hw : (s.st v).walk.current = some .w7 → s.holdChannel v =
      ((s.setChannel (s.channel.hold v)).modSt v (StationState.completeCheckpoint .w7)).enterW8 v := by
    intro h; unfold State.holdChannel State.passW7; rw [if_pos (by simpa using h)]
  have h2 : (s.st v).walk.current = some .w7 → s.invReady = false → s.holdChannel v =
      (s.setChannel (s.channel.hold v)).modSt v fun x =>
        (x.completeCheckpoint .w7).enterCheckpoint .w8 := by
    intro h k; rw [hw h]; unfold State.enterW8; simp [k]
  have h3 : (s.st v).walk.current = some .w7 → s.invReady = true → s.holdChannel v =
      ((s.setChannel (s.channel.hold v)).modSt v fun x =>
        ((x.completeCheckpoint .w7).enterCheckpoint .w8).modWalk Walk.pass).enterHeat v := by
    intro h k; rw [hw h]; unfold State.enterW8 State.passWalk; simp [k]
  have hp : ∀ f : StationState → StationState, (∀ x, (f x).current = x.current) →
      ((s.setChannel (s.channel.hold v)).modSt v f).profileOf v = s.profileOf v := by
    intro f hf
    rw [profileOf_modSt _ _ _ (by rw [hf])]; unfold State.profileOf State.slot; simp
  refine ⟨?_, fun h => ?_, fun h k => ?_, fun h k => ?_, ?_, h0.noRecord, h0.around⟩
  · by_cases h : (s.st v).walk.current = some .w7
    · cases k : s.invReady
      · rw [h2 h k]; simp [Channel.hold]
      · rw [h3 h k]
        have := (enterHeat_part ((s.setChannel (s.channel.hold v)).modSt v fun x =>
          ((x.completeCheckpoint .w7).enterCheckpoint .w8).modWalk Walk.pass) v).1
        rw [this]; simp [Channel.noticeHeat, Channel.hold]
    · rw [hn h]; simp [Channel.hold]
  · rw [hn h]; simp [Channel.hold]
  · rw [h2 h k]; simp [Channel.hold, StationState.completeCheckpoint, StationState.enterCheckpoint]; rfl
  · rw [h3 h k]
    refine HeatEntered.of_walk (f := fun w => Walk.enter .w8 (some (s.st v).settings.stepLimit) (w.complete .w7))
      ?_ rfl
    have e := passWalk_entered ((s.setChannel (s.channel.hold v)).modSt v fun x =>
      (x.completeCheckpoint .w7).enterCheckpoint .w8) v
    unfold State.passWalk at e; rw [modSt_modSt] at e
    rw [modSt_congr _ _ (g := fun x => (x.completeCheckpoint .w7).enterCheckpoint .w8)]
    · exact e
    · cases v <;> rfl
  · unfold State.holdChannel; simp

/-- A grant from FREE with the station R73 chooses. -/
theorem grant_free {s : State} (hs : s.channel.state = .free) {v : Station} (h : Chosen s.channel v) :
    let c : Channel := { s.channel with waiting := s.channel.waiting.erase v }
    s.grant =
      if s.channel.switchAt = v then (s.setChannel c).holdChannel v
      else s.setChannel (c.switchTo v s.common.changeoverTime) := by
  intro c; unfold State.grant; rw [if_pos hs, choose_chosen h]

theorem grant_idle {s : State} (h : s.channel.waiting = []) : s.grant = s := by
  unfold State.grant Channel.choose; split <;> simp [h]

/-! ### A grant made, and what station it leaves alone -/

theorem grant_made {s : State} (h : s.channel.state = .free) : GrantMade s s.grant := by
  refine ⟨grant_idle, fun v c e => ?_, fun v c e => ?_⟩
  · rw [grant_free h c]; dsimp only; rw [if_pos e]; exact holdChannel_granted _ _
  · rw [grant_free h c]; dsimp only; rw [if_neg e]; rfl

/-- A change of a station that does not wait at W7, after a grant, might have come before it. -/
theorem Granted.modSt {v u : Station} {s t : State} (h : Granted v s t) {f : StationState → StationState}
    (h1 : (s.st u).walk.current ≠ some .w7) (h2 : (f (s.st u)).walk.current ≠ some .w7) :
    Granted v (s.modSt u f) (t.modSt u f) := by
  have hr : NoRecord (s.modSt u f) (t.modSt u f) :=
    ⟨by simp [h.records.slots], by simp [h.records.records], by simp [h.records.reservations],
      by simp [h.records.run]⟩
  have ha : Around (s.modSt u f) (t.modSt u f) := by
    obtain ⟨a, b, c, d, e, g, i, j, k, l⟩ := h.around
    exact ⟨by simp [a], by simp [b], by simp [c], by simp [d], by simp [e], by simp [g], by simp [i],
      by simp [j], by simp [k], fun n => by simpa [State.slot] using l n⟩
  rcases eq_or_other u v with rfl | rfl
  · have n : ((s.modSt v f).st v).walk.current ≠ some .w7 := by rw [st_modSt_self]; exact h2
    refine ⟨by simpa using h.holder, fun _ => ?_, fun k => absurd k n, fun k => absurd k n, ?_, hr, ha⟩
    · rw [channel_modSt, st_modSt_self, st_modSt_self, (h.told h1).2]; exact ⟨(h.told h1).1, rfl⟩
    · rw [st_modSt_other, st_modSt_other]; exact h.other
  · have e : (s.modSt u f).profileOf u.other = s.profileOf u.other := by
      unfold State.profileOf State.slot; simp
    refine ⟨by simpa using h.holder, ?_, ?_, ?_, ?_, hr, ha⟩
    · simp only [st_modSt_other, channel_modSt]; exact h.told
    · simp only [st_modSt_other, channel_modSt, invReady_modSt]; exact h.waits
    · intro w k
      rw [st_modSt_other] at w; rw [invReady_modSt] at k; rw [channel_modSt]
      have g := (h.heats w k).modSt_other (other_other u).symm f
      have e : ∀ c : Channel,
          ({ s with channel := c } : State).modSt u f = { s.modSt u f with channel := c } := fun c => by
        cases u <;> rfl
      rw [e] at g; exact g
    · have := h.other; simp only [other_other] at this ⊢; rw [st_modSt_self, st_modSt_self, this]

theorem GrantMade.modSt {u : Station} {s t : State} (h : GrantMade s t) {f : StationState → StationState}
    (h1 : (s.st u).walk.current ≠ some .w7) (h2 : (f (s.st u)).walk.current ≠ some .w7) :
    GrantMade (s.modSt u f) (t.modSt u f) := by
  have e : ∀ c : Channel, ({ s.modSt u f with channel := c } : State) = ({ s with channel := c } : State).modSt u f :=
    fun c => by cases u <;> rfl
  have g : ∀ c : Channel, ({ s with channel := c } : State).st u = s.st u := fun c => by cases u <;> rfl
  refine ⟨fun k => ?_, fun v k l => ?_, fun v k l => ?_⟩
  · rw [h.quiet (by simpa using k)]
  · rw [channel_modSt] at k l ⊢; rw [e]
    exact (h.holds v k l).modSt (by rw [g]; exact h1) (by rw [g]; exact h2)
  · rw [channel_modSt] at k l; rw [h.switches v k l]; cases u <;> rfl

/-- A release by the holder, between two changes of its own station that leave no walk at W7 (R77). -/
theorem release_freed {s : State} {u : Station} {f g : StationState → StationState}
    (h : s.channel.holder = some u) (h1 : (f (s.st u)).walk.current ≠ some .w7)
    (h2 : (g (f (s.st u))).walk.current ≠ some .w7) :
    ChannelFreed u s (((s.modSt u f).release u).modSt u g) := by
  have e : (s.modSt u f).release u = ((s.modSt u f).setChannel (s.channel.leaveHeld .free)).grant := by
    unfold State.release; rw [if_pos (by simpa using h), channel_modSt]
  have st : ((s.modSt u f).setChannel (s.channel.leaveHeld .free)).st u = f (s.st u) := by simp
  have k := (grant_made (s := (s.modSt u f).setChannel (s.channel.leaveHeld .free)) rfl).modSt
    (u := u) (f := g) (by rw [st]; exact h1) (by rw [st]; exact h2)
  have t : (((s.modSt u f).release u).modSt u g).st u = g (f (s.st u)) := by
    rw [st_modSt_self, e, st_grant _ _ (by rw [st]; exact h1), st]
  unfold ChannelFreed; rw [t, e]
  have q : ((s.modSt u f).setChannel (s.channel.leaveHeld .free)).modSt u g
      = ({ s with channel := s.channel.leaveHeld .free } : State).setSt u (g (f (s.st u))) := by
    unfold State.modSt; rw [show ((s.setSt u (f (s.st u))).setChannel (s.channel.leaveHeld .free)).st u = _ from st]
    cases u <;> rfl
  rw [q] at k; exact k

/-- A withdrawal between two changes of the station that leave no walk at W7 (R76). -/
theorem withdraw_withdrawn {s : State} {u : Station} {f g : StationState → StationState}
    (h1 : (f (s.st u)).walk.current ≠ some .w7) (h2 : (g (f (s.st u))).walk.current ≠ some .w7) :
    Withdrawn u s (((s.modSt u f).withdraw u).modSt u g) := by
  refine ⟨fun w h => ?_, fun h => ?_, fun h k => ?_⟩
  · unfold State.withdraw; simp [h]
  · have e : (s.modSt u f).withdraw u = (s.modSt u f).release u := by
      unfold Channel.holder at h; unfold State.withdraw; split at h
      · next c => simp at h; simp [c, h]
      · cases h
    rw [e]; exact release_freed h h1 h2
  · unfold State.withdraw; simp only [channel_modSt]; unfold Channel.holder at k; split
    · next v w c =>
      rw [c] at h; rw [if_neg fun e => h w (by rw [e])]; simp [c]
    · next v w c =>
      rw [c] at k; rw [if_neg fun e => k (by simp [e])]; simp [c]
    · simp

/-- A request, by the channel's state (R72). -/
theorem requestPower_requested (s : State) (u : Station) : Requested u s (s.requestPower u) := by
  refine ⟨fun h => ?_, fun h => ?_, fun h k => ?_⟩
  · have : s.channel.enqueue u = { s.channel with waiting := s.channel.waiting ++ [u] } := by
      unfold Channel.enqueue; split
      · next e => rw [h] at e; cases e
      · rfl
    unfold State.requestPower; rw [this]
    exact grant_made (s := s.setChannel { s.channel with waiting := s.channel.waiting ++ [u] }) h
  · unfold State.requestPower Channel.enqueue State.grant; rw [h]; simp; rfl
  · have : s.channel.enqueue u = { s.channel with waiting := s.channel.waiting ++ [u] } := by
      unfold Channel.enqueue; split
      · next v e => rw [if_neg]; rintro rfl; exact k e
      · rfl
    unfold State.requestPower State.grant; rw [this, if_neg (by simpa using h)]; rfl

/-! ### The end of a walk -/

/-- Steps 2 to 5 of R135 at the station itself, once its walk has ended. -/
theorem st_undoWalk (s : State) (u : Station) (w : Checkpoint) (h : (s.st u).walk.current ≠ some .w7) :
    (s.undoWalk u w).st u =
      match w with
      | .w5 => (s.st u).modMotion fun m => { m with watch := .off }
      | .w6 => (s.st u).modQuench Quench.closeRing
      | _ => s.st u := by
  cases w <;> simp [State.undoWalk, st_withdraw _ _ _ h, st_release _ _ _ h]

theorem st_undoWalk_other (s : State) (u : Station) (w : Checkpoint) (h7 : w ≠ .w7) (h8 : w ≠ .w8) :
    (s.undoWalk u w).st u.other = s.st u.other := by
  cases w <;> simp at h7 h8 <;> simp [State.undoWalk]

theorem channel_undoWalk (s : State) (u : Station) (w : Checkpoint) (h7 : w ≠ .w7) (h8 : w ≠ .w8) :
    (s.undoWalk u w).channel = s.channel := by
  cases w <;> simp at h7 h8 <;> simp [State.undoWalk]

/-- The pending outcome that a walk's report fixes (R135). -/
def reportOutcome : WalkResult → PendingOutcome
  | .cancelled => .cancelled
  | .stopped => .stopped
  | _ => .notStarted

theorem takeWalkReport_eq (s : State) (u : Station) (r : WalkResult) (h : r ≠ .axis) :
    s.takeWalkReport u r = s.modSt u fun x => (x.modContext (Context.fix (reportOutcome r))).enterReturn := by
  cases r <;> simp at h <;> rfl

/-- A walk that ends without passing and without AXIS leaves what R135, R28 and R36 say. -/
theorem endWalk_ended (s : State) (u : Station) (w : Checkpoint) (r : WalkResult) (cause : FailureCause)
    (hw : (s.st u).walk.current = some w) (hr : r ≠ .axis) :
    WalkEnded u w r cause (reportOutcome r) s (s.endWalk u r cause) := by
  have e : s.endWalk u r cause =
      ((s.modSt u fun x => x.modWalk (Walk.finish w r cause)).undoWalk u w).takeWalkReport u r := by
    unfold State.endWalk; rw [hw]
  rw [e, takeWalkReport_eq _ _ _ hr]
  have n : ((s.modSt u fun x => x.modWalk (Walk.finish w r cause)).st u).walk.current ≠ some .w7 := by
    simp [Walk.finish]
  have su := st_undoWalk _ _ w n
  have ut : ((((s.modSt u fun x => x.modWalk (Walk.finish w r cause)).undoWalk u w).modSt u fun x =>
      (x.modContext (Context.fix (reportOutcome r))).enterReturn).st u) = _ :=
    (st_modSt_self _ _ _).trans (enterReturn_eq _)
  refine ⟨?_, ?_, ?_, ?_, ?_, ?_, ?_, ?_, ?_, ?_, ?_, ?_, ?_⟩
  · rw [ut]
  · rw [ut, su]; cases w <;> simp [Walk.finish]
  · rw [ut, su]; cases w <;> simp [motionInReturn, modeSet]
  · rw [ut, su]; cases w <;> simp [axisHanded]
  · intro h; rw [ut, su]; cases w <;> simp at h ⊢
  · rintro rfl; rw [ut, su]; exact ⟨rfl, rfl⟩
  · rw [ut, su]; cases w <;> simp
  · rw [ut, su]; simp only [funext (Context.fix_eq _)]; cases w <;> simp
  · rw [ut, su]; cases w <;> simp
  · intro h7 h8
    rw [channel_modSt, channel_undoWalk _ _ _ h7 h8, channel_modSt, st_modSt_other,
      st_undoWalk_other _ _ _ h7 h8, st_modSt_other]; exact ⟨rfl, rfl⟩
  · rintro rfl; exact withdraw_withdrawn (by simp [Walk.finish]) (by simp [Walk.finish])
  · rintro rfl h; exact release_freed h (by simp [Walk.finish]) (by simp [Walk.finish])
  · rintro rfl h
    rw [State.undoWalk, release_not _ _ (by simpa using h)]; simp

/-! ### Leaving HEAT -/

@[simp] theorem list_placeSlice (p : Profile) (sl : SliceRec) (x : StationState) :
    (x.placeSlice p sl).trail = { x.trail with list := x.trail.list ++ [sl] } := by
  unfold StationState.placeSlice; dsimp only; split
  · split
    · unfold StationState.judgeOpen; split <;> rfl
    · rfl
  · rfl

theorem placeSlice_rest (p : Profile) (sl : SliceRec) (x : StationState) :
    ∃ q, x.placeSlice p sl
      = { x with trail := { x.trail with list := x.trail.list ++ [sl] }, quench := q } := by
  unfold StationState.placeSlice; dsimp only; split
  · split
    · unfold StationState.judgeOpen; split
      · exact ⟨_, rfl⟩
      · exact ⟨_, rfl⟩
    · exact ⟨_, rfl⟩
  · exact ⟨_, rfl⟩

/-- An abort touches the trail and the ring valve of its station only; the trail of an OPEN one drains with every
slice ABORTED (R54). -/
theorem abortTrail_rest (now : Time) (p : Profile) (x : StationState) :
    ∃ t q, x.abortTrail now p = { x with trail := t, quench := q }
      ∧ t.tallies = x.trail.tallies
      ∧ ∀ h sl, x.trail.phase = .heating h sl →
        t.phase = .draining h ∧ t.list = abortedSlices now x.trail := by
  unfold StationState.abortTrail; split
  · next h sl hp =>
    obtain ⟨q, hq⟩ := placeSlice_rest p ((sl.stamp now).flag .aborted)
      (x.modTrail fun t => { t with list := t.list.map (SliceRec.flag .aborted) })
    refine ⟨{ x.trail with
        phase := .draining h
        list := x.trail.list.map (SliceRec.flag .aborted) ++ [(sl.stamp now).flag .aborted] }, q,
      by dsimp only; rw [hq]; rfl, rfl, ?_⟩
    intro h' sl' hp'
    rw [hp] at hp'; cases hp'
    exact ⟨rfl, by simp [abortedSlices, hp]⟩
  · next hn => exact ⟨x.trail, x.quench, rfl, rfl, fun h sl hp => absurd hp (hn h sl)⟩

@[simp] theorem time_release (s : State) (u : Station) : (s.release u).time = s.time :=
  (release_served s u).time

theorem addHeatTime_exact (x y : Nat) (h : x + y < 2 ^ 32) : addHeatTime x y = x + y := if_pos h

theorem ChannelFreed.modSt {u : Station} {s t : State} (h : ChannelFreed u s t)
    {g : StationState → StationState} (h1 : (t.st u).walk.current ≠ some .w7)
    (h2 : (g (t.st u)).walk.current ≠ some .w7) : ChannelFreed u s (t.modSt u g) := by
  have k := GrantMade.modSt h (u := u) (f := g) (by simpa using h1) (by simpa using h2)
  unfold ChannelFreed; rw [st_modSt_self]
  have e : ∀ (r : State) (x : StationState), (r.setSt u x).modSt u g = r.setSt u (g x) := fun r x => by
    cases u <;> rfl
  rw [e] at k; exact k

theorem HeatLeft.modSt {u : Station} {f : Context → Context} {s t : State} (h : HeatLeft u f s t)
    {g : StationState → StationState} (h1 : (t.st u).walk.current ≠ some .w7)
    (h2 : (g (t.st u)).walk.current ≠ some .w7) (hd : (g (t.st u)).dwellTimer = (t.st u).dwellTimer)
    (hs : (g (t.st u)).dwells = (t.st u).dwells) (hc : (g (t.st u)).current = (t.st u).current)
    (hq : (g (t.st u)).queue = (t.st u).queue) : HeatLeft u f s (t.modSt u g) where
  dwell := by rw [st_modSt_self, hd, hs]; exact h.dwell
  job := by rw [st_modSt_self, hc]; exact h.job
  sums := addHeatTime_exact
  queue := by rw [st_modSt_self, hq]; exact h.queue
  channel := fun k => by rw [channel_modSt, st_modSt_other]; exact h.channel k
  released := fun k => (h.released k).modSt h1 h2

/-- Leaving HEAT for an abort, the context changed by `f` first (R33, R54). -/
theorem leaveHeat_left (s : State) (u : Station) (f : Context → Context)
    (hj : ∀ c, (f c).heatTime = c.heatTime ∧ (f c).heatStart = c.heatStart)
    (hw : (s.st u).walk.current = none) {t : State}
    (ht : t = (s.modSt u fun x => x.modContext f).leaveHeat u) :
    HeatLeft u f s t ∧ (t.st u).settings = (s.st u).settings
      ∧ (t.st u).trail.tallies = (s.st u).trail.tallies ∧ (t.st u).lines = (s.st u).lines
      ∧ (t.st u).walk = (s.st u).walk ∧ (t.st u).motion = (s.st u).motion ∧ (t.st u).handed = (s.st u).handed
      ∧ ∀ h sl, (s.st u).trail.phase = .heating h sl →
        (t.st u).trail.phase = .draining h ∧ (t.st u).trail.list = abortedSlices s.time (s.st u).trail := by
  obtain ⟨tr, q, he, hta, hab⟩ := abortTrail_rest s.time ((s.modSt u fun x => x.modContext f).profileOf u)
    (((s.st u).modContext f).stopHeat s.time)
  have hu : t.st u = { ((s.st u).modContext f).stopHeat s.time with trail := tr, quench := q } := by
    rw [ht]; unfold State.leaveHeat; dsimp only
    rw [st_release]
    · simp only [modSt_modSt, st_modSt_self, time_modSt]; exact he
    · simp only [modSt_modSt, st_modSt_self, time_modSt]; rw [he]; simp [StationState.stopHeat, hw]
  have hs : t = (((s.modSt u fun x => x.modContext f).modSt u fun x =>
      (x.stopHeat (s.modSt u fun x => x.modContext f).time).abortTrail (s.modSt u fun x => x.modContext f).time
        ((s.modSt u fun x => x.modContext f).profileOf u)).release u) := ht
  refine ⟨⟨?_, ?_, addHeatTime_exact, ?_, ?_, ?_⟩, ?_, ?_, ?_, ?_, ?_, ?_, ?_⟩
  · rw [hu]; exact ⟨rfl, rfl⟩
  · rw [hu]; simp only [StationState.stopHeat, StationState.modContext, Option.map_map]
    congr 1; funext c; simp [Context.addHeat, hj c]
  · rw [hu]; rfl
  · intro hn
    rw [hs, release_not _ _ (by simpa using hn)]; simp
  · intro hh
    have k := release_freed (s := s) (u := u) (g := id)
      (f := fun x => ((x.modContext f).stopHeat s.time).abortTrail s.time
        ((s.modSt u fun x => x.modContext f).profileOf u)) hh
      (by rw [he]; simp [StationState.stopHeat, hw]) (by rw [id, he]; simp [StationState.stopHeat, hw])
    rw [hs, modSt_modSt, time_modSt]
    rw [show ∀ r : State, r.modSt u id = r from fun r => by cases u <;> rfl] at k; exact k
  · rw [hu]; rfl
  · rw [hu]; exact hta
  · rw [hu]; rfl
  · rw [hu]; rfl
  · rw [hu]; rfl
  · rw [hu]; rfl
  · intro h sl hp; rw [hu]; exact hab h sl hp

/-! ### Faults and aborts -/

theorem recordFault_recorded (f : FaultCode) (c : Context) : c.recordFault f = faultRecorded f c := by
  unfold Context.recordFault faultRecorded
  cases h1 : c.firstFault <;> cases h2 : c.secondFault <;> cases c <;> simp_all

theorem Context.abort_eq (a : AbortCause) (c : Context) :
    c.abort a = { c with abortCause := if c.abortCause = .none then a else c.abortCause } := by
  unfold Context.abort; split <;> simp

theorem heated_foldl_tally (l : List SliceRec) (t : Trail) :
    (l.foldl (fun t sl => t.tally none (sl.flag .flooded)) t).tallies.heated
      = t.tallies.heated + l.length := by
  induction l generalizing t with
  | nil => rfl
  | cons a l ih =>
    rw [List.foldl_cons, ih]
    have : (t.tally none (a.flag .flooded)).tallies.heated = t.tallies.heated + 1 := by
      unfold Trail.tally Trail.tallyZone; dsimp only; split
      · split
        · rfl
        · rfl
        · split <;> rfl
      · rfl
    rw [this, List.length_cons]; omega

/-- A flood tallies every slice of the list. -/
theorem heated_tallyFlooded (t : Trail) :
    t.tallyFlooded.tallies.heated = t.tallies.heated + t.list.length := heated_foldl_tally _ _

/-- A lapsed fault is dropped when taken (R167). -/
theorem takeHanded_lapsed (s : State) (u : Station) (f : FaultCode) (h : f ∈ (s.st u).lapsed) :
    s.takeHanded u f = s.modSt u (StationState.dropLapsed f) := by
  unfold State.takeHanded; rw [if_pos (by simpa using h)]

theorem takeHanded_eq (s : State) (u : Station) (f : FaultCode) (hl : f ∉ (s.st u).lapsed)
    (h : f ∈ (s.st u).handed)
    {c : Context} (hc : (s.st u).current = some c) :
    s.takeHanded u f = (s.modSt u fun x => (x.unhand f).modContext (faultRecorded f)).actOnFault u f := by
  unfold State.takeHanded; rw [if_neg (by simpa using hl), if_pos (by simpa using h)]
  unfold State.takeFault; rw [if_pos (by simp [StationState.busy, StationState.unhand, hc])]
  rw [modSt_modSt]; simp only [funext (recordFault_recorded f)]

/-- HEAT left by a CANCEL or an abrupt STOP (R33). -/
theorem abortByHost_left (s : State) (u : Station) (a : AbortCause) (o : PendingOutcome)
    (hw : (s.st u).walk.current = none) :
    let t := s.abortByHost u a o
    (t.st u).mode = .quenchOut
      ∧ (t.st u).motion = modeSet (.scan (s.st u).settings.runoutSpeed) (s.st u).motion
      ∧ (t.st u).handed = (s.st u).handed ++ axisHanded (s.st u)
      ∧ HeatLeft u (fun c =>
          { c with
            abortCause := if c.abortCause = .none then a else c.abortCause
            pendingOutcome := if c.pendingOutcome = .faulted then .faulted else o }) s t
      ∧ (∀ h sl, (s.st u).trail.phase = .heating h sl →
          (t.st u).trail.phase = .draining h
            ∧ (t.st u).trail.list = abortedSlices s.time (s.st u).trail)
      ∧ NoRecord s t ∧ Around s t := by
  intro t
  set F : Context → Context := fun c =>
    { c with
      abortCause := if c.abortCause = .none then a else c.abortCause
      pendingOutcome := if c.pendingOutcome = .faulted then .faulted else o } with hF
  have et : t = ((s.modSt u fun x => x.modContext F).leaveHeat u).modSt u (StationState.runOut .quenchOut) := by
    simp only [t, State.abortByHost, State.quenchOut]
    rw [show (fun c => Context.fix o (Context.abort a c)) = F from by
      funext c; rw [Context.fix_eq, Context.abort_eq]]
  obtain ⟨hl, hset, hta, hli, hwk, hmo, hha, htr⟩ := leaveHeat_left s u F (fun c => ⟨rfl, rfl⟩) hw rfl
  have sv := abortByHost_served s u a o
  rw [et]
  refine ⟨?_, ?_, ?_, hl.modSt ?_ ?_ ?_ ?_ ?_ ?_, ?_, by rw [← et]; exact sv.toCalm.noRecord,
    by rw [← et]; exact sv.toCalm.around⟩
  · rw [st_modSt_self]; rfl
  · rw [st_modSt_self]; simp [StationState.runOut, setMode_eq, hset, hmo]
  · rw [st_modSt_self]; simp [StationState.runOut, setTravel_eq, TravelMode.handsAxis, axisHanded, hha, hli]
  · rw [hwk, hw]; simp
  · simp [StationState.runOut, hwk, hw]
  · simp [StationState.runOut]
  · simp [StationState.runOut]
  · simp [StationState.runOut]
  · simp [StationState.runOut]
  · intro h sl hp; rw [st_modSt_self]; have := htr h sl hp; simpa [StationState.runOut] using this

end Sys2Proof.Machine
end

