-- ==== Sys2Proof/Laws/Warm.lean ====
section
/-! SUPPORT. The warm reset, block by block: what its sequencers, its queues and its lines leave of a station, and that
with no walk running the lines touch their station alone. -/

namespace Sys2Proof.Machine

/-! ### Hand-off lines -/

/-- What a step of the handshake and a qualified change leave of a station: RELEASE may end, and nothing else of the
cycle moves. -/
structure Lined (x y : StationState) : Prop where
  walk : y.walk = x.walk
  current : y.current = x.current
  queue : y.queue = x.queue
  settings : y.settings = x.settings
  homeResult : y.homeResult = x.homeResult
  haltCause : y.haltCause = x.haltCause
  quench : y.quench = x.quench
  trail : y.trail = x.trail
  stop : x.motion.mode = .stop → y.motion.mode = .stop
  spindle : x.motion.spindleDemand = 0 → y.motion.spindleDemand = 0
  mode : y.mode = x.mode ∨ x.mode = .release ∧ y.mode = if x.queue = [] then .idle else .waitPart
  faults : y.handed = x.handed ∧ y.lapsed = x.lapsed

theorem Lined.refl (x : StationState) : Lined x x := ⟨rfl, rfl, rfl, rfl, rfl, rfl, rfl, rfl, id, id, .inl rfl, rfl, rfl⟩

theorem Lined.trans {x y z : StationState} (h : Lined x y) (k : Lined y z) : Lined x z where
  walk := k.walk.trans h.walk
  current := k.current.trans h.current
  queue := k.queue.trans h.queue
  settings := k.settings.trans h.settings
  homeResult := k.homeResult.trans h.homeResult
  haltCause := k.haltCause.trans h.haltCause
  quench := k.quench.trans h.quench
  trail := k.trail.trans h.trail
  stop := fun q => k.stop (h.stop q)
  spindle := fun q => k.spindle (h.spindle q)
  mode := by
    rcases h.mode with a | ⟨a, b⟩ <;> rcases k.mode with c | ⟨c, d⟩
    · exact .inl (c.trans a)
    · exact .inr ⟨a ▸ c, by rw [d, h.queue]⟩
    · exact .inr ⟨a, by rw [c, b]⟩
    · rw [b] at c; split at c <;> cases c
  faults := ⟨k.faults.1.trans h.faults.1, k.faults.2.trans h.faults.2⟩

theorem lined_modLines (x : StationState) (f : Lines → Lines) : Lined x (x.modLines f) :=
  ⟨rfl, rfl, rfl, rfl, rfl, rfl, rfl, rfl, id, id, .inl rfl, rfl, rfl⟩

theorem lined_setHandshake (x : StationState) (h : Handshake) (t : Timer) : Lined x (x.setHandshake h t) :=
  lined_modLines _ _

/-! Stopping the carriage hands no fault, and neither do the entries that stop it. -/

theorem stop_faults (x : StationState) :
    (x.setTravel .stop).handed = x.handed ∧ (x.setTravel .stop).lapsed = x.lapsed := ⟨rfl, rfl⟩

theorem enterIdleOrWait_faults (x : StationState) :
    x.enterIdleOrWait.handed = x.handed ∧ x.enterIdleOrWait.lapsed = x.lapsed := ⟨rfl, rfl⟩

theorem enterHalted_faults (c : HaltCause) (x : StationState) :
    (x.enterHalted c).handed = x.handed ∧ (x.enterHalted c).lapsed = x.lapsed := ⟨rfl, rfl⟩

theorem lined_completeHandshake (x : StationState) : Lined x x.completeHandshake := by
  unfold StationState.completeHandshake; dsimp only; split
  · next h =>
    constructor <;> simp [StationState.setHandshake, StationState.modLines, h, enterIdleOrWait_faults]
  · exact ⟨rfl, rfl, rfl, rfl, rfl, rfl, rfl, rfl, id, id, .inl rfl, rfl, rfl⟩

theorem lined_assertDone (x : StationState) : Lined x x.assertDone := by
  unfold StationState.assertDone; dsimp only; split
  · exact ⟨rfl, rfl, rfl, rfl, rfl, rfl, rfl, rfl, id, id, .inl rfl, rfl, rfl⟩
  · split
    · exact ⟨rfl, rfl, rfl, rfl, rfl, rfl, rfl, rfl, id, id, .inl rfl, rfl, rfl⟩
    · split
      · exact lined_completeHandshake _
      · exact lined_setHandshake _ _ _

theorem lined_startStep (x : StationState) : Lined x x.startStep := by
  unfold StationState.startStep; split
  · exact lined_setHandshake _ _ _
  · exact lined_assertDone _

theorem lined_beginHandshake (x : StationState) : Lined x x.beginHandshake := by
  unfold StationState.beginHandshake; split
  · exact lined_setHandshake _ _ _
  · exact lined_startStep _

theorem lined_holdChanged (x : StationState) (b : Bool) : Lined x (x.holdChanged b) := by
  unfold StationState.holdChanged; split
  · exact lined_setHandshake _ _ _
  · exact lined_startStep _
  · exact .refl _

theorem lined_presentGone (x : StationState) : Lined x x.presentGone := by
  have h : Lined x { x with partConsumed := false } :=
    ⟨rfl, rfl, rfl, rfl, rfl, rfl, rfl, rfl, id, id, .inl rfl, rfl, rfl⟩
  unfold StationState.presentGone; dsimp only; split
  · exact h.trans (lined_completeHandshake _)
  · exact h

/-- A change of one station alone by its lines. -/
def LinedAt (u : Station) (s t : State) : Prop := ∃ x, t = s.setSt u x ∧ Lined (s.st u) x

theorem LinedAt.modSt (s : State) (u : Station) {f : StationState → StationState}
    (h : Lined (s.st u) (f (s.st u))) : LinedAt u s (s.modSt u f) := ⟨_, rfl, h⟩

theorem setSt_setSt (s : State) (u : Station) (x y : StationState) : (s.setSt u x).setSt u y = s.setSt u y := by
  cases u <;> rfl

theorem setSt_st (s : State) (u : Station) : s.setSt u (s.st u) = s := by cases u <;> rfl

theorem LinedAt.refl (s : State) (u : Station) : LinedAt u s s := ⟨_, (setSt_st s u).symm, .refl _⟩

theorem LinedAt.trans {u : Station} {s t r : State} (h : LinedAt u s t) (k : LinedAt u t r) :
    LinedAt u s r := by
  obtain ⟨x, rfl, hx⟩ := h; obtain ⟨y, rfl, hy⟩ := k
  refine ⟨y, setSt_setSt _ _ _ _, hx.trans ?_⟩
  simpa using hy

theorem LinedAt.st {u : Station} {s t : State} (h : LinedAt u s t) : Lined (s.st u) (t.st u) := by
  obtain ⟨x, rfl, hx⟩ := h; simpa using hx

theorem LinedAt.other {u : Station} {s t : State} (h : LinedAt u s t) : t.st u.other = s.st u.other := by
  obtain ⟨x, rfl, -⟩ := h; simp

/-- With no walk at W1 a qualified change touches its station alone. -/
theorem lineChanged_lined (s : State) (u : Station) (k : LoaderLine) (a : Bool)
    (h : (s.st u).walk.current ≠ some .w1) : LinedAt u s (s.lineChanged u k a) := by
  have j : s.judgeW1 u = s := by unfold State.judgeW1; rw [if_neg fun q => h q.1]
  unfold State.lineChanged; split
  · rw [j]; exact .refl _ _
  · rw [j]; exact .refl _ _
  · exact .modSt _ _ (lined_presentGone _)
  · exact .refl _ _
  · exact .modSt _ _ (lined_holdChanged _ _)

theorem qualify_lined (s : State) (u : Station) (k : LoaderLine)
    (h : (s.st u).walk.current ≠ some .w1) : LinedAt u s (s.qualify u k) := by
  have m := LinedAt.modSt s u (lined_modLines (s.st u)
    (Lines.setQual k ⟨((s.st u).lines.qual k).sampled, ((s.st u).lines.qual k).sampled, none⟩))
  unfold State.qualify; dsimp only; split
  · exact m
  · exact m.trans (lineChanged_lined _ _ _ _ (by rw [m.st.walk]; exact h))

theorem requalify_lined (s : State) (u : Station) (k : LoaderLine)
    (h : (s.st u).walk.current ≠ some .w1) : LinedAt u s (s.requalify u k) := by
  have m : LinedAt u s (s.modSt u fun x =>
      x.modLines (Lines.setQual k { (s.st u).lines.qual k with timer := x.settings.qualTime })) :=
    .modSt s u (lined_modLines _ _)
  unfold State.requalify; dsimp only; split
  · exact .modSt _ _ (lined_modLines _ _)
  · split
    · exact m.trans (qualify_lined _ _ _ (by rw [m.st.walk]; exact h))
    · exact m

theorem warmLines_lined (s : State) (u : Station) (h : (s.st u).walk.current ≠ some .w1) :
    LinedAt u s (s.warmLines u) := by
  have m : LinedAt u s (s.modSt u fun x =>
      let y := x.setHandshake .idle none
      if y.mode = .release then y.beginHandshake else y) := .modSt s u (by
    dsimp only; split
    · exact (lined_setHandshake _ _ _).trans (lined_beginHandshake _)
    · exact lined_setHandshake _ _ _)
  unfold State.warmLines; dsimp only
  have m1 := m.trans (requalify_lined _ u .present (by rw [m.st.walk]; exact h))
  have m2 := m1.trans (requalify_lined _ u .clamped (by rw [m1.st.walk]; exact h))
  exact m2.trans (requalify_lined _ u .hold (by rw [m2.st.walk]; exact h))

/-! ### The blocks of one station -/

/-- What the blocks of a station hold after a warm reset, and what of the station they leave. -/
structure Calmed (x y : StationState) : Prop where
  walk : y.walk.current = none
  walked : y.walk = x.walk.interrupt
  stop : y.motion.mode = .stop
  spindle : y.motion.spindleDemand = 0
  valve : y.quench.valve = .closed
  mode : y.mode = x.mode
  current : y.current = x.current
  queue : y.queue = x.queue
  settings : y.settings = x.settings
  homeResult : y.homeResult = x.homeResult
  homingOrigin : y.homingOrigin = x.homingOrigin
  haltCause : y.haltCause = x.haltCause
  faults : y.handed = x.handed ∧ y.lapsed = x.lapsed

theorem walk_interrupt (w : Walk) : w.interrupt.current = none := by
  unfold Walk.interrupt; split
  · rfl
  · next h => exact h

/-- What the trail's and the quench unit's parts of a warm reset leave of a station. -/
theorem warmTally_rest (now : Time) (x : StationState) :
    ∃ t m, (x.warmTally now).1 = { x with trail := t, motion := m } := by
  unfold StationState.warmTally; dsimp only; split <;> exact ⟨_, _, rfl⟩

theorem warmQuench_rest (held : Bool) (x : StationState) :
    ∃ q, x.warmQuench held = { x with quench := q } ∧ q.valve = .closed := by
  unfold StationState.warmQuench; dsimp only; split <;> exact ⟨_, rfl, rfl⟩

theorem calmed_warmBlocks (now : Time) (x : StationState) : Calmed x (x.warmBlocks now) := by
  obtain ⟨t, m, h⟩ := warmTally_rest now (x.modWalk Walk.interrupt)
  obtain ⟨q, k, v⟩ := warmQuench_rest ((x.modWalk Walk.interrupt).warmTally now).2
    ((x.modWalk Walk.interrupt).warmTally now).1
  unfold StationState.warmBlocks; dsimp only
  rw [k, h]
  exact ⟨walk_interrupt _, rfl, rfl, rfl, v, rfl, rfl, rfl, rfl, rfl, rfl, rfl, rfl, rfl⟩

/-! ### The trail and the flood of one station -/

/-- What tallying leaves of the tallies and the run depends on them alone. -/
theorem tally_congr (d : Option Nat) (sl : SliceRec) {t r : Trail} (h : t.tallies = r.tallies)
    (k : t.run = r.run) :
    (t.tally d sl).tallies = (r.tally d sl).tallies ∧ (t.tally d sl).run = (r.tally d sl).run := by
  obtain ⟨a, b, c, e, f⟩ := t; obtain ⟨a', b', c', e', f'⟩ := r
  simp only at h k; subst h k
  unfold Trail.tally Trail.tallyZone; dsimp only; split
  · cases f
    · simp only; split <;> exact ⟨rfl, rfl⟩
    · exact ⟨rfl, rfl⟩
    · exact ⟨rfl, rfl⟩
  · exact ⟨rfl, rfl⟩

theorem tallies_congr (l : List SliceRec) {t r : Trail} (h : t.tallies = r.tallies) (k : t.run = r.run) :
    (l.foldl (fun t sl => t.tally none (sl.flag .flooded)) t).tallies
      = (l.foldl (fun t sl => t.tally none (sl.flag .flooded)) r).tallies := by
  induction l generalizing t r with
  | nil => exact h
  | cons x xs ih => exact ih (tally_congr none (x.flag .flooded) h k).1 (tally_congr none (x.flag .flooded) h k).2

/-- The slices a warm reset tallies FLOODED: the list, and the open slice stamped. -/
def warmSlices (now : Time) (t : Trail) : List SliceRec :=
  t.list ++
    match t.phase with
    | .heating _ sl => [sl.stamp now]
    | _ => []

/-- What the blocks of a station do to its trail and its flood at a warm reset (R65, R116). -/
structure Drained (now : Time) (x y : StationState) : Prop where
  phase : y.trail.phase = .idle ∧ y.trail.list = [] ∧ y.trail.remainder = 0
  tallies : y.trail.tallies
    = ((warmSlices now x.trail).foldl (fun t sl => t.tally none (sl.flag .flooded)) x.trail).tallies
  flood : y.quench.flood =
    if (∃ sl ∈ warmSlices now x.trail, sl.quench = true) ∧ x.quench.flood = none then
      some ⟨x.settings.floodTime, .warmReset⟩
    else x.quench.flood
  same : y.finished = x.finished ∧ y.releaseOwed = x.releaseOwed ∧ y.partConsumed = x.partConsumed
    ∧ y.lines = x.lines

theorem drained_warmBlocks (now : Time) (x : StationState) : Drained now x (x.warmBlocks now) := by
  constructor
  · unfold StationState.warmBlocks StationState.warmQuench StationState.warmTally; dsimp only
    split <;> split <;> exact ⟨rfl, rfl, rfl⟩
  · have e : (x.warmBlocks now).trail.tallies = (x.warmTally now).1.trail.tallies := by
      unfold StationState.warmBlocks StationState.warmQuench; dsimp only; split <;> rfl
    rw [e]; unfold StationState.warmTally warmSlices; dsimp only
    cases h : x.trail.phase with
    | heating a b => exact tallies_congr _ rfl rfl
    | _ => rw [List.append_nil]; rfl
  · unfold StationState.warmBlocks StationState.warmQuench StationState.warmTally warmSlices
    dsimp only [StationState.modWalk]
    cases h : x.trail.phase with
    | heating a b =>
      simp only [List.any_eq_true]
      by_cases k : x.quench.flood = none
      · by_cases z : ∃ sl ∈ x.trail.list ++ [b.stamp now], sl.quench = true
        · rw [if_pos ⟨z, k⟩, if_pos ⟨z, k⟩]; rfl
        · rw [if_neg fun q => z q.1, if_neg fun q => z q.1]; rfl
      · rw [if_neg fun q => k q.2, if_neg fun q => k q.2]; rfl
    | _ =>
      simp only [List.any_eq_true, List.append_nil]
      by_cases k : x.quench.flood = none
      · by_cases z : ∃ sl ∈ x.trail.list, sl.quench = true
        · rw [if_pos ⟨z, k⟩, if_pos ⟨z, k⟩]; rfl
        · rw [if_neg fun q => z q.1, if_neg fun q => z q.1]; rfl
      · rw [if_neg fun q => k q.2, if_neg fun q => k q.2]; rfl
  · obtain ⟨t, m, h⟩ := warmTally_rest now (x.modWalk Walk.interrupt)
    obtain ⟨q, k, -⟩ := warmQuench_rest ((x.modWalk Walk.interrupt).warmTally now).2
      ((x.modWalk Walk.interrupt).warmTally now).1
    unfold StationState.warmBlocks; dsimp only
    rw [k, h]; exact ⟨rfl, rfl, rfl, rfl⟩

/-! ### The sequencer of one station -/

/-- What the sequencer of a calmed station leaves of it at a warm reset (R45). -/
structure Sequenced (x y : StationState) : Prop where
  walk : y.walk.current = none
  walked : y.walk = x.walk
  faults : y.handed = [] ∧ y.lapsed = x.lapsed ++ x.handed
  stop : y.motion.mode = .stop
  spindle : y.motion.spindleDemand = 0
  quench : y.quench = x.quench
  trail : y.trail = x.trail
  lines : y.lines = x.lines
  partConsumed : y.partConsumed = x.partConsumed
  current : y.current = none
  settings : y.settings = x.settings
  busy : x.busy = true → y.mode = .halted ∧ y.haltCause = .warmReset ∧ y.homeResult = x.homeResult
  wrote : ∀ c, x.current = some c → y.finished = some c.job.tag
    ∧ y.releaseOwed = if c.job.kind = .harden then some true else x.releaseOwed
  kept : x.busy = false → y.finished = x.finished ∧ y.releaseOwed = x.releaseOwed
  release : y.mode = .release → x.mode = .release
  homing : x.busy = false → x.mode = .homing → y.mode = x.homingOrigin.mode ∧ y.homeResult = .failed
  idle : x.busy = false → x.mode = .idle ∨ x.mode = .waitPart → y.mode = .idle
  other : x.busy = false → x.mode = .unhomed ∨ x.mode = .halted ∨ x.mode = .release →
    y.mode = x.mode ∧ y.haltCause = x.haltCause

theorem sequenced_idle {x : StationState} (hb : x.busy = false) (h1 : x.walk.current = none)
    (h2 : x.motion.mode = .stop) (h3 : x.motion.spindleDemand = 0) : Sequenced x x.warmIdle := by
  have hc := not_busy hb
  unfold StationState.warmIdle; dsimp only
  split
  · next h =>
    rw [mode_lapse] at h
    have n : x.homingOrigin.mode ≠ .release := by cases x.homingOrigin <;> simp [HomingOrigin.mode]
    constructor <;> simp [StationState.homingFailed, h1, h3, hb, hc, h, n, stop_faults]
  · next h => rw [mode_lapse] at h; constructor <;> simp [h1, h2, h3, hb, hc, h]
  · next h => constructor <;> simp_all

theorem sequenced_busy (s : State) (u : Station) {c : Context} (hc : (s.st u).current = some c)
    (h1 : (s.st u).walk.current = none) :
    Sequenced (s.st u)
      (((s.st u).recordWritten ((s.st u).outcomeOf (some .interrupted) c) ((s.st u).closing c)).enterHalted
        .warmReset) := by
  have hb : (s.st u).busy = true := by simp [StationState.busy, hc]
  have reject : (RecordOutcome.interrupted != .good) = true := rfl
  constructor <;>
    simp [StationState.recordWritten, h1, hb, hc, reject, StationState.outcomeOf, Context.harden, enterHalted_faults]

/-- What the sequencer of a calmed station leaves of the part: its record and reservation, and the other station. -/
structure SequencedAt (u : Station) (s t : State) : Prop where
  station : Sequenced (s.st u) (t.st u)
  other : t.st u.other = s.st u.other
  record : ∃ new, t.records = s.records ++ new ∧ new.length = (s.st u).busy.toNat
    ∧ ∀ r ∈ new, r.outcome = .interrupted ∧ r.station = u ∧ r.heated = (s.st u).trail.tallies.heated
      ∧ r.walkReached = (s.st u).walk.reached ∧ r.bypassed = (s.st u).walk.bypassed
      ∧ ∃ c, (s.st u).current = some c ∧ r.job = c.job ∧ r.startTime = c.startTime
        ∧ r.firstFault = c.firstFault ∧ r.secondFault = c.secondFault
        ∧ r.heatTime =
          if (s.st u).mode = .heat then addHeatTime c.heatTime (s.time.since c.heatStart) else c.heatTime
  reservations : t.reservations = s.reservations - (s.st u).busy.toNat
  frame : Frame s t
  channel : t.channel = s.channel

/-- A station at work before its record is written: only its context, its job apart, and its dwells may have
changed. -/
theorem stopHeat_kept (s : State) (u : Station) {c : Context} (h : (s.st u).current = some c) :
    ∃ (d : Context) (k : Timer) (l : List Nat),
      (if (s.st u).mode = .heat then s.modSt u (StationState.stopHeat s.time) else s)
          = (s.modSt u fun x => { x with current := some d, dwellTimer := k, dwells := l })
        ∧ d.job = c.job ∧ d.startTime = c.startTime ∧ d.firstFault = c.firstFault ∧ d.secondFault = c.secondFault
        ∧ d.heatTime =
          if (s.st u).mode = .heat then addHeatTime c.heatTime (s.time.since c.heatStart) else c.heatTime := by
  have e : ∀ x : StationState, x.current = some c → ({ x with current := some c } : StationState) = x :=
    fun x k => by rw [← k]
  split
  · refine ⟨c.addHeat s.time, none, [], ?_, rfl, rfl, rfl, rfl, rfl⟩
    unfold StationState.stopHeat StationState.modContext State.modSt; dsimp only; rw [h]; rfl
  · exact ⟨c, (s.st u).dwellTimer, (s.st u).dwells,
      by unfold State.modSt; dsimp only; rw [e _ h]; exact (setSt_st s u).symm, rfl, rfl, rfl, rfl, rfl⟩

theorem warmSequencer_sequenced (s : State) (u : Station) (h1 : (s.st u).walk.current = none)
    (h2 : (s.st u).motion.mode = .stop) (h3 : (s.st u).motion.spindleDemand = 0) :
    SequencedAt u s (s.warmSequencer u) := by
  cases hc : (s.st u).current with
  | none =>
    have hb : (s.st u).busy = false := by simp [StationState.busy, hc]
    have e : s.warmSequencer u = s.modSt u StationState.warmIdle := by
      unfold State.warmSequencer; simp [hb]
    rw [e]
    exact ⟨by simpa using sequenced_idle hb h1 h2 h3, by simp, ⟨[], by simp [hb]⟩, by simp [hb],
      .modSt _ _ _, by simp⟩
  | some c =>
    have hb : (s.st u).busy = true := by simp [StationState.busy, hc]
    obtain ⟨d, k, l, hx, hj, h5, h6, h7, h8⟩ := stopHeat_kept s u hc
    have e : s.warmSequencer u
        = ((s.modSt u fun x => { x with current := some d, dwellTimer := k, dwells := l }).writeRecord u
            (some .interrupted)).modSt u (StationState.enterHalted .warmReset) := by
      rw [← hx]; unfold State.warmSequencer; simp [hb]
    rw [e]
    generalize hm : (s.modSt u fun x => { x with current := some d, dwellTimer := k, dwells := l }) = m
    have hs : m.st u = { s.st u with current := some d, dwellTimer := k, dwells := l } := by
      rw [← hm, st_modSt_self]
    have hd : (m.st u).current = some d := by rw [hs]
    have ho : m.st u.other = s.st u.other := by rw [← hm, st_modSt_other]
    have hf : Frame s m := hm ▸ Frame.modSt s u _
    have hr : m.records = s.records ∧ m.reservations = s.reservations ∧ m.channel = s.channel := by
      rw [← hm]; exact ⟨records_modSt _ _ _, reservations_modSt _ _ _, by simp⟩
    clear hm hx
    have w := sequenced_busy m u hd (by rw [hs]; exact h1)
    have wb := w.busy (by simp [StationState.busy, hd])
    have wr := writeRecord_busy m u (some .interrupted) hd
    have ww := w.wrote d hd
    refine ⟨?_, ?_, ?_, ?_, ?_, ?_⟩
    · rw [st_modSt_self, st_writeRecord_self m u (some .interrupted) hd]
      refine ⟨w.walk, w.walked.trans (by rw [hs]), ⟨w.faults.1, w.faults.2.trans (by rw [hs])⟩, w.stop, w.spindle, w.quench.trans (by rw [hs]), w.trail.trans (by rw [hs]),
        w.lines.trans (by rw [hs]), w.partConsumed.trans (by rw [hs]), w.current, w.settings.trans (by rw [hs]),
        fun _ => ⟨wb.1, wb.2.1, wb.2.2.trans (by rw [hs])⟩, fun k hk => ?_, ?_, ?_, ?_, ?_, ?_⟩
      · rw [hc] at hk; cases hk; rw [← hj]; exact ⟨ww.1, ww.2.trans (by rw [hs])⟩
      · intro q; rw [hb] at q; cases q
      · intro q; rw [wb.1] at q; cases q
      all_goals intro q; rw [hb] at q; cases q
    · rw [st_modSt_other, st_writeRecord_other, ho]
    · rw [records_modSt, wr]
      refine ⟨[(m.st u).recordOf u (some .interrupted) d], by rw [← hr.1]; simp, by simp [hb], fun r k => ?_⟩
      simp only [List.mem_singleton] at k; subst k
      have z : ∀ (f : Flags) (e : Context), (e.closeRepeat f).startTime = e.startTime
          ∧ (e.closeRepeat f).firstFault = e.firstFault ∧ (e.closeRepeat f).secondFault = e.secondFault
          ∧ (e.closeRepeat f).heatTime = e.heatTime := fun f e => by
        unfold Context.closeRepeat; split <;> exact ⟨rfl, rfl, rfl, rfl⟩
      obtain ⟨z1, z2, z3, z4⟩ := z (m.st u).trail.tallies.repeatUnion d
      exact ⟨rfl, rfl, by rw [hs]; rfl, by rw [hs]; rfl, by rw [hs]; rfl, c, hc,
        by rw [← hj]; exact closeRepeat_job _ _, z1.trans h5, z2.trans h6, z3.trans h7, z4.trans h8⟩
    · rw [reservations_modSt, wr, ← hr.2.1]; simp [hb]
    · exact hf.trans ((writeRecord_frame _ _ _).trans (.modSt _ _ _))
    · rw [← hr.2.2]; simp [channel_writeRecord]

/-! ### Both stations, and the queues -/

@[simp] theorem st_setFreeIndex (s : State) (n : Nat) (u : Station) :
    ({ s with freeIndex := n } : State).st u = s.st u := by cases u <;> rfl

/-- What holds of one thing done to both stations in either order. -/
theorem bothStations_cases (s : State) (act : Station → State → State) (p : State → Prop)
    (h : ∀ v n, p (act v.other (act v { s with freeIndex := n }))) : p (s.bothStations act) := by
  unfold State.bothStations; split
  · exact h _ _
  · exact h .a s.freeIndex

theorem dropAll_frame (l : List JobEntry) (s : State) : Frame s (l.foldl (fun s j => s.dropRef j.slot) s) := by
  induction l generalizing s with
  | nil => exact .refl _
  | cons x xs ih => exact (Frame.dropRef s _).trans (ih _)

theorem clearQueue_frame (s : State) (u : Station) : Frame s (s.clearQueue u) :=
  (dropAll_frame _ _).trans (.modSt _ _ _)

theorem clearQueue_rest (s : State) (u : Station) :
    (s.clearQueue u).records = s.records ∧ (s.clearQueue u).reservations = s.reservations
      ∧ (s.clearQueue u).channel = s.channel := by
  obtain ⟨-, -, h3, h4, h5, -⟩ := dropAll s (s.st u).queue
  unfold State.clearQueue; simp [h3, h4, h5]

end Sys2Proof.Machine
end

