-- ==== Sys2Proof/Laws/HandOff.lean ====
section
/-! SUPPORT. The hand-off lines at a warm reset (R140, R146, R150): how a line is requalified, what the answer to it
leaves of the release, what becomes of the part-consumed flag, and what RELEASE entry leaves (R43, R143, R144). -/

namespace Sys2Proof.Machine

/-! ### Requalifying a line -/

theorem qual_setQual (k : LoaderLine) (q : QualInput) (l : Lines) : (l.setQual k q).qual k = q := by
  cases k <;> rfl

theorem setQual_setQual (k : LoaderLine) (q r : QualInput) (l : Lines) :
    (l.setQual k q).setQual k r = l.setQual k r := by cases k <;> rfl

/-- What requalifying a line is, case by case. -/
theorem requalify_steady (s : State) (u : Station) (k : LoaderLine)
    (h : ((s.st u).lines.qual k).sampled = ((s.st u).lines.qual k).qualified) :
    s.requalify u k
      = s.modSt u fun x => x.modLines (Lines.setQual k { (s.st u).lines.qual k with timer := none }) := by
  unfold State.requalify; dsimp only; rw [if_pos h]

theorem requalify_waits (s : State) (u : Station) (k : LoaderLine)
    (h : ((s.st u).lines.qual k).sampled ≠ ((s.st u).lines.qual k).qualified)
    (q : 2 ≤ (s.st u).settings.qualFactor) :
    s.requalify u k
      = s.modSt u fun x =>
          x.modLines (Lines.setQual k { (s.st u).lines.qual k with timer := x.settings.qualTime }) := by
  unfold State.requalify; dsimp only; rw [if_neg h, if_neg]
  unfold StationSettings.qualTime; rw [if_neg (by omega)]; simp

theorem requalify_now (s : State) (u : Station) (k : LoaderLine)
    (h : ((s.st u).lines.qual k).sampled ≠ ((s.st u).lines.qual k).qualified)
    (q : (s.st u).settings.qualFactor < 2) :
    s.requalify u k
      = State.lineChanged u k ((s.st u).lines.qual k).sampled (s.modSt u fun x =>
          x.modLines (Lines.setQual k ⟨((s.st u).lines.qual k).sampled, ((s.st u).lines.qual k).sampled, none⟩)) := by
  unfold State.requalify State.qualify; dsimp only
  rw [if_neg h, if_pos (by unfold StationSettings.qualTime; rw [if_pos (by omega)]; rfl)]
  have e : ∀ z : StationState → Timer,
      ((s.modSt u fun x => x.modLines (Lines.setQual k { (s.st u).lines.qual k with timer := z x })).st
        u).lines.qual k = { (s.st u).lines.qual k with timer := z (s.st u) } := fun z => by
    rw [st_modSt_self]; exact qual_setQual _ _ _
  rw [e fun x => x.settings.qualTime]; dsimp only; rw [if_neg h, modSt_modSt]
  congr 2; funext x; simp only [StationState.modLines, setQual_setQual]

/-! ### The release -/

/-- What the hand-off's answer to a qualified change leaves of the release: outside RELEASE with the handshake idle
nothing of it moves, and RELEASE either lasts or ends. -/
structure Handed (x y : StationState) : Prop where
  outside : x.mode ≠ .release → x.lines.handshake = .idle → x.lines.handshakeTimer = none →
    y.mode = x.mode ∧ y.lines.handshake = .idle ∧ y.lines.handshakeTimer = none ∧ y.finished = x.finished
      ∧ y.releaseOwed = x.releaseOwed
  release : x.mode = .release →
    (y.mode = .release ∧ y.finished = x.finished ∧ y.releaseOwed = x.releaseOwed)
      ∨ (y.mode = (if x.queue = [] then .idle else .waitPart) ∧ y.finished = none ∧ y.releaseOwed = none
          ∧ y.lines.handshake = .idle ∧ y.lines.handshakeTimer = none)
  queue : y.queue = x.queue

theorem Handed.refl (x : StationState) : Handed x x :=
  ⟨fun _ h k => ⟨rfl, h, k, rfl, rfl⟩, fun h => .inl ⟨h, rfl, rfl⟩, rfl⟩

theorem Handed.trans {x y z : StationState} (h : Handed x y) (k : Handed y z) : Handed x z where
  outside a b c := by
    obtain ⟨h1, h2, h3, h4, h5⟩ := h.outside a b c
    obtain ⟨k1, k2, k3, k4, k5⟩ := k.outside (by rw [h1]; exact a) h2 h3
    exact ⟨k1.trans h1, k2, k3, k4.trans h4, k5.trans h5⟩
  release a := by
    rcases h.release a with ⟨h1, h2, h3⟩ | ⟨h1, h2, h3, h4, h5⟩
    · rcases k.release h1 with ⟨k1, k2, k3⟩ | ⟨k1, k2⟩
      · exact .inl ⟨k1, k2.trans h2, k3.trans h3⟩
      · exact .inr ⟨by rw [k1, h.queue], k2⟩
    · obtain ⟨k1, k2, k3, k4, k5⟩ := k.outside (by rw [h1]; split <;> simp) h4 h5
      exact .inr ⟨k1.trans h1, k4.trans h2, k5.trans h3, k2, k3⟩
  queue := k.queue.trans h.queue

theorem handed_setQual (x : StationState) (k : LoaderLine) (q : QualInput) :
    Handed x (x.modLines (Lines.setQual k q)) :=
  ⟨fun _ h t => by cases k <;> exact ⟨rfl, h, t, rfl, rfl⟩, fun h => .inl ⟨h, rfl, rfl⟩, rfl⟩

/-- In RELEASE a step of the handshake leaves RELEASE or stays there. -/
theorem handed_complete {x : StationState} (h : x.mode = .release) : Handed x x.completeHandshake := by
  refine ⟨fun q => absurd h q, fun _ => .inr ?_, (lined_completeHandshake x).queue⟩
  unfold StationState.completeHandshake
  simp [h, StationState.setHandshake, StationState.modLines, StationState.enterIdleOrWait]

theorem handed_setHandshake {x : StationState} (h : x.mode = .release) (a : Handshake) (t : Timer) :
    Handed x (x.setHandshake a t) :=
  ⟨fun q => absurd h q, fun _ => .inl ⟨h, rfl, rfl⟩, rfl⟩

theorem handed_assertDone {x : StationState} (h : x.mode = .release) : Handed x x.assertDone := by
  unfold StationState.assertDone; dsimp only
  split
  · exact ⟨fun q => absurd h q, fun _ => .inl ⟨h, rfl, rfl⟩, rfl⟩
  · split
    · exact ⟨fun q => absurd h q, fun _ => .inl ⟨h, rfl, rfl⟩, rfl⟩
    · split
      · exact handed_complete h
      · exact handed_setHandshake h _ _

theorem handed_startStep {x : StationState} (h : x.mode = .release) : Handed x x.startStep := by
  unfold StationState.startStep; split
  · exact handed_setHandshake h _ _
  · exact handed_assertDone h

theorem handed_begin {x : StationState} (h : x.mode = .release) : Handed x x.beginHandshake := by
  unfold StationState.beginHandshake; split
  · exact handed_setHandshake h _ _
  · exact handed_startStep h

/-- Outside RELEASE with the handshake idle, or in RELEASE. -/
def Handable (x : StationState) : Prop := x.mode = .release ∨ x.lines.handshake = .idle

/-- The same with no handshake timer. -/
def Rested (x : StationState) : Prop :=
  x.mode = .release ∨ x.lines.handshake = .idle ∧ x.lines.handshakeTimer = none

theorem handed_hold {x : StationState} (h : Handable x) (b : Bool) : Handed x (x.holdChanged b) := by
  unfold StationState.holdChanged; split
  · next e => rcases h with h | h
              · exact handed_setHandshake h _ _
              · rw [e] at h; cases h
  · next e => rcases h with h | h
              · exact handed_startStep h
              · rw [e] at h; cases h
  · exact .refl _

theorem handed_gone {x : StationState} (h : Handable x) : Handed x x.presentGone := by
  have k : Handed x { x with partConsumed := false } :=
    ⟨fun _ h t => ⟨rfl, h, t, rfl, rfl⟩, fun h => .inl ⟨h, rfl, rfl⟩, rfl⟩
  unfold StationState.presentGone; dsimp only; split
  · next e => rcases h with h | h
              · exact k.trans (handed_complete h)
              · rw [e] at h; cases h
  · exact k

theorem Handed.rested {x y : StationState} (h : Handed x y) (k : Rested x) : Rested y := by
  by_cases m : x.mode = .release
  · rcases h.release m with a | a
    · exact .inl a.1
    · exact .inr ⟨a.2.2.2.1, a.2.2.2.2⟩
  · rcases k with k | k
    · exact absurd k m
    · have := h.outside m k.1 k.2; exact .inr ⟨this.2.1, this.2.2.1⟩

theorem Rested.able {x : StationState} (k : Rested x) : Handable x := k.imp_right (·.1)

theorem lineChanged_handed (s : State) (u : Station) (k : LoaderLine) (a : Bool)
    (w : (s.st u).walk.current ≠ some .w1) (h : Handable (s.st u)) :
    Handed (s.st u) ((s.lineChanged u k a).st u) := by
  have j : s.judgeW1 u = s := by unfold State.judgeW1; rw [if_neg fun q => w q.1]
  unfold State.lineChanged; split
  · rw [j]; exact .refl _
  · rw [j]; exact .refl _
  · rw [st_modSt_self]; exact handed_gone h
  · exact .refl _
  · rw [st_modSt_self]; exact handed_hold h _

theorem requalify_handed (s : State) (u : Station) (k : LoaderLine) (w : (s.st u).walk.current ≠ some .w1)
    (h : Rested (s.st u)) : Handed (s.st u) ((s.requalify u k).st u) := by
  by_cases e : ((s.st u).lines.qual k).sampled = ((s.st u).lines.qual k).qualified
  · rw [requalify_steady s u k e, st_modSt_self]; exact handed_setQual _ _ _
  · by_cases q : (s.st u).settings.qualFactor < 2
    · rw [requalify_now s u k e q]
      have A := handed_setQual (s.st u) k ⟨((s.st u).lines.qual k).sampled, ((s.st u).lines.qual k).sampled, none⟩
      refine A.trans ?_
      have B := lineChanged_handed (s.modSt u fun x => x.modLines
        (Lines.setQual k ⟨((s.st u).lines.qual k).sampled, ((s.st u).lines.qual k).sampled, none⟩)) u k
        ((s.st u).lines.qual k).sampled (by rw [st_modSt_self]; exact w)
        (by rw [st_modSt_self]; exact (A.rested h).able)
      rw [st_modSt_self] at B; exact B
    · rw [requalify_waits s u k e (by omega), st_modSt_self]; exact handed_setQual _ _ _

theorem warmLines_handed (s : State) (u : Station) (w : (s.st u).walk.current ≠ some .w1) :
    Handed ((s.st u).setHandshake .idle none) ((s.warmLines u).st u) := by
  unfold State.warmLines; dsimp only
  set r := s.modSt u fun x =>
    if (x.setHandshake .idle none).mode = .release then (x.setHandshake .idle none).beginHandshake
    else x.setHandshake .idle none with hr
  have A : Handed ((s.st u).setHandshake .idle none) (r.st u) := by
    rw [hr, st_modSt_self]; split
    · next h => exact handed_begin h
    · exact .refl _
  have k0 : (r.st u).mode = .release ∨ (r.st u).lines.handshake = .idle ∧ (r.st u).lines.handshakeTimer = none :=
    A.rested (.inr ⟨rfl, rfl⟩)
  have w0 : (r.st u).walk.current ≠ some .w1 := by
    rw [hr, st_modSt_self]; split
    · rw [(lined_beginHandshake _).walk]; exact w
    · exact w
  clear_value r
  have B := requalify_handed r u .present w0 k0
  have k1 := B.rested k0
  have w1 : ((r.requalify u .present).st u).walk.current ≠ some .w1 := by
    rw [(requalify_lined r u .present w0).st.walk]; exact w0
  have C := requalify_handed _ u .clamped w1 k1
  have w2 : (((r.requalify u .present).requalify u .clamped).st u).walk.current ≠ some .w1 := by
    rw [(requalify_lined _ u .clamped w1).st.walk]; exact w1
  exact A.trans (B.trans (C.trans (requalify_handed _ u .hold w2 (C.rested k1))))


/-! ### The part-consumed flag, and a qualification time -/

theorem holdChanged_idle {x : StationState} (h : x.lines.handshake = .idle) (b : Bool) : x.holdChanged b = x := by
  unfold StationState.holdChanged; rw [h]

theorem presentGone_idle {x : StationState} (h : x.lines.handshake = .idle) :
    x.presentGone = { x with partConsumed := false } := by
  unfold StationState.presentGone; dsimp only; rw [if_neg (by rw [h]; decide)]

/-- Outside RELEASE a line requalified leaves the part-consumed flag, but for PRESENT gone at once. -/
theorem requalify_idle (s : State) (u : Station) (k : LoaderLine) (w : (s.st u).walk.current ≠ some .w1)
    (i : (s.st u).lines.handshake = .idle) :
    ∃ q, (s.requalify u k).st u =
      { s.st u with
        lines := (s.st u).lines.setQual k q
        partConsumed :=
          if k = .present ∧ (s.st u).lines.present.qualified = true ∧ (s.st u).lines.present.sampled = false
              ∧ (s.st u).settings.qualFactor < 2 then false
          else (s.st u).partConsumed } := by
  have no : ∀ c : QualInput, ((s.st u).lines.setQual k c).handshake = .idle := fun c => by cases k <;> exact i
  by_cases h : ((s.st u).lines.qual k).sampled = ((s.st u).lines.qual k).qualified
  · rw [requalify_steady s u k h, st_modSt_self]
    refine ⟨{ (s.st u).lines.qual k with timer := none }, ?_⟩
    rw [if_neg]; · rfl
    rintro ⟨rfl, a, b, -⟩; simp only [Lines.qual] at h; rw [a, b] at h; cases h
  · by_cases q : (s.st u).settings.qualFactor < 2
    · rw [requalify_now s u k h q]
      refine ⟨⟨((s.st u).lines.qual k).sampled, ((s.st u).lines.qual k).sampled, none⟩, ?_⟩
      have j : ∀ r : State, (r.st u).walk = (s.st u).walk → r.judgeW1 u = r := fun r h => by
        unfold State.judgeW1; rw [if_neg fun q => w (h ▸ q.1)]
      cases e : ((s.st u).lines.qual k).sampled <;> cases k <;> simp only [State.lineChanged]
      · rw [st_modSt_self, st_modSt_self, presentGone_idle (by exact i), if_pos]; · rfl
        simp only [Lines.qual] at h e; rw [e] at h; exact ⟨trivial, by simpa using h, e, q⟩
      · rw [st_modSt_self, if_neg]; · rfl
        rintro ⟨a, -⟩; cases a
      · rw [st_modSt_self, st_modSt_self, holdChanged_idle (by exact i), if_neg]; · rfl
        rintro ⟨a, -⟩; cases a
      · rw [j _ (by rw [st_modSt_self]; rfl), st_modSt_self, if_neg]; · rfl
        rintro ⟨-, -, b, -⟩; simp only [Lines.qual] at e; rw [b] at e; cases e
      · rw [j _ (by rw [st_modSt_self]; rfl), st_modSt_self, if_neg]; · rfl
        rintro ⟨a, -⟩; cases a
      · rw [st_modSt_self, st_modSt_self, holdChanged_idle (by exact i), if_neg]; · rfl
        rintro ⟨a, -⟩; cases a
    · rw [requalify_waits s u k h (by omega), st_modSt_self]
      refine ⟨{ (s.st u).lines.qual k with timer := (s.st u).settings.qualTime }, ?_⟩
      rw [if_neg]; · rfl
      rintro ⟨-, -, -, a⟩; exact q a

/-- The lines at a warm reset outside RELEASE: the handshake idle, and the part-consumed flag as it was unless PRESENT
has gone with no qualification time. -/
theorem warmLines_idle (s : State) (u : Station) (w : (s.st u).walk.current ≠ some .w1)
    (m : (s.st u).mode ≠ .release) :
    ((s.warmLines u).st u).partConsumed
      = if (s.st u).lines.present.qualified = true ∧ (s.st u).lines.present.sampled = false
          ∧ (s.st u).settings.qualFactor < 2 then false else (s.st u).partConsumed := by
  unfold State.warmLines; dsimp only
  set r := s.modSt u fun x =>
    if (x.setHandshake .idle none).mode = .release then (x.setHandshake .idle none).beginHandshake
    else x.setHandshake .idle none with hr
  have e : r.st u = (s.st u).setHandshake .idle none := by rw [hr, st_modSt_self, if_neg (by exact m)]
  clear_value r
  obtain ⟨q1, c1⟩ := requalify_idle r u .present (by rw [e]; exact w) (by rw [e]; rfl)
  obtain ⟨q2, c2⟩ := requalify_idle _ u .clamped (by rw [c1, e]; exact w) (by rw [c1, e]; rfl)
  obtain ⟨q3, c3⟩ := requalify_idle _ u .hold (by rw [c2, c1, e]; exact w) (by rw [c2, c1, e]; rfl)
  rw [c3, c2, c1, e]; simp [Lines.setQual, StationState.setHandshake, StationState.modLines]

/-- With a qualification time the lines at a warm reset only start their timers. -/
theorem requalify_timed (s : State) (u : Station) (k : LoaderLine) (q : 2 ≤ (s.st u).settings.qualFactor) :
    ∃ t, (s.requalify u k).st u
      = (s.st u).modLines (Lines.setQual k { (s.st u).lines.qual k with timer := t }) := by
  by_cases h : ((s.st u).lines.qual k).sampled = ((s.st u).lines.qual k).qualified
  · rw [requalify_steady s u k h, st_modSt_self]; exact ⟨_, rfl⟩
  · rw [requalify_waits s u k h q, st_modSt_self]; exact ⟨_, rfl⟩

theorem warmLines_timed (s : State) (u : Station) (q : 2 ≤ (s.st u).settings.qualFactor)
    (m : (s.st u).mode = .release) :
    ∃ l, (s.warmLines u).st u = { ((s.st u).setHandshake .idle none).beginHandshake with lines := l } := by
  unfold State.warmLines; dsimp only
  set r := s.modSt u fun x =>
    if (x.setHandshake .idle none).mode = .release then (x.setHandshake .idle none).beginHandshake
    else x.setHandshake .idle none with hr
  have e : r.st u = ((s.st u).setHandshake .idle none).beginHandshake := by
    rw [hr, st_modSt_self, if_pos (by exact m)]
  have es : (r.st u).settings = (s.st u).settings := by rw [e, (lined_beginHandshake _).settings]; rfl
  clear_value r
  obtain ⟨t1, h1⟩ := requalify_timed r u .present (by rw [es]; exact q)
  obtain ⟨t2, h2⟩ := requalify_timed (r.requalify u .present) u .clamped (by
    rw [h1]; show 2 ≤ (r.st u).settings.qualFactor; rw [es]; exact q)
  obtain ⟨t3, h3⟩ := requalify_timed ((r.requalify u .present).requalify u .clamped) u .hold (by
    rw [h2, h1]; show 2 ≤ (r.st u).settings.qualFactor; rw [es]; exact q)
  rw [h3, h2, h1, ← e]; exact ⟨_, rfl⟩

theorem completeHandshake_release {x : StationState} (m : x.mode = .release) :
    (x.completeHandshake.mode = if x.queue = [] then .idle else .waitPart)
      ∧ x.completeHandshake.partConsumed = x.partConsumed := by
  unfold StationState.completeHandshake; rw [if_pos m]
  simp [StationState.enterIdleOrWait, StationState.setHandshake, StationState.modLines]

/-- A handshake begun in RELEASE: whether it lasts (R143, R144), and the part-consumed flag (R43). -/
theorem beginHandshake_release {x : StationState} (m : x.mode = .release) :
    (x.beginHandshake.mode = .release ↔ x.Releases)
      ∧ x.beginHandshake.partConsumed =
        if x.lines.hold.qualified = true ∨ x.settings.handshakeType = .delayed ∧ 0 < x.settings.doneDelay then
          x.partConsumed
        else x.partConsumed || x.lines.present.qualified := by
  unfold StationState.beginHandshake StationState.Releases
  have c := completeHandshake_release m
  cases h : x.lines.hold.qualified
  · rw [if_neg (by simp)]
    unfold StationState.startStep
    by_cases d : x.settings.handshakeType = .delayed ∧ 0 < x.settings.doneDelay
    · rw [if_pos d]; simp [d, m, StationState.setHandshake, StationState.modLines]
    · rw [if_neg d]; unfold StationState.assertDone; dsimp only
      by_cases p : x.settings.handshakeType = .pulse
      · rw [if_pos p]; simp [p, m, StationState.setHandshake, StationState.modLines]
      · rw [if_neg p]
        cases q : x.lines.present.qualified
        · rw [if_neg (by simp)]
          by_cases z : x.settings.doneDelay = 0
          · rw [if_pos z, c.1, c.2]
            have : ¬ (if x.queue = [] then Mode.idle else Mode.waitPart) = .release := by split <;> simp
            simp [z, p, this]
          · rw [if_neg z]
            have : 0 < x.settings.doneDelay := by omega
            simp [this, m, StationState.setHandshake, StationState.modLines]
        · rw [if_pos rfl]; simp [d, m, StationState.setHandshake, StationState.modLines]
  · rw [if_pos rfl]; simp [m, StationState.setHandshake, StationState.modLines]

/-- What RELEASE entry leaves of a station with the lines, settings and part-consumed flag of `x` (R43, R143, R144). -/
theorem enterRelease_entered {x c : StationState} (l : c.lines = x.lines) (g : c.settings = x.settings)
    (p : c.partConsumed = x.partConsumed) : ReleaseEntered x c.enterRelease c.releaseOwed c.finished := by
  have hd : c.settings.doneDelay = x.settings.doneDelay := by rw [g]
  have ht : c.settings.handshakeType = x.settings.handshakeType := by rw [g]
  unfold StationState.enterRelease
  have t : ({ ((c.setTravel .stop).modMotion (Motion.setSpindle 0)) with mode := .release } : StationState)
      = { c with motion := spindleSet 0 (modeSet .stop c.motion), mode := .release } := by
    rw [setTravel_eq]
    simp [TravelMode.handsAxis, StationState.modMotion, setSpindle_eq]
  rw [t]
  rcases Nat.eq_zero_or_pos x.settings.doneDelay with d | d <;>
    cases hh : x.lines.hold.qualified <;> cases hp : x.lines.present.qualified <;>
    cases hty : x.settings.handshakeType <;> constructor <;>
    simp [StationState.beginHandshake, StationState.startStep, StationState.assertDone,
      StationState.completeHandshake, StationState.Releases, handshakeBegun, consumedBegun, hd, ht, hh, hp, hty, d,
      StationState.setHandshake, StationState.modLines, l, p, StationState.enterIdleOrWait, setTravel_eq,
      TravelMode.handsAxis, StationState.modMotion, setSpindle_eq, spindleSet, modeSet] <;>
    first | omega | simp_all [Nat.ne_of_gt]

end Sys2Proof.Machine
end

