-- ==== Sys2Proof/Laws/Library.lean ====
section
/-! SUPPORT. The profile library (chapter 1): the first failure of a CLOSE, and a profile read at a position. -/

namespace Sys2Proof.Machine

/-! ### Validation -/

/-- A list of checks, one at a time. -/
theorem firstFailure_cons (ok : Bool) (cause : Nat) (rest : List (Bool × Nat)) :
    firstFailure ((ok, cause) :: rest) = if ok = true then firstFailure rest else some cause := by cases ok <;> rfl

theorem firstFailure_nil : firstFailure [] = none := rfl

/-- The first index of a range that is found. -/
theorem find_range_first (n : Nat) (f : Nat → Bool) (i : Nat) (hi : i < n) (h : f i = true)
    (before : ∀ j, j < i → f j = false) : (List.range n).find? f = some i := by
  rw [List.find?_range_eq_some]; simp_all

theorem find_range_none (n : Nat) (f : Nat → Bool) (h : ∀ j, j < n → f j = false) :
    (List.range n).find? f = none := by
  rw [List.find?_range_eq_none]; simp_all

/-- The first index of a range that answers. -/
theorem findSome_range_first {β : Type} (n : Nat) (f : Nat → Option β) (i : Nat) (b : β) (hi : i < n)
    (h : f i = some b) (before : ∀ j, j < i → f j = none) : (List.range n).findSome? f = some b := by
  obtain ⟨k, rfl⟩ : ∃ k, n = i + (k + 1) := ⟨n - i - 1, by omega⟩
  rw [List.range_add, List.findSome?_append, List.findSome?_eq_none_iff.2 (by simpa using before)]
  simp [List.range_succ_eq_map, h]

/-- Phase 6 of R7 passes a segment exactly where its four checks hold. -/
theorem phaseSix_none_iff (rated : Nat) (p : Profile) (i : Nat) :
    let g := segGet p.segs i
    phaseSix rated p i = none ↔ g.power ≤ rated ∧ (∀ lo hi, g.window = some (lo, hi) → lo ≤ hi)
      ∧ (i = 0 → g.ramp = none) ∧ ∀ r, g.ramp = some r → r ≤ segLength p i := by
  intro g
  have e : phaseSix rated p i
      = firstFailure
          [(g.power ≤ rated, 21), (g.window.all fun w => w.1 ≤ w.2, 22), (!(i == 0 && g.ramp.isSome), 23),
            (g.ramp.all fun r => r ≤ segLength p i, 24)] := rfl
  rw [e]; clear e
  rcases hw : g.window with _ | ⟨lo, hi⟩ <;> rcases hr : g.ramp with _ | r <;>
    simp [firstFailure, List.find?_eq_none]

/-! ### Reading a profile at a position (R5, R14, R15) -/

/-- Where the starts rise, the segments of a list whose start lies at or below a position come first. -/
theorem starts_split (x : Nat) (l : List Segment) (rising : l.Pairwise fun a b => a.start < b.start) :
    let n := (l.takeWhile fun g => g.start ≤ x).length
    n ≤ l.length ∧ (∀ j, j < n → (segGet l j).start ≤ x) ∧ ∀ j, n ≤ j → j < l.length → x < (segGet l j).start := by
  induction l with
  | nil => simp
  | cons a l ih =>
    simp only [List.pairwise_cons] at rising
    obtain ⟨i1, i2, i3⟩ := ih rising.2
    simp only [List.takeWhile_cons]
    by_cases ha : a.start ≤ x
    · simp only [ha, decide_true, if_true, List.length_cons]
      refine ⟨by omega, fun j hj => ?_, fun j hj hl => ?_⟩
      · cases j with
        | zero => simpa [segGet] using ha
        | succ j => simpa [segGet] using i2 j (by omega)
      · cases j with
        | zero => omega
        | succ j => simpa [segGet] using i3 j (by omega) (by omega)
    · simp only [ha, decide_false, Bool.false_eq_true, if_false, List.length_nil]
      refine ⟨by omega, by omega, fun j _ hl => ?_⟩
      cases j with
      | zero => simp only [segGet, List.getD_cons_zero]; omega
      | succ j =>
        have hl : j < l.length := by simpa using hl
        have m : segGet (a :: l) (j + 1) ∈ l := by simp [segGet, List.getElem?_eq_getElem hl]
        have := rising.1 _ m
        omega

/-- The ramp of R14 in natural numbers, inside the ramp. -/
theorem rampValue_eq (p d r x : Nat) (hx : x < r) :
    rampValue p d r x = if p ≤ d then p + (d - p) * x / r else p - (p - d) * x / r := by
  unfold rampValue; split
  · next h =>
    have e : ((d : Int) - p) * x = (((d - p) * x : Nat) : Int) := by push_cast [Nat.cast_sub h]; ring
    rw [e, Int.tdiv_eq_ediv_of_nonneg (by positivity)]
    norm_cast
  · next h =>
    have h : d ≤ p := by omega
    have e : ((d : Int) - p) * x = -(((p - d) * x : Nat) : Int) := by push_cast [Nat.cast_sub h]; ring
    have q : ((((p - d) * x : Nat) : Int) / (r : Int)) = (((p - d) * x / r : Nat) : Int) := by norm_cast
    have small : (p - d) * x / r ≤ p := Nat.div_le_of_le_mul (by nlinarith [Nat.sub_le p d])
    rw [e, Int.neg_tdiv, Int.tdiv_eq_ediv_of_nonneg (by positivity), q]
    omega

/-- The dwell segments reached, each once, in ascending index. -/
theorem dwellSegments_sorted (segs : List Segment) (hit : Nat → Bool) :
    (dwellSegments segs hit).Pairwise (· < ·) := by
  have h : segs.zipIdx.Pairwise (fun a b => a.2 < b.2) := by
    have h := List.pairwise_lt_range' (s := 0) (n := segs.length)
    rwa [← List.zipIdx_map_snd 0 segs, List.pairwise_map] at h
  unfold dwellSegments
  rw [List.pairwise_filterMap]
  refine h.imp fun {a b} hab x hx y hy => ?_
  simp only [Option.ite_none_right_eq_some, Option.some.injEq] at hx hy
  omega

theorem mem_dwellSegments (segs : List Segment) (hit : Nat → Bool) (i : Nat) :
    i ∈ dwellSegments segs hit ↔
      ∃ g, segs[i]? = some g ∧ g.dwell.isSome = true ∧ hit g.start = true := by
  simp [dwellSegments, List.mem_filterMap, List.mem_zipIdx_iff_getElem?]

end Sys2Proof.Machine
end

