-- ==== Sys2Proof/Laws/Start.lean ====
section
/-! SUPPORT. The judgement of the start conditions (R25): that it leaves no station whose conditions hold, that it does
nothing where none hold, and which operations of a step can make none hold. -/

namespace Sys2Proof.Machine

/-! ### The start conditions -/

theorem startable_iff (s : State) (u : Station) :
    s.startable u = true ↔ ∃ j rest, (s.st u).queue = j :: rest ∧ s.startConditions u j = true := by
  unfold State.startable
  cases (s.st u).queue with
  | nil => simp
  | cons j rest => simp

theorem startConditions_iff (s : State) (u : Station) (j : JobEntry) :
    s.startConditions u j = true ↔ Startable s u j := by
  have h : (decide (s.records.length + s.reservations < Config.recordCapacity) = true)
      = (s.records.length + s.reservations < 16) := decide_eq_true_eq
  simp only [State.startConditions, StationState.clamped, Startable, Bool.and_eq_true, Bool.or_eq_true,
    beq_iff_eq, Bool.not_eq_true', h]
  cases j.kind <;> simp [and_assoc]

/-- What the start conditions read of a state. -/
theorem startable_same {s t : State} {u : Station} (hm : (t.st u).mode = (s.st u).mode)
    (hq : (t.st u).queue = (s.st u).queue) (hs : (t.st u).signs = (s.st u).signs) (hr : t.run = s.run)
    (hn : t.records.length + t.reservations = s.records.length + s.reservations) :
    t.startable u = s.startable u := by
  simp only [StationState.signs, Prod.mk.injEq] at hs
  simp only [State.startable, State.startConditions, StationState.clamped, hm, hq, hr, hn, hs.1, hs.2.1,
    hs.2.2.1, hs.2.2.2]

theorem not_startable_of_mode {s : State} {u : Station} (h : (s.st u).mode ≠ .waitPart) :
    s.startable u = false := by
  cases k : s.startable u with
  | false => rfl
  | true =>
    obtain ⟨j, _, -, hs⟩ := (startable_iff s u).mp k
    exact absurd ((startConditions_iff s u j).mp hs).1 h

theorem not_startable_of_queue {s : State} {u : Station} (h : (s.st u).queue = []) : s.startable u = false := by
  simp [State.startable, h]

theorem not_startable_of_run {s : State} (u : Station) (h : s.run ≠ .running) : s.startable u = false := by
  cases k : s.startable u with
  | false => rfl
  | true =>
    obtain ⟨j, _, -, hs⟩ := (startable_iff s u).mp k
    exact absurd ((startConditions_iff s u j).mp hs).2.1 h

/-! ### Operations that make no start condition hold -/

/-- Where no station's start conditions hold before, none hold after. -/
def Still (s t : State) : Prop := StartsTaken s → StartsTaken t

theorem Still.refl (s : State) : Still s s := id

theorem Still.trans {s t r : State} (h : Still s t) (k : Still t r) : Still s r := fun x => k (h x)

theorem Still.of_taken {s t : State} (h : StartsTaken t) : Still s t := fun _ => h

theorem Calm.still {s t : State} (h : Calm s t) : Still s t := fun k u => by
  by_cases m : (t.st u).mode = .waitPart
  · obtain ⟨hm, hs⟩ := (h.carries u).waits m
    rw [startable_same (m.trans hm.symm) (h.carries u).queue hs h.run (by rw [h.records, h.reservations])]
    exact k u
  · exact not_startable_of_mode m

theorem Served.still {s t : State} (h : Served s t) : Still s t := h.toCalm.still

theorem Still.modSt (s : State) (u : Station) {f : StationState → StationState}
    (h : Carries (s.st u) (f (s.st u))) : Still s (s.modSt u f) := (Calm.modSt s u h).still

theorem Still.ite {s t r : State} {p : Prop} [Decidable p] (h : Still s t) (k : Still s r) :
    Still s (if p then t else r) := by
  split
  · exact h
  · exact k

/-- A change that keeps the stations' modes, queues and signs, the run state and the sum of the records. -/
theorem Still.same {s t : State} (hm : ∀ u, (t.st u).mode = (s.st u).mode)
    (hq : ∀ u, (t.st u).queue = (s.st u).queue) (hs : ∀ u, (t.st u).signs = (s.st u).signs)
    (hr : t.run = s.run) (hn : t.records.length + t.reservations = s.records.length + s.reservations) :
    Still s t := fun k u => by rw [startable_same (hm u) (hq u) (hs u) hr hn]; exact k u

theorem Still.setLink (s : State) (l : Link) : Still s (s.setLink l) :=
  .same (fun u => by rw [st_setLink]) (fun u => by rw [st_setLink]) (fun u => by rw [st_setLink]) rfl rfl

theorem Still.setSlots (s : State) (v : Vector Slot 8) : Still s (s.setSlots v) :=
  .same (fun u => by rw [st_setSlots]) (fun u => by rw [st_setSlots]) (fun u => by rw [st_setSlots]) rfl rfl

theorem Still.elapse (s : State) (n : Nat) : Still s (s.elapse n) :=
  .same (fun u => by rw [st_elapse]; rfl) (fun u => by rw [st_elapse]; rfl) (fun u => by rw [st_elapse]; rfl)
    rfl rfl

/-- An expiry after which none hold where none held. -/
theorem Still.expire (s : State) (t : Timer) (act : State → State) (h : ∀ b, Still b (act b)) :
    Still s (s.expire t act) := by
  unfold State.expire; split
  · exact .refl _
  · exact (Still.elapse _ _).trans (h _)

/-! ### Taking head jobs -/

/-- Taking the head job removes it from its queue and leaves the other queue. -/
theorem takeHead_queues {s : State} {u : Station} (h : s.startable u = true) :
    ((s.takeHead u).st u).queue = (s.st u).queue.tail
      ∧ ((s.takeHead u).st u.other).queue = (s.st u.other).queue := by
  obtain ⟨j, rest, hq, hs⟩ := (startable_iff s u).mp h
  obtain ⟨hu, ho⟩ := st_headTaken s u j
  have e : s.takeHead u = if travelFits ((s.headTaken u j).st u).settings
      ((s.headTaken u j).slot j.slot).profile.start ((s.headTaken u j).slot j.slot).profile.stop
      then (s.headTaken u j).startWalk u else (s.headTaken u j).refuseStart u j := by
    unfold State.takeHead; rw [hq]; dsimp only; rw [if_pos hs]; rfl
  rw [e]; split
  · have c := (startWalk_served (s.headTaken u j) u).carries
    rw [(c u).queue, (c u.other).queue, hu, ho]; exact ⟨rfl, rfl⟩
  · unfold State.refuseStart
    rw [st_modSt_self, st_modSt_other, st_writeRecord_other, ho]
    refine ⟨?_, rfl⟩
    have q := writeRecord_queue (s.headTaken u j) u (some .refusedAtStart)
    split
    · rw [(enterRelease_jobs _).2, q, hu]; rfl
    · rw [(enterIdleOrWait_jobs _).2, q, hu]; rfl

/-- How many jobs are pending. -/
def State.waitingJobs (s : State) : Nat := s.a.queue.length + s.b.queue.length

theorem waitingJobs_eq (s : State) (u : Station) :
    s.waitingJobs = (s.st u).queue.length + (s.st u.other).queue.length := by
  cases u
  · rfl
  · exact Nat.add_comm _ _

theorem waitingJobs_takeHead {s : State} {u : Station} (h : s.startable u = true) :
    (s.takeHead u).waitingJobs + 1 = s.waitingJobs := by
  obtain ⟨h1, h2⟩ := takeHead_queues h
  obtain ⟨j, rest, hq, -⟩ := (startable_iff s u).mp h
  rw [waitingJobs_eq _ u, waitingJobs_eq s u, h1, h2, hq]
  simp only [List.tail_cons, List.length_cons]; omega

theorem startable_setFreeIndex (s : State) (n : Nat) (u : Station) :
    ({ s with freeIndex := n } : State).startable u = s.startable u := by cases u <;> rfl

theorem takeStarts_taken (n : Nat) (s : State) (h : s.waitingJobs ≤ n) : StartsTaken (s.takeStarts n) := by
  induction n generalizing s with
  | zero =>
    intro u; apply not_startable_of_queue
    have := waitingJobs_eq s u
    exact List.length_eq_zero_iff.mp (by simp only [State.takeStarts]; omega)
  | succ n ih =>
    unfold State.takeStarts; split
    · next ha =>
      split
      · next hb =>
        refine ih _ ?_
        have k : ∀ v, State.waitingJobs (State.takeHead v { s with freeIndex := s.freeIndex + 1 }) + 1
            = s.waitingJobs := fun v =>
          waitingJobs_takeHead (by rw [startable_setFreeIndex]; cases v <;> assumption)
        have := k (if Config.stationAFirst s.freeIndex then Station.a else Station.b); omega
      · exact ih _ (by have := waitingJobs_takeHead ha; omega)
    · next ha =>
      split
      · next hb => exact ih _ (by have := waitingJobs_takeHead hb; omega)
      · next hb =>
        intro u; cases u
        · simpa using ha
        · simpa using hb

/-- After the judgement no station waits with start conditions that hold (R25). -/
theorem judgeStarts_taken (s : State) : StartsTaken s.judgeStarts := takeStarts_taken _ _ (Nat.le_refl _)

theorem judgeStarts_still (s : State) : Still s s.judgeStarts := .of_taken (judgeStarts_taken s)

theorem takeStarts_none {s : State} (h : StartsTaken s) (n : Nat) : s.takeStarts n = s := by
  cases n with
  | zero => rfl
  | succ n => unfold State.takeStarts; rw [if_neg (by rw [h .a]; decide), if_neg (by rw [h .b]; decide)]

/-- Where no start conditions hold the judgement changes nothing. -/
theorem judgeStarts_none {s : State} (h : StartsTaken s) : s.judgeStarts = s := takeStarts_none h _

/-- Fuel beyond the jobs pending takes nothing more. -/
theorem takeStarts_enough (n : Nat) (s : State) (h : s.waitingJobs ≤ n) : s.takeStarts n = s.judgeStarts := by
  have k : ∀ m (s : State), s.waitingJobs ≤ m → ∀ n, m ≤ n → s.takeStarts n = s.takeStarts m := by
    intro m
    induction m with
    | zero => intro s hs n _; exact takeStarts_none (takeStarts_taken 0 s hs) n
    | succ m ih =>
      intro s hs n hn
      obtain ⟨n, rfl⟩ : ∃ k, n = k + 1 := ⟨n - 1, by omega⟩
      unfold State.takeStarts; split
      · next ha =>
        split
        · next hb =>
          refine ih _ ?_ _ (by omega)
          have k : ∀ v, State.waitingJobs (State.takeHead v { s with freeIndex := s.freeIndex + 1 }) + 1
              = s.waitingJobs := fun v =>
            waitingJobs_takeHead (by rw [startable_setFreeIndex]; cases v <;> assumption)
          have := k (if Config.stationAFirst s.freeIndex then Station.a else Station.b); omega
        · exact ih _ (by have := waitingJobs_takeHead ha; omega) _ (by omega)
      · split
        · next hb => exact ih _ (by have := waitingJobs_takeHead hb; omega) _ (by omega)
        · rfl
  exact k _ s (Nat.le_refl _) n h

/-- Where one station's start conditions hold it takes its head job, and the judgement goes on. -/
theorem judgeStarts_one {s : State} {u : Station} (h : s.startable u = true)
    (o : s.startable u.other = false) : s.judgeStarts = (s.takeHead u).judgeStarts := by
  have w := waitingJobs_takeHead h
  obtain ⟨n, hn⟩ : ∃ n, s.waitingJobs = n + 1 := ⟨_, w.symm⟩
  rw [← takeStarts_enough (n + 1) s (by omega)]
  unfold State.takeStarts
  cases u
  · rw [if_pos h, if_neg (by simp only [other_a] at o; rw [o]; decide)]
    exact takeStarts_enough _ _ (by omega)
  · simp only [other_b] at o
    rw [if_neg (by rw [o]; decide), if_pos h]
    exact takeStarts_enough _ _ (by omega)

/-- Where both hold, the station that the free value names takes its head job first. -/
theorem judgeStarts_both {s : State} (h : ∀ u, s.startable u = true) :
    s.judgeStarts
      = (State.takeHead (if Config.stationAFirst s.freeIndex then Station.a else Station.b)
          { s with freeIndex := s.freeIndex + 1 }).judgeStarts := by
  have w : ∀ v, State.waitingJobs (State.takeHead v { s with freeIndex := s.freeIndex + 1 }) + 1
      = s.waitingJobs := fun v => waitingJobs_takeHead (by rw [startable_setFreeIndex]; exact h v)
  have w := w (if Config.stationAFirst s.freeIndex then Station.a else Station.b)
  obtain ⟨n, hn⟩ : ∃ n, s.waitingJobs = n + 1 := ⟨_, w.symm⟩
  rw [← takeStarts_enough (n + 1) s (by omega)]
  unfold State.takeStarts
  rw [if_pos (h .a), if_pos (h .b)]
  exact takeStarts_enough _ _ (by omega)

end Sys2Proof.Machine
end

