-- ==== Sys2Proof/Laws/Missed.lean ====
section
/-! SUPPORT. The operations of a step, one by one: where no station's start conditions hold before (R25), none hold
after. -/

namespace Sys2Proof.Machine

/-! ### Operations that make no start condition hold, one by one -/

/-- A change after which the station is not in WAIT-PART. -/
theorem Still.leaves {s t : State} (u : Station) (hu : (t.st u).mode ≠ .waitPart)
    (ho : t.st u.other = s.st u.other) (hr : t.run = s.run)
    (hn : t.records.length + t.reservations = s.records.length + s.reservations) : Still s t := fun k v => by
  rcases eq_or_other u v with rfl | rfl
  · exact not_startable_of_mode hu
  · rw [startable_same (by rw [ho]) (by rw [ho]) (by rw [ho]) hr hn]; exact k _

theorem Still.modLeaves (s : State) (u : Station) {f : StationState → StationState}
    (h : (f (s.st u)).mode ≠ .waitPart) : Still s (s.modSt u f) :=
  .leaves u (by rw [st_modSt_self]; exact h) (by rw [st_modSt_other]) (run_modSt _ _ _)
    (by rw [records_modSt, reservations_modSt])

/-- With the run not RUNNING no start condition holds. -/
theorem Still.of_run {s t : State} (h : t.run ≠ .running) : Still s t := .of_taken fun u => not_startable_of_run u h

theorem Still.of_queues {s t : State} (h : ∀ u, (t.st u).queue = []) : Still s t :=
  .of_taken fun u => not_startable_of_queue (h u)

theorem Still.setField {s t : State} (h : ∀ u, t.st u = s.st u) (hr : t.run = s.run)
    (hn : t.records.length + t.reservations = s.records.length + s.reservations) : Still s t :=
  .same (fun u => by rw [h]) (fun u => by rw [h]) (fun u => by rw [h]) hr hn

theorem Still.setInvReady (s : State) (b : Bool) : Still s { s with invReady := b } :=
  .setField (fun u => by cases u <;> rfl) rfl rfl
theorem Still.setInvFault (s : State) (b : Bool) : Still s { s with invFault := b } :=
  .setField (fun u => by cases u <;> rfl) rfl rfl
theorem Still.setResetLine (s : State) (b : Bool) : Still s { s with resetLine := b } :=
  .setField (fun u => by cases u <;> rfl) rfl rfl
theorem Still.setCommon (s : State) (c : CommonSettings) : Still s { s with common := c } :=
  .setField (fun u => by cases u <;> rfl) rfl rfl
theorem Still.setPending (s : State) (q : List Instr) : Still s { s with pending := q } :=
  .setField (fun u => by cases u <;> rfl) rfl rfl

theorem startHome_still (s : State) (u : Station) : Still s (s.startHome u).1 := by
  have f : ∀ y : StationState, y.mode = .homing → y.homingFailed.mode ≠ .waitPart := fun y h => by
    unfold StationState.homingFailed; cases y.homingOrigin <;> simp [h, HomingOrigin.mode]
  have k : ∀ x : StationState, x.enterHoming.mode ≠ .waitPart := fun x => by
    unfold StationState.enterHoming; dsimp only
    generalize (if x.mode = .halted then HomingOrigin.halted else .unhomed) = o
    have e : (StationState.startSearch { x with mode := .homing, homingOrigin := o }).mode = .homing := by
      simp [StationState.startSearch]
    split
    · exact f _ e
    · rw [e]; decide
  unfold State.startHome; split
  · exact .modLeaves _ _ (k _)
  · exact .modLeaves _ _ (k _)
  · exact .refl _

theorem run_clearQueue (s : State) (u : Station) : (s.clearQueue u).run = s.run := by
  have k : ∀ (l : List JobEntry) (s : State), (l.foldl (fun s j => s.dropRef j.slot) s).run = s.run := by
    intro l; induction l with
    | nil => exact fun s => rfl
    | cons x xs ih => exact fun s => ih _
  unfold State.clearQueue; rw [run_modSt, k]

theorem resetStation_still (s : State) (u : Station) : Still s (s.resetStation u).1 := by
  have r := clearQueue_rest s u
  unfold State.resetStation; split
  · refine .leaves u ?_ ?_ ?_ ?_
    · rw [st_modSt_self]; unfold StationState.stationReset; dsimp only; split <;> simp
    · rw [st_modSt_other, st_clearQueue, if_neg (by cases u <;> decide)]
    · rw [run_modSt]; exact run_clearQueue s u
    · rw [records_modSt, reservations_modSt, r.1, r.2.1]
  · exact .refl _

theorem channelFault_served (s : State) : Served s s.channelFault := by
  have leave : Served s (s.setChannel (s.channel.leaveHeld .faulted)) :=
    .setChannel s fun _ => demandOk_leaveHeld _ _
  unfold State.channelFault; split
  · next h => exact .setChannel s fun hd => demandOk_idle hd (by simp [Channel.holderInHeat, h]) rfl
  · exact .refl _
  · exact leave.trans (.modSt _ _ (carries_hand _ _))
  · dsimp only; split
    · exact leave.trans (endWalk_served _ _ (by decide) _)
    · exact leave
  · exact .refl _

theorem invReadyOn_still (s : State) : Still s s.invReadyOn :=
  ((Still.setInvReady _ _).trans (passW8_served _ _).still).trans (passW8_served _ _).still
theorem invReadyOff_still (s : State) : Still s s.invReadyOff := by
  unfold State.invReadyOff; dsimp only; split
  · exact (Still.setInvReady _ _).trans (.modSt _ _ (carries_hand _ _))
  · exact .setInvReady _ _
theorem invFaultOn_still (s : State) : Still s s.invFaultOn :=
  (Still.setInvFault _ _).trans (channelFault_served _).still
theorem invFaultOff_still (s : State) : Still s s.invFaultOff := by
  unfold State.invFaultOff; dsimp only; split
  · exact (Still.setInvFault s false).trans ((Calm.setChannel _ _).still.trans (grant_served _).still)
  · exact .setInvFault _ _

theorem setCommon_still (s : State) (p : List (Nat × Nat)) : Still s (s.setCommon p).1 := by
  unfold State.setCommon; dsimp only; split
  · exact .refl _
  · split
    · exact .refl _
    · split
      · exact .refl _
      · split
        · exact .refl _
        · unfold State.applyCommon; dsimp only
          refine Still.trans ?_ (.ite (.refl _) (.ite (invFaultOff_still _) (invFaultOn_still _)))
          refine Still.trans ?_ (.ite (.refl _) (.ite (invReadyOff_still _) (invReadyOn_still _)))
          exact (Still.setCommon s (s.common.putAll p)).trans (.ite (.refl _) (.setResetLine _ _))

/-! ### Qualified lines -/

theorem lines_enterW3 (s : State) (u : Station) : ((s.enterW3 u).st u).lines = (s.st u).lines := by
  unfold State.enterW3; split
  · unfold State.enterW4; simp [StationState.completeCheckpoint, StationState.enterCheckpoint]
  · split
    · unfold State.endWalk; simp only [st_modSt_self, StationState.enterCheckpoint, walk_modWalk, Walk.enter]
      simp [State.undoWalk, State.takeWalkReport, StationState.enterCheckpoint]
    · unfold State.enterW4; simp [StationState.completeCheckpoint, StationState.enterCheckpoint]

theorem lines_judgeW1 (s : State) (u : Station) : ((s.judgeW1 u).st u).lines = (s.st u).lines := by
  unfold State.judgeW1; split
  · unfold State.passW1 State.enterW2; split
    · simp [StationState.completeCheckpoint, StationState.enterCheckpoint]
    · unfold State.passW2; rw [lines_enterW3]; simp [StationState.completeCheckpoint]
  · rfl

theorem qual_setHandshake (x : StationState) (h : Handshake) (t : Timer) (k : LoaderLine) :
    (x.setHandshake h t).lines.qual k = x.lines.qual k := by cases k <;> rfl

theorem qual_completeHandshake (x : StationState) (k : LoaderLine) :
    x.completeHandshake.lines.qual k = x.lines.qual k := by
  unfold StationState.completeHandshake; dsimp only; split
  · rw [lines_enterIdleOrWait]; exact qual_setHandshake _ _ _ _
  · exact qual_setHandshake _ _ _ _

theorem qual_assertDone (x : StationState) (k : LoaderLine) : x.assertDone.lines.qual k = x.lines.qual k := by
  unfold StationState.assertDone; dsimp only; split
  · exact qual_setHandshake _ _ _ _
  · split
    · exact qual_setHandshake _ _ _ _
    · split
      · exact qual_completeHandshake _ _
      · exact qual_setHandshake _ _ _ _

theorem qual_lineChanged (s : State) (u : Station) (k : LoaderLine) (a : Bool) (j : LoaderLine) :
    ((s.lineChanged u k a).st u).lines.qual j = (s.st u).lines.qual j := by
  unfold State.lineChanged; split
  · rw [lines_judgeW1]
  · rw [lines_judgeW1]
  · rw [st_modSt_self]; unfold StationState.presentGone; dsimp only; split
    · exact qual_completeHandshake _ _
    · rfl
  · rfl
  · rw [st_modSt_self]; unfold StationState.holdChanged; split
    · exact qual_setHandshake _ _ _ _
    · unfold StationState.startStep; split
      · exact qual_setHandshake _ _ _ _
      · exact qual_assertDone _ _
    · rfl

/-- A line's new sample and timer under the same qualified state. -/
theorem Still.setQual (s : State) (u : Station) (k : LoaderLine) (q : QualInput)
    (h : q.qualified = ((s.st u).lines.qual k).qualified) :
    Still s (s.modSt u fun x => x.modLines (Lines.setQual k q)) :=
  .modSt s u (carries_modLines _ _ (by
    cases k <;> simp only [Lines.qual] at h <;> simp [StationState.signs, StationState.modLines, Lines.setQual, h]))

theorem qualify_judged (s r : State) (u : Station) (k : LoaderLine)
    (hq : ((r.st u).lines.qual k).qualified = ((s.st u).lines.qual k).qualified) (h : Still s r) :
    Still s ((r.qualify u k).judgeLine u k ((s.st u).lines.qual k).qualified) := by
  unfold State.judgeLine; split
  · next e =>
    unfold State.qualify at e ⊢; dsimp only at e ⊢
    by_cases z : ((r.st u).lines.qual k).sampled = ((r.st u).lines.qual k).qualified
    · rw [if_pos z]; exact h.trans (.setQual _ _ _ _ z)
    · rw [if_neg z, qual_lineChanged, st_modSt_self, lines_modLines, qual_setQual] at e
      exact absurd (e.trans hq.symm) z
  · exact .of_taken (judgeStarts_taken _)

theorem takeQualified_still (s : State) (u : Station) (k : LoaderLine) : Still s (s.takeQualified u k) :=
  qualify_judged s s u k rfl (.refl s)

theorem takeSample_still (s : State) (u : Station) (k : LoaderLine) (a : Bool) : Still s (s.takeSample u k a) := by
  have j : ∀ t b, Still s t → Still s (t.judgeLine u k b) := fun t b h => by
    unfold State.judgeLine; split
    · exact h
    · exact .of_taken (judgeStarts_taken _)
  unfold State.takeSample State.sampleLine; dsimp only; split
  · exact j _ _ (.refl _)
  · split
    · exact j _ _ (.setQual _ _ _ _ rfl)
    · have m : Still s (s.modSt u fun x =>
          x.modLines (Lines.setQual k ⟨a, ((s.st u).lines.qual k).qualified, x.settings.qualTime⟩)) :=
        Still.setQual s u k ⟨a, ((s.st u).lines.qual k).qualified, (s.st u).settings.qualTime⟩ rfl
      split
      · exact qualify_judged s _ u k (by rw [st_modSt_self, lines_modLines, qual_setQual]) m
      · exact j _ _ m

theorem invertLine_still (s : State) (c : Bool) (u : Station) (k : LoaderLine) :
    Still s (s.invertLine c u k) := by
  unfold State.invertLine; split
  · exact takeSample_still _ _ _ _
  · exact .refl _

theorem setStation_still (s : State) (u : Station) (p : List (Nat × Nat)) :
    Still s (s.setStation u p).1 := by
  unfold State.setStation; dsimp only; split
  · exact .refl _
  · split
    · exact .refl _
    · split
      · unfold State.applyStation; dsimp only
        exact (((Still.modSt s u (f := fun x =>
          StationState.invertInputs (s.st u).settings ((s.st u).settings.putAll p)
            { x with settings := (s.st u).settings.putAll p }) (.of_eq rfl rfl rfl)).trans
          (invertLine_still _ _ _ _)).trans (invertLine_still _ _ _ _)).trans (invertLine_still _ _ _ _)
      · exact .refl _

/-! ### Jobs and run control -/

theorem takeRecord_still (s : State) : Still s (State.takeRecord s).1 := by
  unfold State.takeRecord; split
  · exact .refl _
  · exact .of_taken (judgeStarts_taken _)

theorem resumeRun_still (s : State) : Still s (State.resumeRun s).1 := by
  unfold State.resumeRun; split
  · exact .refl _
  · exact .of_taken (judgeStarts_taken _)

theorem submitJob_still (s : State) (u : Station) (r : RawJob) : Still s (s.submitJob u r).1 := by
  unfold State.submitJob; split
  · exact .refl _
  · split
    · unfold State.placeJob; split
      · split
        · exact .refl _
        · split
          · exact .refl _
          · split
            · exact .refl _
            · exact .of_taken (judgeStarts_taken _)
      · exact .refl _
    · exact .refl _

theorem cancelJob_still (s : State) (u : Station) (tag : Nat) : Still s (s.cancelJob u tag).1 := by
  unfold State.cancelJob; dsimp only; split
  · exact .refl _
  · split
    · unfold State.cancelCurrent; split
      · exact (endWalk_served _ _ (by decide) _).still
      · exact (abortByHost_served _ _ _ _).still
      · exact .refl _
      · exact .refl _
      · split
        · exact .modSt _ _ (carries_modContext _ fun c => rfl)
        · exact .refl _
    · split
      · exact .of_taken (judgeStarts_taken _)
      · split <;> exact .refl _

theorem run_judgeRun {s : State} (h : s.run ≠ .running) : s.judgeRun.run ≠ .running := by
  unfold State.judgeRun; split
  · rw [show (s.setRun RunState.stopped s.stopMode).run = .stopped from rfl]; decide
  · exact h

theorem stopNormal_still (s : State) : Still s (State.stopNormal s).1 := by
  unfold State.stopNormal; split
  · exact .of_run (run_judgeRun (by simp))
  · exact .refl _

theorem handStop_served (u : Station) (s : State) : Served s (State.handStop u s) := by
  have m : Served s (s.modSt u fun x => x.modContext Context.markStop) :=
    .modSt s u (carries_modContext _ fun c => rfl)
  unfold State.handStop; split
  · exact .refl _
  · split
    · exact endWalk_served _ _ (by decide) _
    · exact abortByHost_served _ _ _ _
    · split
      · exact m
      · exact .refl _
    · split
      · exact m
      · exact .refl _
    · exact .refl _

theorem stopAbrupt_still (s : State) : Still s (State.stopAbrupt s).1 := by
  unfold State.stopAbrupt; split
  · exact .refl _
  · refine .of_run (run_judgeRun ?_)
    refine bothStations_cases _ _ (fun t => t.run ≠ .running) fun v n => ?_
    rw [(handStop_served _ _).run, (handStop_served _ _).run]; simp

/-! ### Faults and arrivals -/

theorem takeFault_still (s : State) (u : Station) (f : FaultCode) : Still s (s.takeFault u f) := by
  by_cases h : f = .axis
  · subst h; unfold State.takeFault; split
    · refine (Still.modSt s u (f := fun x => x.modContext (Context.recordFault .axis))
        (carries_modContext _ fun c => rfl)).trans ?_
      unfold State.actOnFault; split
      · dsimp only
        refine (Served.trans (Served.modSt _ u (f := fun x => x.modContext (Context.abort .fault))
          (carries_modContext _ fun c => abort_job _ c)) ?_).still
        split
        · exact (leaveHeat_served _ _).trans (.modSt _ _ (carries_enterFlood _))
        · exact quenchOut_served _ _
      · exact .ite (.modSt _ _ (carries_enterFlood _)) (.refl _)
      · exact .ite (.modSt _ _ (carries_enterFlood _)) (.refl _)
      · exact .ite (.of_taken (judgeStarts_taken _)) (.refl _)
      · exact .ite (.of_taken (judgeStarts_taken _)) (.refl _)
      · exact .refl _
    · exact .refl _
  · exact (takeFault_served s u h).still

theorem takeHanded_still (s : State) (u : Station) (f : FaultCode) : Still s (s.takeHanded u f) :=
  .ite (Still.modSt s u (carries_dropLapsed _ _)) <| .ite ((Still.modSt s u (carries_unhand _ _)).trans (takeFault_still _ _ _)) (.refl _)

theorem axisRaised_still (s : State) (u : Station) : Still s (s.axisRaised u) := by
  unfold State.axisRaised; dsimp only
  refine (Still.modSt s u (f := StationState.setAxisLine true) (carries_modLines _ _)).trans ?_
  split
  · exact .refl _
  · exact .modSt _ _ (carries_homingFailed _)
  · exact takeFault_still _ _ _
  · exact .modSt _ _ (carries_hand _ _)
  · exact .modSt _ _ (carries_hand _ _)

theorem moveArrived_still (s : State) (u : Station) : Still s (s.moveArrived u) := by
  unfold State.moveArrived; split
  · refine (Still.modSt s u (f := fun x => x.modMotion fun m => { m with arrival := .reported })
      (carries_modMotion _ _)).trans ?_
    dsimp only; split
    · exact .of_taken (judgeStarts_taken _)
    · exact .ite (passW4_served _ _).still (.refl _)
    · unfold State.returnArrived; split
      · exact .refl _
      · split
        · exact (startNextRepeat_served _ _).still
        · exact .of_taken (judgeStarts_taken _)
    · exact .refl _
  · exact .refl _

/-! ### Readings, requests and resets -/

theorem readPower_still (s : State) (p : Nat) : Still s (s.readPower p) := by
  have h1 : Calm s (s.setChannel { s.channel with measured := p }) := .setChannel _ _
  unfold State.readPower; dsimp only; split
  · exact h1.still
  · next u _ =>
    generalize s.setChannel { s.channel with measured := p } = b at *
    have h2 : Calm b (b.modSt u fun x => x.modTrail (Trail.credit p)) := .modSt b u (carries_modTrail _ _)
    generalize (b.modSt u fun x => x.modTrail (Trail.credit p)) = c at *
    have h3 : Calm c (c.setChannel (c.channel.judgeResponse c.common.responseLimit p)) := .setChannel _ _
    split
    · exact (((h1.trans h2).trans h3).trans (.modSt _ _ (carries_modTrail _ _))).still
    · exact ((h1.trans h2).trans h3).still

theorem readTank_still (s : State) (r : Int) : Still s (s.readTank r) := by
  have h : ∀ k : Tank, Still s { s with tank := k } := fun k => .setField (fun u => by cases u <;> rfl) rfl rfl
  unfold State.readTank; dsimp only; split
  · exact ((h _).trans (.modSt _ .a (carries_tankChanged _))).trans (.modSt _ .b (carries_tankChanged _))
  · exact h _

theorem serve_still (s : State) (row : RequestRow) (act : Entry → State → State × Answer)
    (h : ∀ e, Still s (act e s).1) : Still s (s.serve row act) := by
  have r : ∀ (e : Entry) (b : Bool) (q : State × Answer), Still s q.1 → Still s (State.reply e b q) :=
    fun e b q hq => hq.trans (.setLink _ _)
  unfold State.serve; split
  · split
    · split
      · exact r _ _ _ (h _)
      · exact r _ _ (s, _) (.refl _)
    · exact .refl _
  · exact .refl _

theorem serveStation_still (s : State) (row : RequestRow) (act : Station → Entry → State → State × Answer)
    (h : ∀ u e, Still s (act u e s).1) : Still s (s.serveStation row act) :=
  serve_still s row _ fun e => by
    split
    · exact h _ _
    · exact .refl _

theorem Still.ite' {s : State} {p : Prop} [Decidable p] {q : State × Answer} (a : Answer) (h : Still s q.1) :
    Still s (if p then q else (s, a)).1 := by
  split
  · exact h
  · exact .refl _

theorem setSlot_still (s : State) (k : Fin 8) (x : Slot) : Still s (s.setSlot k x) :=
  .same (fun u => by rw [st_setSlot]) (fun u => by rw [st_setSlot]) (fun u => by rw [st_setSlot]) rfl rfl

theorem openSlot_still (n : Nat) (h : Header) (s : State) : Still s (openSlot n h s).1 := by
  unfold openSlot; split
  · exact .refl _
  · split
    · exact .refl _
    · split
      · exact .refl _
      · split
        · exact .refl _
        · exact setSlot_still _ _ _

theorem putSegment_still (n i : Nat) (g : RawSegment) (s : State) : Still s (putSegment n i g s).1 := by
  unfold putSegment; split
  · exact .refl _
  · split
    · split
      · exact .refl _
      · split
        · exact .refl _
        · exact setSlot_still _ _ _
    · exact .refl _

theorem closeSlot_still (n : Nat) (s : State) : Still s (closeSlot n s).1 := by
  unfold closeSlot; split
  · exact .refl _
  · split
    · split
      · exact .refl _
      · exact setSlot_still _ _ _
    · exact .refl _

theorem dropSlot_still (n : Nat) (s : State) : Still s (dropSlot n s).1 := by
  unfold dropSlot; split
  · exact .refl _
  · split
    · exact .refl _
    · exact setSlot_still _ _ _
    · split
      · exact .refl _
      · exact setSlot_still _ _ _

theorem lineChanged_queue (s : State) (u v : Station) (k : LoaderLine) (a : Bool) :
    ((s.lineChanged u k a).st v).queue = (s.st v).queue := by
  unfold State.lineChanged; split
  · exact ((judgeW1_served _ _).carries v).queue
  · exact ((judgeW1_served _ _).carries v).queue
  · rw [st_modSt]; split
    · next h => subst h; exact (jobs_presentGone _).queue
    · rfl
  · rfl
  · rw [st_modSt]; split
    · next h => subst h; exact (jobs_holdChanged _ _).queue
    · rfl

theorem modLines_queue (s : State) (u v : Station) (f : StationState → Lines → Lines) :
    ((s.modSt u fun x => x.modLines (f x)).st v).queue = (s.st v).queue := by
  rw [st_modSt]; split
  · next h => subst h; rfl
  · rfl

theorem requalify_queue (s : State) (u v : Station) (k : LoaderLine) :
    ((s.requalify u k).st v).queue = (s.st v).queue := by
  unfold State.requalify; dsimp only; split
  · exact modLines_queue _ _ _ _
  · split
    · unfold State.qualify; dsimp only; split
      · rw [modLines_queue, modLines_queue]
      · rw [lineChanged_queue, modLines_queue, modLines_queue]
    · exact modLines_queue _ _ _ _

theorem warmLines_queue (s : State) (u v : Station) : ((s.warmLines u).st v).queue = (s.st v).queue := by
  unfold State.warmLines; dsimp only
  rw [requalify_queue, requalify_queue, requalify_queue, st_modSt]; split
  · next h => subst h; exact (jobs_handshakeAgain _).queue
  · rfl

/-- A warm reset leaves every queue empty. -/
theorem warmReset_queues (s : State) (u : Station) : (s.warmReset.st u).queue = [] := by
  have c : ∀ r : State, (∀ v, (r.st v).queue = []) → ∀ v, (r.channelFault.st v).queue = [] :=
    fun r h v => by rw [((channelFault_served r).carries v).queue]; exact h v
  have l : ∀ (r : State) (w v : Station), ((r.warmLines w).st v).queue = (r.st v).queue := fun r w v =>
    warmLines_queue r w v
  unfold State.warmReset; dsimp only
  have q : ∀ (r : State) (v : Station),
      ((((((r.clearQueue .a).clearQueue .b).setRun .running .none).warmLines .a).warmLines .b).st v).queue = [] := fun r v => by
    rw [l, l, st_setRun, st_clearQueue, st_clearQueue]; cases v <;> simp
  split
  · exact c _ (q _) u
  · exact q _ u

end Sys2Proof.Machine
end

