-- ==== Sys2Proof/Laws/Trail.lean ====
section
/-! SUPPORT. What the drain of the trail does (R52 to R61): appends, arrivals, the sweep of an advance as the relation
`Swept`, and the tallies and zones an arrival adds to. -/

namespace Sys2Proof.Machine

/-- A slice carries a flag where not every flag is absent. -/
theorem Flags.any_iff (f : Flags) : f.any = true ↔ f ≠ {} := by
  rcases f with ⟨a, b, c, d, e, g, h⟩
  cases a <;> cases b <;> cases c <;> cases d <;> cases e <;> cases g <;> cases h <;> decide
/-- Extending the last zone of a run. -/
theorem extendLastZone_append (f : Flags) (l : List Zone) (z : Zone) : 
    extendLastZone f (l ++ [z]) = l ++ [{ z with count := z.count + 1, flags := z.flags.union f }] := by
  induction l with
  | nil => rfl
  | cons a l ih => 
    cases l with
    | nil => rfl
    | cons b l => 
      simp only [List.cons_append] at ih ⊢
      simp only [extendLastZone, ih]

/-- The opening judgement touches the quench unit alone. -/
theorem judgeOpen_rest (p : Profile) (x : StationState) : ∃ q, x.judgeOpen p = { x with quench := q } := by
  unfold StationState.judgeOpen; split
  · exact ⟨_, rfl⟩
  · exact ⟨x.quench, rfl⟩

theorem departQuench_rest (p : Profile) (x : StationState) : ∃ q, x.departQuench p = { x with quench := q } := by
  unfold StationState.departQuench; split
  · exact judgeOpen_rest p x
  · exact ⟨_, rfl⟩

@[simp] theorem phase_tallyZone (k : Nat) (f : Flags) (t : Trail) : (t.tallyZone k f).phase = t.phase := by
  unfold Trail.tallyZone; dsimp only; split
  · split
    · rfl
    · rfl
    · split <;> rfl
  · rfl

@[simp] theorem list_tallyZone (k : Nat) (f : Flags) (t : Trail) : (t.tallyZone k f).list = t.list := by
  unfold Trail.tallyZone; dsimp only; split
  · split
    · rfl
    · rfl
    · split <;> rfl
  · rfl

@[simp] theorem phase_tally (d : Option Nat) (sl : SliceRec) (t : Trail) : (t.tally d sl).phase = t.phase :=
  phase_tallyZone _ _ _

@[simp] theorem list_tally (d : Option Nat) (sl : SliceRec) (t : Trail) : (t.tally d sl).list = t.list :=
  list_tallyZone _ _ _

/-- An arrival takes the head of the list, and touches the trail and the quench unit alone. -/
theorem arriveHead_rest (now : Time) (p : Profile) (x : StationState) :
    ∃ t q, x.arriveHead now p = { x with trail := t, quench := q }
      ∧ t.phase = x.trail.phase ∧ t.list = x.trail.list.tail := by
  unfold StationState.arriveHead; split
  · next h => exact ⟨x.trail, x.quench, rfl, rfl, by rw [h]; rfl⟩
  · next sl rest h =>
    dsimp only; split
    · obtain ⟨r, o⟩ := judgeOpen_rest p x
      rw [o]
      obtain ⟨q, e⟩ := departQuench_rest p (({ x with quench := r } : StationState).modTrail fun t =>
        Trail.tally (some (now.since (sl.heatEnd.getD now)))
          (if x.lowFlow = true then sl.flag .lowFlow else sl) { t with list := rest })
      exact ⟨_, q, e, phase_tally _ _ _, by rw [h]; exact list_tally _ _ _⟩
    · exact ⟨_, x.quench, rfl, phase_tally _ _ _, by rw [h]; exact list_tally _ _ _⟩

theorem openReached_of {x y : StationState} {p : Profile} (h : y.trail.phase = x.trail.phase)
    (k : y.settings = x.settings) : y.openReached p = x.openReached p := by
  unfold StationState.openReached; rw [h, k]

theorem headReached_nil {x : StationState} (p : Profile) (h : x.trail.list = []) : x.headReached p = false := by
  unfold StationState.headReached; rw [h]; split
  · next h => cases h
  · rfl

/-- Arrivals as far as the ring has reached. -/
theorem arrivals_swept (b : Bool) (now : Time) (p : Profile) (n : Nat) (x : StationState)
    (h : x.trail.list.length ≤ n) :
    (x.arrivals now p n).headReached p = false ∧ (x.arrivals now p n).trail.phase = x.trail.phase
      ∧ (x.arrivals now p n).settings = x.settings
      ∧ ∀ y, Swept b now p (x.arrivals now p n) y → Swept b now p x y := by
  induction n generalizing x with
  | zero =>
    have e : x.trail.list = [] := List.length_eq_zero_iff.mp (by omega)
    exact ⟨headReached_nil p e, rfl, rfl, fun y k => k⟩
  | succ n ih =>
    unfold StationState.arrivals; split
    · next r =>
      obtain ⟨t, q, e, e1, e2⟩ := arriveHead_rest now p x
      obtain ⟨a, b1, c, d⟩ := ih (x.arriveHead now p) (by rw [e]; simp only [e2, List.length_tail]; omega)
      exact ⟨a, b1.trans (by rw [e]; exact e1), c.trans (by rw [e]), fun y k => .arrive _ _ r (d y k)⟩
    · next r => exact ⟨by simpa using r, rfl, rfl, fun y k => k⟩

theorem takeArrivals_swept (b : Bool) (now : Time) (p : Profile) (x : StationState) :
    (x.takeArrivals now p).headReached p = false ∧ (x.takeArrivals now p).trail.phase = x.trail.phase
      ∧ (x.takeArrivals now p).settings = x.settings
      ∧ ∀ y, Swept b now p (x.takeArrivals now p) y → Swept b now p x y :=
  arrivals_swept b now p _ x (Nat.le_refl _)

theorem appendOpen_rest (b : Bool) (now : Time) (p : Profile) {x : StationState} {h : Nat} {sl : SliceRec}
    (k : x.trail.phase = .heating h sl) :
    ∃ t q, x.appendOpen b now p = { x with trail := t, quench := q }
      ∧ t.phase = .heating h (newSlice x.settings p (sl.index + 1)) := by
  unfold StationState.appendOpen; rw [k]; dsimp only
  obtain ⟨q, e⟩ := placeSlice_rest p (sl.close b (sliceLength p x.settings.pitch sl.index) now) x
  rw [e]; exact ⟨_, q, rfl, rfl⟩

theorem index_newSlice (set : StationSettings) (p : Profile) (k : Nat) : (newSlice set p k).index = k := rfl

theorem not_openReached {x : StationState} {p : Profile} {h : Nat} {sl : SliceRec}
    (k : x.trail.phase = .heating h sl) (c : sliceCount p x.settings.pitch ≤ sl.index) (z : 0 < x.settings.pitch) :
    x.openReached p = false := by
  unfold StationState.openReached; rw [k]
  simp only [Bool.and_eq_false_iff, decide_eq_false_iff_not]; right
  unfold sliceCount at c; unfold sliceUpper
  have : p.stop - p.start ≤ sl.index * x.settings.pitch := by
    have := Nat.lt_of_lt_of_le (Nat.lt_mul_div_succ (p.stop - p.start + x.settings.pitch - 1) z)
      (Nat.mul_le_mul_left _ (Nat.succ_le_succ c))
    rw [Nat.mul_succ, Nat.mul_comm] at this; omega
  rw [Nat.add_mul]; omega

/-- The sweep of an advance, as a relation: its fuel of one append for each slice of the range is enough. -/
theorem sweep_swept (b : Bool) (now : Time) (p : Profile) (n : Nat) (x : StationState)
    (hn : ∀ h sl, x.trail.phase = .heating h sl → sliceCount p x.settings.pitch ≤ sl.index + n) :
    Swept b now p x (x.sweep b now p n) := by
  induction n generalizing x with
  | zero =>
    obtain ⟨a, b1, c, d⟩ := takeArrivals_swept b now p x
    refine d _ (.done _ a ?_)
    rcases Nat.eq_zero_or_pos x.settings.pitch with z | z
    · right; exact (congrArg StationSettings.pitch c).trans z
    · left; rw [openReached_of b1 c]
      cases k : x.trail.phase with
      | heating h sl => exact not_openReached k (by simpa using hn h sl k) z
      | _ => unfold StationState.openReached; rw [k]
  | succ n ih =>
    obtain ⟨a, b1, c, d⟩ := takeArrivals_swept b now p x
    unfold StationState.sweep; dsimp only; split
    · next r =>
      refine d _ (.append _ _ a r ?_)
      cases k : x.trail.phase with
      | heating h sl =>
        obtain ⟨t, q, e, e1⟩ := appendOpen_rest b now p (b1.trans k)
        refine ih _ fun h' sl' k' => ?_
        rw [e] at k' ⊢; dsimp only at k' ⊢; rw [e1] at k'; cases k'
        rw [index_newSlice, c]; have := hn h sl k; omega
      | _ => unfold StationState.openReached at r; rw [b1, k] at r; cases r
    · next r => exact d _ (.done _ a (.inl (by simpa using r)))

/-- The slice as an append leaves it (R52). -/
theorem close_eq (b : Bool) (n : Nat) (now : Time) (sl : SliceRec) :
    sl.close b n now =
      { sl with
        heatEnd := some now
        deadline := sl.maxDelay.map fun d => now + BitVec.ofNat 32 d
        timer := sl.maxDelay
        flags :=
          match b, sl.window with
          | true, some (lo, hi) =>
            { sl.flags with
              energyLow := sl.flags.energyLow || decide (sl.energy * 1000 / n < lo)
              energyHigh := sl.flags.energyHigh || decide (hi < sl.energy * 1000 / n) }
          | _, _ => sl.flags } := by
  obtain ⟨i, s, e, pk, q, m, w, he, d, t, ⟨f1, f2, f3, f4, f5, f6, f7⟩⟩ := sl
  cases b
  · rfl
  · cases w with
    | none => rfl
    | some w =>
      obtain ⟨lo, hi⟩ := w
      by_cases h1 : e * 1000 / n < lo <;> by_cases h2 : hi < e * 1000 / n <;>
        simp [SliceRec.close, SliceRec.judgeEnergy, SliceRec.stamp, SliceRec.flag, Flags.add, specificEnergy, h1, h2]

/-! ### What the drain depends on -/

/-- What the drain of the trail reads and writes of a station: its trail and its quench unit, under its settings. -/
structure SameDrain (x y : StationState) : Prop where
  trail : y.trail = x.trail
  quench : y.quench = x.quench
  settings : y.settings = x.settings

theorem SameDrain.judgeOpen {x y : StationState} (h : SameDrain x y) (p : Profile) :
    SameDrain (x.judgeOpen p) (y.judgeOpen p) := by
  obtain ⟨a, b, c⟩ := h
  have o : y.opensRing p = x.opensRing p := by
    unfold StationState.opensRing StationState.oldestQuench; rw [a, c]
  unfold StationState.judgeOpen; rw [o, b]; split
  · exact ⟨a, by simp [StationState.modQuench, b, c], c⟩
  · exact ⟨a, b, c⟩

theorem SameDrain.modTrail {x y : StationState} (h : SameDrain x y) (f : Trail → Trail) :
    SameDrain (x.modTrail f) (y.modTrail f) :=
  ⟨by simp [StationState.modTrail, h.trail], h.quench, h.settings⟩

theorem SameDrain.modQuench {x y : StationState} (h : SameDrain x y) (f : Quench → Quench) :
    SameDrain (x.modQuench f) (y.modQuench f) :=
  ⟨h.trail, by simp [StationState.modQuench, h.quench], h.settings⟩

theorem SameDrain.placeSlice {x y : StationState} (h : SameDrain x y) (p : Profile) (sl : SliceRec) :
    SameDrain (x.placeSlice p sl) (y.placeSlice p sl) := by
  unfold StationState.placeSlice; dsimp only; rw [h.trail]
  have k := h.modTrail fun t => { t with list := t.list ++ [sl] }
  split
  · split
    · exact (k.modQuench _).judgeOpen p
    · exact k.modQuench _
  · exact k

theorem SameDrain.appendOpen {x y : StationState} (h : SameDrain x y) (b : Bool) (now : Time) (p : Profile) :
    SameDrain (x.appendOpen b now p) (y.appendOpen b now p) := by
  unfold StationState.appendOpen; rw [h.trail]; split
  · next i sl _ =>
    dsimp only; rw [h.settings]
    have k := h.placeSlice p (sl.close b (sliceLength p x.settings.pitch sl.index) now)
    rw [k.settings]; exact k.modTrail _
  · exact h

theorem SameDrain.appendLast {x y : StationState} (h : SameDrain x y) (b : Bool) (now : Time) (p : Profile) :
    SameDrain (x.appendLast b now p) (y.appendLast b now p) := by
  unfold StationState.appendLast; rw [h.trail]; split
  · dsimp only; rw [h.settings]
    exact (h.placeSlice p _).modTrail _
  · exact h

theorem SameDrain.departQuench {x y : StationState} (h : SameDrain x y) (p : Profile) :
    SameDrain (x.departQuench p) (y.departQuench p) := by
  unfold StationState.departQuench; rw [h.trail, h.settings]; split
  · exact h.judgeOpen p
  · exact h.modQuench _

theorem SameDrain.arriveHead {x y : StationState} (h : SameDrain x y) (now : Time) (p : Profile) :
    SameDrain (x.arriveHead now p) (y.arriveHead now p) := by
  unfold StationState.arriveHead; rw [h.trail]; split
  · exact h
  · dsimp only; split
    · have l : y.lowFlow = x.lowFlow := by unfold StationState.lowFlow; rw [h.quench, h.settings]
      rw [l]; exact ((h.judgeOpen p).modTrail _).departQuench p
    · exact h.modTrail _

theorem SameDrain.headReached {x y : StationState} (h : SameDrain x y) (p : Profile) :
    y.headReached p = x.headReached p := by
  unfold StationState.headReached; rw [h.trail, h.settings]

theorem SameDrain.openReached {x y : StationState} (h : SameDrain x y) (p : Profile) :
    y.openReached p = x.openReached p := by
  unfold StationState.openReached; rw [h.trail, h.settings]

theorem SameDrain.arrivals {x y : StationState} (h : SameDrain x y) (now : Time) (p : Profile) (n : Nat) :
    SameDrain (x.arrivals now p n) (y.arrivals now p n) := by
  induction n generalizing x y with
  | zero => exact h
  | succ n ih =>
    unfold StationState.arrivals; rw [h.headReached]; split
    · exact ih (h.arriveHead now p)
    · exact h

theorem SameDrain.takeArrivals {x y : StationState} (h : SameDrain x y) (now : Time) (p : Profile) :
    SameDrain (x.takeArrivals now p) (y.takeArrivals now p) := by
  unfold StationState.takeArrivals; rw [h.trail]; exact h.arrivals now p _

theorem SameDrain.sweep {x y : StationState} (h : SameDrain x y) (b : Bool) (now : Time) (p : Profile) (n : Nat) :
    SameDrain (x.sweep b now p n) (y.sweep b now p n) := by
  induction n generalizing x y with
  | zero => exact h.takeArrivals now p
  | succ n ih =>
    unfold StationState.sweep; dsimp only
    have k := h.takeArrivals now p
    rw [k.openReached]; split
    · exact ih (k.appendOpen b now p)
    · exact k

/-- The drain of an advance depends on the trail, the quench unit and the settings alone. -/
theorem SameDrain.advanceTrail {x y : StationState} (h : SameDrain x y) (o b : Bool) (now : Time) (p : Profile)
    (high : Nat) : SameDrain (x.advanceTrail o b now p high) (y.advanceTrail o b now p high) := by
  have k := h.modTrail (Trail.setHigh high)
  have e : ∀ z : StationState, (z.modTrail (Trail.setHigh high)).settings = z.settings := fun z => rfl
  unfold StationState.advanceTrail; dsimp only; cases o <;> simp only [if_true, if_false, Bool.false_eq_true]
  · rw [k.settings]; exact (k.sweep b now p _).judgeOpen p
  · rw [(k.judgeOpen p).settings]; exact (k.judgeOpen p).sweep b now p _

/-! ### What the drain leaves of a station -/

/-- A change of the trail and the quench unit alone, under which a trail drains on as it drained. -/
structure DrainOnly (x y : StationState) : Prop where
  rest : ∃ t q, y = { x with trail := t, quench := q }
  high : y.trail.high? = x.trail.high?
  draining : ∀ h, x.trail.phase = .draining h → y.trail.phase = .draining h

theorem DrainOnly.refl (x : StationState) : DrainOnly x x := ⟨⟨x.trail, x.quench, rfl⟩, rfl, fun _ h => h⟩

theorem DrainOnly.trans {x y z : StationState} (h : DrainOnly x y) (k : DrainOnly y z) : DrainOnly x z := by
  obtain ⟨⟨t, q, rfl⟩, b, c⟩ := h; obtain ⟨⟨t', q', rfl⟩, b', c'⟩ := k
  exact ⟨⟨t', q', rfl⟩, b'.trans b, fun h k => c' h (c h k)⟩

theorem drainOnly_judgeOpen (p : Profile) (x : StationState) : DrainOnly x (x.judgeOpen p) := by
  obtain ⟨q, e⟩ := judgeOpen_rest p x
  rw [e]; exact ⟨⟨x.trail, q, rfl⟩, rfl, fun _ h => h⟩

theorem drainOnly_arriveHead (now : Time) (p : Profile) (x : StationState) : DrainOnly x (x.arriveHead now p) := by
  obtain ⟨t, q, e, h, -⟩ := arriveHead_rest now p x
  rw [e]; exact ⟨⟨t, q, rfl⟩, by simp only [Trail.high?, h], fun _ k => h.trans k⟩

theorem drainOnly_arrivals (now : Time) (p : Profile) (n : Nat) (x : StationState) :
    DrainOnly x (x.arrivals now p n) := by
  induction n generalizing x with
  | zero => exact .refl x
  | succ n ih =>
    unfold StationState.arrivals; split
    · exact (drainOnly_arriveHead now p x).trans (ih _)
    · exact .refl x

theorem drainOnly_appendOpen (b : Bool) (now : Time) (p : Profile) (x : StationState) :
    DrainOnly x (x.appendOpen b now p) := by
  cases k : x.trail.phase with
  | heating h sl =>
    obtain ⟨t, q, e, h'⟩ := appendOpen_rest b now p k
    rw [e]; exact ⟨⟨t, q, rfl⟩, by simp only [Trail.high?, h', k], fun _ z => by rw [k] at z; cases z⟩
  | _ => unfold StationState.appendOpen; rw [k]; exact .refl x

theorem drainOnly_sweep (b : Bool) (now : Time) (p : Profile) (n : Nat) (x : StationState) :
    DrainOnly x (x.sweep b now p n) := by
  induction n generalizing x with
  | zero => exact drainOnly_arrivals now p _ x
  | succ n ih =>
    unfold StationState.sweep; dsimp only
    have k := drainOnly_arrivals now p x.trail.list.length x
    split
    · exact k.trans ((drainOnly_appendOpen b now p _).trans (ih _))
    · exact k

/-- An advance touches the trail and the quench unit of its station alone, and raises the high-water position. -/
theorem advanceTrail_rest (o b : Bool) (now : Time) (p : Profile) (h : Nat) (x : StationState) :
    (∃ t q, x.advanceTrail o b now p h = { x with trail := t, quench := q })
      ∧ (x.trail.high?.isSome = true → (x.advanceTrail o b now p h).trail.high? = some h)
      ∧ ∀ k, x.trail.phase = .draining k → (x.advanceTrail o b now p h).trail.phase = .draining h := by
  have d : DrainOnly (x.modTrail (Trail.setHigh h)) (x.advanceTrail o b now p h) := by
    unfold StationState.advanceTrail; dsimp only; cases o <;> simp only [if_true, if_false, Bool.false_eq_true]
    · exact (drainOnly_sweep b now p _ _).trans (drainOnly_judgeOpen p _)
    · exact (drainOnly_judgeOpen p _).trans (drainOnly_sweep b now p _ _)
  obtain ⟨⟨t, q, e⟩, f, g⟩ := d
  refine ⟨⟨t, q, e⟩, fun k => f.trans ?_, fun k z => g h ?_⟩
  · simp only [StationState.modTrail, Trail.setHigh, Trail.high?] at k ⊢
    cases z : x.trail.phase <;> simp [z] at k ⊢
  · simp only [StationState.modTrail, Trail.setHigh, z]

end Sys2Proof.Machine
end

