-- ==== Sys2Proof/Laws/Reading.lean ====
section
/-! SUPPORT. An encoder reading and the demands of HEAT: what the motion unit takes and judges (R91, R94, R97 to R99),
what an advance does to its station (R30, R34), and what a demand issued does to the channel (R84). -/

namespace Sys2Proof.Machine

/-- Where the position of motion unit `m` lies more than 2.0 mm below the high-water position of trail `t` (R98). -/
def fallsBack (t : Trail) (m : Motion) : Bool := t.high?.any fun h => decide (m.position + 2000 < h)

/-- Where it lies outside the travel limits on a trail that is not IDLE (R99). -/
def runsBeyond (set : StationSettings) (t : Trail) (m : Motion) : Bool :=
  t.high?.isSome && decide (m.position < set.travelMin ∨ (set.travelMax : Int) < m.position)

/-- The stall timer after a reading (R97). -/
def stallJudged (x : StationState) : Timer :=
  match x.mode, x.motion.mode with
  | .heat, .scan v =>
    if 5 * x.motion.speed < v then some (x.motion.stallTimer.getD x.settings.stallTime) else none
  | _, _ => x.motion.stallTimer

/-- The REVERSE judgement, field by field (R98). -/
theorem judgeReverse_eq (h : Nat) (x : StationState) :
    x.judgeReverse h =
      { x with
        motion := { x.motion with reverseRaised := decide (x.motion.position + 2000 < h) }
        handed :=
          x.handed ++
            if decide (x.motion.position + 2000 < h) && !x.motion.reverseRaised then [.reverse] else [] } := by
  unfold StationState.judgeReverse
  by_cases k : x.motion.position + 2000 < h
  · rw [if_pos (by simpa [Config.reverseDepth] using k)]
    cases r : x.motion.reverseRaised <;> simp [k, StationState.modMotion, StationState.hand]
    rw [← r]
  · rw [if_neg (by simpa [Config.reverseDepth] using k)]; simp [k, StationState.modMotion]

/-- The LIMIT judgement, field by field (R99). -/
theorem judgeLimit_eq (x : StationState) :
    let out := decide (x.motion.position < x.settings.travelMin ∨ (x.settings.travelMax : Int) < x.motion.position)
    x.judgeLimit =
      { x with
        motion := { x.motion with limitRaised := out }
        handed := x.handed ++ if out && !x.motion.limitRaised then [.limit] else [] } := by
  unfold StationState.judgeLimit
  by_cases k : x.motion.position < x.settings.travelMin ∨ (x.settings.travelMax : Int) < x.motion.position
  · rw [if_pos k]
    cases r : x.motion.limitRaised <;> simp [k, StationState.modMotion, StationState.hand]
    rw [← r]
  · rw [if_neg k]; simp [k, StationState.modMotion]

/-- The judgements of a reading, field by field (R97, R98, R99). -/
theorem judgeTravel_eq (x : StationState) :
    x.judgeTravel =
      { x with
        motion :=
          { x.motion with
            stallTimer := stallJudged x
            reverseRaised := if x.trail.high?.isSome then fallsBack x.trail x.motion else x.motion.reverseRaised
            limitRaised :=
              if x.trail.high?.isSome then runsBeyond x.settings x.trail x.motion else x.motion.limitRaised }
        handed :=
          x.handed ++ (if fallsBack x.trail x.motion && !x.motion.reverseRaised then [.reverse] else [])
            ++ (if runsBeyond x.settings x.trail x.motion && !x.motion.limitRaised then [.limit] else []) } := by
  have e : x.judgeStall = x.modMotion fun m => { m with stallTimer := stallJudged x } := by
    unfold StationState.judgeStall stallJudged; split
    · next h k => simp only [h, k, StationState.modMotion]; split <;> rfl
    · next h =>
      first
      | rfl
      | split
        · next v a b => exact absurd b (h v a)
        · rfl
  unfold StationState.judgeTravel; dsimp only; rw [e]
  cases hh : x.trail.high? with
  | none =>
    simp [StationState.modMotion, hh, fallsBack, runsBeyond]
  | some h =>
    have b : fallsBack x.trail x.motion = decide (x.motion.position + 2000 < h) := by simp [fallsBack, hh]
    have c : runsBeyond x.settings x.trail x.motion =
        decide (x.motion.position < x.settings.travelMin ∨ (x.settings.travelMax : Int) < x.motion.position) := by
      simp [runsBeyond, hh]
    rw [b, c]; simp only [StationState.modMotion, hh, judgeReverse_eq, judgeLimit_eq, Option.isSome_some, if_true]
    rfl

/-- A demand issued in HEAT (R30, R71, R84). -/
theorem issueDemand_eq (s : State) (u : Station) (d : Nat) :
    s.issueDemand u d = { s with channel := if (s.st u).harden then demandIssued u d s else s.channel } := by
  unfold State.issueDemand; split
  · unfold Channel.issue demandIssued
    have e : s.channel.holderInHeat = some u ↔ s.channel.state = .held u true := by
      unfold Channel.holderInHeat; split
      · next v h => simp [h]
      · next h => exact ⟨fun k => by simp at k, fun k => absurd k (h u)⟩
    simp only [e]; split <;> rfl
  · rfl

/-- A station whose trail is DRAINING: with slices left nothing happens; with none the carriage stops, and with the
ring valve closed RETURN is entered (R34). -/
theorem checkDrained_eq (x : StationState) {h : Nat} (hp : x.trail.phase = .draining h) :
    x.checkDrained =
      if x.trail.list ≠ [] then x
      else if x.quench.valve ≠ .closed then { x with motion := modeSet .stop x.motion }
      else
        { x with
          mode := .returning
          trail := { x.trail with phase := .idle }
          motion := motionInReturn x.settings.returnSpeed x.motion
          handed := x.handed ++ axisHanded x } := by
  have e : x.setTravel .stop = { x with motion := modeSet .stop x.motion } := by
    rw [setTravel_eq]; simp [TravelMode.handsAxis]
  unfold StationState.checkDrained; rw [hp]
  cases hl : x.trail.list with
  | cons a l => simp
  | nil =>
    simp only [ne_eq, not_true_eq_false, if_false]
    by_cases hv : x.quench.valve = .closed
    · rw [if_pos hv, if_neg (by simp [hv]), enterReturn_eq, e]
      simp only [axisHanded]; congr 1
      rw [← hl]
    · rw [if_neg hv, if_pos hv, e]

/-! ### The reading -/

/-- A reading taken, with the arrival it finds (R91, R94). -/
theorem noticeArrival_readEncoder (m : Motion) (raw : Int) :
    let pos := if m.valid then raw - m.zero else raw
    let speed := match m.history[19]? with
      | some old => (raw - old).tdiv 2
      | none => 0
    let atTarget := m.moveTarget.any fun g => decide ((pos - g.1).natAbs ≤ 200)
    (m.readEncoder raw).noticeArrival =
      { m with
        raw := raw
        history := (raw :: m.history).take 20
        speed := speed
        arrival := if m.arrival = .awaited ∧ atTarget = true ∧ speed = 0 then .found else m.arrival } := by
  intro pos speed atTarget
  have e : m.readEncoder raw = { m with raw := raw, history := (raw :: m.history).take 20, speed := speed } := by
    unfold Motion.readEncoder; simp only [Config.speedReadings, speed]
    all_goals (split <;> simp_all)
  have et : (m.readEncoder raw).moveTarget = m.moveTarget := rfl
  unfold Motion.noticeArrival; rw [et]
  cases hm : m.moveTarget with
  | none => simp only [atTarget, hm, Option.any_none]; rw [e]; simp
  | some g =>
    obtain ⟨g, v⟩ := g
    have ep : (m.readEncoder raw).position = pos := by rw [e]; rfl
    have i : (m.readEncoder raw).inWindow g = atTarget := by
      simp only [Motion.inWindow, ep, atTarget, hm, Option.any_some, Config.arrivalWindow]
    have r : (m.readEncoder raw).atRest = decide (speed = 0) := by
      rw [e]; unfold Motion.atRest; exact beq_eq_decide ..
    have ar : (m.readEncoder raw).arrival = m.arrival := by rw [e]
    simp only [i, r]; rw [ar]
    by_cases c : m.arrival = .awaited ∧ atTarget = true ∧ speed = 0
    · rw [if_pos (by simpa using c), if_pos c, e]
    · rw [if_neg (by simpa using c), if_neg c, e]

/-! ### The advance -/

/-- The station an advance leaves, before the sequencer acts on it. -/
def advanced (o : Bool) (now : Time) (p : Profile) (h : Nat) (x : StationState) : StationState :=
  let y := x.advanceTrail o x.harden now p h
  { x with trail := y.trail, quench := y.quench, motion := spindleSet (rotationAt p.segs h) x.motion }

/-- The trail's part of an advance does not read the motion unit or the faults handed. -/
theorem advanceTrail_with (o b : Bool) (now : Time) (p : Profile) (h : Nat) (x : StationState) (m : Motion)
    (l : List FaultCode) :
    StationState.advanceTrail o b now p h { x with motion := m, handed := l } =
      { x with
        motion := m
        handed := l
        trail := (x.advanceTrail o b now p h).trail
        quench := (x.advanceTrail o b now p h).quench } := by
  have k := (SameDrain.mk rfl rfl rfl : SameDrain x { x with motion := m, handed := l }).advanceTrail o b now p h
  obtain ⟨⟨t, q, e⟩, -, -⟩ := advanceTrail_rest o b now p h { x with motion := m, handed := l }
  rw [e] at k ⊢
  have a : t = _ := k.trail
  have c : q = _ := k.quench
  rw [← a, ← c]

theorem advanced_with (o : Bool) (now : Time) (p : Profile) (h : Nat) (x : StationState) (m : Motion)
    (l : List FaultCode) :
    advanced o now p h { x with motion := m, handed := l } =
      { advanced o now p h x with motion := spindleSet (rotationAt p.segs h) m, handed := l } := by
  unfold advanced; dsimp only
  have e : ({ x with motion := m, handed := l } : StationState).harden = x.harden := rfl
  rw [e, advanceTrail_with]

/-- An advance in HEAT to the profile end, in HEAT below it, and elsewhere (R30, R32, R34). -/
theorem advance_eq (s : State) (u : Station) (o : Bool) (old h : Nat) :
    let p := s.profileOf u
    let t := s.setSt u (advanced o s.time p h (s.st u))
    s.advance u o old h =
      if (s.st u).mode = .heat then
        if p.stop ≤ h then (t.endOfHeat u).modSt u fun z => (z.takeArrivals s.time p).checkDrained
        else t.readProfile u old h
      else t.modSt u StationState.checkDrained := by
  intro p t
  have e : (s.modSt u fun x => (x.advanceTrail o x.harden s.time p h).modMotion
      (Motion.setSpindle (rotationAt p.segs h))) = t := by
    obtain ⟨⟨tr, q, k⟩, -, -⟩ := advanceTrail_rest o (s.st u).harden s.time p h (s.st u)
    unfold State.modSt; simp only [t, advanced, k, StationState.modMotion, setSpindle_eq]
  have m : (t.st u).mode = (s.st u).mode := by simp only [t, st_setSt_self, advanced]
  rw [← m]
  exact congrArg (fun r : State =>
    if (r.st u).mode = .heat then
      if p.stop ≤ h then (r.endOfHeat u).modSt u fun z => (z.takeArrivals s.time p).checkDrained
      else r.readProfile u old h
    else r.modSt u StationState.checkDrained) e

/-- The profile read at an advance outside a dwell that reaches none (R30). -/
theorem readProfile_reads (s : State) (u : Station) (old h : Nat) (h0 : (s.st u).dwells = [])
    (h1 : dwellSegments (s.profileOf u).segs (fun start => old < start && start ≤ h) = []) :
    s.readProfile u old h =
      (s.modSt u fun x =>
          { x with motion := x.motion.setScanSpeed (speedAt (s.profileOf u).segs h) }).issueDemand u
        (powerAt (s.profileOf u).segs (s.st u).settings.powerLead h) := by
  unfold State.readProfile; dsimp only; rw [h0, h1]
  simp only [List.append_nil, modSt_modSt, st_modSt_self]
  have e : ∀ x : StationState, x.dwells = [] → ({ x with dwells := [] } : StationState) = x := by
    intro x k; rw [← k]
  rw [modSt_congr s u (g := fun x => { x with motion := x.motion.setScanSpeed (speedAt (s.profileOf u).segs h) })]
  · rfl
  · rw [e _ h0]; rfl

/-- An advance that reaches a dwell (R31). -/
theorem readProfile_dwells (s : State) (u : Station) (old h i : Nat) (rest : List Nat) (h0 : (s.st u).dwells = [])
    (h1 : dwellSegments (s.profileOf u).segs (fun start => old < start && start ≤ h) = i :: rest) :
    s.readProfile u old h =
      (s.modSt u fun x =>
          { x with
            dwells := i :: rest
            dwellTimer := (segGet (s.profileOf u).segs i).dwell
            motion := modeSet .hold x.motion
            handed := x.handed ++ axisHanded x }).issueDemand u (segGet (s.profileOf u).segs i).power := by
  unfold State.readProfile; dsimp only; rw [h0, h1]
  simp only [List.nil_append, State.startDwell]
  rw [profileOf_modSt _ _ _ rfl, modSt_modSt]
  refine congrArg (State.issueDemand u _) (modSt_congr _ _ ?_)
  simp only [setTravel_eq, TravelMode.handsAxis, if_true]; rfl

/-- An advance inside a dwell (R31; log 22). -/
theorem readProfile_waits (s : State) (u : Station) (old h : Nat) (h0 : (s.st u).dwells ≠ []) :
    s.readProfile u old h =
      s.modSt u fun x =>
        { x with
          dwells := x.dwells ++ dwellSegments (s.profileOf u).segs fun start => old < start && start ≤ h } := by
  unfold State.readProfile
  cases k : (s.st u).dwells with
  | nil => exact absurd k h0
  | cons i rest => simp only [List.cons_append]; exact modSt_congr _ _ (by rw [k]; rfl)

/-- Appending the last slice touches the trail and the quench line alone; a trail that was advancing then drains from the
same position. -/
theorem appendLast_rest (b : Bool) (now : Time) (p : Profile) (x : StationState) :
    ∃ t q, x.appendLast b now p = { x with trail := t, quench := q } ∧
      (∀ h, x.trail.high? = some h → t.phase = .draining h) := by
  unfold StationState.appendLast
  split
  · next h sl e =>
    obtain ⟨q, k⟩ := placeSlice_rest p (sl.close b (sliceLength p x.settings.pitch sl.index) now) x
    rw [k]
    exact ⟨_, _, rfl, fun h' k => by simp [Trail.high?, e] at k; simp [k]⟩
  · next hn =>
    refine ⟨_, _, rfl, fun h k => ?_⟩
    cases hp : x.trail.phase with
    | idle => simp [Trail.high?, hp] at k
    | heating a b => exact absurd hp (hn a b)
    | draining a => simp [Trail.high?, hp] at k; rw [k]

end Sys2Proof.Machine
end

