-- ==== Sys2Proof/Laws/Settings.lean ====
section
/-! SUPPORT. The settings (R183, R184): which pair of a SET is refused, and what GET answers after the pairs are put. -/

namespace Sys2Proof.Machine

/-! ### The judgement of the pairs -/

theorem pairFailure_none_iff (ok : Nat → Nat → Bool) (seen : List Nat) (pairs : List (Nat × Nat)) :
    pairFailure ok seen pairs = none ↔
      (pairs.map Prod.fst).Nodup ∧ (∀ q ∈ pairs, q.1 ∉ seen) ∧ ∀ q ∈ pairs, ok q.1 q.2 = true := by
  induction pairs generalizing seen with
  | nil => simp [pairFailure]
  | cons q rest ih =>
    obtain ⟨id, v⟩ := q
    unfold pairFailure; split
    · next h =>
      simp only [Bool.or_eq_true, List.contains_iff_mem, Bool.not_eq_true'] at h
      simp only [reduceCtorEq, false_iff, not_and]
      intro _ h2 h3
      have := h2 (id, v) (by simp)
      have := h3 (id, v) (by simp)
      rcases h with h | h <;> simp_all
    · next h =>
      simp only [Bool.or_eq_true, List.contains_iff_mem, Bool.not_eq_true', not_or, Bool.not_eq_false] at h
      rw [ih]
      simp only [List.map_cons, List.nodup_cons, List.mem_map, List.mem_cons, not_or]
      constructor
      · rintro ⟨a, b, c⟩
        refine ⟨⟨fun ⟨q, hq, e⟩ => (b q hq).1 e, a⟩, ?_, ?_⟩ <;> rintro q (rfl | hq)
        · exact h.1
        · exact (b q hq).2
        · exact h.2
        · exact c q hq
      · rintro ⟨⟨a, a2⟩, b, c⟩
        exact ⟨a2, fun q hq => ⟨fun e => a ⟨q, hq, e⟩, b q (.inr hq)⟩, fun q hq => c q (.inr hq)⟩

/-- The first pair that fails is the one named. -/
theorem pairFailure_first (ok : Nat → Nat → Bool) (before : List (Nat × Nat)) (id v : Nat)
    (after : List (Nat × Nat)) (seen : List Nat) (h : pairFailure ok seen before = none)
    (bad : id ∈ seen ∨ id ∈ before.map Prod.fst ∨ ok id v = false) :
    pairFailure ok seen (before ++ (id, v) :: after) = some id := by
  induction before generalizing seen with
  | nil =>
    rw [List.nil_append, pairFailure, if_pos]
    rcases bad with b | b | b <;> simp_all
  | cons q rest ih =>
    obtain ⟨i, w⟩ := q
    unfold pairFailure at h
    split at h
    · simp at h
    · next hn =>
      rw [List.cons_append, pairFailure, if_neg hn]
      refine ih _ h ?_
      simp only [List.map_cons, List.mem_cons] at bad ⊢
      tauto

theorem carries_iff (pairs : List (Nat × Nat)) (id : Nat) :
    carries pairs id = true ↔ id ∈ pairs.map Prod.fst := by simp [carries]

/-! ### One value put -/

theorem CommonSettings.get_put_same (c : CommonSettings) (id v : Nat) (h : commonInRange id v = true) :
    (c.put id v).get id = some v := by
  unfold commonInRange at h
  split at h <;> simp_all [CommonSettings.put, CommonSettings.get, within, flagValue]
  all_goals split <;> omega

theorem CommonSettings.get_put_other (c : CommonSettings) (id i v : Nat) (h : i ≠ id) :
    (c.put i v).get id = c.get id := by
  unfold CommonSettings.put
  split <;> (unfold CommonSettings.get; split <;> simp_all)

/-- The kept bits of a bypass set. -/
theorem bypass_bits (v : Nat) (h : v < 256) :
    4 * flagValue (v.testBit 2) + 32 * flagValue (v.testBit 5) = v &&& 36 := by
  have k : ∀ v : Fin 256, 4 * flagValue (v.val.testBit 2) + 32 * flagValue (v.val.testBit 5) = v.val &&& 36 := by
    decide +kernel
  exact k ⟨v, h⟩

/-- GET after a SET: the value put, of the bypass set its bits 2 and 5. -/
theorem StationSettings.get_put_same (c : StationSettings) (id v : Nat) (h : stationInRange id v = true) :
    (c.put id v).get id = some (if id = 51 then v &&& 36 else v) := by
  unfold stationInRange at h
  split at h
  case h_20 =>
    simp only [within, Bool.and_eq_true, decide_eq_true_eq] at h
    simp only [StationSettings.put, StationSettings.get, StationSettings.bypass, if_true]
    rw [bypass_bits v (by omega)]
  all_goals simp_all [StationSettings.put, StationSettings.get, within, flagValue]
  all_goals first
    | (split <;> omega)
    | skip
  obtain rfl | rfl | rfl : v = 0 ∨ v = 1 ∨ v = 2 := by omega
  all_goals rfl

theorem StationSettings.get_put_other (c : StationSettings) (id i v : Nat) (h : i ≠ id) :
    (c.put i v).get id = c.get id := by
  unfold StationSettings.put
  split
  all_goals first
    | rfl
    | (unfold StationSettings.get; split <;> first | rfl | exact absurd rfl h)

/-! ### Every pair put -/

/-- What is read after pairs of different ids are put: the value put where the id is among them, else the one before. -/
theorem get_foldl_put {C : Type} (put : C → Nat → Nat → C) (get : C → Nat → Option Nat) (ok : Nat → Nat → Bool)
    (kept : Nat → Nat → Nat) (same : ∀ c id v, ok id v = true → get (put c id v) id = some (kept id v))
    (other : ∀ c id i v, i ≠ id → get (put c i v) id = get c id) (pairs : List (Nat × Nat)) (id : Nat)
    (distinct : (pairs.map Prod.fst).Nodup) (good : ∀ q ∈ pairs, ok q.1 q.2 = true) (c : C) :
    (∀ v, (id, v) ∈ pairs → get (pairs.foldl (fun c q => put c q.1 q.2) c) id = some (kept id v))
      ∧ (id ∉ pairs.map Prod.fst → get (pairs.foldl (fun c q => put c q.1 q.2) c) id = get c id) := by
  induction pairs generalizing c with
  | nil => simp
  | cons q rest ih =>
    obtain ⟨i, w⟩ := q
    simp only [List.map_cons, List.nodup_cons] at distinct
    obtain ⟨a, b⟩ := ih distinct.2 (fun q hq => good q (by simp [hq])) (put c i w)
    rw [List.foldl_cons]
    refine ⟨fun v hv => ?_, fun h => ?_⟩
    · rcases List.mem_cons.1 hv with h | h
      · cases h
        rw [b distinct.1]
        exact same _ _ _ (good (id, w) (by simp))
      · exact a v h
    · simp only [List.map_cons, List.mem_cons, not_or] at h
      rw [b h.2]
      exact other _ _ _ _ fun e => h.1 e.symm

end Sys2Proof.Machine
end

