-- ==== Sys2Proof/WellFormed.lean ====
section
/-! DEFINITION. The checks on a command's operands that their types do not already make. -/

namespace Sys2Proof

/-- A deadline expiry names a slice of a HEAT, so an index below 2000 (R46). Every other operand is
in range by its type. -/
def Instr.wf : Instr → Bool
  | .deadlineExpiry _ slice => slice < Config.maxSlices
  | .coldReset _ | .resetLineActive | .requestComplete _ | .gapTimerExpiry | .idleTimerExpiry
  | .replySent | .tooLong | .undefinedRequest | .describe | .status | .set | .get | .profileOpen
  | .profilePut | .profileClose | .profileDrop | .profileRead | .take | .stopNormal | .stopAbrupt
  | .resume | .reset | .job | .cancel | .trail | .home | .stationReset | .takeHeadJob _
  | .qualifiedInputSampleChange _ _ _ | .qualificationExpiry _ _ | .axisFaultActive _
  | .homeSwChange _ _ | .coilFlowActive _ | .coilFlowInactive _ | .invReadyActive
  | .invReadyInactive | .invFaultActive | .invFaultInactive | .powerReading _
  | .encoderReading _ _ _ | .moveArrival _ | .rpmReading _ _ | .spindleAtSpeed _
  | .flowReading _ _ | .tankReading _ | .faultTaken _ _ | .changeoverExpiry
  | .responseTimerExpiry | .settleTimerExpiry | .searchTimerExpiry _ | .stallTimerExpiry _
  | .spindleTimerExpiry _ | .dwellExpiry _ | .proofTimerExpiry _ | .flowRiseExpiry _
  | .afterQuenchExpiry _ | .floodTimerExpiry _ | .stepTimerExpiry _ | .handshakeTimerExpiry _
  | .byteTaken _ _ | .axisFaultInactive _ | .resetLineInactive => true

end Sys2Proof
end

