-- ==== Sys2Proof/Tests/Slice0.lean ====
section
/-! SUPPORT. Small tests of the model, and for every statement with hypotheses states that meet them, at the
boundary values where a clause has a range. -/

namespace Sys2Proof.Tests

-- One test at a time, so that few threads wait for the kernel at once.
set_option Elab.async false

open Sys2Proof.Machine

/-! ### Small states -/

/-- A request as an entry of the buffer, with tag 7. -/
def request (unit kind : Byte) (payload : List Byte) : Entry := ⟨false, unit, kind, 7, payload⟩

/-- `s` with a request taken. -/
def asking (unit kind : Byte) (payload : List Byte) (s : State := {}) : State :=
  { s with link := { s.link with transaction := .taken (request unit kind payload) } }

/-- A reply and its summary for the tests of replying. -/
def reply : Reply := ⟨0, 1, 7, .accepted, 0, []⟩

/-- One pair of a SET. -/
def pair (id v : Nat) : List Byte := BitVec.ofNat 8 id :: be32 v

def segment : Segment := ⟨0, 100, 50, 60, true, none, none, none, none⟩

/-- The hypothesis that a request is taken, of a length its row allows. -/
abbrev Asks (row : RequestRow) (unit kind : Byte) (payload : List Byte) (s : State := {}) : Prop :=
  Asked row (request unit kind payload) (asking unit kind payload s)

def header : Header := ⟨0, 4000, 1, [0x50]⟩

/-- The library with one slot, number 1, not EMPTY. -/
def library (x : Slot) : State := (({} : State)).setSlot 0 x

def ready (refs : Nat) : State := library (.ready header [(0, segment)] refs)

def entry (kind : JobKind) : JobEntry := ⟨1, kind, 0, 1, []⟩

def context (kind : JobKind) : Context := newContext (entry kind) 0

/-- Station A as `x`, slot 1 READY. -/
def withA (x : StationState) (s : State := ready 1) : State := { s with a := x }

/-- Station A with a current job, in a mode. -/
def working (kind : JobKind) (m : Mode) : StationState := { mode := m, current := some (context kind) }

/-- Station A at a checkpoint. -/
def walking (kind : JobKind) (w : Checkpoint) : StationState :=
  { working kind .walk with walk := { current := some w, timer := some 5, result := .running } }

def openSlice : SliceRec := newSlice {} ⟨0, 4000, [segment]⟩ 0

/-- Station A in HEAT. -/
def heating (kind : JobKind) : StationState :=
  { working kind .heat with trail := { phase := .heating 100 openSlice } }

/-- Two samples of a station, all inactive. -/
def noSamples : StationSamples := ⟨false, false, false, false, false, false⟩

def order : ReadingOrder := ⟨true, true⟩

/-! ### Behaviour -/

theorem test_wf_accepts_the_last_slice : (Instr.deadlineExpiry .a 1999).wf = true := by decide

theorem test_wf_refuses_a_slice_past_the_last : (Instr.deadlineExpiry .a 2000).wf = false := by decide

theorem test_no_word_spells_a_command : decodeTableWord 8 0 = none ∧ decodeTableWord 32 0xA5 = none := by
  decide

/-- The check value of the CRC of R179 for the characters 1 to 9. -/
theorem test_crc_of_the_nine_digits :
    crc [0x31, 0x32, 0x33, 0x34, 0x35, 0x36, 0x37, 0x38, 0x39] = 0x29B1 := by decide +kernel

theorem test_tick : step State.reset = .next { State.reset with time := 1 } := by rfl

theorem test_lead_byte : exec (.byteTaken 0xA5 false) State.reset
    = .next { State.reset with link := { receiver := .header [], gapTimer := some 5 } } := by rfl

theorem test_describe_payload_length : describeBytes.length = 15 := by decide

theorem test_close_accepts : exec .profileClose (asking 0 0x12 [1] (library (.building header [(0, segment)])))
    = .next ((asking 0 0x12 [1] (library (.ready header [(0, segment)] 0))).answered
        (request 0 0x12 [1]) .accepted [] false) := by rfl

theorem test_ramp_is_truncated_toward_zero : rampValue 100 33 10 1 = 94 := by decide

theorem test_qualification_time : exec (.qualifiedInputSampleChange .a .hold true) State.reset
    = .next (withA { lines := { hold := ⟨true, false, some 20⟩ } } {}) := by rfl

theorem test_tank_at_the_warn_threshold : exec (.tankReading 350) State.reset
    = .next { State.reset with tank := ⟨.warm, 350⟩ } := by rfl

theorem test_tank_leaves_warm : exec (.tankReading 339) { State.reset with tank := ⟨.warm, 350⟩ }
    = .next { State.reset with tank := ⟨.normal, 339⟩ } := by rfl

/-- RESUME takes the head job of a station that waits (R25). -/
theorem test_resume_takes_the_head_job :
    ∃ t, exec .resume (asking 0 0x22 [] { withA { mode := .waitPart, queue := [entry .dry] } with run := .stopped })
        = .next t ∧ t.a.mode = .walk ∧ t.a.queue = [] := ⟨_, rfl, by decide +kernel, by decide +kernel⟩

/-- A second expiry of the response timer in one turn gives no second NO-POWER (R82). -/
theorem test_no_power_is_given_once :
    let s (given : Bool) : State :=
      { withA (heating .harden) with
        channel := { state := .held .a true, demand := 100, response := some 0, noPowerGiven := given } }
    (∃ t, exec .responseTimerExpiry (s false) = .next t ∧ t.a.handed = [.noPower] ∧ t.channel.noPowerGiven = true)
      ∧ ∃ t, exec .responseTimerExpiry (s true) = .next t ∧ t.a.handed = [] :=
  ⟨⟨_, rfl, by decide +kernel, by decide +kernel⟩, _, rfl, by decide +kernel⟩

/-- A reading that leaves the position as it was raises no high-water position (R49). -/
theorem test_unchanged_position_keeps_the_high_water :
    ∃ t, exec (.encoderReading .a 150 order) (withA { heating .harden with motion := { raw := 150 } }) = .next t
      ∧ t.a.trail.high? = some 100 := ⟨_, rfl, by decide +kernel⟩

/-- After the arrival a drift out of the window calls for no speed (R94). -/
theorem test_no_speed_after_the_arrival :
    ({ mode := .moveTo 0 800, arrival := .found, raw := 300 } : Motion).speedDemand = 0
      ∧ ({ mode := .moveTo 0 800, arrival := .awaited, raw := 300 } : Motion).speedDemand = -24 := by decide

/-- The output is the proportion of the rated power (R71). -/
theorem test_power_output : ({ channel := { demand := 1250 }, common := { ratedPower := 2500 } } : State).powerOutput
    = 1 / 2 := by norm_num [State.powerOutput]

/-- A fault handed before a reset is dropped when it is taken, with a job current by then (R167, R177; log 40). -/
theorem test_lapsed_fault_is_dropped :
    ∃ t, exec (.faultTaken .a .stall) (withA { heating .harden with lapsed := [.stall] }) = .next t
      ∧ t.a = heating .harden := ⟨_, rfl, by decide +kernel⟩

/-- A warm reset lets the faults not yet taken lapse (R177). -/
theorem test_warm_reset_lapses :
    ((withA { heating .harden with handed := [.stall] }).warmReset.a.handed,
      (withA { heating .harden with handed := [.stall] }).warmReset.a.lapsed) = ([], [.stall]) := by decide +kernel

/-- Opening and arrival called for by one reading leave a valve that has just begun to open, in either order (R108). -/
theorem test_ring_opens_in_either_order :
    let p : Profile := ⟨0, 4000, [segment]⟩
    let x : StationState :=
      { working .harden .heat with
        trail := { phase := .heating 40000 { openSlice with index := 1 }, list := [openSlice] }
        settings := { preOpen := 0 } }
    ∀ openFirst ∈ [false, true],
      (x.advanceTrail openFirst true 0 p 41000).trail.list = []
        ∧ (x.advanceTrail openFirst true 0 p 41000).quench.valve = .after := by decide +kernel

/-- HEAT entry with and without a dwell on segment 0, on a warm tank and without coil flow at the holder (R29, R62,
R117). -/
theorem test_heat_entry :
    ∀ d ∈ [none, some 700],
      let g : Segment := { segment with dwell := d }
      let s : State :=
        { withA (walking .harden .w8) (library (.ready header [(0, g)] 1)) with
          channel := { state := .held .a false }, tank := ⟨.warm, 350⟩ }
      (s.passWalk .a).a.motion.mode = (if d = none then .scan 50 else .hold) ∧ (s.passWalk .a).a.dwellTimer = d
        ∧ (s.passWalk .a).a.trail.tallies.tankWarm = true ∧ (s.passWalk .a).a.handed = [.coilFlow]
        ∧ (s.passWalk .a).channel.demand = 100 := by decide +kernel

/-- Outside HEAT, RUNOUT and QUENCH-OUT a reading within tolerance leaves the spindle raised marker (log 41). -/
theorem test_spindle_marker_stays_in_return :
    ∃ t, exec (.rpmReading .a 0) (withA { working .harden .returning with motion := { spindleRaised := true } })
      = .next t ∧ t.a.motion.spindleRaised = true := ⟨_, rfl, by decide +kernel⟩

/-- The lead byte taken as the gap timer has run out, its expiry not yet taken, begins a new frame (R178). -/
theorem test_a_byte_that_ends_a_gap_is_taken_in_hunt :
    exec (.byteTaken 0xA5 false) { State.reset with link := { receiver := .header [1], gapTimer := some 0 } }
      = .next { State.reset with link := { receiver := .header [], gapTimer := some 5 } } := by rfl

/-- READY inactive drives a high level with an active-low sense, a low one without (R139). -/
theorem test_output_levels :
    ∀ low ∈ [false, true],
      let x : StationState := { settings := { lowReady := low, lowDone := low, lowReject := low } }
      let s : State := { common := { lowSwitch := low, lowAttn := low } }
      (x.readyLevel, x.doneLevel, x.rejectLevel) = (low, low, low) ∧ s.switchLevel = low ∧ s.attnLevel = low := by
  decide +kernel

/-- An advancing reading past the travel maximum hands LIMIT once, judged before the advance or after it (R99). -/
theorem test_limit_at_an_advancing_reading :
    ∀ judgeFirst ∈ [false, true], ∀ max ∈ [100, 101],
      let x : StationState := { heating .dry with settings := { travelMax := max } }
      ∃ t, exec (.encoderReading .a 101 ⟨judgeFirst, true⟩) (withA x) = .next t
        ∧ t.a.handed = (if max = 100 then [.limit] else []) ∧ t.a.trail.high? = some 101 := by
  intro judgeFirst h max k
  refine ⟨_, rfl, ?_⟩
  revert max judgeFirst
  decide +kernel

/-- A demand that differs restarts the settle timer, an equal one leaves it, and a DRY job's issues none (R30, R84). -/
theorem test_settle_timer_at_an_issued_demand :
    ∀ p ∈ [(JobKind.harden, 100, some 7), (.harden, 90, some 300), (.dry, 90, some 7)],
      let s : State :=
        { withA (heating p.1) with channel := { state := .held .a true, demand := p.2.1, settle := some 7 } }
      ∃ t, exec (.encoderReading .a 101 order) s = .next t ∧ t.channel.settle = p.2.2 := by
  intro p h
  refine ⟨_, rfl, ?_⟩
  revert p
  decide +kernel

/-- RELEASE entered: what the handshake is and whether the part is consumed, by type, HOLD and PRESENT (R43, R143,
R144). -/
theorem test_release_entry :
    let x (h : HandshakeType) (hold up : Bool) : StationState :=
      { lines := { hold := ⟨hold, hold, none⟩, present := ⟨up, up, none⟩ }
        settings := { handshakeType := h, doneFactor := 5 } }
    let entered (h : HandshakeType) (hold up : Bool) : Handshake × Bool :=
      ((x h hold up).enterRelease.lines.handshake, (x h hold up).enterRelease.partConsumed)
    entered .level true true = (.heldBack, false) ∧ entered .delayed false true = (.delaying, false)
      ∧ entered .level false true = (.asserted, true) ∧ entered .level false false = (.pulsing, false)
      ∧ entered .pulse false true = (.pulsing, true) := by decide

/-! ### States that meet the hypotheses of the statements -/

theorem test_hypotheses_StepRunsFrontCommand : ({ pending := [.describe] } : State).pending = .describe :: [] := rfl

theorem test_hypotheses_TimePassesOnAnEmptyQueue :
    State.reset.pending = [] ∧ State.reset.link.gapTimer = none ∧ State.reset.link.idleTimer = none
      ∧ State.reset.channel.changeover = none ∧ State.reset.channel.response = none
      ∧ State.reset.channel.settle = none ∧ (State.reset.a.lines.qual .hold).timer = none
      ∧ State.reset.a.motion.searchTimer = none ∧ State.reset.a.motion.stallTimer = none
      ∧ State.reset.a.motion.spindleTimer = none ∧ State.reset.a.dwellTimer = none
      ∧ (∀ sl ∈ [{ openSlice with timer := none }], sl.index = 0 → sl.timer = none)
      ∧ State.reset.a.quench.proofTimer = none ∧ State.reset.a.quench.riseTimer = none
      ∧ State.reset.a.quench.afterTimer = none ∧ State.reset.a.quench.flood = none
      ∧ State.reset.a.walk.timer = none ∧ State.reset.a.lines.handshakeTimer = none := by decide

/-- A station at work in HEAT, both at work, and each mode without a job; in RELEASE with the shortest qualification time, where the
handshake begun again lasts and where it completes at once. -/
theorem test_hypotheses_WarmResetEndsEveryCycle :
    (withA (heating .harden)).a.current = some (context .harden)
      ∧ (heating .harden).trail.phase = .heating 100 openSlice ∧ openSlice.quench = true
      ∧ (heating .harden).quench.flood = none ∧ (heating .harden).mode ≠ .release
      ∧ (∀ m ∈ [Mode.unhomed, .homing, .idle, .waitPart, .halted, .release],
          (withA { mode := m }).a.current = none ∧ (withA { mode := m }).a.mode = m)
      ∧ (∀ f ∈ [0, 5], let x : StationState := { mode := .release, settings := { qualFactor := 2, doneFactor := f } };
          2 ≤ x.settings.qualFactor ∧ (x.Releases ↔ f = 5))
      ∧ (let x : StationState := { lines := { present := ⟨false, true, some 3⟩ }, settings := { qualFactor := 1 } };
          x.lines.present.qualified = true ∧ x.lines.present.sampled = false ∧ x.settings.qualFactor < 2)
      ∧ (let s : State := { withA (heating .harden) with b := walking .dry .w4 };
          (∀ u, (s.st u).busy = true) ∧ s.busyCount = 2)
      ∧ ReferencesSafe State.reset := by
  refine ⟨by decide, by decide, by decide, by decide, by decide, by decide, by decide, by decide,
    ⟨fun u => ?_, by decide⟩, by decide +kernel, fun u => ?_⟩ <;>
    cases u <;> decide

theorem test_hypotheses_WarmResetIsPerformedOnce :
    State.reset.resetLine = false ∧ ({ resetLine := true } : State).resetLine = true
      ∧ Asked .reset (request 0 0x2F []) (asking 0 0x2F [])
      ∧ ({ link := { transaction := .replying reply false } } : State).link.transaction = .replying reply false
      ∧ ({ link := { transaction := .replying reply true } } : State).link.transaction = .replying reply true
      ∧ (∀ q ∈ [[], [request 0 1 []], [request 0 1 [], request 0 2 [0]]],
          ∃ t, exec .replySent { link := { transaction := .replying reply false, buffer := q } } = .next t
            ∧ t.link.transaction = (q.head?.elim .none .taken) ∧ t.link.buffer = q.tail)
      ∧ ∀ r b, State.reset.link.transaction ≠ .replying r b := by
  refine ⟨rfl, rfl, by decide +kernel, rfl, rfl, fun q h => ⟨_, rfl, ?_⟩, nofun⟩
  revert q
  decide +kernel

/-- The link with a receiver state, its gap timer running. -/
def receiving (r : Receiver) : State := { link := { receiver := r, gapTimer := some 5 } }

theorem test_hypotheses_FramesAreReceived :
    (receiving .hunt).link.receiver = .hunt
      ∧ (receiving (.discard [1, 2, 3])).link.receiver = .discard [1, 2, 3]
      ∧ (receiving (.header [])).link.receiver = .header []
      ∧ 120 < (121 : Byte).toNat ∧ (120 : Byte).toNat ≤ 120
      ∧ (receiving (.header [1, 0])).link.receiver = .header [1, 0] ∧ ([1, 0] : List Byte).length < 3
      ∧ (receiving (.header [0, 0, 1])).link.receiver = .header [0, 0, 1]
      ∧ ([0, 0, 1] : List Byte).length = 3
      ∧ (receiving (.payload [2, 0, 1, 7] [])).link.receiver = .payload [2, 0, 1, 7] []
      ∧ ([] : List Byte).length + 1 ≠ (([2, 0, 1, 7] : List Byte).getD 0 0).toNat
      ∧ (receiving (.payload [2, 0, 1, 7] [9])).link.receiver = .payload [2, 0, 1, 7] [9]
      ∧ ([9] : List Byte).length + 1 = (([2, 0, 1, 7] : List Byte).getD 0 0).toNat
      ∧ (receiving (.check [0, 0, 1, 7] [] none)).link.receiver = .check [0, 0, 1, 7] [] none
      ∧ (∀ r, (receiving r).link.gapTimer ≠ some 0)
      ∧ ∀ r ∈ [Receiver.header [1], .payload [2, 0, 1, 7] [9], .check [0, 0, 1, 7] [] (some 3)],
          let s : State := { link := { receiver := r, gapTimer := some 0 } }
          s.link.receiver = r ∧ s.link.gapTimer = some 0 := by
  refine ⟨by decide, by decide, by decide, by decide, by decide, by decide, by decide, by decide, by decide, by decide,
    by decide, by decide, by decide, by decide, fun _ => nofun, by decide⟩

theorem test_hypotheses_FramesAreReceived_check :
    let c := crc [0, 0, 1, 7]
    let awaiting (n : Nat) (t : Transaction) : State :=
      { link :=
          { receiver := .check [0, 0, 1, 7] [] (some (c.extractLsb' 8 8))
            buffer := List.replicate n (request 0 1 [])
            transaction := t } }
    let good (s : State) : Prop := s.link.receiver = .check [0, 0, 1, 7] [] (some (c.extractLsb' 8 8))
      ∧ c.extractLsb' 8 8 ++ c.extractLsb' 0 8 = crc ([0, 0, 1, 7] ++ [])
    good (awaiting 2 (.replying reply false)) ∧ 2 ≤ (awaiting 2 (.replying reply false)).link.buffer.length
      ∧ good (awaiting 1 (.replying reply false))
      ∧ (awaiting 1 (.replying reply false)).link.buffer.length < 2
      ∧ (awaiting 1 (.replying reply false)).link.transaction ≠ .none
      ∧ good (awaiting 0 .none) ∧ (awaiting 0 .none).link.buffer = []
      ∧ (awaiting 0 .none).link.transaction = .none
      ∧ c.extractLsb' 8 8 ++ ~~~ c.extractLsb' 0 8 ≠ crc ([0, 0, 1, 7] ++ []) := by decide +kernel

theorem test_hypotheses_FramesAreReceived_timers :
    let due (n : Nat) (t : Transaction) : State :=
      { link :=
          { receiver := .discard [1], gapTimer := some 5, idleTimer := some 2
            buffer := List.replicate n (request 0 1 [])
            transaction := t } }
    (due 0 .none).link.gapTimer = some 5 ∧ (due 0 .none).link.idleTimer = some 2
      ∧ (due 0 .none).link.receiver = .discard [1] ∧ (due 0 .none).link.buffer = []
      ∧ (due 0 .none).link.transaction = .none ∧ (due 1 (.replying reply false)).link.buffer.length < 2
      ∧ (due 1 (.replying reply false)).link.transaction ≠ .none
      ∧ 2 ≤ (due 2 (.replying reply false)).link.buffer.length := by decide

theorem test_hypotheses_RequestsRefusedBeforeTheirBlock :
    Asked .tooLong ⟨true, 9, 9, 7, []⟩ { link := { transaction := .taken ⟨true, 9, 9, 7, []⟩ } }
      ∧ Asked .undefinedRequest (request 3 1 []) (asking 3 1 []) ∧ 2 < (3 : Byte).toNat
      ∧ Asked .undefinedRequest (request 2 1 []) (asking 2 1 []) ∧ (2 : Byte).toNat ≤ 2
      ∧ (asking 0 1 [0]).link.transaction = .taken (request 0 1 [0]) ∧ (request 0 1 [0]).row = .describe
      ∧ lengthAllowed .describe [0] = false := by decide +kernel

theorem test_hypotheses_RequestsRefusedBeforeTheirBlock_other : ∀ e, (asking 0 1 []).link.transaction = .taken e → e.row ≠ .status := by
  intro e h
  cases h
  decide +kernel

theorem test_hypotheses_ReportsChangeNothing :
    Asked .describe (request 0 1 []) (asking 0 1 [])
      ∧ ∀ n ∈ [(0 : Byte), 1, 2, 3], Asked .status (request 0 2 [n]) (asking 0 2 [n]) := by decide +kernel

theorem test_hypotheses_RefusedSetChangesNothing :
    (Asks .set 0 3 (pair 13 0) {} ∧ pairFailure commonInRange [] (readPairs (pair 13 0)) = some 13)
      ∧ (Asks .set 0 3 (pair 6 450) {} ∧ pairFailure commonInRange [] (readPairs (pair 6 450)) = none
          ∧ ((({} : CommonSettings).putAll (readPairs (pair 6 450))).criticalThreshold
              ≤ (({} : CommonSettings).putAll (readPairs (pair 6 450))).warnThreshold))
      ∧ (Asks .set 0 3 (pair 2 50) (withA (heating .dry)) ∧ (withA (heating .dry)).anyCurrent = true
          ∧ pairFailure commonInRange [] (readPairs (pair 2 50)) = none
          ∧ (readPairs (pair 2 50)).map Prod.fst ≠ [1])
      ∧ (Asks .set 0 3 (pair 1 500) (library (.ready header [(0, { segment with power := 501 })] 0))
          ∧ pairFailure commonInRange [] (readPairs (pair 1 500)) = none
          ∧ (readPairs (pair 1 500)).map Prod.fst = [1] ∧ carries (readPairs (pair 1 500)) 1 = true
          ∧ (library (.ready header [(0, { segment with power := 501 })] 0)).demandAbove
              (({} : CommonSettings).putAll (readPairs (pair 1 500))).ratedPower = true)
      ∧ unitStation 1 = some .a
      ∧ (Asks .set 1 3 (pair 66 0) ∧ pairFailure stationInRange [] (readPairs (pair 66 0)) = some 66)
      ∧ (Asks .set 1 3 (pair 37 0) ∧ pairFailure stationInRange [] (readPairs (pair 37 0)) = none
          ∧ (({} : StationSettings).putAll (readPairs (pair 37 0))).relationFailure (readPairs (pair 37 0))
              = some 37)
      ∧ (Asks .set 1 3 (pair 37 1) ∧ pairFailure stationInRange [] (readPairs (pair 37 1)) = none
          ∧ (({} : StationSettings).putAll (readPairs (pair 37 1))).relationFailure (readPairs (pair 37 1)) = none
          ∧ Mode.release.takesSettings = false) := by decide +kernel

theorem test_hypotheses_CommonSetAppliesEveryPair :
    ∀ p ∈ [pair 6 449, pair 1 500, pair 8 1, pair 8 1 ++ pair 9 1 ++ pair 10 1],
      let pairs := readPairs p
      let new := ({} : CommonSettings).putAll pairs
      Asked .set (request 0 3 p) (asking 0 3 p) ∧ pairFailure commonInRange [] pairs = none
        ∧ new.warnThreshold < new.criticalThreshold
        ∧ ((asking 0 3 p).anyCurrent = true → pairs.map Prod.fst = [1])
        ∧ (carries pairs 1 = true → (asking 0 3 p).demandAbove new.ratedPower = false) := by decide +kernel

theorem test_hypotheses_StationSetAppliesEveryPair :
    ∀ p ∈ [pair 32 10000, pair 57 1 ++ pair 58 1 ++ pair 59 1 ++ pair 60 1],
      let pairs := readPairs p
      Asked .set (request 2 3 p) (asking 2 3 p) ∧ unitStation 2 = some .b
        ∧ pairFailure stationInRange [] pairs = none
        ∧ (({} : StationSettings).putAll pairs).relationFailure pairs = none
        ∧ (asking 2 3 p).b.mode = .unhomed := by decide +kernel

/-- Pairs put, an id among them and one not; pairs whose third fails, repeated and out of range. -/
theorem test_hypotheses_SettingsHaveTheirTables :
    pairFailure commonInRange [] [(6, 100), (7, 800)] = none ∧ (7, 800) ∈ [(6, 100), (7, 800)]
      ∧ 1 ∉ [(6, 100), (7, 800)].map Prod.fst
      ∧ pairFailure stationInRange [] [(51, 255), (33, 4000)] = none ∧ (51, 255) ∈ [(51, 255), (33, 4000)]
      ∧ (({} : StationSettings).putAll [(51, 255), (33, 4000)]).get 51 = some 36
      ∧ (let before := [(51, 255), (33, 4000)];
          51 ∈ before.map Prod.fst ∧ stationInRange 33 3000 = false
            ∧ pairFailure stationInRange [] (before ++ (51, 0) :: []) = some 51) := by decide +kernel

/-- A profile of two segments with a ramp: the last position of the ramp and the first behind it, a falling ramp, a dwell
on segment 0 and none. -/
theorem test_hypotheses_ProfilesAreReadAtAPosition :
    let one : Segment := { segment with start := 10, power := 80, ramp := some 5 }
    let segs := [segment, one]
    (ready 1).slot 0 = .ready header [(0, segment)] 1 ∧ segs.Pairwise (fun a b => a.start < b.start)
      ∧ (segIndexAt segs 9 = 0 ∧ segIndexAt segs 10 = 1) ∧ segs[1]? = some one
      ∧ (one.ramp = some 5 ∧ 0 < 5 ∧ 14 < one.start + 5 ∧ one.start + 5 ≤ 15)
      ∧ (powerAt segs 0 12 = 92 ∧ powerAt segs 2 12 = 84 ∧ powerAt segs 3 12 = 80)
      ∧ segment.dwell = none ∧ ({ segment with dwell := some 100 } : Segment).dwell ≠ none := by decide +kernel

theorem test_hypotheses_ReportsChangeNothing_get :
    Asked .get (request 0 4 [1, 12]) (asking 0 4 [1, 12])
      ∧ (∀ id ∈ ([1, 12] : List Byte), (({} : CommonSettings).get id.toNat).isSome = true)
      ∧ Asked .get (request 1 4 [32, 66]) (asking 1 4 [32, 66])
      ∧ (∀ j ∈ ([32] : List Byte), (({} : StationSettings).get j.toNat).isSome = true)
      ∧ ({} : StationSettings).get (66 : Byte).toNat = none := by decide +kernel

/-- The payload of a PROFILE-OPEN of slot `n` with profile end `stop` and name P. -/
def openPayload (n : Byte) (stop : Nat) : List Byte := [n, 0, 0, 0, 0] ++ be32 stop ++ [1, 1, 0x50]

theorem test_hypotheses_ProfileOpenBuildsTheSlot :
    (∀ n ∈ [(0 : Byte), 9], Asks .profileOpen 0 0x10 (openPayload n 4000) {}
          ∧ slotIndex (field (openPayload n 4000) 0 1) = none)
      ∧ (Asks .profileOpen 0 0x10 (openPayload 8 4000) (library (.building header []))
          ∧ slotIndex (field (openPayload 8 4000) 0 1) = some 7
          ∧ ((library (.building header [])).slot 0).isBuilding = true)
      ∧ (Asks .profileOpen 0 0x10 (openPayload 1 4000) (ready 1)
          ∧ slotIndex (field (openPayload 1 4000) 0 1) = some 0
          ∧ 0 < ((ready 1).slot 0).refs)
      ∧ (Asks .profileOpen 0 0x10 (openPayload 1 2000001) (ready 0)
          ∧ headerFailure (readHeader (openPayload 1 2000001)) = some 2)
      ∧ (Asks .profileOpen 0 0x10 (openPayload 1 2000000) (ready 0)
          ∧ headerFailure (readHeader (openPayload 1 2000000)) = none
          ∧ ((ready 0).slot 0).refs = 0 ∧ ∀ j, j ≠ 0 → ((ready 0).slot j).isBuilding = false) := by
  decide +kernel

/-- The payload of a PROFILE-PUT of slot `n` and index `i`. -/
def putPayload (n i : Byte) (g : Segment) : List Byte := n :: i :: g.bytes

theorem test_hypotheses_ProfilePutStoresOneEntry :
    let two : Header := { header with count := 2 }
    (Asks .profilePut 0 0x11 (putPayload 0 0 segment) {}
          ∧ slotIndex (field (putPayload 0 0 segment) 0 1) = none)
      ∧ (Asks .profilePut 0 0x11 (putPayload 1 0 segment) {}
          ∧ slotIndex (field (putPayload 1 0 segment) 0 1) = some 0
          ∧ (({} : State).slot 0).isBuilding = false)
      ∧ (Asks .profilePut 0 0x11 (putPayload 1 2 segment) (library (.building two []))
          ∧ (library (.building two [])).slot 0 = .building two []
          ∧ two.count ≤ field (putPayload 1 2 segment) 1 1)
      ∧ (Asks .profilePut 0 0x11 (putPayload 1 1 { segment with speed := 4 }) (library (.building two []))
          ∧ segmentFailure (readSegment (putPayload 1 1 { segment with speed := 4 })) = some 7)
      ∧ (Asks .profilePut 0 0x11 (putPayload 1 1 segment) (library (.building two [(0, segment)]))
          ∧ field (putPayload 1 1 segment) 1 1 < two.count
          ∧ segmentFailure (readSegment (putPayload 1 1 segment)) = none
          ∧ [(0, segment)].Pairwise (fun x y => x.1 < y.1)) := by decide +kernel

theorem test_hypotheses_ProfileCloseValidates :
    let one := library (.building header [(0, segment)])
    (Asks .profileClose 0 0x12 [0] {} ∧ slotIndex (field [0] 0 1) = none)
      ∧ (Asks .profileClose 0 0x12 [8] {} ∧ slotIndex (field [8] 0 1) = some 7
          ∧ (({} : State).slot 7).isBuilding = false)
      ∧ (Asks .profileClose 0 0x12 [1] one ∧ one.slot 0 = .building header [(0, segment)]
          ∧ closeFailure one.common.ratedPower header [(0, segment)] = none)
      ∧ header.stop = header.start + 4000 := by decide +kernel

/-- Each phase of R7 failing alone, at its boundary: the index and the cause. -/
theorem test_hypotheses_ProfileCloseValidates_refused :
    let h (stop n : Nat) : Header := ⟨0, stop, n, [0x50]⟩
    let g (start : Nat) : Segment := { segment with start := start }
    ∀ q ∈ [(h 4000 2, [(0, g 0)], 1, 16), (h 3999 1, [(0, g 0)], 255, 17), (h 4000 1, [(0, g 1)], 0, 18),
        (h 4000 3, [(0, g 0), (1, g 5), (2, g 5)], 2, 19), (h 4000 2, [(0, g 0), (1, g 4000)], 1, 20),
        (h 4000 2, [(0, g 0), (1, { g 5 with power := 2501 })], 1, 21),
        (h 4000 1, [(0, { g 0 with window := some (6, 5) })], 0, 22),
        (h 4000 1, [(0, { g 0 with ramp := some 0 })], 0, 23),
        (h 4000 2, [(0, g 0), (1, { g 5 with ramp := some 3996 })], 1, 24)],
      closeFailure 2500 q.1 q.2.1 = some (q.2.2.1, q.2.2.2)
        ∧ Asks .profileClose 0 0x12 [1] (library (.building q.1 q.2.1))
        ∧ (library (.building q.1 q.2.1)).slot 0 = .building q.1 q.2.1 := by decide +kernel

theorem test_hypotheses_ProfileDropEmptiesTheSlot :
    (Asks .profileDrop 0 0x13 [9] {} ∧ slotIndex (field [9] 0 1) = none)
      ∧ (Asks .profileDrop 0 0x13 [1] {} ∧ slotIndex (field [1] 0 1) = some 0 ∧ ({} : State).slot 0 = .empty)
      ∧ (Asks .profileDrop 0 0x13 [1] (library (.building header []))
          ∧ (library (.building header [])).slot 0 = .building header []
          ∧ ∀ j, j ≠ 0 → ((library (.building header [])).slot j).isBuilding = false)
      ∧ (Asks .profileDrop 0 0x13 [1] (ready 0) ∧ (ready 0).slot 0 = .ready header [(0, segment)] 0)
      ∧ (Asks .profileDrop 0 0x13 [1] (ready 1) ∧ (ready 1).slot 0 = .ready header [(0, segment)] (0 + 1)) := by decide +kernel

theorem test_hypotheses_ProfileReadReturnsTheSlot :
    let two : Header := { header with count := 2 }
    let half := library (.building two [(0, segment)])
    (Asks .profileRead 0 0x14 [0, 255] {} ∧ slotIndex (field [0, 255] 0 1) = none)
      ∧ (Asks .profileRead 0 0x14 [1, 255] {} ∧ field [1, 255] 1 1 = 255 ∧ ({} : State).slot 0 = .empty)
      ∧ (Asks .profileRead 0 0x14 [1, 255] half ∧ half.slot 0 = .building two [(0, segment)])
      ∧ (Asks .profileRead 0 0x14 [1, 255] (ready 1) ∧ (ready 1).slot 0 = .ready header [(0, segment)] 1)
      ∧ (Asks .profileRead 0 0x14 [1, 254] {} ∧ field [1, 254] 1 1 ≠ 255)
      ∧ (Asks .profileRead 0 0x14 [1, 2] half ∧ (half.slot 0).header? = some two
          ∧ two.count ≤ field [1, 2] 1 1)
      ∧ (Asks .profileRead 0 0x14 [1, 1] half ∧ field [1, 1] 1 1 < two.count
          ∧ entryAt (half.slot 0).entries (field [1, 1] 1 1) = none)
      ∧ (Asks .profileRead 0 0x14 [1, 0] half
          ∧ entryAt (half.slot 0).entries (field [1, 0] 1 1) = some segment) := by
  decide +kernel

/-- The conditions of ProfileCloseValidates on the profile of `test_hypotheses_ProfileCloseValidates`. -/
theorem test_hypotheses_ProfileCloseValidates_valid :
    let seg := segGet [segment]
    (∀ i, i < header.count → (entryAt [(0, segment)] i).isSome = true) ∧ header.start + 4000 ≤ header.stop
      ∧ (seg 0).start = header.start ∧ (∀ i, i + 1 < header.count → (seg i).start < (seg (i + 1)).start)
      ∧ (seg (header.count - 1)).start < header.stop
      ∧ ∀ i, i < header.count → (seg i).power ≤ 2500 ∧ (∀ lo hi, (seg i).window = some (lo, hi) → lo ≤ hi)
          ∧ (i = 0 → (seg i).ramp = none) ∧ ∀ r, (seg i).ramp = some r → r ≤ 4000 := by
  refine ⟨by decide, by decide, rfl, fun i h => absurd h (by simp [header]), by decide, fun i h => ?_⟩
  obtain rfl : i = 0 := by simp only [header] at h; omega
  exact ⟨by decide, nofun, fun _ => rfl, nofun⟩

def record : Record := (working .harden .returning).recordOf .a none (context .harden)

theorem test_hypotheses_TakeStopNormalAndResume :
    Asks .take 0 0x20 [] ∧ (asking 0 0x20 []).records = []
      ∧ Asks .take 0 0x20 [] { records := [record] }
      ∧ (asking 0 0x20 [] { records := [record] }).records = record :: [] := by decide +kernel

theorem test_hypotheses_TakeStopNormalAndResume_run :
    (Asks .stopNormal 0 0x21 [0] ∧ ([0] : List Byte) ≠ [1])
      ∧ (Asks .stopNormal 0 0x21 [1] ∧ (asking 0 0x21 [1]).run = .running)
      ∧ (Asks .stopNormal 0 0x21 [1] { run := .stopping } ∧ RunState.stopping ≠ .running)
      ∧ (Asks .resume 0 0x22 [] ∧ (asking 0 0x22 []).run = .running)
      ∧ (Asks .resume 0 0x22 [] { run := .stopped } ∧ RunState.stopped ≠ .running) := by decide +kernel

theorem test_hypotheses_StopAbruptEndsWalkAndHeat :
    Asks .stopAbrupt 0 0x21 [2] { run := .stopped }
      ∧ (Asks .stopAbrupt 0 0x21 [2] ∧ ({} : State).run ≠ .stopped ∧ (({} : State).st .b).busy = false
          ∧ (({} : State).st .a).current = none)
      ∧ (∀ m ∈ [Mode.quenchOut, .flood, .runout, .returning],
          Asks .stopAbrupt 0 0x21 [2] (withA (working .dry m))
            ∧ (withA (working .dry m)).a.current = some (context .dry) ∧ (withA (working .dry m)).b.busy = false
            ∧ (withA (working .dry m)).a.mode = m)
      ∧ (Asks .stopAbrupt 0 0x21 [2] (withA (walking .harden .w7))
          ∧ (walking .harden .w7).mode = .walk ∧ (walking .harden .w7).walk.current = some .w7)
      ∧ (Asks .stopAbrupt 0 0x21 [2] (withA (heating .harden)) ∧ (heating .harden).mode = .heat
          ∧ (heating .harden).walk.current = none
          ∧ (heating .harden).trail.phase = .heating 100 openSlice) := by decide +kernel

/-- Both stations at work: one in HEAT holding the channel, the other in its walk at W7. -/
theorem test_hypotheses_StopAbruptEndsWalkAndHeat_both :
    let s : State := { withA (heating .harden) with b := walking .harden .w7, channel := { state := .held .a true } }
    Asks .stopAbrupt 0 0x21 [2] s ∧ s.run ≠ .stopped ∧ s.a.busy = true ∧ s.b.busy = true
      ∧ (context .dry).job.kind = .dry ∧ (context .dry).final = false := by decide +kernel

/-- The payload of a JOB of profile 1. -/
def jobPayload (tag kind profile repeats : Byte) (ident : List Byte) : List Byte :=
  [0, tag, kind, profile, repeats, BitVec.ofNat 8 ident.length] ++ ident

/-- Station A with `n` jobs pending, tags from 2 on. -/
def pendingJobs (n : Nat) : StationState := { queue := (List.range n).map fun i => { entry .dry with tag := i + 2 } }

/-- What a JOB of station A is answered. -/
def jobAnswer (p : List Byte) (s : State) : Option (ReplyOutcome × List Byte) :=
  match exec .job (asking 1 0x30 p s) with
  | .next t =>
    match t.link.transaction with
    | .replying r _ => some (r.outcome, r.payload)
    | _ => none
  | _ => none

/-- The field checks at their boundaries: each payload is that of an entry taken, and the cause is the check's own. -/
theorem test_hypotheses_JobJudgedInOrder :
    unitStation 1 = some .a ∧ unitStation 2 = some .b ∧ Asks .job 2 0x30 (jobPayload 1 1 1 1 []) ∧
    ∀ q ∈ [(jobPayload 0 1 1 1 [], 32), (jobPayload 1 0 1 1 [], 33), (jobPayload 1 3 1 1 [], 33),
        (jobPayload 1 1 1 0 [], 34), (jobPayload 1 1 1 2 [], 34), (jobPayload 1 2 1 0 [], 34),
        (jobPayload 1 1 1 1 (List.replicate 17 0x41), 35), (jobPayload 1 1 1 1 [0x1F], 35),
        (jobPayload 1 1 1 1 [0x7F], 35), (jobPayload 1 1 0 1 [], 36), (jobPayload 1 1 9 1 [], 36)],
      Asks .job 1 0x30 q.1 (ready 0) ∧ jobAnswer q.1 (ready 0) = some (.badValue, [255, q.2]) := by decide +kernel

/-- The checks on the library, the travel range, the queue and the tag at their boundaries, and what each lets pass. -/
theorem test_hypotheses_JobJudgedInOrder_station :
    let p := jobPayload 1 1 1 1 []
    let at' (x : StationState) : State := withA x (ready 0)
    ∀ q ∈ [(p, ({} : State), ReplyOutcome.notReady, ([] : List Byte)),
        (p, library (.building header [(0, segment)]), .notReady, []),
        (jobPayload 1 1 8 1 [], ready 0, .notReady, []),
        (p, at' { settings := { travelMax := 43999 } }, .badValue, [255, 37]),
        (p, at' { settings := { travelMax := 44000 } }, .accepted, [1]),
        (p, at' (pendingJobs 8), .full, []),
        (p, at' (pendingJobs 7), .accepted, [8]),
        (jobPayload 2 1 1 1 [], at' (pendingJobs 1), .dupTag, []),
        (p, at' (working .dry .heat), .dupTag, []),
        (jobPayload 1 2 1 255 (List.replicate 16 0x7E), ready 0, .accepted, [1]),
        (jobPayload 1 2 1 1 [0x20], ready 0, .accepted, [1])],
      Asks .job 1 0x30 q.1 q.2.1 ∧ jobAnswer q.1 q.2.1 = some (q.2.2.1, q.2.2.2) := by decide +kernel

theorem test_hypotheses_CancelActsOnTheTag :
    (Asks .cancel 1 0x31 [0, 0] ∧ unitStation 1 = some .a ∧ field [0, 0] 0 2 = 0)
      ∧ (Asks .cancel 1 0x31 [0, 1] ∧ field [0, 1] 0 2 ≠ 0 ∧ (entry .dry).tag = field [0, 1] 0 2)
      ∧ (∀ m ∈ [Mode.waitPart, .halted], let x : StationState := { mode := m, queue := [entry .dry] };
          x.current = none ∧ x.queue = [] ++ entry .dry :: [] ∧ x.mode = m)
      ∧ ∀ j ∈ ({ finished := some 1 } : StationState).queue, j.tag ≠ 1 := by decide +kernel

theorem test_hypotheses_CancelActsOnTheTag_current :
    Asks .cancel 1 0x31 [0, 1] ∧ unitStation 1 = some .a
      ∧ (context .dry).job.tag = field [0, 1] 0 2 ∧ field [0, 1] 0 2 ≠ 0
      ∧ (∀ m ∈ [Mode.quenchOut, .flood, .runout, .returning],
          (withA (working .dry m)).a.current = some (context .dry) ∧ (withA (working .dry m)).a.mode = m)
      ∧ (walking .dry .w1).current = some (context .dry) ∧ (walking .dry .w1).mode = .walk
      ∧ (walking .dry .w1).walk.current = some .w1
      ∧ (heating .dry).current = some (context .dry) ∧ (heating .dry).mode = .heat
      ∧ (heating .dry).walk.current = none := by decide +kernel

theorem test_hypotheses_ReportsChangeNothing_trail :
    (Asks .trail 1 0x32 [96] ∧ 95 < field [96] 0 1) ∧ (Asks .trail 1 0x32 [95] ∧ field [95] 0 1 ≤ 95)
      ∧ unitStation 1 = some .a := by decide +kernel

theorem test_hypotheses_HomeBeginsTheSearch :
    ∀ m ∈ [Mode.unhomed, .halted, .idle], ∀ fault ∈ [false, true],
      let x : StationState := { mode := m, lines := { axisFault := fault } }
      Asks .home 1 0x33 [] (withA x) ∧ unitStation 1 = some .a ∧ x.mode = m ∧ x.lines.axisFault = fault := by
  decide +kernel

theorem test_hypotheses_StationResetClearsTheStation :
    ∀ m ∈ [Mode.unhomed, .idle, .waitPart, .halted, .release],
      Asks .stationReset 1 0x34 [] (withA { mode := m }) ∧ unitStation 1 = some .a
        ∧ (withA { mode := m }).a.mode = m := by decide +kernel

/-- Station A waiting for a part with a job pending, the lines active that a HARDEN job needs. -/
def waiting (kind : JobKind) (travelMax : Nat) : StationState :=
  { mode := .waitPart
    queue := [entry kind]
    lines := { present := ⟨true, true, none⟩, clamped := ⟨true, true, none⟩ }
    settings := { travelMax := travelMax } }

/-- Profile end 4000 and the offset of 40000 fit a travel maximum of 44000 and no less. -/
theorem test_hypotheses_HeadJobEntersItsWalk :
    ∀ k ∈ [JobKind.harden, .dry], let s := withA (waiting k 44000);
      (s.st .a).queue = entry k :: [] ∧ Startable s .a (entry k)
        ∧ Fits (s.st .a).settings (s.slot 0).profile.start (s.slot 0).profile.stop := by decide +kernel

theorem test_hypotheses_HeadJobKeptOrRefused :
    (∀ j rest, (State.reset.st .a).queue = j :: rest → ¬ Startable State.reset .a j)
      ∧ ∀ k ∈ [JobKind.harden, .dry], let s := withA (waiting k 43999);
        (s.st .a).queue = entry k :: [] ∧ Startable s .a (entry k)
          ∧ ¬ Fits (s.st .a).settings (s.slot 0).profile.start (s.slot 0).profile.stop :=
  ⟨nofun, by decide +kernel⟩

/-- No job pending at the reset state; one station waiting; both. -/
theorem test_hypotheses_StartConditionsAreJudged :
    (∀ u j rest, (State.reset.st u).queue = j :: rest → ¬ Startable State.reset u j)
      ∧ (let s := withA (waiting .harden 44000);
          (s.st .a).queue = entry .harden :: [] ∧ Startable s .a (entry .harden)
            ∧ (s.st .b).queue = [])
      ∧ (let s : State := { withA (waiting .harden 44000) with b := waiting .dry 43999 };
          ∀ u ∈ [Station.a, .b], ∃ j ∈ [entry .harden, entry .dry], (s.st u).queue = j :: [] ∧ Startable s u j) := by
  refine ⟨fun u => ?_, by decide +kernel, by decide +kernel⟩
  cases u <;> exact nofun

def found : Motion := { mode := .moveTo 0 800, arrival := .found }

theorem test_hypotheses_ArrivalEndsHomingOrPassesW4 :
    ({} : StationState).motion.arrival ≠ .found ∧ found.arrival = .found
      ∧ ({ mode := .homing, motion := found } : StationState).releaseOwed = none
      ∧ (let x : StationState := { mode := .homing, motion := found, releaseOwed := some true };
          x.releaseOwed ≠ none ∧ x.Releases)
      ∧ (let x : StationState :=
            { mode := .homing, motion := found, releaseOwed := some true, settings := { doneFactor := 0 } };
          x.releaseOwed ≠ none ∧ ¬ x.Releases)
      ∧ ({ walking .harden .w4 with motion := found } : StationState).walk.current = some .w4
      ∧ ({ walking .harden .w5 with motion := found } : StationState).walk.current ≠ some .w4 := by decide

theorem test_hypotheses_ReturnArrivalWritesTheRecord :
    ∀ k ∈ [JobKind.harden, .dry], ∀ f ∈ [0, 5],
      let c : Context := { context k with repeatsDone := 1 }
      let x : StationState :=
        { working k .returning with current := some c, motion := found, settings := { doneFactor := f } }
      x.motion.arrival = .found ∧ x.mode = .returning ∧ x.current = some c
        ∧ (c.job.kind = .harden ∨ c.job.repeats ≤ c.repeatsDone)
        ∧ (x.Releases ↔ f = 5) := by decide

theorem test_hypotheses_ReturnArrivalRepeatsADryJob :
    let x : StationState := { working .dry .returning with motion := found }
    x.motion.arrival = .found ∧ x.mode = .returning ∧ x.current = some (context .dry)
      ∧ (context .dry).job.kind = .dry ∧ (context .dry).repeatsDone < (context .dry).job.repeats
      ∧ (context .dry).endAfterRepeat = false ∧ (context .dry).firstFault = none
      ∧ (context .dry).pendingOutcome = .none := by decide

/-- The channel states of `Requested` for station A, and the choices and the switch of `GrantMade`; a station told at
W7, with INV-READY inactive and active. -/
theorem test_hypotheses_SpindleAtSpeedPassesW5_request :
    ({} : Channel).state = .free ∧ ({ state := .switching .a true } : Channel).state = .switching .a true
      ∧ (∀ k ∈ [ChannelState.switching .a false, .switching .b true, .switching .b false, .held .b true, .faulted],
          k ≠ .free ∧ k ≠ .switching .a true)
      ∧ Chosen { waiting := [] ++ [.a] } .a
      ∧ Chosen { waiting := [.b] ++ [.a], lastHolder := some .b } .a
      ∧ Chosen { waiting := [.b] ++ [.a], lastHolder := none } .b
      ∧ (∀ v ∈ [Station.a, .b], ({ switchAt := v } : Channel).switchAt = v ∧ ({ switchAt := v } : Channel).switchAt ≠ v.other)
      ∧ (walking .harden .w7).walk.current = some .w7 ∧ (walking .harden .w6).walk.current ≠ some .w7
      ∧ ({} : State).invReady = false ∧ ({ invReady := true } : State).invReady = true := by decide

theorem test_hypotheses_SpindleAtSpeedPassesW5 :
    let x (k : JobKind) (w : Checkpoint) (skip : Bool) : StationState :=
      { walking k w with motion := { watch := .found }, settings := { bypassW6 := skip } }
    ({} : StationState).motion.watch ≠ .found
      ∧ ((x .harden .w4 false).motion.watch = .found ∧ (x .harden .w4 false).walk.current ≠ some .w5)
      ∧ ((x .harden .w5 false).walk.current = some .w5 ∧ (x .harden .w5 false).settings.bypassW6 = false)
      ∧ ((x .harden .w5 true).settings.bypassW6 = true ∧ (x .harden .w5 true).harden = true)
      ∧ ((x .dry .w5 true).harden = false ∧ ({} : Channel).holder ≠ some .a) := by decide

theorem test_hypotheses_ProofPassedGoesOn :
    let x (k : JobKind) : StationState :=
      { walking k .w6 with quench := { valve := .proof, proofTimer := some 4, proofSeen := true } }
    (x .harden).quench.proofTimer = some 4 ∧ (x .harden).walk.current = some .w6
      ∧ (x .harden).quench.proofSeen = true ∧ (x .harden).harden = true
      ∧ (x .dry).current = some (context .dry) ∧ (context .dry).job.kind = .dry
      ∧ ({} : Channel).holder ≠ some .a := by decide

theorem test_hypotheses_ProofAndStepLimitFailTheWalk :
    let x : StationState :=
      { walking .harden .w6 with quench := { valve := .proof, proofTimer := some 4, proofSeen := false } }
    x.quench.proofTimer = some 4 ∧ x.walk.current = some .w6 ∧ x.quench.proofSeen = false
      ∧ (walking .harden .w7).walk.timer = some 5 ∧ (walking .harden .w7).walk.current = some .w7
      ∧ (walking .dry .w2).walk.timer = some 5 ∧ (walking .dry .w2).walk.current = some .w2 := by decide

/-- The channel where a walk ends at W7: its own changeover, its own turn, and a request that waits; and at W8: held with
the other station waiting, and not held. -/
theorem test_hypotheses_ProofAndStepLimitFailTheWalk_channel :
    ({ state := .switching .a false } : Channel).state = .switching .a false
      ∧ ({ state := .held .a false } : Channel).holder = some .a
      ∧ (∀ k ∈ [ChannelState.free, .faulted, .switching .b false, .held .b true],
          (∀ w ∈ [false, true], k ≠ .switching .a w) ∧ ({ state := k, waiting := [.a] } : Channel).holder ≠ some .a)
      ∧ (let c : Channel := { state := .held .a false, waiting := [.b], lastHolder := some .a };
          c.holder = some .a ∧ Chosen c .b ∧ c.switchAt ≠ .b)
      ∧ (walking .harden .w8).walk.timer = some 5 ∧ (walking .harden .w8).walk.current = some .w8
      ∧ ({ state := .faulted } : Channel).holder ≠ some .a := by decide

theorem test_hypotheses_FaultInHeatEndsHeat :
    ∀ f ∈ [FaultCode.inverter, .spindle, .stall, .axis],
      let x : StationState := { heating .harden with handed := [f] }
      f ∉ x.lapsed ∧ f ∈ x.handed ∧ x.mode = .heat ∧ x.current = some (context .harden) ∧ x.walk.current = none
        ∧ x.trail.phase = .heating 100 openSlice := by decide

/-- HEAT left with the channel held, no request waiting and the other station's, and with it not held. -/
theorem test_hypotheses_FaultInHeatEndsHeat_channel :
    (∀ q ∈ [[], [Station.b]], let c : Channel := { state := .held .a true, waiting := q, lastHolder := some .a };
        c.holder = some .a ∧ c.waiting = q ∧ (q = [.b] → Chosen c .b))
      ∧ ({} : Channel).holder ≠ some .a ∧ (4294967295 : Nat) + 0 < 2 ^ 32 := by decide

theorem test_hypotheses_FaultOutsideHeat :
    (FaultCode.axis ∉ ({} : StationState).lapsed ∧ FaultCode.axis ∉ ({} : StationState).handed)
      ∧ FaultCode.axis ∈ ({ working .dry .heat with handed := [.axis], lapsed := [.axis] } : StationState).lapsed
      ∧ (let x : StationState := { handed := [.axis] };
          FaultCode.axis ∈ x.handed ∧ x.current = none)
      ∧ (∀ m ∈ [Mode.flood, .walk, .returning, .runout, .quenchOut],
          let x : StationState := { working .harden m with handed := [.spindle] }
          FaultCode.spindle ∈ x.handed ∧ x.current = some (context .harden) ∧ x.mode = m
            ∧ FaultCode.spindle ≠ .axis ∧ floodClass .spindle = false)
      ∧ (∀ m ∈ [Mode.runout, .quenchOut],
          let x : StationState := { working .harden m with handed := [.quenchFlow] }
          FaultCode.quenchFlow ∈ x.handed ∧ x.mode = m ∧ floodClass .quenchFlow = true)
      ∧ (let x : StationState := { walking .harden .w4 with handed := [.axis] };
          FaultCode.axis ∈ x.handed ∧ x.mode = .walk ∧ x.walk.current = some .w4)
      ∧ (let x : StationState := { working .harden .returning with handed := [.axis] };
          FaultCode.axis ∈ x.handed ∧ x.mode = .returning) := by decide

theorem test_hypotheses_LoaderLinesAreQualified :
    let factor (n : Nat) : StationSettings := { qualFactor := n }
    ({} : QualInput).sampled = false
      ∧ (⟨true, false, some 3⟩ : QualInput).sampled ≠ false
      ∧ (⟨false, false, none⟩ : QualInput).sampled ≠ true ∧ 2 ≤ (factor 2).qualFactor ∧ (factor 1).qualFactor < 2
      ∧ (∃ t, exec (.qualificationExpiry .a .hold)
          (withA { lines := { hold := ⟨true, false, some 0⟩ } }) = .next t)
      ∧ (let x : StationState :=
            { walking .harden .w1 with
              lines := { present := ⟨true, false, some 3⟩, clamped := ⟨true, true, none⟩ } };
          (x.lines.qual .present).timer = some 3 ∧ (x.lines.qual .present).sampled = true
            ∧ (x.lines.qual .present).qualified = false ∧ x.walk.current = some .w1 ∧ x.harden = true
            ∧ x.lines.coilFlow = false ∧ x.lines.clamped.qualified = true)
      ∧ (∀ up ∈ [false, true], ∀ flow ∈ [false, true], ∀ skip ∈ [false, true],
          let x : StationState :=
            { walking (if flow then .harden else .dry) .w1 with
              lines := { present := ⟨true, false, some 3⟩, clamped := ⟨up, up, none⟩, coilFlow := flow }
              settings := { bypassW3 := skip } }
          x.walk.current = some .w1 ∧ (x.lines.coilFlow = true ∨ x.harden = false) ∧ x.settings.bypassW3 = skip
            ∧ x.lines.clamped.qualified = up)
      ∧ ({ tank := ⟨.critical, 450⟩ } : State).tank.state = .critical ∧ ({} : State).tank.state ≠ .critical := by
  refine ⟨rfl, by decide, by decide, by decide, by decide, ⟨_, rfl⟩, by decide, by decide, rfl, by decide⟩

/-- W1 passed with the coil flow already active: the walk stands at W4. -/
theorem test_w1_passes_w2_with_coil_flow :
    ∃ t, exec (.qualificationExpiry .a .present) (withA
        { walking .harden .w1 with
          lines := { present := ⟨true, false, some 3⟩, clamped := ⟨true, true, none⟩, coilFlow := true } })
        = .next t ∧ t.a.walk.current = some .w4 := ⟨_, rfl, by decide +kernel⟩

theorem test_hypotheses_HandshakeFollowsItsLines :
    let x (h : Handshake) (up : Bool) (t : HandshakeType) (f : Nat) (hold : QualInput) : StationState :=
      { mode := .release
        lines := { handshake := h, present := ⟨up, up, none⟩, hold := hold, handshakeTimer := some 6 }
        settings := { handshakeType := t, doneFactor := f } }
    (∀ h ∈ [Handshake.delaying, .asserted],
        (x h true .delayed 5 ⟨true, false, some 2⟩).lines.hold.timer = some 2
          ∧ (x h true .delayed 5 ⟨true, false, some 2⟩).lines.handshake = h)
      ∧ (x .heldBack true .delayed 5 ⟨false, true, some 2⟩).lines.handshake = .heldBack
      ∧ 0 < (x .heldBack true .delayed 1 ⟨false, true, some 2⟩).settings.doneDelay
      ∧ (x .heldBack true .delayed 0 ⟨false, true, some 2⟩).settings.doneDelay = 0
      ∧ (x .heldBack false .level 1 ⟨false, true, some 2⟩).lines.present.qualified = false
      ∧ (x .heldBack false .level 1 ⟨false, true, some 2⟩).mode = .release
      ∧ (x .heldBack true .pulse 1 ⟨false, true, some 2⟩).settings.handshakeType = .pulse
      ∧ (let y : StationState :=
            { mode := .release, lines := { handshake := .asserted, present := ⟨false, true, some 2⟩ } };
          y.lines.present.timer = some 2 ∧ y.lines.present.sampled = false
            ∧ y.lines.present.qualified = true ∧ y.lines.handshake = .asserted)
      ∧ (∀ h ∈ [Handshake.delaying, .pulsing],
          (x h true .delayed 5 {}).lines.handshakeTimer = some 6 ∧ (x h true .delayed 5 {}).lines.handshake = h
            ∧ (x h true .delayed 5 {}).settings.handshakeType ≠ .pulse)
      ∧ (∀ f ∈ [0, 1], ∀ t ∈ [HandshakeType.delayed, .pulse],
          (x .delaying false t f {}).lines.handshake = .delaying ∧ (x .delaying false t f {}).settings.handshakeType = t
            ∧ (x .delaying false t f {}).lines.present.qualified = false ∧ (x .delaying false t f {}).mode = .release
            ∧ (0 < (x .delaying false t f {}).settings.doneDelay ↔ f = 1)) := by decide

theorem test_hypotheses_AxisAndHomeSwitch :
    (∀ m ∈ [TravelMode.stop, .hold, .scan 50, .moveTo 0 800, .seekHome .backOff 200, .seekHome .seek 200],
        ∀ b ∈ [false, true],
        let x : StationState := { motion := { mode := m, searchTimer := some 9 }, lines := { axisFault := b } }
        x.lines.axisFault = b ∧ x.motion.mode = m ∧ x.current = none ∧ x.lines.homeSw = false
          ∧ x.motion.searchTimer = some 9)
      ∧ (let x : StationState := { walking .dry .w4 with motion := found };
          x.current = some (context .dry) ∧ x.mode = .walk ∧ x.walk.current = some .w4
            ∧ x.motion.mode = .moveTo 0 800)
      ∧ (let x : StationState := { working .dry .returning with motion := found };
          x.current = some (context .dry) ∧ x.mode = .returning) := by decide

theorem test_hypotheses_CoilFlowLine :
    (walking .harden .w2).lines.coilFlow = false ∧ (walking .harden .w2).walk.current = some .w2
      ∧ (walking .harden .w1).walk.current ≠ some .w2
      ∧ ({ heating .harden with lines := { coilFlow := true } } : StationState).lines.coilFlow = true
      ∧ ({ tank := ⟨.critical, 450⟩ } : State).tank.state = .critical
      ∧ ({} : State).tank.state ≠ .critical ∧ (walking .harden .w2).settings.bypassW3 = false := by decide

/-- The channel held by station A. -/
def held (inHeat : Bool) : Channel := { state := .held .a inHeat, lastHolder := some .a, demand := 0 }

theorem test_hypotheses_InverterReadyLine :
    ({} : State).invReady = false
      ∧ (let s : State := { withA (heating .harden) with invReady := true, channel := held true };
          s.invReady = true ∧ s.channel.state = .held .a true)
      ∧ (∀ v, ({ invReady := true } : State).channel.state ≠ .held v true)
      ∧ ((walking .harden .w7).walk.current ≠ some .w8 ∧ ({} : State).b.walk.current ≠ some .w8)
      ∧ (let s : State := { withA (walking .harden .w8) with channel := held false };
          s.a.walk.current = some .w8 ∧ s.b.walk.current ≠ some .w8 ∧ s.channel.state = .held .a false
            ∧ s.a.current = some (context .harden)) := by
  refine ⟨rfl, by decide +kernel, nofun, by decide, by decide +kernel⟩

theorem test_hypotheses_InverterFaultLine :
    ({} : State).invFault = false ∧ ({} : State).channel.state = .free
      ∧ ({ state := .switching .a false } : Channel).state = .switching .a false
      ∧ (held true).state = .held .a true
      ∧ ((held false).state = .held .a false ∧ (walking .harden .w8).walk.current = some .w8)
      ∧ (let c : Channel := { state := .faulted };
          c.state = .faulted ∧ c.waiting = [])
      ∧ (let c : Channel := { state := .faulted, waiting := [.a, .b], lastHolder := some .a, switchAt := .a };
          Chosen c .b ∧ c.switchAt ≠ .b)
      ∧ (let c : Channel := { state := .faulted, waiting := [.a], switchAt := .a };
          Chosen c .a ∧ c.switchAt = .a) := by decide

theorem test_hypotheses_ChangeoverEnds :
    (∀ w ∈ [false, true], ∀ q ∈ [[], [Station.a], [Station.b]],
        let c : Channel := { state := .switching .a w, changeover := some 3, waiting := q }
        c.changeover = some 3 ∧ c.state = .switching .a w ∧ c.waiting = q)
      ∧ (let c : Channel := { waiting := [.b], switchAt := .a };
          Chosen c .b ∧ c.switchAt ≠ .b)
      ∧ (let c : Channel := { waiting := [.a], switchAt := .a };
          Chosen c .a ∧ c.switchAt = .a) := by decide

theorem test_hypotheses_PowerReadingIsCredited :
    (∀ v, ({} : State).channel.state ≠ .held v true)
      ∧ (held true).state = .held .a true ∧ (heating .harden).trail.phase = .heating 100 openSlice
      ∧ ({ phase := .draining 100 } : Trail).phase = .draining 100 ∧ ({} : Trail).phase = .idle
      ∧ (4294967295 : Nat) + 0 < 2 ^ 32
      ∧ ({ held true with response := some 3, settle := some 2 } : Channel).response = some 3
      ∧ (held true).noPowerGiven = false ∧ ({ held true with noPowerGiven := true } : Channel).noPowerGiven = true
      ∧ ({ held true with response := some 3, settle := some 2 } : Channel).settle = some 2 := by
  refine ⟨nofun, by decide, by decide, by decide, by decide, by decide, by decide, by decide, by decide, by decide⟩

/-- A reading at the high-water position itself does not advance the trail, nor does one that leaves the position of the
reading before, wherever that stands. -/
theorem test_hypotheses_EncoderReadingIsJudged :
    (∀ h, (heating .harden).trail.high? = some h → (100 : BitVec 32).toInt ≤ h)
      ∧ (let x : StationState := { heating .harden with motion := { raw := 150 } };
          (150 : BitVec 32).toInt = (if x.motion.valid then x.motion.raw - x.motion.zero else x.motion.raw)) := by
  refine ⟨fun h e => ?_, by decide⟩
  cases e
  decide

/-- The last slice of a profile of one slice, and what the ring leaves of the trail at its end. -/
def drained (valve : RingValve) (l : List SliceRec) : StationState :=
  { working .harden .runout with trail := { phase := .draining 100, list := l }, quench := { valve := valve } }

theorem test_hypotheses_EncoderReadingAdvancesTheTrail :
    ((heating .harden).trail.high? = some 100 ∧ ((100 : Nat) : Int) < (101 : BitVec 32).toInt
        ∧ (101 : BitVec 32).toInt ≠ (if (heating .harden).motion.valid then
            (heating .harden).motion.raw - (heating .harden).motion.zero else (heating .harden).motion.raw)
        ∧ (heating .harden).mode = .heat ∧ (heating .harden).trail.phase = .heating 100 openSlice
        ∧ (3999 : BitVec 32).toInt < (4000 : Nat) ∧ ((4000 : Nat) : Int) ≤ (4000 : BitVec 32).toInt
        ∧ (heating .harden).current = some (context .harden) ∧ (heating .harden).walk.current = none
        ∧ (heating .harden).motion.valid = false ∧ (heating .harden).dwells = []
        ∧ (ready 1).slot 0 = .ready header [(0, segment)] 1
        ∧ dwellSegments [segment] (fun start => 100 < start && start ≤ 101) = [])
      ∧ dwellSegments [segment, { segment with start := 101, dwell := some 100 }]
          (fun start => 100 < start && start ≤ 101) = 1 :: []
      ∧ ({ heating .harden with dwells := [0] } : StationState).dwells ≠ []
      ∧ ∀ m ∈ [Mode.runout, .quenchOut],
          let x : StationState := { working .harden m with trail := { phase := .draining 100 } }
          x.mode = m ∧ x.trail.phase = .draining 100 ∧ x.trail.high? = some 100 := by decide +kernel

/-- The three ends: a trail drained with the ring valve closed, one drained with it open, and one that still holds a
slice, each in RUNOUT, and the trail at the profile end of HEAT. -/
theorem test_hypotheses_EncoderReadingAdvancesTheTrail_ends :
    let p : Profile := ⟨0, 4000, [segment]⟩
    let y (x : StationState) : StationState := x.advanceTrail true x.harden 0 p 101
    ((y (drained .closed [])).trail.list = [] ∧ (y (drained .closed [])).quench.valve = .closed)
      ∧ ((y (drained .after [])).trail.list = [] ∧ (y (drained .after [])).quench.valve ≠ .closed)
      ∧ (y (drained .quench [openSlice])).trail.list ≠ []
      ∧ (let x := heating .harden;
          ((((x.advanceTrail true x.harden 0 p 4000).appendLast x.harden 0 p).tankAtEntry .normal).takeArrivals 0
            p).trail.list ≠ []) := by decide +kernel

/-- Slices appended and arrived, at the boundary of the open slice, at the ring's midpoint and at the pre-open
distance. -/
theorem test_hypotheses_SlicesAppendAndArrive :
    let p : Profile := ⟨0, 4000, [segment]⟩
    let at' (h : Nat) (l : List SliceRec) (v : RingValve) : StationState :=
      { trail := { phase := .heating h openSlice, list := l }, quench := { valve := v } }
    ((at' 2000 [] .closed).openReached p = true ∧ (at' 1999 [] .closed).openReached p = false)
      ∧ ((at' 41000 [openSlice] .closed).headReached p = true ∧ (at' 40999 [openSlice] .closed).headReached p = false)
      ∧ ((at' 100 [openSlice] .closed).quench.valve = .closed ∧ (at' 100 [openSlice] .closed).trail.high? = some 100
          ∧ (at' 100 [openSlice] .closed).trail.list.find? (·.quench) = some openSlice)
      ∧ (((at' 36000 [openSlice] .closed).judgeOpen p).quench.valve = .quench
          ∧ ((at' 35999 [openSlice] .closed).judgeOpen p).quench.valve = .closed)
      ∧ ((at' 100 [] .quench).quench.valve ≠ .closed ∧ ({} : Trail).high? = none
          ∧ ∀ o ∈ [{ openSlice with quench := false }], o.quench = false)
      ∧ (at' 100 [] .closed).trail.phase = .heating 100 openSlice
      ∧ ({ openSlice with quench := false } : SliceRec).quench = false
      ∧ (openSlice.quench = true ∧ (∃ o ∈ [openSlice], o.quench = true) ∧ ∀ o ∈ ([] : List SliceRec), o.quench = false)
      ∧ ((at' 100 [openSlice] .after).quench.valve ≠ .quench ∧ (at' 100 [openSlice] .quench).quench.valve = .quench
          ∧ 0 < ({} : StationSettings).afterQuench ∧ ({ afterQuench := 0 } : StationSettings).afterQuench = 0) := by
  decide +kernel

theorem test_hypotheses_SlicesAppendAndArrive_draining :
    ∀ h o, ({ phase := .draining 100 } : Trail).phase ≠ .heating h o := by
  intro h o e
  exact TrailPhase.noConfusion e

/-- Tallying a slice without flags and with one: no run, with seven and with eight zones listed, a run listed, a run
beyond. -/
theorem test_hypotheses_SlicesAreTallied :
    openSlice.flags = {} ∧ ({ late := true } : Flags) ≠ {}
      ∧ (∀ n ∈ [7, 8], (List.replicate n (⟨0, 1, {}⟩ : Zone)).length = n) ∧ (7 < 8 ∧ 8 ≤ 8)
      ∧ ({} : Trail).run = .none ∧ ({ run := .listed } : Trail).run = .listed ∧ ({ run := .beyond } : Trail).run = .beyond
      ∧ [(⟨0, 1, {}⟩ : Zone)] = [] ++ [⟨0, 1, {}⟩] ∧ (4294967294 : Nat) + 1 < 2 ^ 32 := by decide

theorem test_hypotheses_RpmReadingIsJudged :
    let x : StationState := { motion := { spindleTimer := some 250, stallTimer := some 500 } }
    x.motion.spindleTimer = some 250 ∧ x.motion.stallTimer = some 500 := by decide

theorem test_hypotheses_FlowReadingIsJudged :
    ({ quench := { valve := .quench, riseTimer := some 500 } } : StationState).quench.riseTimer = some 500 := by
  decide

theorem test_hypotheses_DwellAndDeadlineExpire :
    (∀ more ∈ [[], [3]],
        let x : StationState :=
          { heating .harden with dwellTimer := some 8, dwells := 2 :: more, motion := { mode := .hold } }
        x.dwellTimer = some 8 ∧ x.dwells = 2 :: more ∧ x.trail.high? = some 100)
      ∧ (let x : StationState :=
            { working .harden .runout with
              trail :=
                { phase := .draining 100
                  list := [{ openSlice with index := 1 }, { openSlice with timer := some 4 }] } };
          x.trail.list = [{ openSlice with index := 1 }] ++ { openSlice with timer := some 4 } :: []
            ∧ openSlice.index = 0 ∧ ∀ o ∈ [{ openSlice with index := 1 }] ++ [], o.index ≠ 0) := by
  decide +kernel

theorem test_hypotheses_AfterQuenchAndFloodExpire :
    (∀ l ∈ [[], [openSlice]],
        let x : StationState :=
          { working .harden .runout with
            trail := { phase := .draining 100, list := l }, quench := { valve := .after, afterTimer := some 2 } }
        x.quench.afterTimer = some 2 ∧ x.trail.phase = .draining 100 ∧ x.trail.list = l)
      ∧ (let x : StationState := { quench := { flood := some ⟨7, .warmReset⟩ } };
          x.quench.flood = some ⟨7, .warmReset⟩ ∧ x.mode ≠ .flood)
      ∧ (let c : Context := { context .harden with firstFault := some .stall };
          let x : StationState :=
            { working .harden .flood with current := some c, quench := { flood := some ⟨7, .floodEntry⟩ } }
          x.mode = .flood ∧ x.current = some c ∧ c.firstFault ≠ none ∧ x.quench.flood = some ⟨7, .floodEntry⟩) := by
  decide

theorem test_hypotheses_OutputsFollowTheState :
    State.reset.channel.demand = 0 ∧ 0 < State.reset.common.ratedPower := by decide

/-- A state in mid-cycle: station A in HEAT under the demand of its profile, one job more in its queue, a record
held, and a request waiting behind a transaction. -/
def busy : State :=
  { ready 2 with
    a := { heating .harden with queue := [{ entry .harden with tag := 2 }] }
    channel := { held true with demand := 100 }
    records := [record]
    reservations := 1
    link := { buffer := [request 0 1 []], transaction := .replying reply false } }

theorem test_hypotheses_RecordsStaySafe : RecordsSafe busy ∧ ∃ t, step busy = .next t := by
  refine ⟨⟨by decide, by decide, fun u => ?_⟩, _, rfl⟩
  cases u <;> decide

theorem test_hypotheses_DemandStaysSafe : DemandSafe busy ∧ busy.channel.demand ≠ 0 ∧ ∃ t, step busy = .next t :=
  ⟨fun _ => by decide, by decide, _, rfl⟩

theorem test_hypotheses_LinkStaysSafe : LinkSafe busy ∧ ∃ t, step busy = .next t :=
  ⟨⟨by decide, nofun⟩, _, rfl⟩

theorem test_hypotheses_QueuesStaySafe : QueuesSafe busy ∧ ∃ t, step busy = .next t := by
  refine ⟨fun u => ?_, _, rfl⟩
  cases u <;> decide

theorem test_hypotheses_ReferencesStaySafe : ReferencesSafe busy ∧ ∃ t, step busy = .next t := by
  refine ⟨⟨by decide +kernel, fun u => ?_⟩, _, rfl⟩
  cases u <;> decide

theorem test_hypotheses_NoStartIsMissed : StartsTaken busy ∧ ∃ t, step busy = .next t := by
  refine ⟨fun u => ?_, _, rfl⟩
  cases u <;> decide

end Sys2Proof.Tests
end

section
/-! PROOFS. The profile library as the host reaches it over the link: PROFILE-OPEN, PROFILE-DROP and PROFILE-READ
(R6, R9, R10). -/

namespace Sys2Proof.Machine

/-! ### A request answered (R181) -/

/-- A request asked for is served by its block. -/
theorem serve_of_asked {row : RequestRow} {e : Entry} {s : State} (asked : Asked row e s)
    (act : Entry → State → State × Answer) : s.serve row act = State.reply e (row == .reset) (act e s) := by
  obtain ⟨taken, routed, allowed⟩ := asked
  simp [State.serve, taken, routed, allowed]

theorem reply_eq_answered (e : Entry) (reset : Bool) (t : State) (x : Answer) :
    State.reply e reset (t, x) = t.answered e x.outcome x.payload reset := rfl

section
variable {s : State} {e : Entry} {t : State} {x : Answer}

theorem exec_profileOpen (asked : Asked .profileOpen e s)
    (given : openSlot (field e.payload 0 1) (readHeader e.payload) s = (t, x)) :
    exec .profileOpen s = .next (t.answered e x.outcome x.payload false) := by
  have served : exec .profileOpen s
      = .next (s.serve .profileOpen fun e s => openSlot (field e.payload 0 1) (readHeader e.payload) s) := rfl
  rw [served, serve_of_asked asked, given, reply_eq_answered]; rfl

theorem exec_profileDrop (asked : Asked .profileDrop e s) (given : dropSlot (field e.payload 0 1) s = (t, x)) :
    exec .profileDrop s = .next (t.answered e x.outcome x.payload false) := by
  have served : exec .profileDrop s
      = .next (s.serve .profileDrop fun e s => dropSlot (field e.payload 0 1) s) := rfl
  rw [served, serve_of_asked asked, given, reply_eq_answered]; rfl

theorem exec_profileRead (asked : Asked .profileRead e s)
    (given : readSlot (field e.payload 0 1) (field e.payload 1 1) s = x) :
    exec .profileRead s = .next (s.answered e x.outcome x.payload false) := by
  have served : exec .profileRead s
      = .next (s.serve .profileRead fun e s =>
          (s, readSlot (field e.payload 0 1) (field e.payload 1 1) s)) := rfl
  rw [served, serve_of_asked asked, given, reply_eq_answered]; rfl

end

/-! ### Slot numbers and the BUILDING slot (R2, R6) -/

/-- Slot numbers 1 to 8 name the slots. -/
theorem slotIndex_eq_some_iff (n : Nat) (k : Fin 8) : slotIndex n = some k ↔ n = k.val + 1 := by
  simp only [slotIndex, Option.dite_none_right_eq_some, Option.some.injEq, Fin.ext_iff]
  constructor
  · rintro ⟨inside, same⟩
    omega
  · intro same
    exact ⟨by omega, by omega⟩

theorem otherBuilding_iff (s : State) (k : Fin 8) :
    s.otherBuilding k = true ↔ ∃ j, j ≠ k ∧ (s.slot j).isBuilding = true := by
  simp [State.otherBuilding]

theorem otherBuilding_eq_false_iff (s : State) (k : Fin 8) :
    s.otherBuilding k = false ↔ ∀ j, j ≠ k → (s.slot j).isBuilding = false := by
  simp [State.otherBuilding]

/-- Where no other slot is BUILDING, none is once the slot itself is EMPTY. -/
theorem isBuilding_setSlot_empty {s : State} {k : Fin 8} (alone : ∀ j, j ≠ k → (s.slot j).isBuilding = false)
    (j : Fin 8) : ((s.setSlot k .empty).slot j).isBuilding = false := by
  rw [slot_setSlot]; split
  · rfl
  · next other => exact alone j other

/-! ### PROFILE-OPEN (R6) -/

theorem within_iff (lo hi n : Nat) : within lo hi n = true ↔ lo ≤ n ∧ n ≤ hi := by
  simp [within]

theorem printable_iff (ch : Byte) : printable ch = true ↔ 0x20 ≤ ch.toNat ∧ ch.toNat ≤ 0x7E := by
  simp [printable]

theorem name_allowed_iff (h : Header) : (h.name.length ≤ 12 && h.name.all printable) = true ↔
    h.name.length ≤ 12 ∧ ∀ ch ∈ h.name, 0x20 ≤ ch.toNat ∧ ch.toNat ≤ 0x7E := by
  simp [printable_iff]

/-- The header checks of R3 and the causes of R8. -/
theorem headerFailure_eq (h : Header) :
    headerFailure h =
      if 2000000 < h.start ∨ 2000000 < h.stop then some 2
      else if h.count = 0 ∨ 32 < h.count then some 3
      else if ¬ (h.name.length ≤ 12 ∧ ∀ ch ∈ h.name, 0x20 ≤ ch.toNat ∧ ch.toNat ≤ 0x7E) then some 4
      else none := by
  simp only [headerFailure, firstFailure_cons, firstFailure_nil, within_iff, name_allowed_iff]
  by_cases start : h.start ≤ 2000000
  · by_cases stop : h.stop ≤ 2000000
    · have positions : ¬ (2000000 < h.start ∨ 2000000 < h.stop) := by omega
      have counts : (1 ≤ h.count ∧ h.count ≤ 32) ↔ ¬ (h.count = 0 ∨ 32 < h.count) := by omega
      simp only [start, stop, positions, counts, Nat.zero_le, and_self, if_true, if_false, ite_not]
    · simp [start, stop, Nat.lt_of_not_le stop]
  · simp [start, Nat.lt_of_not_le start]

section
variable {s : State} {n : Nat} {k : Fin 8} {h : Header}

theorem openSlot_outside (outside : slotIndex n = none) : openSlot n h s = (s, Answer.badValue noIndex 1) := by
  simp only [openSlot, outside]

theorem openSlot_busy (named : slotIndex n = some k) (other : s.otherBuilding k = true) :
    openSlot n h s = (s, ⟨.busy, []⟩) := by
  simp only [openSlot, named, if_pos other]

theorem openSlot_inUse (named : slotIndex n = some k) (alone : s.otherBuilding k = false)
    (used : 0 < (s.slot k).refs) : openSlot n h s = (s, ⟨.inUse, []⟩) := by
  simp [openSlot, named, alone, used]

theorem openSlot_badHeader {c : Nat} (named : slotIndex n = some k) (alone : s.otherBuilding k = false)
    (unused : (s.slot k).refs = 0) (fails : headerFailure h = some c) :
    openSlot n h s = (s, Answer.badValue noIndex c) := by
  simp [openSlot, named, alone, unused, fails]

theorem openSlot_accepted (named : slotIndex n = some k) (alone : s.otherBuilding k = false)
    (unused : (s.slot k).refs = 0) (passes : headerFailure h = none) :
    openSlot n h s = (s.setSlot k (.building h []), ⟨.accepted, []⟩) := by
  simp [openSlot, named, alone, unused, passes]

end

/-- Settles O13, one equation of `openSlot` for each check of R6 in its order. -/
theorem profileOpenBuildsTheSlot : Obligations.ProfileOpenBuildsTheSlot := by
  intro s e asked p n h
  refine ⟨rfl, headerFailure_eq h, slotIndex_eq_some_iff,
    fun outside => exec_profileOpen asked (openSlot_outside outside),
    fun k named => ⟨fun other => ?_, fun alone => ?_⟩⟩
  · exact exec_profileOpen asked (openSlot_busy named ((otherBuilding_iff s k).2 other))
  · have alone := (otherBuilding_eq_false_iff s k).2 alone
    refine ⟨fun used => ?_, fun unused => ⟨fun c fails => ?_, fun passes => ?_⟩⟩
    · exact exec_profileOpen asked (openSlot_inUse named alone used)
    · exact exec_profileOpen asked (openSlot_badHeader named alone unused fails)
    · exact exec_profileOpen asked (openSlot_accepted named alone unused passes)

/-! ### PROFILE-DROP (R9) -/

section
variable {s : State} {n : Nat} {k : Fin 8} {h : Header} {es : List (Nat × Segment)}

theorem dropSlot_outside (outside : slotIndex n = none) : dropSlot n s = (s, Answer.badValue noIndex 1) := by
  simp only [dropSlot, outside]

theorem dropSlot_empty (named : slotIndex n = some k) (is : s.slot k = .empty) :
    dropSlot n s = (s, ⟨.already, []⟩) := by
  simp only [dropSlot, named, is]

theorem dropSlot_building (named : slotIndex n = some k) (is : s.slot k = .building h es) :
    dropSlot n s = (s.setSlot k .empty, ⟨.accepted, []⟩) := by
  simp only [dropSlot, named, is]

theorem dropSlot_unused (named : slotIndex n = some k) (is : s.slot k = .ready h es 0) :
    dropSlot n s = (s.setSlot k .empty, ⟨.accepted, []⟩) := by
  simp [dropSlot, named, is]

theorem dropSlot_inUse {refs : Nat} (named : slotIndex n = some k) (is : s.slot k = .ready h es (refs + 1)) :
    dropSlot n s = (s, ⟨.inUse, []⟩) := by
  simp [dropSlot, named, is]

end

/-- Settles O16, one equation of `dropSlot` for each state of the slot. -/
theorem profileDropEmptiesTheSlot : Obligations.ProfileDropEmptiesTheSlot := by
  intro s e asked n
  refine ⟨fun outside => exec_profileDrop asked (dropSlot_outside outside), fun k named => ⟨fun is => ?_,
    fun h es is => ⟨?_, isBuilding_setSlot_empty⟩, fun h es is => ?_, fun h es refs is => ?_⟩⟩
  · exact exec_profileDrop asked (dropSlot_empty named is)
  · exact exec_profileDrop asked (dropSlot_building named is)
  · exact exec_profileDrop asked (dropSlot_unused named is)
  · exact exec_profileDrop asked (dropSlot_inUse named is)

/-! ### PROFILE-READ (R10, R188) -/

theorem bit_isSome {α : Type} (o : Option α) :
    (if o.isSome = true then 1 else 0) = if o = none then 0 else 1 := by
  cases o <;> rfl

/-- The presence byte of R188: each part that is there sets its bit. -/
theorem presence_eq (g : Segment) :
    g.presence =
      (if g.window = none then 0 else 1) + (if g.delay = none then 0 else 2) + (if g.dwell = none then 0 else 4)
        + (if g.ramp = none then 0 else 8) := by
  simp only [Segment.presence, bitsByte, List.foldr_cons, List.foldr_nil, bit_isSome]
  split_ifs <;> rfl

theorem entryAt_nil (i : Nat) : entryAt [] i = none := rfl

theorem entryAt_cons (j : Nat) (x : Segment) (es : List (Nat × Segment)) (i : Nat) :
    entryAt ((j, x) :: es) i = if j = i then some x else entryAt es i := by
  by_cases same : j = i <;> simp [entryAt, same]

/-- In a slot whose indices ascend, the entry read at an index is the one stored there. -/
theorem entryAt_eq_some_iff (es : List (Nat × Segment)) (i : Nat) (g : Segment)
    (rising : es.Pairwise fun x y => x.1 < y.1) : entryAt es i = some g ↔ (i, g) ∈ es := by
  induction es with
  | nil => simp [entryAt_nil]
  | cons y es ih =>
    obtain ⟨j, x⟩ := y
    obtain ⟨below, rising⟩ := List.pairwise_cons.1 rising
    rw [entryAt_cons, List.mem_cons, Prod.mk.injEq]
    by_cases same : j = i
    · have absent : (i, g) ∉ es := fun m => absurd (below _ m) (by simp [same])
      simp [same, absent, eq_comm]
    · simp [same, Ne.symm same, ih rising]

theorem headerBytes_empty : headerBytes .empty = List.replicate 13 0 := rfl

section
variable {s : State} {n sel : Nat} {k : Fin 8} {h : Header}

theorem readSlot_outside (outside : slotIndex n = none) : readSlot n sel s = Answer.badValue noIndex 1 := by
  simp only [readSlot, outside]

theorem readSlot_header (named : slotIndex n = some k) (all : sel = 255) :
    readSlot n sel s = ⟨.accepted, headerBytes (s.slot k)⟩ := by
  simp only [readSlot, named, if_pos all]

theorem readSlot_empty (named : slotIndex n = some k) (one : sel ≠ 255) (is : s.slot k = .empty) :
    readSlot n sel s = ⟨.notFound, []⟩ := by
  simp only [readSlot, named, if_neg one, is, Slot.header?]

theorem readSlot_beyond (named : slotIndex n = some k) (one : sel ≠ 255) (has : (s.slot k).header? = some h)
    (beyond : h.count ≤ sel) : readSlot n sel s = Answer.badValue sel 5 := by
  simp only [readSlot, named, if_neg one, has, if_pos beyond]

theorem readSlot_absent (named : slotIndex n = some k) (one : sel ≠ 255) (has : (s.slot k).header? = some h)
    (inside : sel < h.count) (absent : entryAt (s.slot k).entries sel = none) :
    readSlot n sel s = ⟨.notFound, []⟩ := by
  simp only [readSlot, named, if_neg one, has, if_neg (Nat.not_le.2 inside), absent]

theorem readSlot_entry {g : Segment} (named : slotIndex n = some k) (one : sel ≠ 255)
    (has : (s.slot k).header? = some h) (inside : sel < h.count)
    (there : entryAt (s.slot k).entries sel = some g) : readSlot n sel s = ⟨.accepted, be8 sel ++ g.bytes⟩ := by
  simp only [readSlot, named, if_neg one, has, if_neg (Nat.not_le.2 inside), there]

end

/-- Settles O17: the selector 255 reads the header, another one goes through the checks of R10 in order. -/
theorem profileReadReturnsTheSlot : Obligations.ProfileReadReturnsTheSlot := by
  refine ⟨fun g => ?_, entryAt_eq_some_iff, fun _ _ _ => ⟨rfl, rfl⟩, ?_⟩
  · dsimp only
    rw [← presence_eq, Segment.bytes]
  intro s e asked n sel
  refine ⟨fun outside => exec_profileRead asked (readSlot_outside outside), fun k named =>
    ⟨fun all is => ?_, fun h es refs all is => ?_, fun one is => ?_, fun h one has =>
      ⟨fun beyond => ?_, fun inside absent => ?_, fun g inside there => ?_⟩⟩⟩
  · rw [exec_profileRead asked (readSlot_header named all), is, headerBytes_empty]
  · rw [exec_profileRead asked (readSlot_header named all)]
    rcases is with ⟨is, rfl⟩ | is <;> rw [is] <;> rfl
  · exact exec_profileRead asked (readSlot_empty named one is)
  · exact exec_profileRead asked (readSlot_beyond named one has beyond)
  · exact exec_profileRead asked (readSlot_absent named one has inside absent)
  · exact exec_profileRead asked (readSlot_entry named one has inside there)

end Sys2Proof.Machine
end

section
/-! PROOFS. The six invariants of Safety over a whole step: what every command does to them, and the step lemmas. -/

namespace Sys2Proof.Machine

/-! ### What a warm reset leaves alone -/

/-- What no warm reset touches: the waiting commands, the clock, the link, the tank, the settings of the part and the
common input lines. -/
structure Steady (s t : State) : Prop where
  pending : t.pending = s.pending
  time : t.time = s.time
  link : t.link = s.link
  tank : t.tank = s.tank
  common : t.common = s.common
  invReady : t.invReady = s.invReady
  invFault : t.invFault = s.invFault
  resetLine : t.resetLine = s.resetLine

theorem Steady.refl (s : State) : Steady s s := ⟨rfl, rfl, rfl, rfl, rfl, rfl, rfl, rfl⟩

theorem Steady.trans {s t r : State} (h : Steady s t) (k : Steady t r) : Steady s r where
  pending := k.pending.trans h.pending
  time := k.time.trans h.time
  link := k.link.trans h.link
  tank := k.tank.trans h.tank
  common := k.common.trans h.common
  invReady := k.invReady.trans h.invReady
  invFault := k.invFault.trans h.invFault
  resetLine := k.resetLine.trans h.resetLine

theorem Frame.steady {s t : State} (h : Frame s t) : Steady s t :=
  ⟨h.pending, h.time, h.link, h.tank, h.common, h.invReady, h.invFault, h.resetLine⟩

theorem Steady.ite {s t r : State} {p : Prop} [Decidable p] (h : Steady s t) (k : Steady s r) :
    Steady s (if p then t else r) := by
  split
  · exact h
  · exact k

theorem Steady.modSt (s : State) (u : Station) (f : StationState → StationState) : Steady s (s.modSt u f) :=
  (Frame.modSt s u f).steady

theorem Steady.setFreeIndex (s : State) (n : Nat) : Steady s { s with freeIndex := n } :=
  ⟨rfl, rfl, rfl, rfl, rfl, rfl, rfl, rfl⟩

theorem Steady.setRun (s : State) (r : RunState) (m : StopMode) : Steady s (s.setRun r m) :=
  ⟨rfl, rfl, rfl, rfl, rfl, rfl, rfl, rfl⟩

theorem warmSequencer_steady (u : Station) (s : State) : Steady s (s.warmSequencer u) := by
  unfold State.warmSequencer
  split
  · exact (Steady.ite (.modSt s u _) (.refl s)).trans
      ((writeRecord_frame _ u _).steady.trans (.modSt _ u _))
  · exact .modSt s u _

theorem bothStations_steady (s : State) (act : Station → State → State) (h : ∀ u b, Steady b (act u b)) :
    Steady s (s.bothStations act) :=
  bothStations_cases s act (Steady s) fun v n =>
    ((Steady.setFreeIndex s n).trans (h v _)).trans (h v.other _)

theorem requalify_frame (s : State) (u : Station) (k : LoaderLine) : Steady s (s.requalify u k) := by
  have changed : ∀ (b : Bool) (r : State), Steady r (r.lineChanged u k b) := fun b r => by
    unfold State.lineChanged
    split
    · exact (judgeW1_served r u).toCalm.toFrame.steady
    · exact (judgeW1_served r u).toCalm.toFrame.steady
    · exact .modSt r u _
    · exact .refl r
    · exact .modSt r u _
  have qualified : ∀ r : State, Steady r (r.qualify u k) := fun r =>
    .ite (.modSt r u _) ((Steady.modSt r u _).trans (changed _ _))
  exact .ite (.modSt s u _) (.ite ((Steady.modSt s u _).trans (qualified _)) (.modSt s u _))

theorem warmLines_steady (s : State) (u : Station) : Steady s (s.warmLines u) :=
  (((Steady.modSt s u _).trans (requalify_frame _ u _)).trans (requalify_frame _ u _)).trans
    (requalify_frame _ u _)

theorem warmReset_steady (s : State) : Steady s s.warmReset := by
  have blocks : Steady s (((s.setChannel s.channel.warmReset).modSt .a (StationState.warmBlocks s.time)).modSt .b
      (StationState.warmBlocks s.time)) :=
    ((Frame.setChannel s _).steady.trans (.modSt _ .a _)).trans (.modSt _ .b _)
  have sequenced := blocks.trans (bothStations_steady _ _ warmSequencer_steady)
  have cleared := (sequenced.trans (clearQueue_frame _ .a).steady).trans (clearQueue_frame _ .b).steady
  have lined := ((cleared.trans (Steady.setRun _ .running .none)).trans (warmLines_steady _ .a)).trans
    (warmLines_steady _ .b)
  exact lined.trans (.ite (channelFault_served _).toCalm.toFrame.steady (.refl _))

/-! ### COIL-FLOW, and expiries at the channel and of the proof -/

/-- The expiry of the response timer (R82), which may hand NO-POWER. -/
theorem responseDue_served (s : State) :
    Served s
      (let r := s.setChannel { s.channel with response := none }
      match r.channel.holderInHeat with
      | some u =>
        if r.channel.noPowerGiven then r
        else (r.setChannel { r.channel with noPowerGiven := true }).modSt u (StationState.hand .noPower)
      | none => r) := by
  have stops : Served s (s.setChannel { s.channel with response := none }) := .setChannel s id
  dsimp only
  split
  · split
    · exact stops
    · refine stops.trans (.trans (.setChannel _ fun ok => ?_) (.modSt _ _ (carries_hand _ _)))
      exact demandOk_same ok rfl rfl
  · exact stops

theorem settleStopped_served (s : State) : Served s (s.setChannel { s.channel with settle := none }) :=
  .setChannel s fun ok => demandOk_same (c := s.channel) ok rfl rfl

theorem coilFlowOn_served (s : State) (u : Station) : Served s (s.coilFlowOn u) := by
  have set : Served s (s.modSt u fun x => x.modLines fun l => { l with coilFlow := true }) :=
    .modSt s u (carries_modLines _ _)
  unfold State.coilFlowOn
  dsimp only
  split
  · exact set.trans (passW2_served _ u)
  · exact set

theorem coilFlowOff_served (s : State) (u : Station) : Served s (s.coilFlowOff u) := by
  have cleared : Served s (s.modSt u fun x => x.modLines fun l => { l with coilFlow := false }) :=
    .modSt s u (carries_modLines _ _)
  unfold State.coilFlowOff
  dsimp only
  split
  · exact cleared.trans (.modSt _ u (carries_hand _ _))
  · exact cleared

/-- The expiry of the proof timer (R113, R130), at W6 with what follows it. -/
theorem proofDue_served (s : State) (u : Station) :
    Served s
      (let r := s.modSt u fun x => x.modQuench Quench.endProof
      if (r.st u).walk.current = some .w6 then
        if (r.st u).quench.proofResult = .passed then r.passW6 u else r.endWalk u .failed .proofFailed
      else r) := by
  have ends : Served s (s.modSt u fun x => x.modQuench Quench.endProof) := .modSt s u (carries_modQuench _ _)
  dsimp only
  split
  · split
    · exact ends.trans (passW6_served _ u)
    · exact ends.trans (endWalk_served _ u (by decide) _)
  · exact ends

/-! ### The five invariants of a state at a command of its own -/

theorem Keeps.setPending (s : State) (q : List Instr) : Keeps s { s with pending := q } :=
  .same ⟨rfl, rfl, rfl, fun u => by cases u <;> exact .refl _⟩ rfl rfl

/-- A cold part has no job, no reservation, no reference and no entry waiting. -/
theorem coldReset_safe (f : FirstSamples) (s : State) :
    RecordsSafe (s.coldReset f) ∧ QueuesSafe (s.coldReset f) ∧ ReferencesSafe (s.coldReset f)
      ∧ DemandSafe (s.coldReset f) ∧ LinkSafe (s.coldReset f) ∧ StartsTaken (s.coldReset f) := by
  have idle : ∀ u, ((s.coldReset f).st u).busy = false := fun u => by cases u <;> rfl
  have empty : ∀ u, ((s.coldReset f).st u).queue = [] ∧ ((s.coldReset f).st u).tags = [] := fun u => by
    cases u <;> exact ⟨rfl, rfl⟩
  have slots : ∀ k, (s.coldReset f).slot k = .empty := fun k => by
    simp [State.coldReset, State.reset, State.slot]
  refine ⟨⟨rfl, Nat.zero_le _, fun u busy => ?_⟩, fun u => ?_, ⟨fun k => ?_, fun u busy => ?_⟩,
    fun demand => absurd rfl demand, ⟨Nat.zero_le _, fun _ => rfl⟩, fun u => not_startable_of_queue (empty u).1⟩
  · simp [idle] at busy
  · simp [empty]
  · rw [slots]; rfl
  · simp [idle] at busy

theorem coldReset_keeps (f : FirstSamples) (s : State) : Keeps s (s.coldReset f) := by
  obtain ⟨records, queues, references, demand, link, -⟩ := coldReset_safe f s
  exact ⟨fun _ => records, fun _ => queues, fun _ => references, fun _ => demand, fun _ => link⟩

/-- The end of a reply: between the transaction that ends and the entry taken next the link alone is out of order. -/
theorem replySent_keeps (s : State) (b : Bool) :
    let ended := s.setLink { s.link with transaction := .none }
    let after := if b then ended.warmReset else ended
    Keeps s (after.setLink after.link.takeNext) := by
  intro ended after
  have reset : Keeps ended after := .ite (warmReset_keeps ended) (.refl ended)
  have link : after.link = ended.link := (Steady.ite (warmReset_steady ended) (.refl ended)).link
  have ends : Kept s ended := .setLink s _
  have takes : Kept after (after.setLink after.link.takeNext) := .setLink after _
  exact
    { records := fun k => takes.recordsSafe (reset.records (ends.recordsSafe k))
      queues := fun k => takes.queuesSafe (reset.queues (ends.queuesSafe k))
      references := fun k => takes.referencesSafe (reset.references (ends.referencesSafe k))
      demand := reset.demand
      link := fun k => Link.takeNext_safe (link ▸ k.1) }

theorem execReplySent_keeps (s : State) : ∃ t, execReplySent s = .next t ∧ Keeps s t := by
  cases h : s.link.transaction with
  | replying r b => exact ⟨_, by unfold execReplySent; rw [h], replySent_keeps s b⟩
  | none => exact ⟨s, by unfold execReplySent; rw [h], .refl s⟩
  | taken e => exact ⟨s, by unfold execReplySent; rw [h], .refl s⟩

/-- Every command answers a next state and keeps the five invariants that no other command has to restore. -/
theorem exec_keeps (i : Instr) (s : State) : ∃ t, exec i s = .next t ∧ Keeps s t :=
  match i with
  | .coldReset f => ⟨_, rfl, coldReset_keeps f s⟩
  | .resetLineActive => ⟨_, rfl, .ite (.refl s) ((Keeps.setResetLine s true).trans (warmReset_keeps _))⟩
  | .resetLineInactive => ⟨_, rfl, .setResetLine s false⟩
  | .requestComplete b => ⟨_, rfl, .setLink s (Link.lastByte_safe b)⟩
  | .byteTaken b bad => ⟨_, rfl, .setLink s (Link.takeByte_safe b bad)⟩
  | .gapTimerExpiry => ⟨_, rfl, .expire s _ _ fun b => .setLink b id⟩
  | .idleTimerExpiry => ⟨_, rfl, .expire s _ _ fun b => .setLink b Link.idleDue_safe⟩
  | .replySent => execReplySent_keeps s
  | .tooLong => ⟨_, rfl, serve_keeps s _ _ fun _ => .refl s⟩
  | .undefinedRequest => ⟨_, rfl, serve_keeps s _ _ fun _ => .refl s⟩
  | .describe => ⟨_, rfl, serve_keeps s _ _ fun _ => .refl s⟩
  | .status => ⟨_, rfl, serve_keeps s _ _ fun _ => .refl s⟩
  | .set => ⟨_, rfl, serve_keeps s _ _ fun e => by
      split
      · exact setStation_keeps s _ _
      · exact setCommon_keeps s _⟩
  | .get => ⟨_, rfl, serve_keeps s _ _ fun e => by split <;> exact .refl s⟩
  | .profileOpen => ⟨_, rfl, serve_keeps s _ _ fun _ => openSlot_keeps _ _ s⟩
  | .profilePut => ⟨_, rfl, serve_keeps s _ _ fun _ => putSegment_keeps _ _ _ s⟩
  | .profileClose => ⟨_, rfl, serve_keeps s _ _ fun _ => closeSlot_keeps _ s⟩
  | .profileDrop => ⟨_, rfl, serve_keeps s _ _ fun _ => dropSlot_keeps _ s⟩
  | .profileRead => ⟨_, rfl, serve_keeps s _ _ fun _ => .refl s⟩
  | .take => ⟨_, rfl, serve_keeps s _ _ fun _ => takeRecord_keeps s⟩
  | .stopNormal => ⟨_, rfl, serve_keeps s _ _ fun e => by
      split
      · exact stopNormal_keeps s
      · exact .refl s⟩
  | .stopAbrupt => ⟨_, rfl, serve_keeps s _ _ fun _ => stopAbrupt_keeps s⟩
  | .resume => ⟨_, rfl, serve_keeps s _ _ fun _ => resumeRun_keeps s⟩
  | .reset => ⟨_, rfl, serve_keeps s _ _ fun _ => .refl s⟩
  | .job => ⟨_, rfl, serveStation_keeps s _ _ fun u _ => submitJob_keeps s u _⟩
  | .cancel => ⟨_, rfl, serveStation_keeps s _ _ fun u _ => cancelJob_keeps s u _⟩
  | .trail => ⟨_, rfl, serveStation_keeps s _ _ fun _ _ => .refl s⟩
  | .home => ⟨_, rfl, serveStation_keeps s _ _ fun u _ => startHome_keeps s u⟩
  | .stationReset => ⟨_, rfl, serveStation_keeps s _ _ fun u _ => resetStation_keeps s u⟩
  | .takeHeadJob u => ⟨_, rfl, .ite (takeHead_keeps s u).judgeStarts (.refl s)⟩
  | .qualifiedInputSampleChange u k b => ⟨_, rfl, takeSample_keeps s u k b⟩
  | .qualificationExpiry u k => ⟨_, rfl, .expire s _ _ fun b => takeQualified_keeps b u k⟩
  | .axisFaultActive u => ⟨_, rfl, .ite (.refl s) (axisRaised_keeps s u)⟩
  | .axisFaultInactive u => ⟨_, rfl, .modSt s u (carries_modLines _ _)⟩
  | .homeSwChange u _ =>
    ⟨_, rfl, .ite (.refl s) (.modSt s u ((carries_modLines _ _).trans (carries_modMotion _ _)))⟩
  | .coilFlowActive u => ⟨_, rfl, .ite (.refl s) (coilFlowOn_keeps s u)⟩
  | .coilFlowInactive u => ⟨_, rfl, .ite (coilFlowOff_keeps s u) (.refl s)⟩
  | .invReadyActive => ⟨_, rfl, .ite (.refl s) (invReadyOn_keeps s)⟩
  | .invReadyInactive => ⟨_, rfl, .ite (invReadyOff_keeps s) (.refl s)⟩
  | .invFaultActive => ⟨_, rfl, .ite (.refl s) (invFaultOn_keeps s)⟩
  | .invFaultInactive => ⟨_, rfl, .ite (invFaultOff_keeps s) (.refl s)⟩
  | .powerReading _ => ⟨_, rfl, readPower_keeps s _⟩
  | .encoderReading u _ o => ⟨_, rfl, (readEncoder_served s u _ o).keeps⟩
  | .moveArrival u => ⟨_, rfl, moveArrived_keeps s u⟩
  | .rpmReading u _ => ⟨_, rfl, .modSt s u (carries_readRpm _ _)⟩
  | .spindleAtSpeed u =>
    ⟨_, rfl, .ite ((Keeps.modSt s u (carries_modMotion _ _)).trans
      (.ite (passW5_served _ u).keeps (.refl _))) (.refl s)⟩
  | .flowReading u _ => ⟨_, rfl, .modSt s u (carries_readFlow _ _)⟩
  | .tankReading _ => ⟨_, rfl, readTank_keeps s _⟩
  | .faultTaken u f => ⟨_, rfl, takeHanded_keeps s u f⟩
  | .changeoverExpiry => ⟨_, rfl, .expire s _ _ fun b => (changeoverDue_served b).keeps⟩
  | .responseTimerExpiry => ⟨_, rfl, .expire s _ _ fun b => (responseDue_served b).keeps⟩
  | .settleTimerExpiry => ⟨_, rfl, .expire s _ _ fun b => (settleStopped_served b).keeps⟩
  | .searchTimerExpiry u => ⟨_, rfl, .expire s _ _ fun b => .modSt b u (carries_homingFailed _)⟩
  | .stallTimerExpiry u =>
    ⟨_, rfl, .expire s _ _ fun b => .modSt b u ((carries_modMotion _ _).trans (carries_hand _ _))⟩
  | .spindleTimerExpiry u =>
    ⟨_, rfl, .expire s _ _ fun b => .modSt b u ((carries_modMotion _ _).trans (carries_hand _ _))⟩
  | .dwellExpiry u => ⟨_, rfl, .expire s _ _ fun b => (dwellDue_served b u).keeps⟩
  | .deadlineExpiry u k => by
    refine ⟨_, rfl, ?_⟩
    split
    · exact .expire s _ _ fun b => .modSt b u (carries_modTrail _ _)
    · exact .refl s
  | .proofTimerExpiry u => ⟨_, rfl, .expire s _ _ fun b => (proofDue_served b u).keeps⟩
  | .flowRiseExpiry u =>
    ⟨_, rfl, .expire s _ _ fun b => .modSt b u ((carries_modQuench _ _).trans (carries_judgeFlow _))⟩
  | .afterQuenchExpiry u =>
    ⟨_, rfl, .expire s _ _ fun b => .modSt b u ((carries_modQuench _ _).trans (carries_checkDrained _))⟩
  | .floodTimerExpiry u =>
    ⟨_, rfl, .expire s _ _ fun b => (Keeps.modSt b u (carries_modQuench _ _)).trans
      (.ite (writeRecord_modSt_keeps _ u none fun x => enterHalted_jobs x _).judgeStarts (.refl _))⟩
  | .stepTimerExpiry u => ⟨_, rfl, .expire s _ _ fun b => endWalk_keeps b u _ _⟩
  | .handshakeTimerExpiry u =>
    ⟨_, rfl, .expire s _ _ fun b => (Keeps.modJobs b u (jobs_handshakeDue _)).judgeStarts⟩

/-- A step from a state keeps the five invariants: its command does, and so does a millisecond. -/
theorem step_keeps {s t : State} (h : step s = .next t) : Keeps s t := by
  unfold step at h
  split at h
  · cases h; exact .elapse s 1
  · next c rest _ =>
    obtain ⟨r, runs, keeps⟩ := exec_keeps c { s with pending := rest }
    cases runs.symm.trans h
    exact (Keeps.setPending s rest).trans keeps

/-- Settles O54. -/
theorem recordsStaySafe : Obligations.RecordsStaySafe := fun _ _ safe stepped => (step_keeps stepped).records safe

/-- Settles O55. -/
theorem demandStaysSafe : Obligations.DemandStaysSafe := fun _ _ safe stepped => (step_keeps stepped).demand safe

/-- Settles O56. -/
theorem linkStaysSafe : Obligations.LinkStaysSafe := fun _ _ safe stepped => (step_keeps stepped).link safe

/-- Settles O57. -/
theorem queuesStaySafe : Obligations.QueuesStaySafe := fun _ _ safe stepped => (step_keeps stepped).queues safe

/-- Settles O58. -/
theorem referencesStaySafe : Obligations.ReferencesStaySafe :=
  fun _ _ safe stepped => (step_keeps stepped).references safe

/-! ### The start conditions over a step (R25) -/

/-- A warm reset empties the queues, so that no station has a head job to start. -/
theorem warmReset_taken (s : State) : StartsTaken s.warmReset := fun u => not_startable_of_queue (warmReset_queues s u)

theorem execReplySent_still (s : State) : ∃ t, execReplySent s = .next t ∧ Still s t := by
  cases h : s.link.transaction with
  | replying r b =>
    exact ⟨_, by unfold execReplySent; rw [h],
      (Still.setLink s _).trans (Still.trans (.ite (.of_taken (warmReset_taken _)) (.refl _)) (.setLink _ _))⟩
  | none => exact ⟨s, by unfold execReplySent; rw [h], .refl s⟩
  | taken e => exact ⟨s, by unfold execReplySent; rw [h], .refl s⟩

/-- No command leaves a start condition holding that did not hold before it: those that can make one hold judge it. -/
theorem exec_still (i : Instr) (s : State) : ∃ t, exec i s = .next t ∧ Still s t :=
  match i with
  | .coldReset f => ⟨_, rfl, .of_taken (coldReset_safe f s).2.2.2.2.2⟩
  | .resetLineActive => ⟨_, rfl, .ite (.refl s) (.of_taken (warmReset_taken _))⟩
  | .resetLineInactive => ⟨_, rfl, .setResetLine s false⟩
  | .requestComplete _ => ⟨_, rfl, .setLink s _⟩
  | .byteTaken _ _ => ⟨_, rfl, .setLink s _⟩
  | .gapTimerExpiry => ⟨_, rfl, .expire s _ _ fun b => .setLink b _⟩
  | .idleTimerExpiry => ⟨_, rfl, .expire s _ _ fun b => .setLink b _⟩
  | .replySent => execReplySent_still s
  | .tooLong => ⟨_, rfl, serve_still s _ _ fun _ => .refl s⟩
  | .undefinedRequest => ⟨_, rfl, serve_still s _ _ fun _ => .refl s⟩
  | .describe => ⟨_, rfl, serve_still s _ _ fun _ => .refl s⟩
  | .status => ⟨_, rfl, serve_still s _ _ fun _ => .refl s⟩
  | .set => ⟨_, rfl, serve_still s _ _ fun e => by
      split
      · exact setStation_still s _ _
      · exact setCommon_still s _⟩
  | .get => ⟨_, rfl, serve_still s _ _ fun e => by split <;> exact .refl s⟩
  | .profileOpen => ⟨_, rfl, serve_still s _ _ fun _ => openSlot_still _ _ s⟩
  | .profilePut => ⟨_, rfl, serve_still s _ _ fun _ => putSegment_still _ _ _ s⟩
  | .profileClose => ⟨_, rfl, serve_still s _ _ fun _ => closeSlot_still _ s⟩
  | .profileDrop => ⟨_, rfl, serve_still s _ _ fun _ => dropSlot_still _ s⟩
  | .profileRead => ⟨_, rfl, serve_still s _ _ fun _ => .refl s⟩
  | .take => ⟨_, rfl, serve_still s _ _ fun _ => takeRecord_still s⟩
  | .stopNormal => ⟨_, rfl, serve_still s _ _ fun _ => .ite' _ (stopNormal_still s)⟩
  | .stopAbrupt => ⟨_, rfl, serve_still s _ _ fun _ => stopAbrupt_still s⟩
  | .resume => ⟨_, rfl, serve_still s _ _ fun _ => resumeRun_still s⟩
  | .reset => ⟨_, rfl, serve_still s _ _ fun _ => .refl s⟩
  | .job => ⟨_, rfl, serveStation_still s _ _ fun u _ => submitJob_still s u _⟩
  | .cancel => ⟨_, rfl, serveStation_still s _ _ fun u _ => cancelJob_still s u _⟩
  | .trail => ⟨_, rfl, serveStation_still s _ _ fun _ _ => .refl s⟩
  | .home => ⟨_, rfl, serveStation_still s _ _ fun u _ => startHome_still s u⟩
  | .stationReset => ⟨_, rfl, serveStation_still s _ _ fun u _ => resetStation_still s u⟩
  | .takeHeadJob _ => ⟨_, rfl, .ite (.of_taken (judgeStarts_taken _)) (.refl s)⟩
  | .qualifiedInputSampleChange u k b => ⟨_, rfl, takeSample_still s u k b⟩
  | .qualificationExpiry u k => ⟨_, rfl, .expire s _ _ fun b => takeQualified_still b u k⟩
  | .axisFaultActive u => ⟨_, rfl, .ite (.refl s) (axisRaised_still s u)⟩
  | .axisFaultInactive u => ⟨_, rfl, .modSt s u (carries_modLines _ _)⟩
  | .homeSwChange u _ =>
    ⟨_, rfl, .ite (.refl s) (.modSt s u ((carries_modLines _ _).trans (carries_modMotion _ _)))⟩
  | .coilFlowActive u => ⟨_, rfl, .ite (.refl s) (coilFlowOn_served s u).still⟩
  | .coilFlowInactive u => ⟨_, rfl, .ite (coilFlowOff_served s u).still (.refl s)⟩
  | .invReadyActive => ⟨_, rfl, .ite (.refl s) (invReadyOn_still s)⟩
  | .invReadyInactive => ⟨_, rfl, .ite (invReadyOff_still s) (.refl s)⟩
  | .invFaultActive => ⟨_, rfl, .ite (.refl s) (invFaultOn_still s)⟩
  | .invFaultInactive => ⟨_, rfl, .ite (invFaultOff_still s) (.refl s)⟩
  | .powerReading _ => ⟨_, rfl, readPower_still s _⟩
  | .encoderReading u _ o => ⟨_, rfl, (readEncoder_served s u _ o).still⟩
  | .moveArrival u => ⟨_, rfl, moveArrived_still s u⟩
  | .rpmReading u _ => ⟨_, rfl, .modSt s u (carries_readRpm _ _)⟩
  | .spindleAtSpeed u =>
    ⟨_, rfl, .ite ((Still.modSt s u (carries_modMotion _ _)).trans
      (.ite (passW5_served _ u).still (.refl _))) (.refl s)⟩
  | .flowReading u _ => ⟨_, rfl, .modSt s u (carries_readFlow _ _)⟩
  | .tankReading _ => ⟨_, rfl, readTank_still s _⟩
  | .faultTaken u f => ⟨_, rfl, takeHanded_still s u f⟩
  | .changeoverExpiry => ⟨_, rfl, .expire s _ _ fun b => (changeoverDue_served b).still⟩
  | .responseTimerExpiry => ⟨_, rfl, .expire s _ _ fun b => (responseDue_served b).still⟩
  | .settleTimerExpiry => ⟨_, rfl, .expire s _ _ fun b => (settleStopped_served b).still⟩
  | .searchTimerExpiry u => ⟨_, rfl, .expire s _ _ fun b => .modSt b u (carries_homingFailed _)⟩
  | .stallTimerExpiry u =>
    ⟨_, rfl, .expire s _ _ fun b => .modSt b u ((carries_modMotion _ _).trans (carries_hand _ _))⟩
  | .spindleTimerExpiry u =>
    ⟨_, rfl, .expire s _ _ fun b => .modSt b u ((carries_modMotion _ _).trans (carries_hand _ _))⟩
  | .dwellExpiry u => ⟨_, rfl, .expire s _ _ fun b => (dwellDue_served b u).still⟩
  | .deadlineExpiry u k => by
    refine ⟨_, rfl, ?_⟩
    split
    · exact .expire s _ _ fun b => .modSt b u (carries_modTrail _ _)
    · exact .refl s
  | .proofTimerExpiry u => ⟨_, rfl, .expire s _ _ fun b => (proofDue_served b u).still⟩
  | .flowRiseExpiry u =>
    ⟨_, rfl, .expire s _ _ fun b => .modSt b u ((carries_modQuench _ _).trans (carries_judgeFlow _))⟩
  | .afterQuenchExpiry u =>
    ⟨_, rfl, .expire s _ _ fun b => .modSt b u ((carries_modQuench _ _).trans (carries_checkDrained _))⟩
  | .floodTimerExpiry u =>
    ⟨_, rfl, .expire s _ _ fun b => (Still.modSt b u (carries_modQuench _ _)).trans
      (.ite (.of_taken (judgeStarts_taken _)) (.refl _))⟩
  | .stepTimerExpiry u => ⟨_, rfl, .expire s _ _ fun b => (endWalk_served b u (by decide) _).still⟩
  | .handshakeTimerExpiry _ => ⟨_, rfl, .expire s _ _ fun _ => .of_taken (judgeStarts_taken _)⟩

/-- Settles O59. -/
theorem noStartIsMissed : Obligations.NoStartIsMissed := by
  intro s t taken stepped
  unfold step at stepped
  split at stepped
  · cases stepped; exact Still.elapse s 1 taken
  · next c rest _ =>
    obtain ⟨r, runs, still⟩ := exec_still c { s with pending := rest }
    cases runs.symm.trans stepped
    exact still (Still.setPending s rest taken)

/-- Settles O60: the reset state is a cold part with every first sample inactive. -/
theorem invariantsHoldAtReset : Obligations.InvariantsHoldAtReset := by
  obtain ⟨records, queues, references, demand, link, starts⟩ :=
    coldReset_safe ⟨⟨false, false, false, false, false, false⟩, ⟨false, false, false, false, false, false⟩,
      false, false, false⟩ State.reset
  exact ⟨records, demand, link, queues, references, starts⟩

/-- Settles O1. -/
theorem stepRunsFrontCommand : Obligations.StepRunsFrontCommand := by
  intro c rest s front
  unfold step
  rw [front]

end Sys2Proof.Machine
end

section
/-! PROOFS. The clock, the cold reset, the commands that perform a warm reset, and what each expiry does. -/

namespace Sys2Proof.Machine

/-! ### Timers -/

/-- A stopped timer has no expiry (log 2). -/
theorem expire_none (s : State) {t : Timer} (stopped : t = none) (act : State → State) : s.expire t act = s := by
  rw [stopped]; rfl

/-- The expiry of a running timer: what it had left passes first (log 2). -/
theorem expire_some (s : State) {t : Timer} {n : Nat} (running : t = some n) (act : State → State) :
    s.expire t act = act (s.elapse n) := by
  rw [running]; rfl

theorem deadlineExpiry_stopped {s : State} {u : Station} {k : Nat}
    (stopped : ∀ sl ∈ (s.st u).trail.list, sl.index = k → sl.timer = none) :
    exec (.deadlineExpiry u k) s = .next s := by
  have meaning : exec (.deadlineExpiry u k) s = execDeadlineExpiry u k s := rfl
  rw [meaning, execDeadlineExpiry]
  cases found : (s.st u).trail.list.find? fun sl => sl.index == k with
  | none => rfl
  | some sl =>
    have named : sl.index = k := by simpa using List.find?_some found
    exact congrArg _ (expire_none s (stopped sl (List.mem_of_find?_eq_some found) named) _)

/-- Settles O2: time passes field by field, and each expiry is `State.expire` of its timer. -/
theorem timePassesOnAnEmptyQueue : Obligations.TimePassesOnAnEmptyQueue := by
  refine ⟨fun s empty => ⟨s.elapse 1, ?_, rfl, rfl, rfl, fun u => st_elapse s 1 u, rfl⟩, fun x n => rfl,
    fun s n => rfl, fun s u line k => ?_⟩
  · unfold step
    rw [empty]
  · have still : ∀ {t : Timer} (act : State → State), t = none →
        (.next (s.expire t act) : Host.Outcome State Fault Refusal) = .next s :=
      fun act stopped => congrArg _ (expire_none s stopped act)
    refine ⟨still _, still _, still _, still _, still _, still _, still _, still _, still _, still _,
      deadlineExpiry_stopped, still _, still _, still _, fun closed => still _ ?_, still _, still _⟩
    rw [closed]; rfl

/-! ### Resets -/

/-- Settles O3: the values of a cold reset are those the fields start from. -/
theorem coldResetRestoresColdValues : Obligations.ColdResetRestoresColdValues := fun _ _ => rfl

/-- With the transaction at an end the oldest entry waiting is taken, where there is one (R180). -/
theorem takeNext_idle (l : Link) :
    ({ l with transaction := .none } : Link).takeNext =
      match l.buffer with
      | [] => { l with transaction := .none }
      | oldest :: rest => { l with transaction := .taken oldest, buffer := rest } := by
  unfold Link.takeNext
  cases l.buffer <;> rfl

theorem execReplySent_replying {s : State} {r : Reply} {b : Bool} (h : s.link.transaction = .replying r b) :
    let ended := s.setLink { s.link with transaction := .none }
    exec .replySent s
      = .next ((if b then ended.warmReset else ended).setLink
          (match s.link.buffer with
          | [] => { s.link with transaction := .none }
          | oldest :: rest => { s.link with transaction := .taken oldest, buffer := rest })) := by
  intro ended
  have meaning : exec .replySent s = execReplySent s := rfl
  have link : (if b then ended.warmReset else ended).link = ended.link :=
    (Steady.ite (warmReset_steady ended) (.refl ended)).link
  rw [meaning, execReplySent, h]
  dsimp only
  rw [link, link_setLink, takeNext_idle]

/-- Settles O5: a warm reset leaves the link alone, so that the entry taken after it is the one waiting before it. -/
theorem warmResetIsPerformedOnce : Obligations.WarmResetIsPerformedOnce := by
  intro s e r following
  refine ⟨fun inactive => ?_, fun active => ?_, rfl, fun asked => ?_, fun sent => ?_, fun sent => ?_, fun other => ?_⟩
  · exact congrArg _ (if_neg (by simp [inactive]))
  · exact congrArg _ (if_pos active)
  · exact congrArg _ (serve_of_asked asked _)
  · exact (execReplySent_replying sent).trans (by rw [if_neg Bool.false_ne_true]; rfl)
  · exact (execReplySent_replying sent).trans (by rw [if_pos rfl]; rfl)
  · have meaning : exec .replySent s = execReplySent s := rfl
    rw [meaning, execReplySent]
    split
    · next r b sent => exact absurd sent (other r b)
    · rfl

end Sys2Proof.Machine
end

section
/-! PROOFS. The warm reset of the whole part, assembled from its blocks (R45, R65, R88, R116, R122, R137, R150, R174). -/

namespace Sys2Proof.Machine

/-! ### The library under its counts -/

/-- The slots hold the headers and entries they held; only their counts may have changed. -/
def Shelved (s t : State) : Prop :=
  ∀ k, (t.slot k).header? = (s.slot k).header? ∧ (t.slot k).entries = (s.slot k).entries

theorem Shelved.refl (s : State) : Shelved s s := fun _ => ⟨rfl, rfl⟩

theorem Shelved.trans {s t r : State} (h : Shelved s t) (k : Shelved t r) : Shelved s r := fun i =>
  ⟨(k i).1.trans (h i).1, (k i).2.trans (h i).2⟩

theorem Shelved.same {s t : State} (h : t.slots = s.slots) : Shelved s t := fun i => by
  unfold State.slot
  rw [h]
  exact ⟨rfl, rfl⟩

theorem Shelved.setFreeIndex (s : State) (n : Nat) : Shelved s { s with freeIndex := n } :=
  .same rfl

theorem warmSequencer_shelved (u : Station) (s : State) : Shelved s (s.warmSequencer u) := by
  unfold State.warmSequencer
  split
  · dsimp only
    have heat : Shelved s (if (s.st u).mode = .heat then s.modSt u (StationState.stopHeat s.time) else s) := by
      split
      · exact .same (slots_modSt _ _ _)
      · exact .refl s
    exact heat.trans (Shelved.trans (writeRecord_around _ u _).slots (.same (slots_modSt _ _ _)))
  · exact .same (slots_modSt _ _ _)

theorem clearQueue_shelved (s : State) (u : Station) : Shelved s (s.clearQueue u) := by
  have dropped : ∀ (l : List JobEntry) (r : State), Shelved r (l.foldl (fun s j => s.dropRef j.slot) r) := by
    intro l
    induction l with
    | nil => exact .refl
    | cons j rest ih => exact fun r => Shelved.trans (header_dropRef r j.slot) (ih _)
  exact (dropped _ s).trans (.same (slots_modSt _ _ _))

/-! ### The stages of the reset -/

/-- The part with its channel freed and the blocks of both stations reset. -/
def State.warmCalmed (s : State) : State :=
  ((s.setChannel s.channel.warmReset).modSt .a (StationState.warmBlocks s.time)).modSt .b
    (StationState.warmBlocks s.time)

theorem st_warmCalmed (s : State) (u : Station) : s.warmCalmed.st u = (s.st u).warmBlocks s.time := by
  cases u <;> simp [State.warmCalmed, State.modSt, State.setSt]

/-- The part with both sequencers reset. -/
def State.warmStopped (s : State) : State := s.warmCalmed.bothStations State.warmSequencer

/-- The part with both queues cleared, and running. -/
def State.warmCleared (s : State) : State :=
  ((s.warmStopped.clearQueue .a).clearQueue .b).setRun .running .none

/-- The part with the lines of both stations begun again. -/
def State.warmLined (s : State) : State := (s.warmCleared.warmLines .a).warmLines .b

theorem warmReset_eq (s : State) :
    s.warmReset = if s.warmLined.invFault then s.warmLined.channelFault else s.warmLined := rfl

/-- What both sequencers leave of the part: each station as its own leaves it, and the records of the busy ones. -/
structure WarmStopped (s t : State) : Prop where
  station : ∀ u, Sequenced ((s.st u).warmBlocks s.time) (t.st u)
  records : ∃ new, t.records = s.records ++ new ∧ new.length = s.busyCount
    ∧ (∀ u, (s.st u).busy = true → ∃ r ∈ new, r.station = u)
    ∧ ∀ r ∈ new, r.outcome = .interrupted ∧ r.heated = ((s.st r.station).warmBlocks s.time).trail.tallies.heated
      ∧ r.walkReached = (s.st r.station).walk.reached ∧ r.bypassed = (s.st r.station).walk.bypassed
      ∧ ∃ c, (s.st r.station).current = some c ∧ r.job = c.job ∧ r.startTime = c.startTime
        ∧ r.firstFault = c.firstFault ∧ r.secondFault = c.secondFault
        ∧ r.heatTime =
          if (s.st r.station).mode = .heat then addHeatTime c.heatTime (s.time.since c.heatStart)
          else c.heatTime
  reservations : t.reservations = s.reservations - s.busyCount
  channel : t.channel = s.channel.warmReset

theorem walk_interrupt_kept (w : Walk) : w.interrupt.reached = w.reached ∧ w.interrupt.bypassed = w.bypassed := by
  unfold Walk.interrupt
  split <;> exact ⟨rfl, rfl⟩

theorem warmStopped_stopped (s : State) : WarmStopped s s.warmStopped := by
  refine bothStations_cases s.warmCalmed _ (WarmStopped s) fun v n => ?_
  have calm : ∀ u, ({ s.warmCalmed with freeIndex := n } : State).st u = (s.st u).warmBlocks s.time := fun u =>
    (st_setFreeIndex _ n u).trans (st_warmCalmed s u)
  have time : ({ s.warmCalmed with freeIndex := n } : State).time = s.time := by simp [State.warmCalmed]
  have held : ({ s.warmCalmed with freeIndex := n } : State).records = s.records := by simp [State.warmCalmed]
  have reserved : ({ s.warmCalmed with freeIndex := n } : State).reservations = s.reservations := by
    simp [State.warmCalmed]
  have freed : ({ s.warmCalmed with freeIndex := n } : State).channel = s.channel.warmReset := by
    simp [State.warmCalmed]
  generalize ({ s.warmCalmed with freeIndex := n } : State) = r at calm time held reserved freed
  have blocks : ∀ u, Calmed (s.st u) ((s.st u).warmBlocks s.time) := fun u => calmed_warmBlocks s.time (s.st u)
  have first := warmSequencer_sequenced r v (by rw [calm]; exact (blocks v).walk) (by rw [calm]; exact (blocks v).stop)
    (by rw [calm]; exact (blocks v).spindle)
  have between : (r.warmSequencer v).st v.other = (s.st v.other).warmBlocks s.time := first.other.trans (calm v.other)
  have second := warmSequencer_sequenced (r.warmSequencer v) v.other (by rw [between]; exact (blocks _).walk)
    (by rw [between]; exact (blocks _).stop) (by rw [between]; exact (blocks _).spindle)
  have busy : ∀ u, ((s.st u).warmBlocks s.time).busy = (s.st u).busy := fun u => by
    simp [StationState.busy, (blocks u).current]
  have later : ∀ u, ((s.st u).warmBlocks s.time).walk.reached = (s.st u).walk.reached
      ∧ ((s.st u).warmBlocks s.time).walk.bypassed = (s.st u).walk.bypassed := fun u => by
    rw [(blocks u).walked]; exact walk_interrupt_kept _
  obtain ⟨new1, records1, count1, facts1⟩ := first.record
  obtain ⟨new2, records2, count2, facts2⟩ := second.record
  rw [calm, busy] at count1
  rw [between, busy] at count2
  simp only [calm, time] at facts1
  simp only [between, first.frame.time, time] at facts2
  have total : s.busyCount = (s.st v).busy.toNat + (s.st v.other).busy.toNat := busyCount_eq s v
  refine ⟨fun u => ?_, ⟨new1 ++ new2, ?_, ?_, fun u atWork => ?_, fun q found => ?_⟩, ?_, ?_⟩
  · rcases eq_or_other v u with rfl | rfl
    · rw [show ((r.warmSequencer u).warmSequencer u.other).st u = (r.warmSequencer u).st u by
        simpa using second.other, ← calm]
      exact first.station
    · rw [← between]
      exact second.station
  · rw [records2, records1, held, List.append_assoc]
  · rw [List.length_append, count1, count2, total]
  · rcases eq_or_other v u with rfl | rfl
    · obtain ⟨q, found⟩ := List.exists_mem_of_length_pos (l := new1) (by rw [count1, atWork]; decide)
      exact ⟨q, List.mem_append_left _ found, (facts1 q found).2.1⟩
    · obtain ⟨q, found⟩ := List.exists_mem_of_length_pos (l := new2) (by rw [count2, atWork]; decide)
      exact ⟨q, List.mem_append_right _ found, (facts2 q found).2.1⟩
  · rcases List.mem_append.1 found with found | found
    · obtain ⟨outcome, station, heated, reached, bypassed, rest⟩ := facts1 q found
      rw [(blocks v).current, (blocks v).mode] at rest
      rw [(later v).1] at reached
      rw [(later v).2] at bypassed
      rw [station]
      exact ⟨outcome, heated, reached, bypassed, rest⟩
    · obtain ⟨outcome, station, heated, reached, bypassed, rest⟩ := facts2 q found
      rw [(blocks v.other).current, (blocks v.other).mode] at rest
      rw [(later v.other).1] at reached
      rw [(later v.other).2] at bypassed
      rw [station]
      exact ⟨outcome, heated, reached, bypassed, rest⟩
  · rw [second.reservations, first.reservations, reserved, between, calm, busy, busy, total]
    omega
  · rw [second.channel, first.channel, freed]

/-- Each station as its lines find it: its sequencer reset and its queue empty. -/
theorem st_warmCleared (s : State) (u : Station) :
    s.warmCleared.st u = { s.warmStopped.st u with queue := [] } := by
  simp only [State.warmCleared, st_setRun, st_clearQueue]
  cases u <;> simp

theorem warmCleared_rest (s : State) :
    s.warmCleared.records = s.warmStopped.records ∧ s.warmCleared.reservations = s.warmStopped.reservations
      ∧ s.warmCleared.channel = s.warmStopped.channel := by
  obtain ⟨records1, reservations1, channel1⟩ := clearQueue_rest s.warmStopped .a
  obtain ⟨records2, reservations2, channel2⟩ := clearQueue_rest (s.warmStopped.clearQueue .a) .b
  rw [State.warmCleared, records_setRun, reservations_setRun, channel_setRun, records2, reservations2, channel2]
  exact ⟨records1, reservations1, channel1⟩

theorem warmCleared_shelved (s : State) : Shelved s s.warmCleared := by
  have calmed : Shelved s s.warmCalmed := .same (by simp [State.warmCalmed])
  have stopped : Shelved s.warmCalmed s.warmStopped :=
    bothStations_cases _ _ (Shelved s.warmCalmed) fun v n =>
      ((Shelved.setFreeIndex s.warmCalmed n).trans (warmSequencer_shelved v _)).trans
        (warmSequencer_shelved v.other _)
  exact ((calmed.trans stopped).trans (clearQueue_shelved _ .a)).trans
    ((clearQueue_shelved _ .b).trans (.same (slots_setRun _ _ _)))

/-- No walk is left at a checkpoint for the lines to find. -/
theorem warmCleared_walk (s : State) (u : Station) : (s.warmCleared.st u).walk.current ≠ some .w1 := by
  rw [st_warmCleared]
  simp [((warmStopped_stopped s).station u).walk]

theorem LinedAt.rest {u : Station} {s t : State} (h : LinedAt u s t) :
    t.slots = s.slots ∧ t.records = s.records ∧ t.reservations = s.reservations ∧ t.run = s.run
      ∧ t.stopMode = s.stopMode ∧ t.channel = s.channel ∧ t.invFault = s.invFault := by
  obtain ⟨x, rfl, -⟩ := h
  simp

theorem warmLined_a (s : State) : LinedAt .a s.warmCleared (s.warmCleared.warmLines .a) :=
  warmLines_lined _ .a (warmCleared_walk s .a)

theorem warmLined_b (s : State) : LinedAt .b (s.warmCleared.warmLines .a) s.warmLined :=
  warmLines_lined _ .b (by rw [show (s.warmCleared.warmLines .a).st .b = s.warmCleared.st .b from
    (warmLined_a s).other]; exact warmCleared_walk s .b)

theorem warmLined_rest (s : State) :
    s.warmLined.slots = s.warmCleared.slots ∧ s.warmLined.records = s.warmCleared.records
      ∧ s.warmLined.reservations = s.warmCleared.reservations ∧ s.warmLined.run = s.warmCleared.run
      ∧ s.warmLined.stopMode = s.warmCleared.stopMode ∧ s.warmLined.channel = s.warmCleared.channel
      ∧ s.warmLined.invFault = s.warmCleared.invFault := by
  obtain ⟨a1, a2, a3, a4, a5, a6, a7⟩ := (warmLined_a s).rest
  obtain ⟨b1, b2, b3, b4, b5, b6, b7⟩ := (warmLined_b s).rest
  exact ⟨b1.trans a1, b2.trans a2, b3.trans a3, b4.trans a4, b5.trans a5, b6.trans a6, b7.trans a7⟩

/-- Each station's lines are begun again on the station as its sequencer and its queue leave it. -/
theorem st_warmLined (s : State) (u : Station) :
    ∃ r : State, r.st u = { s.warmStopped.st u with queue := [] } ∧ s.warmLined.st u = (r.warmLines u).st u := by
  cases u with
  | a => exact ⟨s.warmCleared, st_warmCleared s .a, (warmLined_b s).other⟩
  | b => exact ⟨s.warmCleared.warmLines .a, (warmLined_a s).other.trans (st_warmCleared s .b), rfl⟩

/-- The reset ends with the channel taking INV-FAULT where it stands; a FREE channel then is FAULTED. -/
theorem warmReset_lined (s : State) :
    s.warmReset =
      s.warmLined.setChannel
        { s.channel.warmReset with state := if s.invFault then .faulted else .free } := by
  obtain ⟨-, -, -, -, -, channel, fault⟩ := warmLined_rest s
  have free : s.warmLined.channel = s.channel.warmReset :=
    channel.trans ((warmCleared_rest s).2.2.trans (warmStopped_stopped s).channel)
  have same : s.warmLined.invFault = s.invFault := by
    rw [← (warmReset_steady s).invFault, warmReset_eq]
    split
    · exact (channelFault_served _).invFault.symm
    · rfl
  rw [warmReset_eq, same]
  generalize s.warmLined = t at free
  cases s.invFault with
  | false =>
    rw [if_neg Bool.false_ne_true, if_neg Bool.false_ne_true]
    exact congrArg t.setChannel free
  | true =>
    rw [if_pos rfl, if_pos rfl, State.channelFault, free]
    rfl

theorem st_warmReset (s : State) (u : Station) : s.warmReset.st u = s.warmLined.st u := by
  rw [warmReset_lined, st_setChannel]

/-! ### The handshake begun again -/

theorem beginHandshake_begun {x : StationState} (lasts : x.Releases) :
    (x.beginHandshake.lines.handshake, x.beginHandshake.lines.handshakeTimer) = handshakeBegun x := by
  unfold StationState.beginHandshake handshakeBegun
  dsimp only
  split
  · rfl
  · next free =>
    unfold StationState.startStep
    split
    · rfl
    · unfold StationState.assertDone
      dsimp only
      by_cases pulse : x.settings.handshakeType = .pulse
      · rw [if_pos pulse, if_pos (Or.inl pulse)]; rfl
      · rw [if_neg pulse]
        cases present : x.lines.present.qualified with
        | true => rw [if_pos rfl, if_neg (by simp [pulse])]; rfl
        | false =>
          have delayed : x.settings.doneDelay ≠ 0 := by
            rcases lasts with h | h | h | h
            · exact absurd h free
            · rw [present] at h; cases h
            · exact absurd h pulse
            · omega
          rw [if_neg Bool.false_ne_true, if_neg delayed, if_pos (Or.inr rfl)]; rfl

/-- A line requalified over a time leaves the handshake and the settings. -/
theorem requalify_handshake (s : State) (u : Station) (k : LoaderLine) (q : 2 ≤ (s.st u).settings.qualFactor) :
    ((s.requalify u k).st u).lines.handshake = (s.st u).lines.handshake
      ∧ ((s.requalify u k).st u).lines.handshakeTimer = (s.st u).lines.handshakeTimer
      ∧ ((s.requalify u k).st u).settings = (s.st u).settings := by
  obtain ⟨t, after⟩ := requalify_timed s u k q
  rw [after]
  cases k <;> exact ⟨rfl, rfl, rfl⟩

theorem warmLines_handshake (s : State) (u : Station) (q : 2 ≤ (s.st u).settings.qualFactor)
    (m : (s.st u).mode = .release) :
    ((s.warmLines u).st u).lines.handshake = ((s.st u).setHandshake .idle none).beginHandshake.lines.handshake
      ∧ ((s.warmLines u).st u).lines.handshakeTimer
        = ((s.st u).setHandshake .idle none).beginHandshake.lines.handshakeTimer := by
  unfold State.warmLines
  dsimp only
  set r := s.modSt u fun x =>
    if (x.setHandshake .idle none).mode = .release then (x.setHandshake .idle none).beginHandshake
    else x.setHandshake .idle none with begun
  have station : r.st u = ((s.st u).setHandshake .idle none).beginHandshake := by
    rw [begun, st_modSt_self, if_pos (by exact m)]
  have settings : (r.st u).settings = (s.st u).settings := by rw [station, (lined_beginHandshake _).settings]; rfl
  clear_value r
  obtain ⟨h1, t1, s1⟩ := requalify_handshake r u .present (by rw [settings]; exact q)
  obtain ⟨h2, t2, s2⟩ := requalify_handshake _ u .clamped (by rw [s1, settings]; exact q)
  obtain ⟨h3, t3, -⟩ := requalify_handshake _ u .hold (by rw [s2, s1, settings]; exact q)
  rw [← station]
  exact ⟨h3.trans (h2.trans h1), t3.trans (t2.trans t1)⟩

/-! ### One station over the whole reset -/

section
variable {now : Time} {x z : StationState} {r : State} {u : Station}

/-- The station as its lines find it, without a walk for them to move. -/
theorem warm_walk (S : Sequenced (x.warmBlocks now) z) (R : r.st u = { z with queue := [] }) :
    (r.st u).walk.current ≠ some .w1 := by
  rw [R]
  simp [S.walk]

/-- What the lines leave of the station. -/
theorem warm_lined (S : Sequenced (x.warmBlocks now) z) (R : r.st u = { z with queue := [] }) :
    Lined { z with queue := [] } ((r.warmLines u).st u) :=
  R ▸ (warmLines_lined r u (warm_walk S R)).st

/-- What the lines make of the release. -/
theorem warm_handed (S : Sequenced (x.warmBlocks now) z) (R : r.st u = { z with queue := [] }) :
    Handed (({ z with queue := [] } : StationState).setHandshake .idle none) ((r.warmLines u).st u) :=
  R ▸ warmLines_handed r u (warm_walk S R)

/-- Outside RELEASE the lines leave the station's state and its markers. -/
theorem warm_outside (S : Sequenced (x.warmBlocks now) z) (R : r.st u = { z with queue := [] })
    (m : z.mode ≠ .release) :
    let y := (r.warmLines u).st u
    y.mode = z.mode ∧ y.lines.handshake = .idle ∧ y.lines.handshakeTimer = none ∧ y.finished = z.finished
      ∧ y.releaseOwed = z.releaseOwed := (warm_handed S R).outside m rfl rfl

/-- The part-consumed flag outside RELEASE goes only where PRESENT is gone at once. -/
theorem warm_partConsumed (S : Sequenced (x.warmBlocks now) z) (R : r.st u = { z with queue := [] })
    (m : z.mode ≠ .release) :
    ((r.warmLines u).st u).partConsumed =
      if x.lines.present.qualified = true ∧ x.lines.present.sampled = false ∧ x.settings.qualFactor < 2 then false
      else x.partConsumed := by
  obtain ⟨-, -, consumed, lines⟩ := (drained_warmBlocks now x).same
  have settings := (calmed_warmBlocks now x).settings
  rw [warmLines_idle r u (warm_walk S R) (by rw [R]; exact m), R]
  dsimp only
  rw [S.lines, S.settings, S.partConsumed, consumed, lines, settings]

/-- A walk that was running ends INTERRUPTED at its checkpoint, and another keeps its fields (R135, R137). -/
theorem walk_interrupt_eq (w : Walk) :
    (∀ c, w.current = some c →
        w.interrupt =
          { w with
            current := none, timer := none, result := .interrupted, endedAt := some c, cause := .none })
      ∧ (w.current = none → w.interrupt = { w with timer := none }) := by
  unfold Walk.interrupt
  constructor
  · intro c running; rw [running]; rfl
  · intro idle; rw [idle]

theorem walk_warm (S : Sequenced (x.warmBlocks now) z) (R : r.st u = { z with queue := [] }) :
    ((r.warmLines u).st u).walk = x.walk.interrupt :=
  (warm_lined S R).walk.trans (S.walked.trans (calmed_warmBlocks now x).walked)

/-- A cycle ends in HALTED with its marks, owing REJECT for a HARDEN job (R45). -/
theorem warm_cycle (S : Sequenced (x.warmBlocks now) z) (R : r.st u = { z with queue := [] }) (c : Context)
    (atWork : x.current = some c) :
    let y := (r.warmLines u).st u
    y.mode = .halted ∧ y.haltCause = .warmReset ∧ y.homeResult = x.homeResult ∧ y.finished = some c.job.tag
      ∧ y.releaseOwed = if c.job.kind = .harden then some true else x.releaseOwed := by
  have B := calmed_warmBlocks now x
  have D := drained_warmBlocks now x
  have L := warm_lined S R
  have current : (x.warmBlocks now).current = some c := B.current.trans atWork
  obtain ⟨mode, cause, home⟩ := S.busy (by simp [StationState.busy, current])
  obtain ⟨finished, owed⟩ := S.wrote c current
  obtain ⟨stays, -, -, finished', owed'⟩ := warm_outside S R (by rw [mode]; decide)
  exact ⟨stays.trans mode, L.haltCause.trans cause, L.homeResult.trans (home.trans B.homeResult),
    finished'.trans finished, owed'.trans (by rw [owed, D.same.2.1])⟩

/-- RELEASE at a warm reset: the station stays with its markers, or its handshake completes at once (R45, R146). -/
theorem warm_release (S : Sequenced (x.warmBlocks now) z) (R : r.st u = { z with queue := [] })
    (idle : x.current = none) (m : x.mode = .release) :
    let y := (r.warmLines u).st u
    (y.mode = .release ∧ y.finished = x.finished ∧ y.releaseOwed = x.releaseOwed
        ∨ y.mode = .idle ∧ y.finished = none ∧ y.releaseOwed = none)
      ∧ (2 ≤ x.settings.qualFactor →
          (y.mode = .release ↔ x.Releases)
            ∧ (x.Releases → (y.lines.handshake, y.lines.handshakeTimer) = handshakeBegun x)
            ∧ y.partConsumed = consumedBegun x) := by
  have B := calmed_warmBlocks now x
  obtain ⟨finished, owed, consumed, lines⟩ := (drained_warmBlocks now x).same
  have free : (x.warmBlocks now).busy = false := by simp [StationState.busy, B.current, idle]
  have mode : z.mode = .release := by
    rw [(S.other free (Or.inr (Or.inr (B.mode.trans m)))).1, B.mode, m]
  obtain ⟨finished', owed'⟩ := S.kept free
  intro y
  refine ⟨((warm_handed S R).release mode).imp (fun stays => ?_) (fun leaves => ?_), fun timed => ?_⟩
  · exact ⟨stays.1, stays.2.1.trans (finished'.trans finished), stays.2.2.trans (owed'.trans owed)⟩
  · exact ⟨leaves.1, leaves.2.1, leaves.2.2.1⟩
  · have settings : z.settings = x.settings := S.settings.trans B.settings
    have zlines : z.lines = x.lines := S.lines.trans lines
    have zconsumed : z.partConsumed = x.partConsumed := S.partConsumed.trans consumed
    have timed' : 2 ≤ (r.st u).settings.qualFactor := by rw [R]; dsimp only; rw [settings]; exact timed
    have mode' : (r.st u).mode = .release := by rw [R]; exact mode
    obtain ⟨l, station⟩ := warmLines_timed r u timed' mode'
    obtain ⟨handshake, timer⟩ := warmLines_handshake r u timed' mode'
    have releases : ((r.st u).setHandshake .idle none).Releases ↔ x.Releases := by
      rw [R]
      simp only [StationState.Releases, StationState.setHandshake, StationState.modLines, settings, zlines]
    have begun : handshakeBegun ((r.st u).setHandshake .idle none) = handshakeBegun x := by
      rw [R]
      simp only [handshakeBegun, StationState.setHandshake, StationState.modLines, settings, zlines]
    obtain ⟨lasts, part⟩ := beginHandshake_release (x := (r.st u).setHandshake .idle none) mode'
    refine ⟨?_, fun long => ?_, ?_⟩
    · rw [← releases, ← lasts]
      change ((r.warmLines u).st u).mode = _ ↔ _
      rw [station]
    · rw [← begun, ← beginHandshake_begun (releases.2 long)]
      exact Prod.ext handshake timer
    · change ((r.warmLines u).st u).partConsumed = _
      rw [station]
      refine part.trans ?_
      rw [R]
      simp only [consumedBegun, StationState.setHandshake, StationState.modLines, settings, zlines, zconsumed]

/-- A station without a job: its state, by the one it was in (R45). -/
theorem warm_modes (S : Sequenced (x.warmBlocks now) z) (R : r.st u = { z with queue := [] })
    (idle : x.current = none) :
    let y := (r.warmLines u).st u
    (x.mode ≠ .release → y.finished = x.finished ∧ y.releaseOwed = x.releaseOwed)
      ∧ (x.mode = .unhomed → y.mode = .unhomed)
      ∧ (x.mode = .homing → y.mode = x.homingOrigin.mode ∧ y.homeResult = .failed)
      ∧ (x.mode = .idle ∨ x.mode = .waitPart → y.mode = .idle)
      ∧ (x.mode = .halted → y.mode = .halted ∧ y.haltCause = x.haltCause) := by
  have B := calmed_warmBlocks now x
  have L := warm_lined S R
  obtain ⟨finished, owed, -, -⟩ := (drained_warmBlocks now x).same
  have free : (x.warmBlocks now).busy = false := by simp [StationState.busy, B.current, idle]
  have outside : x.mode ≠ .release → z.mode ≠ .release := fun n m => n (B.mode ▸ S.release m)
  obtain ⟨finished', owed'⟩ := S.kept free
  refine ⟨fun n => ?_, fun m => ?_, fun m => ?_, fun m => ?_, fun m => ?_⟩
  · obtain ⟨-, -, -, f, o⟩ := warm_outside S R (outside n)
    exact ⟨f.trans (finished'.trans finished), o.trans (owed'.trans owed)⟩
  · obtain ⟨stays, -⟩ := warm_outside S R (outside (by rw [m]; decide))
    rw [stays, (S.other free (Or.inl (B.mode.trans m))).1, B.mode, m]
  · obtain ⟨stays, -⟩ := warm_outside S R (outside (by rw [m]; decide))
    obtain ⟨origin, failed⟩ := S.homing free (B.mode.trans m)
    exact ⟨stays.trans (origin.trans (by rw [B.homingOrigin])), L.homeResult.trans failed⟩
  · obtain ⟨stays, -⟩ := warm_outside S R (outside (by rcases m with m | m <;> rw [m] <;> decide))
    exact stays.trans (S.idle free (by rw [B.mode]; exact m))
  · obtain ⟨stays, -⟩ := warm_outside S R (outside (by rw [m]; decide))
    obtain ⟨mode, cause⟩ := S.other free (Or.inr (Or.inl (B.mode.trans m)))
    exact ⟨stays.trans (mode.trans (B.mode.trans m)), L.haltCause.trans (cause.trans B.haltCause)⟩

end

/-- No job is left, so that no slot keeps a reference (R11, R174). -/
theorem refs_warmReset {s : State} (safe : ReferencesSafe s)
    (idle : ∀ u, (s.warmReset.st u).current = none) (k : Fin 8) : (s.warmReset.slot k).refs = 0 := by
  have none : ∀ u, (s.warmReset.st u).naming k = 0 := fun u => by
    rw [naming_idle k (idle u), warmReset_queues]; rfl
  rw [((warmReset_keeps s).references safe).1 k]
  exact congrArg₂ (· + ·) (none .a) (none .b)

/-- Settles O4: the stages of the reset, each station followed through its blocks, its sequencer and its lines. -/
theorem warmResetEndsEveryCycle : Obligations.WarmResetEndsEveryCycle := by
  intro s t
  have steady := warmReset_steady s
  have stopped := warmStopped_stopped s
  obtain ⟨slots', records', reservations', run', stopMode', channel', -⟩ := warmLined_rest s
  obtain ⟨records'', reservations'', -⟩ := warmCleared_rest s
  obtain ⟨new, records, count, each, facts⟩ := stopped.records
  have lined : t = s.warmLined.setChannel _ := warmReset_lined s
  have channel : t.channel = { s.channel.warmReset with state := if s.invFault then .faulted else .free } := by
    rw [lined, channel_setChannel]
  have station : ∀ u, ∃ r : State, r.st u = { s.warmStopped.st u with queue := [] } ∧ t.st u = (r.warmLines u).st u :=
    fun u => by rw [show t.st u = s.warmLined.st u from st_warmReset s u]; exact st_warmLined s u
  have idle : ∀ u, (t.st u).current = none := fun u => by
    obtain ⟨r, R, Y⟩ := station u
    rw [Y]
    exact (warm_lined (stopped.station u) R).current.trans (stopped.station u).current
  have trail : ∀ u, (t.st u).trail = ((s.st u).warmBlocks s.time).trail := fun u => by
    obtain ⟨r, R, Y⟩ := station u
    rw [Y]
    exact (warm_lined (stopped.station u) R).trail.trans (stopped.station u).trail
  refine ⟨steady.time, steady.link, steady.tank, steady.common, steady.pending, steady.invReady, steady.invFault,
    steady.resetLine, by rw [lined, run_setChannel, run']; rfl, by rw [lined, stopMode_setChannel, stopMode']; rfl,
    by rw [channel], by rw [channel]; rfl, by rw [channel]; rfl, by rw [channel]; rfl, by rw [channel]; rfl,
    by rw [channel]; rfl, by rw [channel]; rfl, by rw [channel]; rfl, by rw [channel]; rfl, by rw [channel]; rfl,
    ?_, ⟨new, ?_, count, each, fun q found => ?_⟩, addHeatTime_exact, fun k => ⟨?_, ?_, fun safe => ?_⟩, fun u => ?_⟩
  · rw [lined, reservations_setChannel, reservations', reservations'', stopped.reservations]
  · rw [lined, records_setChannel, records', records'', records]
  · rw [trail]
    exact facts q found
  · exact ((warmCleared_shelved s).trans (.same (by rw [lined, slots_setChannel, slots']))) k |>.1
  · exact ((warmCleared_shelved s).trans (.same (by rw [lined, slots_setChannel, slots']))) k |>.2
  · exact refs_warmReset safe idle k
  · obtain ⟨r, R, Y⟩ := station u
    have S := stopped.station u
    have B := calmed_warmBlocks s.time (s.st u)
    have D := drained_warmBlocks s.time (s.st u)
    have L := warm_lined S R
    have trail := trail u
    have idle := idle u
    intro x y slices gone
    have Y' : y = (r.warmLines u).st u := Y
    rw [← Y] at L
    obtain ⟨ends, keeps⟩ := walk_interrupt_eq x.walk
    have walk : y.walk = x.walk.interrupt := by rw [Y']; exact walk_warm S R
    have quench : y.quench = ((s.st u).warmBlocks s.time).quench := L.quench.trans S.quench
    refine ⟨L.queue, idle, L.settings.trans (S.settings.trans B.settings), L.faults.1.trans S.faults.1,
      L.faults.2.trans (S.faults.2.trans (by rw [B.faults.1, B.faults.2])),
      fun w running => walk.trans (ends w running), fun none => walk.trans (keeps none),
      L.stop S.stop, L.spindle S.spindle, by rw [quench]; exact B.valve, by rw [trail]; exact D.phase.1,
      by rw [trail]; exact D.phase.2.1, by rw [trail]; exact D.phase.2.2, by rw [trail]; exact D.tallies,
      by rw [quench]; exact D.flood, fun n => ?_, fun c atWork => ?_, fun free => ?_⟩
    · have outside : (s.warmStopped.st u).mode ≠ .release := fun m => n (B.mode ▸ S.release m)
      obtain ⟨-, handshake, timer, -⟩ := warm_outside S R outside
      rw [Y']
      exact ⟨handshake, timer, warm_partConsumed S R outside⟩
    · rw [Y']
      exact warm_cycle S R c atWork
    · obtain ⟨marks, unhomed, homing, waiting, halted⟩ := warm_modes S R free
      rw [Y']
      exact ⟨marks, unhomed, homing, waiting, halted, warm_release S R free⟩

end Sys2Proof.Machine
end

section
/-! PROOFS. The receiver, byte by byte, and its two timers (R178, R179, R180). -/

namespace Sys2Proof.Machine

/-! ### A byte at the receiver -/

theorem exec_byteTaken (s : State) (b : Byte) (bad : Bool) {l : Link} (h : s.link.takeByte b bad = l) :
    exec (.byteTaken b bad) s = .next { s with link := l } := by
  rw [← h]; rfl

section
variable {l : Link} {b : Byte} {bad : Bool} {kept header payload : List Byte} {high : Option Byte}

/-- Between frames no gap timer is looked at. -/
theorem endGap_outside (h : l.receiver.inFrame = false) : l.endGap = l := if_neg (by simp [h])

theorem endGap_runs (h : l.gapTimer ≠ some 0) : l.endGap = l := if_neg fun c => h c.2

theorem endGap_over (h : l.receiver.inFrame = true) (expired : l.gapTimer = some 0) : l.endGap = l.hunt := if_pos ⟨h, expired⟩

theorem takeByte_outside (h : l.receiver.inFrame = false) : l.takeByte b bad = l.receiveByte b bad := by
  rw [Link.takeByte, endGap_outside h]

theorem takeByte_runs (h : l.gapTimer ≠ some 0) : l.takeByte b bad = l.receiveByte b bad := by
  rw [Link.takeByte, endGap_runs h]

theorem takeByte_over (h : l.receiver.inFrame = true) (expired : l.gapTimer = some 0) :
    l.takeByte b bad = if b = 0xA5 ∧ bad = false then l.hunt.receive (.header []) else l.hunt := by
  rw [Link.takeByte, endGap_over h expired]; rfl

theorem receiveByte_hunt (h : l.receiver = .hunt) :
    l.receiveByte b bad = if b = 0xA5 ∧ bad = false then l.receive (.header []) else l := by
  rw [Link.receiveByte, h]

theorem receiveByte_discard (h : l.receiver = .discard kept) :
    l.receiveByte b bad = l.discard (if kept.length < 3 then kept ++ [b] else kept) := by
  rw [Link.receiveByte, h]

/-- A framing error inside a frame abandons it. -/
theorem receiveByte_bad (h : l.receiver.inFrame = true) : l.receiveByte b true = l.hunt := by
  unfold Link.receiveByte
  split
  · next r => rw [r] at h; cases h
  · rfl
  · rfl
  · rfl
  · rfl
  · next r => rw [r] at h; cases h

theorem receiveByte_header (h : l.receiver = .header kept) : l.receiveByte b false = l.headerByte kept b := by
  rw [Link.receiveByte, h]; rfl

theorem receiveByte_payload (h : l.receiver = .payload header kept) :
    l.receiveByte b false = l.payloadByte header kept b := by
  rw [Link.receiveByte, h]; rfl

theorem receiveByte_firstCrc (h : l.receiver = .check header payload none) :
    l.receiveByte b false = l.receive (.check header payload (some b)) := by
  rw [Link.receiveByte, h]; rfl

theorem receiveByte_lastCrc {c : Byte} (h : l.receiver = .check header payload (some c)) :
    l.receiveByte b false = l.judgeFrame header payload c b := by
  rw [Link.receiveByte, h]; rfl

/-- The fourth header byte leads on, by the length that came first. -/
theorem headerByte_fourth (full : kept.length = 3) :
    l.headerByte kept b =
      l.receive (if kept.head? = some 0 then .check (kept ++ [b]) [] none else .payload (kept ++ [b]) []) := by
  have some' : kept ≠ [] := fun e => by rw [e] at full; cases full
  obtain ⟨first, rest, rfl⟩ := List.exists_cons_of_ne_nil some'
  rw [Link.headerByte, if_neg (fun c => some' c.1), if_neg (by omega), List.getD_cons_zero]
  have named : (first :: rest).head? = some 0 ↔ first = 0 := by rw [List.head?_cons, Option.some.injEq]
  by_cases zero : first = 0
  · rw [if_pos zero, if_pos (named.2 zero)]
  · rw [if_neg zero, if_neg fun h => zero (named.1 h)]

/-- An entry that arrives is lost behind a full buffer, joins the buffer behind a transaction, and is taken where
nothing stands before it (R180). -/
theorem place_full (e : Entry) (full : 2 ≤ l.buffer.length) : l.place e = { l with overrun := true } :=
  if_neg (Nat.not_lt.2 full)

theorem place_behind (e : Entry) (room : l.buffer.length < 2) (busy : l.transaction ≠ .none) :
    l.place e = { l with buffer := l.buffer ++ [e] } := by
  rw [Link.place, if_pos (show l.buffer.length < Config.bufferCapacity from room), Link.takeNext]
  split
  · next none _ => exact absurd none busy
  · rfl

theorem place_taken (e : Entry) (empty : l.buffer = []) (idle : l.transaction = .none) :
    l.place e = { l with transaction := .taken e } := by
  rw [Link.place, if_pos (by rw [empty]; decide), Link.takeNext, empty]
  dsimp only
  rw [idle]
  rfl

end

/-! ### The receiver's timers -/

theorem exec_gapTimerExpiry {s : State} {n : Nat} (running : s.link.gapTimer = some n) :
    exec .gapTimerExpiry s
      = .next { s.elapse n with link := { s.link with receiver := .hunt, gapTimer := none, idleTimer := none } } :=
  congrArg _ (expire_some s running _)

theorem exec_idleTimerExpiry {s : State} {n : Nat} {kept : List Byte} {l : Link}
    (running : s.link.idleTimer = some n) (discards : s.link.receiver = .discard kept)
    (given : ({ s.link with receiver := .hunt, gapTimer := none, idleTimer := none } : Link).place
      ⟨true, kept.getD 0 0, kept.getD 1 0, kept.getD 2 0, []⟩ = l) :
    exec .idleTimerExpiry s = .next { s.elapse n with link := l } := by
  have meaning : exec .idleTimerExpiry s
      = .next (s.expire s.link.idleTimer fun s => s.setLink s.link.idleDue) := rfl
  have due : (s.link.elapse n).idleDue = l := by
    rw [← given, Link.idleDue, show (s.link.elapse n).receiver = .discard kept from discards]
    rfl
  rw [meaning, expire_some s running, ← due]
  rfl

/-- Settles O6: each clause is one equation of the receiver, and the buffer's three. -/
theorem framesAreReceived : Obligations.FramesAreReceived := by
  refine ⟨fun s b bad kept header payload high => ⟨fun hunts => ?_, fun discards => ?_, fun inside => ?_⟩,
    fun s b kept header payload runs => ⟨fun first long => ?_, fun head short fits => ?_, fun head full => ?_,
      fun body more => ?_, fun body last => ?_, fun check => ?_⟩,
    fun s low high header payload check => ?_,
    fun s n kept => ⟨exec_gapTimerExpiry, fun running discards => ⟨fun full => ?_, fun room busy => ?_,
      fun empty idle => ?_⟩⟩⟩
  · rw [exec_byteTaken s b bad ((takeByte_outside (by rw [hunts]; rfl)).trans (receiveByte_hunt hunts))]
    split <;> rfl
  · exact exec_byteTaken s b bad ((takeByte_outside (by rw [discards]; rfl)).trans (receiveByte_discard discards))
  · have frame : s.link.receiver.inFrame = true := by rcases inside with h | h | h <;> rw [h] <;> rfl
    refine ⟨exec_byteTaken s b true ?_, fun expired => exec_byteTaken s b false ?_⟩
    · by_cases expired : s.link.gapTimer = some 0
      · rw [takeByte_over frame expired, if_neg (by simp)]; rfl
      · exact (takeByte_runs expired).trans (receiveByte_bad frame)
    · rw [takeByte_over frame expired]
      by_cases lead : b = 0xA5
      · rw [if_pos ⟨lead, rfl⟩, if_pos lead]; rfl
      · rw [if_neg fun c => lead c.1, if_neg lead]; rfl
  · exact exec_byteTaken s b false ((takeByte_runs runs).trans ((receiveByte_header first).trans (if_pos ⟨rfl, long⟩)))
  · refine exec_byteTaken s b false ((takeByte_runs runs).trans ((receiveByte_header head).trans ?_))
    rw [Link.headerByte, if_neg fun c => absurd (fits c.1) (Nat.not_le.2 c.2), if_pos short]; rfl
  · exact exec_byteTaken s b false
      ((takeByte_runs runs).trans ((receiveByte_header head).trans (headerByte_fourth full)))
  · exact exec_byteTaken s b false ((takeByte_runs runs).trans ((receiveByte_payload body).trans (if_neg more)))
  · exact exec_byteTaken s b false ((takeByte_runs runs).trans ((receiveByte_payload body).trans (if_pos last)))
  · exact exec_byteTaken s b false ((takeByte_runs runs).trans (receiveByte_firstCrc check))
  · intro hunting request byte
    have judged : s.link.gapTimer ≠ some 0 → s.link.takeByte low false = s.link.judgeFrame header payload high low :=
      fun runs => (takeByte_runs runs).trans (receiveByte_lastCrc check)
    have agrees : s.link.gapTimer ≠ some 0 → high ++ low = crc (header ++ payload) →
        s.link.takeByte low false = hunting.place request := fun runs same => (judged runs).trans (if_pos same)
    refine ⟨?_, fun runs => ⟨fun differs => exec_byteTaken s low false ((judged runs).trans (if_neg differs)),
      fun same => ⟨fun full => ?_, fun room busy => ?_, fun empty idle => ?_⟩⟩⟩
    · have meaning : exec (.requestComplete low) s = .next (s.setLink (s.link.lastByte low)) := rfl
      rw [meaning, Link.lastByte, check]
      rfl
    · exact exec_byteTaken s low false ((agrees runs same).trans (place_full request full))
    · exact exec_byteTaken s low false ((agrees runs same).trans (place_behind request room busy))
    · exact exec_byteTaken s low false ((agrees runs same).trans (place_taken request empty idle))
  · exact exec_idleTimerExpiry running discards (place_full _ full)
  · exact exec_idleTimerExpiry running discards (place_behind _ room busy)
  · exact exec_idleTimerExpiry running discards (place_taken _ empty idle)

end Sys2Proof.Machine
end

section
/-! PROOFS. Requests in general (R181): rows, lengths, and what stands before the owning block. -/

namespace Sys2Proof.Machine

/-! ### The row of an entry -/

theorem lookup_cons_getD {β : Type} (k a : Byte) (b d : β) (es : List (Byte × β)) :
    (((a, b) :: es).lookup k).getD d = if k = a then b else (es.lookup k).getD d := by
  rw [List.lookup_cons]
  by_cases same : k = a
  · rw [if_pos same, beq_iff_eq.2 same]; rfl
  · rw [if_neg same, beq_eq_false_iff_ne.2 same]

theorem stationRow_eq (k : Byte) :
    stationRow k =
      (List.lookup k [((0x03 : Byte), RequestRow.set), (0x04, .get), (0x30, .job), (0x31, .cancel), (0x32, .trail),
        (0x33, .home), (0x34, .stationReset)]).getD .undefinedRequest := by
  simp only [lookup_cons_getD]
  rfl

theorem commonRow_eq (k : Byte) (p : List Byte) :
    commonRow k p =
      if k = 0x21 ∧ p = [2] then .stopAbrupt
      else
        (List.lookup k [((0x01 : Byte), RequestRow.describe), (0x02, .status), (0x03, .set), (0x04, .get),
          (0x10, .profileOpen), (0x11, .profilePut), (0x12, .profileClose), (0x13, .profileDrop),
          (0x14, .profileRead), (0x20, .take), (0x21, .stopNormal), (0x22, .resume), (0x2F, .reset)]).getD
          .undefinedRequest := by
  by_cases stop : k = 0x21
  · subst stop
    by_cases abrupt : p = [2]
    · rw [if_pos ⟨rfl, abrupt⟩, abrupt]; rfl
    · rw [if_neg fun c => abrupt c.2]
      exact if_neg abrupt
  · rw [if_neg fun c => stop c.1]
    simp only [lookup_cons_getD, commonRow, if_neg stop]
    rfl

/-! ### Lengths -/

theorem setLength_iff (n : Nat) : (n % 5 = 0 ∧ 5 ≤ n) ∧ n ≤ 100 ↔ ∃ k, 1 ≤ k ∧ k ≤ 20 ∧ n = 5 * k := by
  constructor
  · rintro ⟨⟨whole, least⟩, most⟩
    exact ⟨n / 5, by omega, by omega, by omega⟩
  · rintro ⟨k, least, most, rfl⟩
    omega

/-! ### A request command at the link -/

/-- Every request command serves its own row. -/
theorem exec_command (row : RequestRow) (s : State) : ∃ act, exec row.command s = .next (s.serve row act) := by
  cases row <;> exact ⟨_, rfl⟩

theorem serve_badLength {row : RequestRow} {e : Entry} {s : State} (act : Entry → State → State × Answer)
    (taken : s.link.transaction = .taken e) (routed : e.row = row) (long : lengthAllowed row e.payload = false) :
    s.serve row act = s.answered e .badLength [] false := by
  rw [State.serve, taken]
  dsimp only
  rw [if_pos routed, if_neg (by simp [long])]
  rfl

theorem serve_idle {row : RequestRow} {s : State} (act : Entry → State → State × Answer)
    (idle : ∀ e, s.link.transaction = .taken e → e.row ≠ row) : s.serve row act = s := by
  unfold State.serve
  split
  · next e taken => exact if_neg (idle e taken)
  · rfl

/-- Settles O7. -/
theorem requestsRefusedBeforeTheirBlock : Obligations.RequestsRefusedBeforeTheirBlock := by
  refine ⟨fun e => ?_, fun row p => ?_, fun p off n => ?_, fun s e => ⟨fun asked => ?_, fun asked above => ?_,
    fun asked known => ?_, fun row taken routed long => ?_, fun row idle => ?_⟩⟩
  · intro common station kinds
    unfold Entry.row
    by_cases long : e.tooLong = true
    · rw [if_pos long, if_pos long]
    rw [if_neg long, if_neg long]
    by_cases part : e.unit = 0
    · rw [if_pos part, commonRow_eq]
      simp only [kinds, common, part, true_and, if_true]
    · have other : ¬ (e.unit = 0 ∧ e.kind = 0x21 ∧ e.payload = [2]) := fun c => part c.1
      rw [if_neg part, if_neg other]
      by_cases one : e.unit = 1 ∨ e.unit = 2
      · rw [if_pos one, stationRow_eq]
        simp only [kinds, station, if_neg part, if_pos one]
      · rw [if_neg one]
        simp only [kinds, if_neg part, if_neg one]
        rfl
  · intro n
    cases row <;> simp only [lengthAllowed, Bool.and_eq_true, beq_iff_eq, decide_eq_true_eq, n]
    case set => exact setLength_iff p.length
  · simp only [field, beNat, Nat.mul_comm]
  · exact congrArg _ (serve_of_asked asked _)
  · have unit : ¬ e.unit.toNat ≤ 2 := by omega
    refine congrArg _ ((serve_of_asked asked _).trans ?_)
    rw [if_neg unit]
    rfl
  · refine congrArg _ ((serve_of_asked asked _).trans ?_)
    rw [if_pos known]
    rfl
  · obtain ⟨act, runs⟩ := exec_command row s
    rw [runs, serve_badLength act taken routed long]
  · obtain ⟨act, runs⟩ := exec_command row s
    rw [runs, serve_idle act idle]

end Sys2Proof.Machine
end

section
/-! PROOFS. SET (R183) refused and applied, and the tables of the settings (R184). -/

namespace Sys2Proof.Machine

/-! ### SET answered -/

section
variable {s t : State} {e : Entry} {u : Station} {x : Answer}

theorem exec_setCommon (asked : Asked .set e s) (part : e.unit = 0)
    (given : s.setCommon (readPairs e.payload) = (t, x)) :
    exec .set s = .next (t.answered e x.outcome x.payload false) := by
  have none : unitStation e.unit = none := by rw [part]; rfl
  refine congrArg _ ((serve_of_asked asked _).trans ?_)
  rw [none]
  dsimp only
  rw [given]
  rfl

theorem exec_setStation (asked : Asked .set e s) (unit : unitStation e.unit = some u)
    (given : s.setStation u (readPairs e.payload) = (t, x)) :
    exec .set s = .next (t.answered e x.outcome x.payload false) := by
  refine congrArg _ ((serve_of_asked asked _).trans ?_)
  rw [unit]
  dsimp only
  rw [given]
  rfl

end

/-! ### SET at the common unit -/

section
variable {s : State} {pairs : List (Nat × Nat)} {id : Nat}

theorem relationFailure_common (c : CommonSettings) (pairs : List (Nat × Nat)) :
    c.relationFailure pairs =
      if c.warnThreshold < c.criticalThreshold then none else some (if carries pairs 6 then 6 else 7) := rfl

theorem setCommon_badPair (fails : pairFailure commonInRange [] pairs = some id) :
    s.setCommon pairs = (s, Answer.badSetting id) := by
  simp only [State.setCommon, fails]

theorem setCommon_badRelation (passes : pairFailure commonInRange [] pairs = none)
    (fails : (s.common.putAll pairs).relationFailure pairs = some id) :
    s.setCommon pairs = (s, Answer.badSetting id) := by
  simp only [State.setCommon, passes, fails]

theorem setCommon_busy (passes : pairFailure commonInRange [] pairs = none)
    (related : (s.common.putAll pairs).relationFailure pairs = none) (busy : s.anyCurrent = true)
    (more : pairs.map Prod.fst ≠ [1]) : s.setCommon pairs = (s, ⟨.busy, []⟩) := by
  simp only [State.setCommon, passes, related]
  exact if_pos (by simp [busy, more])

theorem setCommon_allowed (passes : pairFailure commonInRange [] pairs = none)
    (related : (s.common.putAll pairs).relationFailure pairs = none)
    (allowed : s.anyCurrent = true → pairs.map Prod.fst = [1]) :
    s.setCommon pairs =
      if carries pairs 1 && s.demandAbove (s.common.putAll pairs).ratedPower then (s, ⟨.inUse, []⟩)
      else (s.applyCommon (s.common.putAll pairs), ⟨.accepted, []⟩) := by
  simp only [State.setCommon, passes, related]
  refine if_neg fun busy => ?_
  rw [Bool.and_eq_true] at busy
  simp [allowed busy.1] at busy

end

/-! ### SET at a station unit -/

section
variable {s : State} {u : Station} {pairs : List (Nat × Nat)} {id : Nat}

theorem setStation_badPair (fails : pairFailure stationInRange [] pairs = some id) :
    s.setStation u pairs = (s, Answer.badSetting id) := by
  simp only [State.setStation, fails]

theorem setStation_badRelation (passes : pairFailure stationInRange [] pairs = none)
    (fails : ((s.st u).settings.putAll pairs).relationFailure pairs = some id) :
    s.setStation u pairs = (s, Answer.badSetting id) := by
  simp only [State.setStation, passes, fails]

theorem setStation_judged (passes : pairFailure stationInRange [] pairs = none)
    (related : ((s.st u).settings.putAll pairs).relationFailure pairs = none) :
    s.setStation u pairs =
      if (s.st u).mode.takesSettings then (s.applyStation u ((s.st u).settings.putAll pairs), ⟨.accepted, []⟩)
      else (s, ⟨.busy, []⟩) := by
  simp only [State.setStation, passes, related]

end

/-- Settles O9, one equation of `setCommon` and of `setStation` for each check. -/
theorem refusedSetChangesNothing : Obligations.RefusedSetChangesNothing := by
  intro s e u id asked pairs
  refine ⟨fun part => ⟨fun fails => ?_, fun passes => ⟨fun crossed => ?_, fun ordered => ⟨fun busy more => ?_,
    fun allowed carried above => ?_⟩⟩⟩, fun unit => ⟨fun fails => ?_, fun passes => ⟨fun fails => ?_,
    fun related closed => ?_⟩⟩⟩
  · exact exec_setCommon asked part (setCommon_badPair fails)
  · have relation : (s.common.putAll pairs).relationFailure pairs = some (if carries pairs 6 then 6 else 7) := by
      rw [relationFailure_common, if_neg (Nat.not_lt.2 crossed)]
    rw [exec_setCommon asked part (setCommon_badRelation passes relation)]
    split <;> rfl
  · have relation : (s.common.putAll pairs).relationFailure pairs = none := if_pos ordered
    exact exec_setCommon asked part (setCommon_busy passes relation busy more)
  · have relation : (s.common.putAll pairs).relationFailure pairs = none := if_pos ordered
    have inUse := setCommon_allowed passes relation allowed
    rw [if_pos (by rw [carried, above]; rfl)] at inUse
    exact exec_setCommon asked part inUse
  · exact exec_setStation asked unit (setStation_badPair fails)
  · exact exec_setStation asked unit (setStation_badRelation passes fails)
  · have busy := setStation_judged passes related
    rw [if_neg (by simp [closed])] at busy
    exact exec_setStation asked unit busy

/-! ### A common SET applied -/

/-- The part with the common settings put, RESET's line inverted where its sense has changed (R139, R141). -/
def State.withCommon (new : CommonSettings) (s : State) : State :=
  { s with
    common := new
    resetLine := if new.lowReset = s.common.lowReset then s.resetLine else !s.resetLine }

/-- INV-READY, where its sense has changed, is taken as the line's own event (R139). -/
def State.turnReady (turned : Bool) (s : State) : State :=
  if turned then (if s.invReady then s.invReadyOff else s.invReadyOn) else s

/-- INV-FAULT, where its sense has changed, is taken as the line's own event (R139). -/
def State.turnFault (turned : Bool) (s : State) : State :=
  if turned then (if s.invFault then s.invFaultOff else s.invFaultOn) else s

theorem applyCommon_eq (new : CommonSettings) (s : State) :
    s.applyCommon new =
      ((s.withCommon new).turnReady (new.lowInvReady != s.common.lowInvReady)).turnFault
        (new.lowInvFault != s.common.lowInvFault) := by
  have base : (if s.common.lowReset = new.lowReset then { s with common := new }
      else { { s with common := new } with resetLine := !s.resetLine } : State) = s.withCommon new := by
    unfold State.withCommon
    by_cases same : s.common.lowReset = new.lowReset
    · rw [if_pos same, if_pos same.symm]
    · rw [if_neg same, if_neg (Ne.symm same)]
  have ready : ∀ r : State, (if s.common.lowInvReady = new.lowInvReady then r
      else if r.invReady then r.invReadyOff else r.invReadyOn)
      = r.turnReady (new.lowInvReady != s.common.lowInvReady) := fun r => by
    unfold State.turnReady
    by_cases same : s.common.lowInvReady = new.lowInvReady
    · rw [if_pos same, if_neg (by simp [same])]
    · rw [if_neg same, if_pos (bne_iff_ne.2 (Ne.symm same))]
  have fault : ∀ r : State, (if s.common.lowInvFault = new.lowInvFault then r
      else if r.invFault then r.invFaultOff else r.invFaultOn)
      = r.turnFault (new.lowInvFault != s.common.lowInvFault) := fun r => by
    unfold State.turnFault
    by_cases same : s.common.lowInvFault = new.lowInvFault
    · rw [if_pos same, if_neg (by simp [same])]
    · rw [if_neg same, if_pos (bne_iff_ne.2 (Ne.symm same))]
  rw [← base, ← ready, ← fault]
  rfl

theorem taken_turnReady {s t : State} {turned : Bool}
    (h : taken turned (if s.invReady then .invReadyInactive else .invReadyActive) s = .next t) :
    s.turnReady turned = t := by
  unfold State.turnReady
  unfold taken at h
  split at h
  · next on =>
    rw [if_pos on]
    split at h
    · next active =>
      have runs : exec .invReadyInactive s = .next s.invReadyOff := congrArg _ (if_pos active)
      rw [if_pos active]; cases runs.symm.trans h; rfl
    · next idle =>
      have runs : exec .invReadyActive s = .next s.invReadyOn := congrArg _ (if_neg idle)
      rw [if_neg idle]; cases runs.symm.trans h; rfl
  · next off => rw [if_neg off]; cases h; rfl

theorem taken_turnFault {s t : State} {turned : Bool}
    (h : taken turned (if s.invFault then .invFaultInactive else .invFaultActive) s = .next t) :
    s.turnFault turned = t := by
  unfold State.turnFault
  unfold taken at h
  split at h
  · next on =>
    rw [if_pos on]
    split at h
    · next active =>
      have runs : exec .invFaultInactive s = .next s.invFaultOff := congrArg _ (if_pos active)
      rw [if_pos active]; cases runs.symm.trans h; rfl
    · next idle =>
      have runs : exec .invFaultActive s = .next s.invFaultOn := congrArg _ (if_neg idle)
      rw [if_neg idle]; cases runs.symm.trans h; rfl
  · next off => rw [if_neg off]; cases h; rfl

/-- Settles O10: the settings put at once, then the two inverter lines by their own events. -/
theorem commonSetAppliesEveryPair : Obligations.CommonSetAppliesEveryPair := by
  intro s e asked part pairs new passes ordered allowed spared base
  have applied := setCommon_allowed (s := s) passes (if_pos ordered) allowed
  rw [if_neg (by
      rw [Bool.and_eq_true]; rintro ⟨carried, above⟩; exact Bool.false_ne_true ((spared carried).symm.trans above)),
    applyCommon_eq] at applied
  have runs := exec_setCommon asked part applied
  refine ⟨fun ready fault => ?_, fun t1 t2 first second => ?_⟩
  · rw [runs, show (new.lowInvReady != s.common.lowInvReady) = false by simp [ready],
      show (new.lowInvFault != s.common.lowInvFault) = false by simp [fault]]
    rfl
  · rw [runs, show State.turnReady _ (s.withCommon new) = t1 from taken_turnReady first, taken_turnFault second]

/-! ### A station SET applied -/

theorem takesSettings_iff (m : Mode) :
    m.takesSettings = true ↔ m = .unhomed ∨ m = .idle ∨ m = .waitPart ∨ m = .halted := by
  cases m <;> simp [Mode.takesSettings]

theorem taken_invertLine {s t : State} {u : Station} {k : LoaderLine} {turned : Bool}
    (h : taken turned (.qualifiedInputSampleChange u k (!((s.st u).lines.qual k).sampled)) s = .next t) :
    s.invertLine turned u k = t := by
  unfold State.invertLine
  unfold taken at h
  split at h
  · next on => rw [if_pos on]; cases h; rfl
  · next off => rw [if_neg off]; cases h; rfl

/-- Settles O11: the settings put at once, then the qualified inputs by their own samples. -/
theorem stationSetAppliesEveryPair : Obligations.StationSetAppliesEveryPair := by
  intro s e u asked unit pairs old new passes related open' base
  have applied := setStation_judged (u := u) passes related
  rw [if_pos ((takesSettings_iff _).2 open')] at applied
  have runs := exec_setStation asked unit applied
  have lines : s.applyStation u new =
      ((base.invertLine (old.lowPresent != new.lowPresent) u .present).invertLine
        (old.lowClamped != new.lowClamped) u .clamped).invertLine (old.lowHold != new.lowHold) u .hold := rfl
  rw [show (s.st u).settings.putAll (readPairs e.payload) = new from rfl, lines] at runs
  refine ⟨fun present clamped hold => ?_, fun t1 t2 t3 first second third => ?_⟩
  · rw [runs, show (old.lowPresent != new.lowPresent) = false by simp [present],
      show (old.lowClamped != new.lowClamped) = false by simp [clamped],
      show (old.lowHold != new.lowHold) = false by simp [hold]]
    rfl
  · rw [runs, taken_invertLine first, taken_invertLine second, taken_invertLine third]

/-! ### The tables (R184) -/

theorem senseCode (b : Bool) : flagValue b = if b then 1 else 0 := rfl

theorem handshakeCode (t : HandshakeType) : t.code = [HandshakeType.level, .pulse, .delayed].idxOf t := by
  cases t <;> rfl

theorem demandAbove_iff (s : State) (rated : Nat) :
    s.demandAbove rated = true ↔
      ∃ (k : Fin 8) (i : Nat) (g : Segment), (i, g) ∈ (s.slot k).entries ∧ rated < g.power := by
  simp only [State.demandAbove, List.any_eq_true, decide_eq_true_eq, Vector.mem_toList_iff, Vector.mem_iff_getElem]
  constructor
  · rintro ⟨-, ⟨k, inside, rfl⟩, ⟨i, g⟩, held, above⟩
    exact ⟨⟨k, inside⟩, i, g, held, above⟩
  · rintro ⟨k, i, g, held, above⟩
    exact ⟨s.slot k, ⟨k.val, k.isLt, rfl⟩, (i, g), held, above⟩

theorem relationFailure_station (c : StationSettings) (pairs : List (Nat × Nat)) :
    c.relationFailure pairs =
      if 96 < (c.offset + c.pitch - 1) / c.pitch + 1 then some (if 34 ∈ pairs.map Prod.fst then 34 else 33)
      else if c.travelMax ≤ c.travelMin then some (if 36 ∈ pairs.map Prod.fst then 36 else 37)
      else if c.handshakeType = .pulse ∧ c.doneFactor = 0 then some (if 54 ∈ pairs.map Prod.fst then 54 else 55)
      else none := by
  simp only [StationSettings.relationFailure, relationId, carries_iff]

theorem putAll_common (c : CommonSettings) (pairs : List (Nat × Nat)) (id : Nat)
    (passes : pairFailure commonInRange [] pairs = none) :
    (∀ v, (id, v) ∈ pairs → (c.putAll pairs).get id = some v)
      ∧ (id ∉ pairs.map Prod.fst → (c.putAll pairs).get id = c.get id) := by
  obtain ⟨distinct, -, good⟩ := (pairFailure_none_iff commonInRange [] pairs).1 passes
  exact get_foldl_put CommonSettings.put CommonSettings.get commonInRange (fun _ v => v)
    CommonSettings.get_put_same CommonSettings.get_put_other pairs id distinct good c

theorem putAll_station (c : StationSettings) (pairs : List (Nat × Nat)) (id : Nat)
    (passes : pairFailure stationInRange [] pairs = none) :
    (∀ v, (id, v) ∈ pairs → (c.putAll pairs).get id = some (if id = 51 then v &&& 36 else v))
      ∧ (id ∉ pairs.map Prod.fst → (c.putAll pairs).get id = c.get id) := by
  obtain ⟨distinct, -, good⟩ := (pairFailure_none_iff stationInRange [] pairs).1 passes
  exact get_foldl_put StationSettings.put StationSettings.get stationInRange
    (fun id v => if id = 51 then v &&& 36 else v) StationSettings.get_put_same StationSettings.get_put_other
    pairs id distinct good c

/-- A row of a table of settings: the id, the range and the default. -/
abbrev SettingRow := Nat × Nat × Nat × Nat

/-- The row of an id. -/
def rowOf (table : List SettingRow) (id : Nat) : Option SettingRow := table.find? fun row => id == row.1

/-- With no id twice, what holds of a row of the id holds of the one found. -/
theorem exists_row_iff {table : List SettingRow} (distinct : (table.map Prod.fst).Nodup) (id : Nat)
    (P : SettingRow → Prop) :
    (∃ row ∈ table, row.1 = id ∧ P row) ↔ ∃ row, rowOf table id = some row ∧ P row := by
  unfold rowOf
  induction table with
  | nil => simp
  | cons first rest ih =>
    obtain ⟨fresh, distinct⟩ := List.nodup_cons.1 distinct
    rw [List.find?_cons]
    by_cases named : id = first.1
    · have away : ∀ row ∈ rest, row.1 ≠ id := fun row held same =>
        fresh (named ▸ same ▸ List.mem_map_of_mem held)
      simp only [beq_iff_eq.2 named, Option.some.injEq, exists_eq_left']
      constructor
      · rintro ⟨row, held, same, holds⟩
        rcases List.mem_cons.1 held with rfl | held
        · exact holds
        · exact absurd same (away row held)
      · exact fun holds => ⟨first, List.mem_cons_self, named.symm, holds⟩
    · rw [beq_eq_false_iff_ne.2 named]
      dsimp only
      rw [← ih distinct]
      constructor
      · rintro ⟨row, held, same, holds⟩
        rcases List.mem_cons.1 held with rfl | held
        · exact absurd same.symm named
        · exact ⟨row, held, same, holds⟩
      · rintro ⟨row, held, rest⟩
        exact ⟨row, List.mem_cons_of_mem _ held, rest⟩

section
variable {table : List SettingRow} {id v : Nat}

/-- A value lies in a row of its id. -/
def InRow (table : List SettingRow) (id v : Nat) : Prop :=
  ∃ row ∈ table, row.1 = id ∧ row.2.1 ≤ v ∧ v ≤ row.2.2.1

theorem within_iff_inRow (distinct : (table.map Prod.fst).Nodup) {lo hi d : Nat}
    (found : rowOf table id = some (id, lo, hi, d)) : within lo hi v = true ↔ InRow table id v := by
  rw [InRow, exists_row_iff distinct id fun row => row.2.1 ≤ v ∧ v ≤ row.2.2.1, found, within_iff]
  simp

theorem false_iff_inRow (absent : id ∉ table.map Prod.fst) : false = true ↔ InRow table id v :=
  iff_of_false Bool.false_ne_true fun ⟨_, held, same, _⟩ => absent (same ▸ List.mem_map_of_mem held)

end

/-- The common settings with their ranges and defaults (R184). -/
def commonTable : List SettingRow :=
  [(1, 500, 6000, 2500), (2, 50, 500, 150), (3, 50, 2000, 300), (4, 1, 20, 8), (5, 0, 2000, 300),
    (6, 100, 800, 350), (7, 100, 800, 450), (8, 0, 1, 0), (9, 0, 1, 0), (10, 0, 1, 0), (11, 0, 1, 0), (12, 0, 1, 0)]

/-- The station settings with their ranges and defaults (R184). -/
def stationTable : List SettingRow :=
  [(32, 0, 10000, 2000), (33, 1000, 4000, 2000), (34, 5000, 380000, 40000), (35, 100, 20000, 3000),
    (36, 0, 2000000, 0), (37, 0, 2000000, 1600000), (38, 10, 600, 100), (39, 50, 2000, 800), (40, 20, 500, 200),
    (41, 100, 2000, 500), (42, 1, 20, 5), (43, 0, 20000, 5000), (44, 0, 30000, 2000), (45, 100, 2000, 500),
    (46, 50, 5000, 600), (47, 100, 2000, 400), (48, 1000, 120000, 20000), (49, 1000, 60000, 10000),
    (50, 0, 3600000, 0), (51, 0, 255, 0), (52, 0, 15, 3), (53, 0, 3, 1), (54, 0, 2, 0), (55, 0, 15, 5),
    (56, 0, 3, 2), (57, 0, 1, 0), (58, 0, 1, 0), (59, 0, 1, 0), (60, 0, 1, 0), (61, 0, 1, 0), (62, 0, 1, 0),
    (63, 0, 1, 0), (64, 0, 1, 0), (65, 0, 1, 0)]

theorem commonInRange_iff (id v : Nat) : commonInRange id v = true ↔ InRow commonTable id v := by
  have distinct : (commonTable.map Prod.fst).Nodup := by decide
  unfold commonInRange
  split
  case h_13 => exact false_iff_inRow (by simp_all [commonTable])
  all_goals exact within_iff_inRow distinct (by rfl)

theorem pitch_iff (v : Nat) : (v == 1000 || v == 2000 || v == 4000) = true ↔
    InRow stationTable 33 v ∧ (33 = 33 → v = 1000 ∨ v = 2000 ∨ v = 4000) := by
  have distinct : (stationTable.map Prod.fst).Nodup := by decide
  rw [← within_iff_inRow distinct (id := 33) (by rfl), within_iff]
  simp only [Bool.or_eq_true, beq_iff_eq, true_imp_iff]
  omega

theorem stationInRange_iff (id v : Nat) :
    stationInRange id v = true ↔ InRow stationTable id v ∧ (id = 33 → v = 1000 ∨ v = 2000 ∨ v = 4000) := by
  have distinct : (stationTable.map Prod.fst).Nodup := by decide
  unfold stationInRange
  split
  case h_2 => exact pitch_iff v
  case h_35 =>
    refine (false_iff_inRow (by simp_all [stationTable])).trans (and_iff_left fun is => ?_).symm
    contradiction
  all_goals exact (within_iff_inRow distinct (by rfl)).trans (and_iff_left fun is => absurd is (by decide)).symm

theorem get_isSome_common (c : CommonSettings) (id : Nat) :
    (c.get id).isSome = true ↔ id ∈ commonTable.map Prod.fst := by
  unfold CommonSettings.get
  split
  case h_13 => simp_all [commonTable]
  all_goals exact iff_of_true rfl (by decide)

theorem get_isSome_station (c : StationSettings) (id : Nat) :
    (c.get id).isSome = true ↔ id ∈ stationTable.map Prod.fst := by
  unfold StationSettings.get
  split
  case h_35 => simp_all [stationTable]
  all_goals exact iff_of_true rfl (by decide)

/-- Settles O12: the tables row by row, the judgement of the pairs, and what GET reads after them. -/
theorem settingsHaveTheirTables : Obligations.SettingsHaveTheirTables := by
  unfold Obligations.SettingsHaveTheirTables
  intro common station sense
  refine ⟨commonInRange_iff, stationInRange_iff, by decide, by decide, get_isSome_common, get_isSome_station, fun c => rfl,
    fun c => ⟨?_, rfl⟩, fun ok pairs => ⟨?_, ?_⟩, putAll_common, putAll_station, relationFailure_station, carries_iff,
    rfl, fun id b3 b2 b1 b0 rest => ?_, takesSettings_iff, demandAbove_iff⟩
  · simp only [sense, ← handshakeCode]
    rfl
  · simp [pairFailure_none_iff]
  · rintro before id v after rfl passes bad
    exact pairFailure_first ok before id v after [] passes (Or.inr bad)
  · simp only [readPairs, beNat, List.foldl_cons, List.foldl_nil]
    congr 2
    omega

end Sys2Proof.Machine
end

section
/-! PROOFS. The reports (R185, R189): codes, lengths, and the four requests that change nothing. -/

namespace Sys2Proof.Machine

/-! ### Codes as positions in their lists (R187) -/

theorem RunState.code_eq (r : RunState) : r.code = [RunState.running, .stopping, .stopped].idxOf r := by
  cases r <;> rfl

theorem StopMode.code_eq (m : StopMode) : m.code = [StopMode.none, .normal, .abrupt].idxOf m := by
  cases m <;> rfl

theorem TankState.code_eq (t : TankState) : t.code = [TankState.normal, .warm, .critical].idxOf t := by
  cases t <;> rfl

theorem Mode.code_eq (m : Mode) :
    m.code = [Mode.unhomed, .homing, .idle, .waitPart, .walk, .heat, .runout, .quenchOut, .flood, .returning,
      .release, .halted].idxOf m := by
  cases m <;> rfl

theorem HomeResult.code_eq (r : HomeResult) : r.code = [HomeResult.none, .ok, .failed].idxOf r := by
  cases r <;> rfl

theorem HaltCause.code_eq (c : HaltCause) : c.code = [HaltCause.none, .flood, .axis, .warmReset].idxOf c := by
  cases c <;> rfl

theorem AbortCause.code_eq (c : AbortCause) : c.code = [AbortCause.none, .cancel, .stop, .fault].idxOf c := by
  cases c <;> rfl

theorem PendingOutcome.code_eq (o : PendingOutcome) :
    o.code = [PendingOutcome.none, .notStarted, .cancelled, .stopped, .faulted].idxOf o := by
  cases o <;> rfl

theorem WalkResult.code_eq (r : WalkResult) :
    r.code = [WalkResult.none, .running, .passed, .failed, .cancelled, .stopped, .axis, .interrupted].idxOf r := by
  cases r <;> rfl

theorem FailureCause.code_eq (c : FailureCause) :
    c.code = [FailureCause.none, .stepLimit, .powerWait, .tankCritical, .proofFailed, .invFault].idxOf c := by
  cases c <;> rfl

theorem RingValve.code_eq (v : RingValve) : v.code = [RingValve.closed, .proof, .quench, .after].idxOf v := by
  cases v <;> rfl

theorem ProofResult.code_eq (r : ProofResult) : r.code = [ProofResult.none, .passed, .failed].idxOf r := by
  cases r <;> rfl

theorem Handshake.code_eq (h : Handshake) :
    h.code = [Handshake.idle, .heldBack, .delaying, .asserted, .pulsing].idxOf h := by
  cases h <;> rfl

theorem faultField_eq (f : Option FaultCode) :
    faultField f =
      match f with
      | none => 0
      | some f =>
        1 + [FaultCode.inverter, .invDrop, .noPower, .coilFlow, .spindle, .stall, .reverse, .limit, .axis,
          .quenchFlow].idxOf f := by
  rcases f with _ | f
  · rfl
  · cases f <;> rfl

theorem Checkpoint.number_eq (w : Checkpoint) :
    w.number = 1 + [Checkpoint.w1, .w2, .w3, .w4, .w5, .w6, .w7, .w8].idxOf w := by
  cases w <;> rfl

/-! ### The lengths of what is sent -/

@[simp] theorem length_be8 (n : Nat) : (be8 n).length = 1 := rfl

@[simp] theorem length_be16 (n : Nat) : (be16 n).length = 2 := rfl

@[simp] theorem length_be32 (n : Nat) : (be32 n).length = 4 := rfl

@[simp] theorem length_signed16 (v : Int) : (signed16 v).length = 2 := rfl

@[simp] theorem length_signed32 (v : Int) : (signed32 v).length = 4 := rfl

theorem length_flatMap_const {α : Type} (l : List α) (f : α → List Byte) (n : Nat) (each : ∀ x, (f x).length = n) :
    (l.flatMap f).length = n * l.length := by
  rw [List.length_flatMap, List.map_congr_left (g := fun _ => n) fun x _ => each x]
  simp [Nat.mul_comm]

theorem length_commonStatus (s : State) : s.commonStatus.length = 39 := by
  have slots : (s.slots.toList.flatMap fun x => be8 x.code ++ be8 x.refs).length = 16 := by
    rw [length_flatMap_const _ _ 2 fun x => by simp, Vector.length_toList]
  rw [State.commonStatus, List.length_append, slots]
  simp [State.channelBytes, waitingFields]

theorem length_contextBytes (x : StationState) : x.contextBytes.length = 5 := by
  unfold StationState.contextBytes
  split <;> simp

theorem length_status (x : StationState) : x.status.length = 74 := by
  have tags : ((List.range 8).flatMap fun i => be16 ((x.queue[i]?.map fun j => j.tag).getD 0)).length = 16 := by
    rw [length_flatMap_const _ _ 2 fun i => by simp, List.length_range]
  simp [StationState.status, StationState.jobBytes, length_contextBytes, StationState.walkBytes, Motion.bytes,
    Quench.bytes, StationState.lineBytes, List.length_append, tags]

theorem length_sliceBytes (sl : SliceRec) : sl.bytes.length = 18 := by
  simp [SliceRec.bytes]

theorem length_highBytes (x : StationState) : x.highBytes.length = 8 := by
  unfold StationState.highBytes
  split <;> simp

theorem length_openBytes (t : Trail) : t.openBytes.length = 9 := by
  unfold Trail.openBytes
  split <;> simp

theorem length_snapshot (now : Time) (n : Nat) (x : StationState) :
    (x.snapshot now n).length = 41 + 18 * min 4 (x.trail.list.length - n) := by
  unfold StationState.snapshot
  simp only [List.length_append, length_highBytes, length_openBytes, Tallies.bytes, length_be8, length_be16,
    length_be32, length_flatMap_const _ _ 18 length_sliceBytes, List.length_take, List.length_drop]

/-! ### Signed fields -/

theorem signed16_within {v : Int} (lo : -32768 ≤ v) (hi : v < 32768) : signed16 v = be16 (v % 65536).toNat := by
  rw [signed16, if_pos ⟨lo, hi⟩, BitVec.toNat_ofInt]; rfl

theorem signed32_within {v : Int} (lo : -2147483648 ≤ v) (hi : v < 2147483648) :
    signed32 v = be32 (v % 4294967296).toNat := by
  rw [signed32, if_pos ⟨lo, hi⟩, BitVec.toNat_ofInt]; rfl

/-! ### STATUS (R185) -/

/-- One byte with a selector in it. -/
theorem field_single (b : Byte) : field [b] 0 1 = b.toNat := by
  simp [field, beNat]

theorem answerStatus_single (s : State) (b : Byte) :
    s.answerStatus b.toNat =
      if b = 0 then ⟨.accepted, s.commonStatus⟩
      else if b = 1 then ⟨.accepted, s.a.status⟩
      else if b = 2 then ⟨.accepted, s.b.status⟩
      else Answer.badValue noIndex 40 := by
  have named : ∀ k : Byte, b = k ↔ b.toNat = k.toNat := fun k => BitVec.toNat_inj.symm
  simp only [named]
  unfold State.answerStatus
  split
  · next zero => rw [zero]; rfl
  · next one => rw [one]; rfl
  · next two => rw [two]; rfl
  · next zero one two =>
    rw [if_neg (show ¬ b.toNat = (0 : Byte).toNat from zero), if_neg (show ¬ b.toNat = (1 : Byte).toNat from one),
      if_neg (show ¬ b.toNat = (2 : Byte).toNat from two)]

/-! ### GET (R183) -/

theorem getPairs_all {get : Nat → Option Nat} {ids : List Byte} (known : ∀ id ∈ ids, (get id.toNat).isSome = true) :
    getPairs get ids = .ok (ids.flatMap fun id => id :: be32 ((get id.toNat).getD 0)) := by
  induction ids with
  | nil => rfl
  | cons id rest ih =>
    obtain ⟨v, held⟩ := Option.isSome_iff_exists.1 (known id List.mem_cons_self)
    rw [getPairs, held]
    dsimp only
    rw [ih fun j later => known j (List.mem_cons_of_mem _ later)]
    simp [held]

theorem getPairs_first {get : Nat → Option Nat} {known : List Byte} {id : Byte} {rest : List Byte}
    (before : ∀ j ∈ known, (get j.toNat).isSome = true) (absent : get id.toNat = none) :
    getPairs get (known ++ id :: rest) = .error id.toNat := by
  induction known with
  | nil => rw [List.nil_append, getPairs, absent]
  | cons j known ih =>
    obtain ⟨v, held⟩ := Option.isSome_iff_exists.1 (before j List.mem_cons_self)
    rw [List.cons_append, getPairs, held]
    dsimp only
    rw [ih fun i later => before i (List.mem_cons_of_mem _ later)]

theorem exec_get {s : State} {e : Entry} {get : Nat → Option Nat} (asked : Asked .get e s)
    (unit : e.unit = 0 ∧ get = s.common.get ∨ e.unit = 1 ∧ get = s.a.settings.get
      ∨ e.unit = 2 ∧ get = s.b.settings.get) :
    exec .get s =
      .next (s.answered e (answerGet get e.payload).outcome (answerGet get e.payload).payload false) := by
  refine congrArg _ ((serve_of_asked asked _).trans ?_)
  rcases unit with ⟨unit, rfl⟩ | ⟨unit, rfl⟩ | ⟨unit, rfl⟩ <;> rw [unit] <;> rfl

/-! ### The layouts, field by field -/

theorem stationField_eq (u : Option Station) :
    stationField u = match u with | none => 0 | some .a => 1 | some .b => 2 := by
  rcases u with _ | _ | _ <;> rfl

/-- A slot's bytes in the common part: its state and its references. -/
theorem slotBytes_eq (x : Slot) :
    be8 x.code ++ be8 x.refs =
      be8 (match x with | .empty => 0 | .building _ _ => 1 | .ready _ _ _ => 2)
        ++ be8 (match x with | .ready _ _ refs => refs | _ => 0) := by
  cases x <;> rfl

/-- What the channel's state shows: its code, its target, and the markers withdrawn and in HEAT. -/
def channelShown (c : Channel) : Nat × Option Station × Bool × Bool :=
  match c.state with
  | .free => (0, none, false, false)
  | .switching u w => (1, some u, w, false)
  | .held u h => (2, some u, false, h)
  | .faulted => (3, none, false, false)

theorem channelShown_eq (c : Channel) :
    channelShown c = (c.state.code, c.target, c.withdrawn, c.holderInHeat.isSome) := by
  unfold channelShown Channel.target Channel.withdrawn Channel.holderInHeat
  rcases c.state with _ | ⟨u, w⟩ | ⟨u, h⟩ | _
  · rfl
  · rfl
  · cases h <;> rfl
  · rfl

/-- The common part with every named value at its position in its list (R185). -/
theorem commonStatus_eq (s : State) :
    s.commonStatus =
      be32 s.time.toNat ++ be8 ([RunState.running, .stopping, .stopped].idxOf s.run)
        ++ be8 ([StopMode.none, .normal, .abrupt].idxOf s.stopMode) ++ be8 s.records.length
        ++ be8 s.reservations ++ be8 ([TankState.normal, .warm, .critical].idxOf s.tank.state)
        ++ signed16 s.tank.reading
        ++ (be8 (channelShown s.channel).1 ++ be8 (stationField (channelShown s.channel).2.1)
          ++ be8 (bitsByte [(channelShown s.channel).2.2.1, (channelShown s.channel).2.2.2, s.invReady, s.invFault])
          ++ be8 (stationField (some s.channel.switchAt))
          ++ (be8 (stationField s.channel.waiting[0]?) ++ be8 (stationField s.channel.waiting[1]?))
          ++ be8 (stationField s.channel.lastHolder) ++ be16 s.channel.demand ++ be16 s.channel.measured)
        ++ be8 (bitsByte [s.resetLine, s.switchOut, s.attn])
        ++ s.slots.toList.flatMap fun x =>
          be8 (match x with | .empty => 0 | .building _ _ => 1 | .ready _ _ _ => 2)
            ++ be8 (match x with | .ready _ _ refs => refs | _ => 0) := by
  simp only [State.commonStatus, State.channelBytes, waitingFields, RunState.code_eq, StopMode.code_eq,
    TankState.code_eq, channelShown_eq, slotBytes_eq]
  rfl

/-- A checkpoint's number, or 0 (R185). -/
theorem currentField_eq (w : Option Checkpoint) :
    currentField w =
      match w with
      | none => 0
      | some k => 1 + [Checkpoint.w1, .w2, .w3, .w4, .w5, .w6, .w7, .w8].idxOf k := by
  rcases w with _ | w
  · rfl
  · exact w.number_eq

theorem endedField_eq (w : Option Checkpoint) :
    endedField w =
      match w with
      | some k => [Checkpoint.w1, .w2, .w3, .w4, .w5, .w6, .w7, .w8].idxOf k
      | none => 8 := by
  rcases w with _ | w
  · rfl
  · cases w <;> rfl

theorem floodOriginField_eq (f : Option Flood) :
    floodOriginField f =
      match f with
      | some f => [FloodOrigin.floodEntry, .warmReset].idxOf f.origin
      | none => 2 := by
  rcases f with _ | ⟨n, o⟩
  · rfl
  · cases o <;> rfl

theorem phaseCode_eq (p : TrailPhase) :
    p.code = match p with | .idle => 0 | .heating _ _ => 1 | .draining _ => 2 := by
  cases p <;> rfl

theorem travelCode_eq (m : TravelMode) :
    m.code = match m with | .stop => 0 | .hold => 1 | .scan _ => 2 | .moveTo _ _ => 3 | .seekHome _ _ => 4 := by
  cases m <;> rfl

/-- A station's sequencer and queue, field by field. -/
theorem jobBytes_eq (x : StationState) :
    x.jobBytes =
      be8 ([Mode.unhomed, .homing, .idle, .waitPart, .walk, .heat, .runout, .quenchOut, .flood, .returning,
            .release, .halted].idxOf x.mode)
        ++ be8 ([HomeResult.none, .ok, .failed].idxOf x.homeResult)
        ++ be16 (match x.current with | some c => c.job.tag | none => 0)
        ++ be16 (x.finished.getD 0)
        ++ be8 (bitsByte [x.partConsumed, x.releaseOwed.isSome, x.releaseOwed == some true])
        ++ be8 ([HaltCause.none, .flood, .axis, .warmReset].idxOf x.haltCause) ++ be8 x.queue.length
        ++ (List.range 8).flatMap fun i => be16 (match x.queue[i]? with | some j => j.tag | none => 0) := by
  have current : (x.current.map fun c => c.job.tag).getD 0 = match x.current with | some c => c.job.tag | none => 0 := by
    cases x.current <;> rfl
  have tag : ∀ i : Nat,
      (x.queue[i]?.map fun j => j.tag).getD 0 = match x.queue[i]? with | some j => j.tag | none => 0 := fun i => by
    cases x.queue[i]? <;> rfl
  simp only [StationState.jobBytes, Mode.code_eq, HomeResult.code_eq, HaltCause.code_eq, current, tag]

/-- The cycle context, field by field (R176). -/
theorem contextBytes_eq (x : StationState) :
    x.contextBytes =
      match x.current with
      | none => [0, 0, 0, 0, 0]
      | some c =>
        be8 ([AbortCause.none, .cancel, .stop, .fault].idxOf c.abortCause)
          ++ be8 ([PendingOutcome.none, .notStarted, .cancelled, .stopped, .faulted].idxOf c.pendingOutcome)
          ++ be8 (faultField c.firstFault + 16 * faultField c.secondFault) ++ be8 c.repeatsDone
          ++ be8 c.errorCount := by
  unfold StationState.contextBytes
  cases x.current with
  | none => rfl
  | some c => simp only [AbortCause.code_eq, PendingOutcome.code_eq, faultByte]

/-- A time, or 0 where there is none, as the layouts write it. -/
theorem timeField_eq (w : Option Time) :
    (w.map BitVec.toNat).getD 0 = match w with | some w => w.toNat | none => 0 := by
  cases w <;> rfl

/-- A closed slice, field by field (R189). -/
theorem sliceBytes_eq (sl : SliceRec) :
    sl.bytes =
      be16 sl.index ++ be8 sl.segment ++ be32 sl.energy ++ be16 sl.peak
        ++ be32 (match sl.heatEnd with | some w => w.toNat | none => 0)
        ++ be32 (match sl.deadline with | some w => w.toNat | none => 0)
        ++ be8 (bitsByte sl.flags.bits + if sl.quench then 128 else 0) := by
  rw [SliceRec.bytes, timeField_eq, timeField_eq, Flags.byte]

/-- TRAIL's block with its records and its phase written out (R189). -/
theorem snapshot_eq (now : Time) (n : Nat) (x : StationState) :
    x.snapshot now n =
      be8 (match x.trail.phase with | .idle => 0 | .heating _ _ => 1 | .draining _ => 2) ++ be32 now.toNat
        ++ be8 x.trail.list.length ++ be8 ((x.trail.list.drop n).take 4).length ++ x.highBytes
        ++ x.trail.openBytes ++ x.trail.tallies.bytes
        ++ ((x.trail.list.drop n).take 4).flatMap fun sl =>
          be16 sl.index ++ be8 sl.segment ++ be32 sl.energy ++ be16 sl.peak
            ++ be32 (match sl.heatEnd with | some w => w.toNat | none => 0)
            ++ be32 (match sl.deadline with | some w => w.toNat | none => 0)
            ++ be8 (bitsByte sl.flags.bits + if sl.quench then 128 else 0) := by
  rw [StationState.snapshot, phaseCode_eq, funext sliceBytes_eq]

/-- The four requests that report, each answered by its block. -/
theorem exec_describe {s : State} {e : Entry} (asked : Asked .describe e s) :
    exec .describe s = .next (s.answered e .accepted describeBytes false) :=
  congrArg _ (serve_of_asked asked _)

theorem exec_status {s : State} {e : Entry} (asked : Asked .status e s) :
    exec .status s =
      .next (s.answered e (s.answerStatus (field e.payload 0 1)).outcome
        (s.answerStatus (field e.payload 0 1)).payload false) :=
  congrArg _ (serve_of_asked asked _)

theorem exec_trail {s : State} {e : Entry} {u : Station} (asked : Asked .trail e s)
    (unit : unitStation e.unit = some u) :
    exec .trail s =
      .next (s.answered e ((s.st u).answerTrail s.time (field e.payload 0 1)).outcome
        ((s.st u).answerTrail s.time (field e.payload 0 1)).payload false) := by
  refine congrArg _ ((serve_of_asked asked _).trans ?_)
  rw [unit]
  rfl

/-- Settles O8: the layouts, the lengths, and the answers of the four reports. -/
theorem reportsChangeNothing : Obligations.ReportsChangeNothing := by
  refine ⟨fun s => ?_, fun x => ?_, rfl, fun _ _ => rfl, fun v => signed16_within, fun v => signed32_within,
    fun s e => ⟨exec_describe, fun asked => ?_, length_commonStatus s, length_status s.a, length_status s.b⟩,
    fun s e get asked unit => ⟨fun known => ?_, fun known id rest sent before absent => ?_⟩,
    fun s e u asked unit => ?_⟩
  · rw [commonStatus_eq]
    simp only [stationField_eq]
    rfl
  · rw [StationState.status, jobBytes_eq, contextBytes_eq]
    simp only [StationState.walkBytes, Motion.bytes, Quench.bytes, StationState.lineBytes, currentField_eq,
      endedField_eq, floodOriginField_eq, phaseCode_eq, travelCode_eq, WalkResult.code_eq, FailureCause.code_eq,
      RingValve.code_eq, ProofResult.code_eq, Handshake.code_eq, faultField_eq]
    rfl
  · obtain ⟨b, single⟩ := List.length_eq_one_iff.1 (beq_iff_eq.1 asked.2.2)
    rw [exec_status asked, single, field_single, answerStatus_single]
    simp only [List.cons.injEq, and_true]
    split
    · rfl
    · split
      · rfl
      · split <;> rfl
  · rw [exec_get asked unit, answerGet, getPairs_all known]
  · rw [exec_get asked unit, answerGet, sent, getPairs_first before absent]
    exact congrArg Host.Outcome.next (congrArg (fun p => s.answered e .badValue p false) (by simp [Answer.badSetting, be8]))
  · intro n t ta sent flags at' p
    have layout : (s.st u).snapshot s.time n = p := snapshot_eq s.time n (s.st u)
    have length : p.length = 41 + 18 * min 4 (t.list.length - n) := layout ▸ length_snapshot s.time n (s.st u)
    refine ⟨fun beyond => ?_, fun inside => ⟨?_, length, by omega⟩⟩
    · rw [exec_trail asked unit, StationState.answerTrail, if_pos beyond]
      rfl
    · rw [exec_trail asked unit, StationState.answerTrail, if_neg (Nat.not_lt.2 inside), ← layout]

end Sys2Proof.Machine
end

section
/-! PROOFS. The profile library, continued: PROFILE-PUT and PROFILE-CLOSE (R7), and a profile read at a position
(section 1.4). -/

namespace Sys2Proof.Machine

section
variable {s : State} {e : Entry} {t : State} {x : Answer}

theorem exec_profilePut (asked : Asked .profilePut e s)
    (given : putSegment (field e.payload 0 1) (field e.payload 1 1) (readSegment e.payload) s = (t, x)) :
    exec .profilePut s = .next (t.answered e x.outcome x.payload false) := by
  refine congrArg _ ((serve_of_asked asked _).trans ?_)
  rw [given, reply_eq_answered]; rfl

theorem exec_profileClose (asked : Asked .profileClose e s) (given : closeSlot (field e.payload 0 1) s = (t, x)) :
    exec .profileClose s = .next (t.answered e x.outcome x.payload false) := by
  refine congrArg _ ((serve_of_asked asked _).trans ?_)
  rw [given, reply_eq_answered]; rfl

end

/-! ### The segment record (R4) -/

/-- A check that passes exactly where `bad` does not hold. -/
theorem firstFailure_cons_of {ok : Bool} {bad : Prop} [Decidable bad] (passes : ok = true ↔ ¬ bad) (cause : Nat)
    (rest : List (Bool × Nat)) :
    firstFailure ((ok, cause) :: rest) = if bad then some cause else firstFailure rest := by
  rw [firstFailure_cons]
  by_cases h : bad <;> simp [passes, h]

theorem within_zero_iff (hi n : Nat) : within 0 hi n = true ↔ ¬ hi < n := by
  rw [within_iff]; omega

theorem within_not_iff (lo hi n : Nat) : within lo hi n = true ↔ ¬ (n < lo ∨ hi < n) := by
  rw [within_iff]; omega

/-- The presence bits of the record as the digits of the byte. -/
theorem readSegment_eq (p : List Byte) :
    readSegment p =
      { start := field p 2 4, power := field p 6 2, speed := field p 8 2, rotation := field p 10 2
        quench := field p 12 1, hasWindow := decide (field p 13 1 / 2 ^ 0 % 2 = 1)
        hasDelay := decide (field p 13 1 / 2 ^ 1 % 2 = 1), hasDwell := decide (field p 13 1 / 2 ^ 2 % 2 = 1)
        hasRamp := decide (field p 13 1 / 2 ^ 3 % 2 = 1)
        energyMin := field p 14 4, energyMax := field p 18 4, delay := field p 22 2, dwell := field p 24 2
        ramp := field p 26 2 } := by
  simp only [readSegment, Nat.testBit_eq_decide_div_mod_eq]

theorem segmentFailure_eq (g : RawSegment) :
    segmentFailure g =
      if 2000000 < g.start then some 2
      else if 6000 < g.power then some 6
      else if g.speed < 5 ∨ 600 < g.speed then some 7
      else if g.rotation < 30 ∨ 600 < g.rotation then some 8
      else if 1 < g.quench then some 9
      else if g.hasWindow = true ∧ (200000 < g.energyMin ∨ 200000 < g.energyMax) then some 10
      else if g.hasDelay = true ∧ (g.delay < 100 ∨ 20000 < g.delay) then some 11
      else if g.hasDwell = true ∧ (g.dwell < 100 ∨ 30000 < g.dwell) then some 12
      else if g.hasRamp = true ∧ 20000 < g.ramp then some 13
      else none := by
  have window : (!g.hasWindow || (within 0 200000 g.energyMin && within 0 200000 g.energyMax)) = true
      ↔ ¬ (g.hasWindow = true ∧ (200000 < g.energyMin ∨ 200000 < g.energyMax)) := by
    cases g.hasWindow <;> simp [within]
  have delay : (!g.hasDelay || within 100 20000 g.delay) = true
      ↔ ¬ (g.hasDelay = true ∧ (g.delay < 100 ∨ 20000 < g.delay)) := by
    cases g.hasDelay <;> simp [within]
  have dwell : (!g.hasDwell || within 100 30000 g.dwell) = true
      ↔ ¬ (g.hasDwell = true ∧ (g.dwell < 100 ∨ 30000 < g.dwell)) := by
    cases g.hasDwell <;> simp [within]
  have ramp : (!g.hasRamp || within 0 20000 g.ramp) = true ↔ ¬ (g.hasRamp = true ∧ 20000 < g.ramp) := by
    cases g.hasRamp <;> simp [within]
  rw [segmentFailure, firstFailure_cons_of (within_zero_iff _ _), firstFailure_cons_of (within_zero_iff _ _),
    firstFailure_cons_of (within_not_iff _ _ _), firstFailure_cons_of (within_not_iff _ _ _),
    firstFailure_cons_of (within_zero_iff _ _), firstFailure_cons_of window, firstFailure_cons_of delay,
    firstFailure_cons_of dwell, firstFailure_cons_of ramp, firstFailure_nil]

/-! ### An entry stored at its index (R7) -/

theorem mem_putEntry {i : Nat} {g : Segment} {es : List (Nat × Segment)} (rising : es.Pairwise fun x y => x.1 < y.1)
    (j : Nat) (x : Segment) :
    (j, x) ∈ putEntry i g es ↔ (j = i ∧ x = g) ∨ (j ≠ i ∧ (j, x) ∈ es) := by
  induction es with
  | nil => simp [putEntry]
  | cons y rest ih =>
    obtain ⟨k, z⟩ := y
    obtain ⟨below, rising⟩ := List.pairwise_cons.1 rising
    have later : (j, x) ∈ rest → k < j := fun m => below _ m
    rw [putEntry]
    split
    · next before =>
      have other : (j, x) ∈ (k, z) :: rest → j ≠ i := fun m => by
        rcases List.mem_cons.1 m with same | m
        · have : j = k := congrArg Prod.fst same
          omega
        · have := later m
          omega
      rw [List.mem_cons, Prod.mk.injEq]
      exact or_congr_right ⟨fun m => ⟨other m, m⟩, fun m => m.2⟩
    · split
      · next same =>
        subst same
        have other : (j, x) ∈ rest → j ≠ i := fun m => (later m).ne'
        rw [List.mem_cons, List.mem_cons, Prod.mk.injEq, Prod.mk.injEq]
        exact or_congr_right ⟨fun m => ⟨other m, .inr m⟩, fun ⟨ne, m⟩ => m.resolve_left fun h => ne h.1⟩
      · next differ =>
        rw [List.mem_cons, List.mem_cons, Prod.mk.injEq, ih rising]
        have ne : j = k → j ≠ i := fun h => by omega
        tauto

theorem putEntry_pairwise {i : Nat} {g : Segment} {es : List (Nat × Segment)}
    (rising : es.Pairwise fun x y => x.1 < y.1) : (putEntry i g es).Pairwise fun x y => x.1 < y.1 := by
  induction es with
  | nil => exact List.pairwise_singleton _ _
  | cons y rest ih =>
    obtain ⟨k, z⟩ := y
    have all := rising
    obtain ⟨below, rising⟩ := List.pairwise_cons.1 rising
    rw [putEntry]
    split
    · next before =>
      refine List.pairwise_cons.2 ⟨fun w m => ?_, all⟩
      rcases List.mem_cons.1 m with rfl | m
      · exact before
      · exact before.trans (below w m)
    · split
      · next same => exact List.pairwise_cons.2 ⟨fun w m => same ▸ below w m, rising⟩
      · next differ =>
        refine List.pairwise_cons.2 ⟨fun w m => ?_, ih rising⟩
        rcases (mem_putEntry rising w.1 w.2).1 m with ⟨at', -⟩ | ⟨-, m⟩
        · show k < w.1
          omega
        · exact below _ m

section
variable {s : State} {n i : Nat} {g : RawSegment} {k : Fin 8} {h : Header} {es : List (Nat × Segment)}

theorem putSegment_outside (outside : slotIndex n = none) :
    putSegment n i g s = (s, Answer.badValue noIndex 1) := by
  simp only [putSegment, outside]

theorem putSegment_wrongState (named : slotIndex n = some k) (closed : (s.slot k).isBuilding = false) :
    putSegment n i g s = (s, ⟨.wrongState, []⟩) := by
  simp only [putSegment, named]
  split
  · next h es is => rw [is] at closed; cases closed
  · rfl

theorem putSegment_beyond (named : slotIndex n = some k) (is : s.slot k = .building h es) (beyond : h.count ≤ i) :
    putSegment n i g s = (s, Answer.badValue i 5) := by
  simp only [putSegment, named, is, if_pos beyond]

theorem putSegment_badRecord {c : Nat} (named : slotIndex n = some k) (is : s.slot k = .building h es)
    (inside : i < h.count) (fails : segmentFailure g = some c) :
    putSegment n i g s = (s, Answer.badValue i c) := by
  simp only [putSegment, named, is, if_neg (Nat.not_le.2 inside), fails]

theorem putSegment_accepted (named : slotIndex n = some k) (is : s.slot k = .building h es)
    (inside : i < h.count) (passes : segmentFailure g = none) :
    putSegment n i g s =
      (s.setSlot k (.building h (putEntry i g.toSegment es)),
        ⟨.accepted, be8 (putEntry i g.toSegment es).length⟩) := by
  simp only [putSegment, named, is, if_neg (Nat.not_le.2 inside), passes]

end

/-- Settles O14, one equation of `putSegment` for each check in its order. -/
theorem profilePutStoresOneEntry : Obligations.ProfilePutStoresOneEntry := by
  intro s e asked p n i g part
  refine ⟨readSegment_eq p, segmentFailure_eq g, rfl,
    fun outside => exec_profilePut asked (putSegment_outside outside),
    fun k named => ⟨fun closed => exec_profilePut asked (putSegment_wrongState named closed),
      fun h es is => ⟨fun beyond => exec_profilePut asked (putSegment_beyond named is beyond),
        fun inside => ⟨fun c fails => exec_profilePut asked (putSegment_badRecord named is inside fails),
          fun passes => ⟨putEntry i g.toSegment es,
            exec_profilePut asked (putSegment_accepted named is inside passes),
            fun rising => ⟨putEntry_pairwise rising, mem_putEntry rising⟩⟩⟩⟩⟩⟩

/-! ### The six phases of a CLOSE (R7) -/

section
variable {rated i : Nat} {p : Profile}

theorem phaseSix_power (above : rated < (segGet p.segs i).power) : phaseSix rated p i = some 21 := by
  simp [phaseSix, firstFailure_cons, Nat.not_le.2 above]

theorem phaseSix_window {lo hi : Nat} (below : (segGet p.segs i).power ≤ rated)
    (window : (segGet p.segs i).window = some (lo, hi)) (reversed : hi < lo) : phaseSix rated p i = some 22 := by
  simp [phaseSix, firstFailure_cons, below, window, Nat.not_le.2 reversed]

theorem window_all_iff (w : Option (Nat × Nat)) :
    (w.all fun w => w.1 ≤ w.2) = true ↔ ∀ lo hi, w = some (lo, hi) → lo ≤ hi := by
  rcases w with _ | ⟨lo, hi⟩ <;> simp

theorem phaseSix_firstRamp {r : Nat} (below : (segGet p.segs i).power ≤ rated)
    (windows : ∀ lo hi, (segGet p.segs i).window = some (lo, hi) → lo ≤ hi) (first : i = 0)
    (ramp : (segGet p.segs i).ramp = some r) : phaseSix rated p i = some 23 := by
  have ordered := (window_all_iff _).2 windows
  subst first
  simp [phaseSix, firstFailure_cons, below, ordered, ramp]

theorem phaseSix_longRamp {r : Nat} (below : (segGet p.segs i).power ≤ rated)
    (windows : ∀ lo hi, (segGet p.segs i).window = some (lo, hi) → lo ≤ hi) (later : i ≠ 0)
    (ramp : (segGet p.segs i).ramp = some r) (long : segLength p i < r) : phaseSix rated p i = some 24 := by
  have ordered := (window_all_iff _).2 windows
  simp [phaseSix, firstFailure_cons, below, ordered, ramp, later, Nat.not_le.2 long]

end

/-- The profile of a slot's header and entries. -/
def closing (h : Header) (es : List (Nat × Segment)) : Profile := ⟨h.start, h.stop, es.map Prod.snd⟩

section
variable {rated : Nat} {h : Header} {es : List (Nat × Segment)}

theorem closeFailure_absent {i : Nat} (inside : i < h.count) (absent : entryAt es i = none)
    (before : ∀ j, j < i → (entryAt es j).isSome = true) : closeFailure rated h es = some (i, 16) := by
  have first := find_range_first h.count (fun i => (entryAt es i).isNone) i inside (by rw [absent]; rfl)
    fun j below => by rw [← Option.not_isSome, before j below]; rfl
  simp only [closeFailure, first]

section
variable (present : ∀ i, i < h.count → (entryAt es i).isSome = true)
include present

theorem find_absent_none : ((List.range h.count).find? fun i => (entryAt es i).isNone) = none :=
  find_range_none _ _ fun j below => by rw [← Option.not_isSome, present j below]; rfl

theorem closeFailure_short (short : h.stop < h.start + 4000) : closeFailure rated h es = some (noIndex, 17) := by
  simp only [closeFailure, find_absent_none present, Config.minProfile, if_pos short]

section
variable (long : h.start + 4000 ≤ h.stop)
include long

theorem closeFailure_start (differ : (segGet (closing h es).segs 0).start ≠ h.start) :
    closeFailure rated h es = some (0, 18) := by
  simp only [closeFailure, find_absent_none present, Config.minProfile, if_neg (Nat.not_lt.2 long)]
  exact if_pos differ

section
variable (starts : (segGet (closing h es).segs 0).start = h.start)
include starts

/-- Phases 4 to 6, the first three passed. -/
theorem closeFailure_later :
    closeFailure rated h es =
      match (List.range h.count).find? fun i =>
          i != 0 && (segGet (closing h es).segs i).start ≤ (segGet (closing h es).segs (i - 1)).start with
      | some i => some (i, 19)
      | none =>
        if h.stop ≤ (segGet (closing h es).segs (h.count - 1)).start then some (h.count - 1, 20)
        else (List.range h.count).findSome? fun i => (phaseSix rated (closing h es) i).map fun c => (i, c) := by
  simp only [closeFailure, find_absent_none present, Config.minProfile, if_neg (Nat.not_lt.2 long)]
  exact if_neg (not_not.2 starts)

theorem closeFailure_order {i : Nat} (inside : i + 1 < h.count)
    (falls : (segGet (closing h es).segs (i + 1)).start ≤ (segGet (closing h es).segs i).start)
    (before : ∀ j, j + 1 < i + 1 →
      (segGet (closing h es).segs j).start < (segGet (closing h es).segs (j + 1)).start) :
    closeFailure rated h es = some (i + 1, 19) := by
  rw [closeFailure_later present long starts, find_range_first _ _ (i + 1) inside (by simpa using falls)]
  intro j below
  cases j with
  | zero => rfl
  | succ j => simpa using before j below

section
variable (rising : ∀ i, i + 1 < h.count →
  (segGet (closing h es).segs i).start < (segGet (closing h es).segs (i + 1)).start)
include rising

theorem closeFailure_rising :
    closeFailure rated h es =
      if h.stop ≤ (segGet (closing h es).segs (h.count - 1)).start then some (h.count - 1, 20)
      else (List.range h.count).findSome? fun i => (phaseSix rated (closing h es) i).map fun c => (i, c) := by
  rw [closeFailure_later present long starts, find_range_none]
  intro j below
  cases j with
  | zero => rfl
  | succ j => simpa using rising j below

theorem closeFailure_first {i c : Nat} (last : (segGet (closing h es).segs (h.count - 1)).start < h.stop)
    (inside : i < h.count) (before : ∀ j, j < i → phaseSix rated (closing h es) j = none)
    (fails : phaseSix rated (closing h es) i = some c) : closeFailure rated h es = some (i, c) := by
  rw [closeFailure_rising present long starts rising, if_neg (Nat.not_le.2 last)]
  exact findSome_range_first _ _ i _ inside (by rw [fails]; rfl) fun j below => by rw [before j below]; rfl

theorem closeFailure_none (last : (segGet (closing h es).segs (h.count - 1)).start < h.stop)
    (all : ∀ i, i < h.count → phaseSix rated (closing h es) i = none) : closeFailure rated h es = none := by
  rw [closeFailure_rising present long starts rising, if_neg (Nat.not_le.2 last), List.findSome?_eq_none_iff]
  intro i m
  rw [all i (List.mem_range.1 m)]; rfl

end
end
end
end
end

section
variable {s : State} {n : Nat} {k : Fin 8} {h : Header} {es : List (Nat × Segment)}

theorem closeSlot_outside (outside : slotIndex n = none) : closeSlot n s = (s, Answer.badValue noIndex 1) := by
  simp only [closeSlot, outside]

theorem closeSlot_wrongState (named : slotIndex n = some k) (closed : (s.slot k).isBuilding = false) :
    closeSlot n s = (s, ⟨.wrongState, []⟩) := by
  simp only [closeSlot, named]
  split
  · next h es is => rw [is] at closed; cases closed
  · rfl

theorem closeSlot_refused {i c : Nat} (named : slotIndex n = some k) (is : s.slot k = .building h es)
    (fails : closeFailure s.common.ratedPower h es = some (i, c)) : closeSlot n s = (s, Answer.badValue i c) := by
  simp only [closeSlot, named, is, fails]

theorem closeSlot_accepted (named : slotIndex n = some k) (is : s.slot k = .building h es)
    (passes : closeFailure s.common.ratedPower h es = none) :
    closeSlot n s = (s.setSlot k (.ready h es 0), ⟨.accepted, []⟩) := by
  simp only [closeSlot, named, is, passes]

end

/-- Settles O15: each phase of R7 by its own equation of `closeFailure`. -/
theorem profileCloseValidates : Obligations.ProfileCloseValidates := by
  intro s e asked n
  refine ⟨fun outside => exec_profileClose asked (closeSlot_outside outside),
    fun k named => ⟨fun closed => exec_profileClose asked (closeSlot_wrongState named closed),
      fun h es is => ?_⟩⟩
  intro p seg valid refused sound rising present
  have refuse (i c : Nat) (fails : closeFailure s.common.ratedPower h es = some (i, c)) : refused i c :=
    exec_profileClose asked (closeSlot_refused named is fails)
  have passes (i : Nat) (ok : sound i) : phaseSix s.common.ratedPower p i = none :=
    (phaseSix_none_iff s.common.ratedPower p i).2 ok
  refine ⟨fun ⟨all, long, starts, rises, last, sounds⟩ => ?_, fun i inside absent before => ?_,
    fun all => ⟨fun short => ?_, fun long => ⟨fun differ => ?_, fun starts =>
      ⟨fun i inside falls before => ?_, fun rises => ⟨fun ends => ?_, fun last i inside before =>
        ⟨fun above => ?_, fun below => ⟨fun lo hi window reversed => ?_, fun ordered =>
          ⟨fun r first ramp => ?_, fun r later ramp longer => ?_⟩⟩⟩⟩⟩⟩⟩⟩
  · exact exec_profileClose asked (closeSlot_accepted named is
      (closeFailure_none all long starts rises last fun i inside => passes i (sounds i inside)))
  · exact refuse i 16 (closeFailure_absent inside absent before)
  · exact refuse 255 17 (closeFailure_short all short)
  · exact refuse 0 18 (closeFailure_start all long differ)
  · exact refuse (i + 1) 19 (closeFailure_order all long starts inside falls before)
  · exact refuse _ 20 ((closeFailure_rising all long starts rises).trans (if_pos ends))
  all_goals
    refine refuse i _ (closeFailure_first all long starts rises last inside (fun j lt => passes j (before j lt)) ?_)
  · exact phaseSix_power above
  · exact phaseSix_window below window reversed
  · exact phaseSix_firstRamp below ordered first ramp
  · exact phaseSix_longRamp below ordered later ramp longer

/-! ### A profile read at a position (R5, R13 to R16, R29) -/

theorem profileOf_ready {s : State} {u : Station} {c : Context} {h : Header} {es : List (Nat × Segment)} {n : Nat}
    (current : (s.st u).current = some c) (is : s.slot c.job.slot = .ready h es n) :
    s.profileOf u = ⟨h.start, h.stop, es.map Prod.snd⟩ := by
  simp only [State.profileOf, current, is]
  rfl

/-- The segment of a position is the last one that starts at or below it (R5). -/
theorem segIndexAt_eq_iff {segs : List Segment} {x i : Nat} (rising : segs.Pairwise fun a b => a.start < b.start)
    (inside : i < segs.length) :
    segIndexAt segs x = i ↔
      (i = 0 ∨ (segGet segs i).start ≤ x) ∧ ∀ j, i < j → j < segs.length → x < (segGet segs j).start := by
  cases segs with
  | nil => cases inside
  | cons a l =>
    obtain ⟨-, rising⟩ := List.pairwise_cons.1 rising
    obtain ⟨most, low, high⟩ := starts_split x l rising
    have index : segIndexAt (a :: l) x = (l.takeWhile fun g => g.start ≤ x).length := rfl
    have tail (j : Nat) : segGet (a :: l) (j + 1) = segGet l j := rfl
    rw [List.length_cons] at inside ⊢
    rw [index]
    generalize (l.takeWhile fun g => g.start ≤ x).length = n at most low high
    constructor
    · rintro rfl
      refine ⟨?_, fun j after below => ?_⟩
      · cases n with
        | zero => exact .inl rfl
        | succ n => exact .inr (low n (Nat.lt_succ_self n))
      · obtain ⟨j, rfl⟩ := Nat.exists_eq_succ_of_ne_zero (Nat.ne_of_gt (Nat.zero_lt_of_lt after))
        exact high j (Nat.lt_succ_iff.1 after) (Nat.lt_of_succ_lt_succ below)
    · rintro ⟨starts, above⟩
      rcases Nat.lt_trichotomy n i with less | same | more
      · obtain ⟨i, rfl⟩ := Nat.exists_eq_succ_of_ne_zero (Nat.ne_of_gt (Nat.zero_lt_of_lt less))
        have := high i (Nat.lt_succ_iff.1 less) (Nat.lt_of_succ_lt_succ inside)
        have := starts.resolve_left (Nat.succ_ne_zero i)
        rw [tail] at this
        omega
      · exact same
      · obtain ⟨n, rfl⟩ := Nat.exists_eq_succ_of_ne_zero (Nat.ne_of_gt (Nat.zero_lt_of_lt more))
        have := above (n + 1) more (by omega)
        have := low n (Nat.lt_succ_self n)
        rw [tail] at *
        omega

section
variable {segs : List Segment} {lead h : Nat}

/-- Inside its ramp a segment's demand lies on the line from the one before (R14). -/
theorem powerAt_ramp {r : Nat} (ramp : (segGet segs (segIndexAt segs (h + lead))).ramp = some r) (some' : 0 < r)
    (within : h + lead < (segGet segs (segIndexAt segs (h + lead))).start + r) :
    powerAt segs lead h =
      rampValue (segGet segs (segIndexAt segs (h + lead) - 1)).power
        (segGet segs (segIndexAt segs (h + lead))).power r
        (h + lead - (segGet segs (segIndexAt segs (h + lead))).start) := by
  simp only [powerAt, ramp, if_pos (And.intro some' within)]

theorem powerAt_own
    (beyond : ∀ r, (segGet segs (segIndexAt segs (h + lead))).ramp = some r →
      r = 0 ∨ (segGet segs (segIndexAt segs (h + lead))).start + r ≤ h + lead) :
    powerAt segs lead h = (segGet segs (segIndexAt segs (h + lead))).power := by
  simp only [powerAt]
  split
  · rfl
  · next r ramp => exact if_neg fun within => by have := beyond r ramp; omega

end

theorem dwellSegments_iff (segs : List Segment) (hit : Nat → Bool) (i : Nat) :
    i ∈ dwellSegments segs hit ↔
      i < segs.length ∧ (segGet segs i).dwell ≠ none ∧ hit (segGet segs i).start = true := by
  rw [mem_dwellSegments]
  by_cases inside : i < segs.length
  · simp [segGet, inside, Option.isSome_iff_ne_none]
  · simp [inside]

/-- Settles O18. -/
theorem profilesAreReadAtAPosition : Obligations.ProfilesAreReadAtAPosition := by
  refine ⟨fun s u c h es n => profileOf_ready, fun segs x i => segIndexAt_eq_iff, ?_⟩
  intro p lead h seg j d before own
  refine ⟨fun i g at' => ?_, fun i inside => ?_, fun i last => ?_, rfl, rfl, rfl, fun r ramp some' within => ?_,
    powerAt_own, fun dwell => ?_, fun dwell => ?_,
    fun hit => ⟨dwellSegments_sorted p.segs hit, dwellSegments_iff p.segs hit⟩⟩
  · simp [seg, segGet, at']
  · rw [segLength, if_pos inside]
  · rw [segLength, if_neg (Nat.not_lt.2 last)]
  · have inRamp : h + lead - (seg j).start < r := by omega
    rw [powerAt_ramp ramp some' within, rampValue_eq _ _ _ _ inRamp]
  · rw [entryDemand, if_pos (Option.isSome_iff_ne_none.2 dwell)]
  · rw [entryDemand, dwell]
    rfl

end Sys2Proof.Machine
end

section
/-! PROOFS. Records and run control: TAKE, STOP and RESUME (R162 to R165, R187). -/

namespace Sys2Proof.Machine

section
variable {s : State} {e : Entry} {t : State} {x : Answer}

theorem exec_take (asked : Asked .take e s) (given : s.takeRecord = (t, x)) :
    exec .take s = .next (t.answered e x.outcome x.payload false) := by
  refine congrArg _ ((serve_of_asked asked _).trans ?_)
  rw [given, reply_eq_answered]; rfl

theorem exec_stopNormal_badMode (asked : Asked .stopNormal e s) (other : field e.payload 0 1 ≠ 1) :
    exec .stopNormal s = .next (s.answered e .badValue [255, 39] false) := by
  refine congrArg _ ((serve_of_asked asked _).trans ?_)
  rw [if_neg other, reply_eq_answered]; rfl

theorem exec_stopNormal (asked : Asked .stopNormal e s) (one : field e.payload 0 1 = 1)
    (given : s.stopNormal = (t, x)) : exec .stopNormal s = .next (t.answered e x.outcome x.payload false) := by
  refine congrArg _ ((serve_of_asked asked _).trans ?_)
  rw [if_pos one, given, reply_eq_answered]; rfl

theorem exec_stopAbrupt (asked : Asked .stopAbrupt e s) (given : s.stopAbrupt = (t, x)) :
    exec .stopAbrupt s = .next (t.answered e x.outcome x.payload false) := by
  refine congrArg _ ((serve_of_asked asked _).trans ?_)
  rw [given, reply_eq_answered]; rfl

theorem exec_resume (asked : Asked .resume e s) (given : s.resumeRun = (t, x)) :
    exec .resume s = .next (t.answered e x.outcome x.payload false) := by
  refine congrArg _ ((serve_of_asked asked _).trans ?_)
  rw [given, reply_eq_answered]; rfl

end

/-! ### The record's layout (R187) -/

theorem faultNumber_eq (f : FaultCode) :
    faultNumber f =
      1 + [FaultCode.inverter, .invDrop, .noPower, .coilFlow, .spindle, .stall, .reverse, .limit, .axis,
        .quenchFlow].idxOf f := by
  cases f <;> rfl

theorem RecordOutcome.code_eq (o : RecordOutcome) :
    o.code = [RecordOutcome.good, .reject, .dryGood, .dryFlagged, .faulted, .cancelled, .stopped, .notStarted,
      .refusedAtStart, .interrupted].idxOf o := by
  cases o <;> rfl

theorem SliceFlag.bit_eq (f : SliceFlag) :
    f.bit = [SliceFlag.energyLow, .energyHigh, .powerBand, .late, .lowFlow, .flooded, .aborted].idxOf f := by
  cases f <;> rfl

theorem LastError.code_eq (l : LastError) :
    l.code =
      match l with
      | .none => 0
      | .fault f =>
        1 + [FaultCode.inverter, .invDrop, .noPower, .coilFlow, .spindle, .stall, .reverse, .limit, .axis,
          .quenchFlow].idxOf f
      | .flag f =>
        0x11 + [SliceFlag.energyLow, .energyHigh, .powerBand, .late, .lowFlow, .flooded, .aborted].idxOf f := by
  cases l with
  | none => rfl
  | fault f => exact faultNumber_eq f
  | flag f => rw [LastError.code, SliceFlag.bit_eq]

/-- The soak block where the job has one, with the last error's code written out (R187). -/
theorem soakBytes_eq (soak : Option SoakBlock) :
    (soak.map SoakBlock.bytes).getD [] =
      match soak with
      | none => []
      | some k =>
        be8 k.repeatsDone ++ be8 k.errorCount
          ++ be8 (match k.lastError with
            | .none => 0
            | .fault f =>
              1 + [FaultCode.inverter, .invDrop, .noPower, .coilFlow, .spindle, .stall, .reverse, .limit, .axis,
                .quenchFlow].idxOf f
            | .flag f =>
              0x11 + [SliceFlag.energyLow, .energyHigh, .powerBand, .late, .lowFlow, .flooded,
                .aborted].idxOf f) := by
  cases soak with
  | none => rfl
  | some k => rw [Option.map_some, Option.getD_some, SoakBlock.bytes, LastError.code_eq]

/-! ### TAKE (R162) -/

theorem takeRecord_empty {s : State} (none : s.records = []) : s.takeRecord = (s, ⟨.empty, []⟩) := by
  simp only [State.takeRecord, none]

theorem takeRecord_oldest {s : State} {r : Record} {rest : List Record} (held : s.records = r :: rest) :
    s.takeRecord = (({ s with records := rest } : State).judgeStarts, ⟨.accepted, r.bytes⟩) := by
  simp only [State.takeRecord, held]
  rfl

/-! ### STOP NORMAL and RESUME (R163, R165) -/

/-- Without a current job nothing marks a station. -/
theorem markNormalStop_eq (x : StationState) :
    x.markNormalStop =
      { x with
        current := x.current.map fun c =>
          if c.job.kind = .harden then c else { c with endAfterRepeat := true } } := by
  simp only [StationState.markNormalStop, StationState.modContext, Context.harden, beq_iff_eq]

theorem judgeRun_stopping {s : State} (stopping : s.run = .stopping) :
    s.judgeRun =
      { s with run := if s.a.busy = false ∧ s.b.busy = false then .stopped else .stopping } := by
  have idle : s.anyCurrent = false ↔ s.a.busy = false ∧ s.b.busy = false := Bool.or_eq_false_iff
  by_cases none : s.a.busy = false ∧ s.b.busy = false
  · rw [State.judgeRun, if_pos ⟨stopping, idle.2 none⟩, if_pos none]; rfl
  · rw [State.judgeRun, if_neg fun h => none (idle.1 h.2), if_neg none, ← stopping]

theorem stopNormal_already {s : State} (stops : s.run ≠ .running) : s.stopNormal = (s, ⟨.already, []⟩) := by
  unfold State.stopNormal
  split
  · contradiction
  · rfl

theorem stopNormal_running {s : State} (running : s.run = .running) :
    s.stopNormal =
      ({ s with
          run := if s.a.busy = false ∧ s.b.busy = false then .stopped else .stopping
          stopMode := .normal
          a := s.a.markNormalStop
          b := s.b.markNormalStop }, ⟨.accepted, []⟩) := by
  have marked (x : StationState) : x.markNormalStop.busy = x.busy := Option.isSome_map
  simp only [State.stopNormal, running]
  rw [judgeRun_stopping rfl]
  show (({ s with
      run := if s.a.markNormalStop.busy = false ∧ s.b.markNormalStop.busy = false then .stopped else .stopping
      stopMode := .normal
      a := s.a.markNormalStop
      b := s.b.markNormalStop } : State), _) = _
  rw [marked, marked]

theorem resumeRun_already {s : State} (running : s.run = .running) : s.resumeRun = (s, ⟨.already, []⟩) := by
  simp only [State.resumeRun, running]

theorem resumeRun_stops {s : State} (stops : s.run ≠ .running) :
    s.resumeRun = (({ s with run := .running, stopMode := .none } : State).judgeStarts, ⟨.accepted, []⟩) := by
  unfold State.resumeRun
  split
  · contradiction
  · rfl

/-- Settles O19. -/
theorem takeStopNormalAndResume : Obligations.TakeStopNormalAndResume := by
  refine ⟨fun r => ?_, fun s e => ⟨fun asked => ⟨fun none => ?_, fun r rest held => ?_⟩, fun asked => ?_,
    fun asked => ⟨fun running => ?_, fun stops => ?_⟩⟩⟩
  · dsimp only
    rw [Record.bytes, soakBytes_eq]
    simp only [Record.headByte, RecordOutcome.code_eq, walkByte, faultByte, faultField_eq, padText]
    rfl
  · exact exec_take asked (takeRecord_empty none)
  · exact exec_take asked (takeRecord_oldest held)
  · intro marked
    obtain ⟨b, single⟩ := List.length_eq_one_iff.1 (beq_iff_eq.1 asked.2.2)
    have mode : field e.payload 0 1 = 1 ↔ e.payload = [1] := by
      rw [single, field_single, List.cons.injEq, and_iff_left rfl]
      exact BitVec.toNat_inj (y := (1 : Byte))
    have marks : marked = StationState.markNormalStop := funext fun x => (markNormalStop_eq x).symm
    refine ⟨fun other => exec_stopNormal_badMode asked (mt mode.1 other),
      fun one stops => exec_stopNormal asked (mode.2 one) (stopNormal_already stops), fun one running => ?_⟩
    rw [marks]
    exact exec_stopNormal asked (mode.2 one) (stopNormal_running running)
  · exact exec_resume asked (resumeRun_already running)
  · exact exec_resume asked (resumeRun_stops stops)

/-! ### STOP ABRUPT (R164) -/

theorem openRepeat_iff (c : Context) :
    c.openRepeat = true ↔
      c.job.kind = .dry ∧ c.repeatsDone ≠ c.job.repeats ∧ c.pendingOutcome = .none ∧ c.firstFault = none := by
  unfold Context.openRepeat Context.final
  simp [and_assoc]

theorem modContext_some {x : StationState} {c : Context} (is : x.current = some c) (f : Context → Context) :
    x.modContext f = { x with current := some (f c) } := by
  rw [StationState.modContext, is, Option.map_some]

/-- An abrupt stop handed to a station, by its state. -/
theorem handStop_taken (u : Station) (s : State) : StopTaken u s (s.handStop u) where
  idle none := by rw [State.handStop, none]
  alone walk heat runout returning := by
    cases is : (s.st u).current with
    | none => rw [State.handStop, is]
    | some c =>
      rw [State.handStop, is]
      dsimp only
      split
      · next m => exact absurd m walk
      · next m => exact absurd m heat
      · next m => exact absurd m runout
      · next m => exact absurd m returning
      · rfl
  marks c is mode := by
    unfold State.handStop
    rw [is]
    dsimp only
    have ends : s.modSt u (fun x => x.modContext Context.markStop)
        = s.modSt u fun x => { x with current := some { c with endAfterRepeat := true, stopMet := true } } :=
      modSt_congr s u (modContext_some is _)
    rcases mode with mode | mode <;> rw [mode] <;> dsimp only <;> rw [ends] <;> simp only [openRepeat_iff]
  walks w busy mode at' := by
    obtain ⟨c, is⟩ := Option.isSome_iff_exists.1 busy
    have stops : s.handStop u = s.endWalk u .stopped .none := by
      rw [State.handStop, is]; dsimp only; rw [mode]
    have calm := (endWalk_served s u (r := .stopped) (by decide) .none).toCalm
    rw [stops]
    exact ⟨endWalk_ended s u w .stopped .none at' (by decide), calm.noRecord, calm.around⟩
  heats busy mode at' := by
    obtain ⟨c, is⟩ := Option.isSome_iff_exists.1 busy
    have stops : s.handStop u = s.abortByHost u .stop .stopped := by
      rw [State.handStop, is]; dsimp only; rw [mode]
    rw [stops]
    exact abortByHost_left s u .stop .stopped at'

theorem stopAbrupt_already {s : State} (stopped : s.run = .stopped) : s.stopAbrupt = (s, ⟨.already, []⟩) := by
  simp only [State.stopAbrupt, stopped]

theorem stopAbrupt_handed {s : State} (runs : s.run ≠ .stopped) :
    s.stopAbrupt =
      ((State.bothStations State.handStop { s with run := .stopping, stopMode := .abrupt }).judgeRun,
        ⟨.accepted, []⟩) := by
  unfold State.stopAbrupt
  split
  · contradiction
  · rfl

theorem StopTaken.not_busy {u : Station} {s t : State} (h : StopTaken u s t) (idle : (s.st u).busy = false) : t = s :=
  h.idle (Option.isSome_eq_false_iff.1 idle |> Option.isNone_iff_eq_none.1)

theorem busy_handStop (u v : Station) (s : State) : ((s.handStop u).st v).busy = (s.st v).busy :=
  ((handStop_served u s).carries v).busy

theorem run_handStop (u : Station) (s : State) : (s.handStop u).run = s.run := (handStop_served u s).run

theorem anyCurrent_of_busy {s : State} (u : Station) (busy : (s.st u).busy = true) : s.anyCurrent = true := by
  cases u
  · exact Bool.or_eq_true_iff.2 (.inl busy)
  · exact Bool.or_eq_true_iff.2 (.inr busy)

theorem judgeRun_busy {s : State} (u : Station) (busy : (s.st u).busy = true) : s.judgeRun = s := by
  rw [State.judgeRun, anyCurrent_of_busy u busy]
  exact if_neg fun h => Bool.noConfusion h.2

theorem bothStations_idle {s : State} (idle : s.anyCurrent = false) : s.bothStations State.handStop = s := by
  obtain ⟨a, b⟩ := Bool.or_eq_false_iff.1 idle
  rw [State.bothStations, a, b]
  exact ((handStop_taken .b _).not_busy ((busy_handStop .a .b s).trans b)).trans ((handStop_taken .a s).not_busy a)

/-- With a current job at one station only, that one takes the stop. -/
theorem bothStations_one {s : State} {u : Station} (idle : (s.st u.other).busy = false) :
    s.bothStations State.handStop = s.handStop u := by
  cases u
  · have one : (s.a.busy && s.b.busy) = false := by rw [show s.b.busy = false from idle, Bool.and_false]
    rw [State.bothStations, one]
    exact (handStop_taken .b _).not_busy ((busy_handStop .a .b s).trans idle)
  · have one : (s.a.busy && s.b.busy) = false := by rw [show s.a.busy = false from idle, Bool.false_and]
    rw [State.bothStations, one]
    exact congrArg (State.handStop .b) ((handStop_taken .a s).not_busy idle)

/-- With a current job at both, one takes the stop after the other. -/
theorem bothStations_both {s : State} (busy : ∀ u, (s.st u).busy = true) :
    ∃ v, s.bothStations State.handStop
      = State.handStop v.other (State.handStop v { s with freeIndex := s.freeIndex + 1 }) := by
  have both : (s.a.busy && s.b.busy) = true := Bool.and_eq_true_iff.2 ⟨busy .a, busy .b⟩
  rw [State.bothStations, both]
  exact ⟨_, rfl⟩

/-- Settles O20. -/
theorem stopAbruptEndsWalkAndHeat : Obligations.StopAbruptEndsWalkAndHeat := by
  intro s e asked
  refine ⟨fun stopped => exec_stopAbrupt asked (stopAbrupt_already stopped), fun runs => ?_⟩
  intro base
  have same (u : Station) : base.st u = s.st u := st_setRun s .stopping .abrupt u
  have handed := exec_stopAbrupt asked (stopAbrupt_handed runs)
  refine ⟨fun idle => ?_, fun u busy idle => ?_, fun busy => ?_⟩
  · rw [handed, bothStations_idle (s := base) idle]
    exact congrArg (fun t => Host.Outcome.next (State.answered e .accepted [] false t))
      ((judgeRun_stopping rfl).trans (by rw [if_pos (Bool.or_eq_false_iff.1 idle)]))
  · have atWork : ((base.handStop u).st u).busy = true := (busy_handStop u u base).trans (same u ▸ busy)
    refine ⟨base.handStop u, ?_, handStop_taken u base, run_handStop u base, atWork⟩
    rw [handed, bothStations_one (s := base) (same u.other ▸ idle), judgeRun_busy u atWork]
  · obtain ⟨v, order⟩ := bothStations_both (s := base) fun u => same u ▸ busy u
    have kept (u : Station) : ((base.bothStations State.handStop).st u).busy = true := by
      rw [order, busy_handStop, busy_handStop]
      cases u with
      | a => exact busy .a
      | b => exact busy .b
    refine ⟨v, _, _, ?_, handStop_taken v _, handStop_taken v.other _, ?_, fun u => order ▸ kept u⟩
    · rw [handed, judgeRun_busy .a (kept .a), order]
    · rw [run_handStop, run_handStop]

end Sys2Proof.Machine
end

section
/-! PROOFS. Jobs: JOB (R152, R153) and CANCEL (R155, R156). -/

namespace Sys2Proof.Machine

/-- A request of a station, asked for at a unit that names it. -/
theorem serveStation_of_asked {row : RequestRow} {e : Entry} {s : State} {u : Station} (asked : Asked row e s)
    (unit : unitStation e.unit = some u) (act : Station → Entry → State → State × Answer) :
    s.serveStation row act = State.reply e (row == .reset) (act u e s) := by
  rw [State.serveStation, serve_of_asked asked, unit]

section
variable {s : State} {e : Entry} {u : Station} {t : State} {x : Answer}

theorem exec_job (asked : Asked .job e s) (unit : unitStation e.unit = some u)
    (given : s.submitJob u (readJob e.payload) = (t, x)) :
    exec .job s = .next (t.answered e x.outcome x.payload false) := by
  refine congrArg _ ((serveStation_of_asked asked unit _).trans ?_)
  rw [given, reply_eq_answered]; rfl

theorem exec_cancel (asked : Asked .cancel e s) (unit : unitStation e.unit = some u)
    (given : s.cancelJob u (field e.payload 0 2) = (t, x)) :
    exec .cancel s = .next (t.answered e x.outcome x.payload false) := by
  refine congrArg _ ((serveStation_of_asked asked unit _).trans ?_)
  rw [given, reply_eq_answered]; rfl

end

/-! ### The fields of a job (R152) -/

theorem slotIndex_eq_none_iff (n : Nat) : slotIndex n = none ↔ ¬ within 1 8 n = true := by
  rw [within_iff, Option.eq_none_iff_forall_ne_some]
  simp only [ne_eq, slotIndex_eq_some_iff]
  constructor
  · intro none inside
    exact none ⟨n - 1, by omega⟩ (by simp only; omega)
  · intro outside k named
    exact outside (by omega)

theorem jobKind_isSome_iff (code : Nat) : (jobKind code).isSome = true ↔ ¬ (code ≠ 1 ∧ code ≠ 2) := by
  unfold jobKind
  split_ifs <;> simp [*]

theorem jobKind_harden_iff (code : Nat) : jobKind code = some .harden ↔ code = 1 := by
  unfold jobKind
  split_ifs <;> simp [*]

theorem jobKind_dry_iff (code : Nat) : jobKind code = some .dry ↔ code = 2 := by
  unfold jobKind
  split_ifs <;> simp [*]

theorem ident_allowed_iff (cs : List Byte) : (cs.length ≤ 16 && cs.all printable) = true ↔
    ¬ ¬ (cs.length ≤ 16 ∧ ∀ ch ∈ cs, 0x20 ≤ ch.toNat ∧ ch.toNat ≤ 0x7E) := by
  simp [printable_iff]

/-- The repeat count that a kind allows, once the kind is one of the two. -/
theorem repeats_allowed_iff {j : RawJob} (kind : ¬ (j.kind ≠ 1 ∧ j.kind ≠ 2)) :
    ((jobKind j.kind == some .harden && j.repeats == 1)
      || (jobKind j.kind == some .dry && within 1 255 j.repeats)) = true
      ↔ ¬ ((j.kind = 1 ∧ j.repeats ≠ 1) ∨ (j.kind = 2 ∧ ¬ (1 ≤ j.repeats ∧ j.repeats ≤ 255))) := by
  simp only [Bool.or_eq_true, Bool.and_eq_true, beq_iff_eq, jobKind_harden_iff, jobKind_dry_iff, within_iff]
  omega

/-- The first five checks of R152 and their causes. -/
theorem jobFailure_eq (j : RawJob) :
    jobFailure j =
      if j.tag = 0 then some 32
      else if j.kind ≠ 1 ∧ j.kind ≠ 2 then some 33
      else if (j.kind = 1 ∧ j.repeats ≠ 1) ∨ (j.kind = 2 ∧ ¬ (1 ≤ j.repeats ∧ j.repeats ≤ 255)) then some 34
      else if ¬ (j.ident.length ≤ 16 ∧ ∀ ch ∈ j.ident, 0x20 ≤ ch.toNat ∧ ch.toNat ≤ 0x7E) then some 35
      else if slotIndex j.profile = none then some 36
      else none := by
  rw [jobFailure, firstFailure_cons_of (bne_iff_ne (a := j.tag) (b := 0)),
    firstFailure_cons_of (jobKind_isSome_iff j.kind)]
  by_cases kind : j.kind ≠ 1 ∧ j.kind ≠ 2
  · simp only [if_pos kind]
  · rw [firstFailure_cons_of (repeats_allowed_iff kind), firstFailure_cons_of (ident_allowed_iff j.ident),
      firstFailure_cons_of (not_iff_comm.1 (slotIndex_eq_none_iff j.profile).symm |>.symm), firstFailure_nil]

/-! ### The job placed (R152, R153) -/

theorem travelFits_iff (x : StationSettings) (start stop : Nat) :
    travelFits x start stop = true ↔ Fits x start stop := by
  simp [travelFits, and_assoc]

theorem tagFree_iff (tag : Nat) (x : StationState) :
    x.tagFree tag = true ↔ ¬ ((∃ j ∈ x.queue, j.tag = tag) ∨ ∃ c, x.current = some c ∧ c.job.tag = tag) := by
  cases is : x.current <;> simp [StationState.tagFree, is]

section
variable {s : State} {u : Station} {j : JobEntry}

theorem placeJob_notReady (not : ∀ h es n, s.slot j.slot ≠ .ready h es n) :
    s.placeJob u j = (s, ⟨.notReady, []⟩) := by
  unfold State.placeJob
  split
  · next h es n is => exact absurd is (not h es n)
  · rfl

/-- Steps 7 to 9 of R152, and the entry placed. -/
theorem placeJob_ready {h : Header} {es : List (Nat × Segment)} {n : Nat} (is : s.slot j.slot = .ready h es n) :
    s.placeJob u j =
      if ¬ Fits (s.st u).settings h.start h.stop then (s, Answer.badValue noIndex 37)
      else if 8 ≤ (s.st u).queue.length then (s, ⟨.full, []⟩)
      else if (∃ i ∈ (s.st u).queue, i.tag = j.tag) ∨ (∃ c, (s.st u).current = some c ∧ c.job.tag = j.tag) then
        (s, ⟨.dupTag, []⟩)
      else
        (((s.modSt u (StationState.enqueueJob j)).addRef j.slot).judgeStarts,
          ⟨.accepted, be8 ((s.st u).queue.length + 1)⟩) := by
  simp only [State.placeJob, is, Bool.not_eq_true', ← Bool.not_eq_true, travelFits_iff, tagFree_iff, not_not]
  rfl

end

theorem submitJob_failed {s : State} {u : Station} {r : RawJob} {cause : Nat} (fails : jobFailure r = some cause) :
    s.submitJob u r = (s, Answer.badValue noIndex cause) := by
  simp only [State.submitJob, fails]

theorem submitJob_placed {s : State} {u : Station} {r : RawJob} {kind : JobKind} {k : Fin 8}
    (passes : jobFailure r = none) (named : jobKind r.kind = some kind) (slot : slotIndex r.profile = some k) :
    s.submitJob u r = s.placeJob u ⟨r.tag, kind, k, r.repeats, r.ident⟩ := by
  simp only [State.submitJob, passes, named, slot]

/-- Settles O21. -/
theorem jobJudgedInOrder : Obligations.JobJudgedInOrder := by
  intro s e u asked unit p r x
  refine ⟨rfl, ?_⟩
  have failed (c : Nat) (fails : jobFailure r = some c) :
      exec .job s = .next (s.answered e .badValue [255, BitVec.ofNat 8 c] false) :=
    exec_job asked unit (submitJob_failed fails)
  have failure := jobFailure_eq r
  by_cases tag : r.tag = 0
  · rw [if_pos tag] at failure ⊢
    exact failed 32 failure
  by_cases kind : r.kind ≠ 1 ∧ r.kind ≠ 2
  · rw [if_neg tag, if_pos kind] at failure ⊢
    exact failed 33 failure
  by_cases repeats : (r.kind = 1 ∧ r.repeats ≠ 1) ∨ (r.kind = 2 ∧ ¬ (1 ≤ r.repeats ∧ r.repeats ≤ 255))
  · rw [if_neg tag, if_neg kind, if_pos repeats] at failure ⊢
    exact failed 34 failure
  by_cases ident : ¬ (r.ident.length ≤ 16 ∧ ∀ ch ∈ r.ident, 0x20 ≤ ch.toNat ∧ ch.toNat ≤ 0x7E)
  · rw [if_neg tag, if_neg kind, if_neg repeats, if_pos ident] at failure ⊢
    exact failed 35 failure
  rw [if_neg tag, if_neg kind, if_neg repeats, if_neg ident] at failure ⊢
  cases slot : slotIndex r.profile with
  | none => exact failed 36 (failure.trans (if_pos slot))
  | some k =>
    have passes : jobFailure r = none := failure.trans (if_neg (by rw [slot]; exact Option.some_ne_none k))
    have named : jobKind r.kind = some (if r.kind = 1 then .harden else .dry) := by
      split
      · next one => exact (jobKind_harden_iff _).2 one
      · next one => exact (jobKind_dry_iff _).2 (by omega)
    have placed := submitJob_placed (s := s) (u := u) passes named slot
    dsimp only
    split
    · next h es n is =>
      rw [placeJob_ready (j := ⟨r.tag, if r.kind = 1 then .harden else .dry, k, r.repeats, r.ident⟩) is] at placed
      by_cases misfit : ¬ Fits x.settings h.start h.stop
      · rw [if_pos misfit] at placed ⊢
        exact exec_job asked unit placed
      by_cases full : 8 ≤ x.queue.length
      · rw [if_neg misfit, if_pos full] at placed ⊢
        exact exec_job asked unit placed
      by_cases dup : (∃ j ∈ x.queue, j.tag = r.tag) ∨ ∃ c, x.current = some c ∧ c.job.tag = r.tag
      · rw [if_neg misfit, if_neg full, if_pos dup] at placed ⊢
        exact exec_job asked unit placed
      · rw [if_neg misfit, if_neg full, if_neg dup] at placed ⊢
        exact exec_job asked unit placed
    · next not => exact exec_job asked unit (placed.trans (placeJob_notReady not))

/-! ### CANCEL (R155) -/

section
variable {s : State} {u : Station} {tag : Nat}

theorem cancelJob_zero : s.cancelJob u 0 = (s, ⟨.notFound, []⟩) := by
  unfold State.cancelJob
  exact if_pos rfl

theorem currentOf_none {x : StationState} (other : ∀ c, x.current = some c → c.job.tag ≠ tag) :
    x.currentOf tag = none := by
  rw [StationState.currentOf, Option.filter_eq_none_iff]
  intro c is
  simpa using other c is

theorem currentOf_some {x : StationState} {c : Context} (is : x.current = some c) (named : c.job.tag = tag) :
    x.currentOf tag = some c := by
  rw [StationState.currentOf, is]
  simp [named]

theorem cancelJob_current {c : Context} (nonzero : tag ≠ 0) (is : (s.st u).current = some c)
    (named : c.job.tag = tag) : s.cancelJob u tag = s.cancelCurrent u c := by
  unfold State.cancelJob
  dsimp only
  rw [if_neg nonzero, currentOf_some is named]

theorem cancelJob_pending {j : JobEntry} (nonzero : tag ≠ 0)
    (other : ∀ c, (s.st u).current = some c → c.job.tag ≠ tag)
    (first : ((s.st u).queue.find? fun j => j.tag == tag) = some j) :
    s.cancelJob u tag =
      (((s.modSt u (StationState.removeJob tag)).dropRef j.slot).judgeStarts, ⟨.accepted, []⟩) := by
  unfold State.cancelJob
  dsimp only
  rw [if_neg nonzero, currentOf_none other]
  dsimp only
  rw [first]

theorem cancelJob_absent (nonzero : tag ≠ 0) (other : ∀ c, (s.st u).current = some c → c.job.tag ≠ tag)
    (none : ∀ j ∈ (s.st u).queue, j.tag ≠ tag) :
    s.cancelJob u tag = (s, ⟨if (s.st u).finished = some tag then .tooLate else .notFound, []⟩) := by
  have unfound : ((s.st u).queue.find? fun j => j.tag == tag) = Option.none :=
    List.find?_eq_none.2 fun j m => by simpa using none j m
  unfold State.cancelJob
  dsimp only
  rw [if_neg nonzero, currentOf_none other]
  dsimp only
  rw [unfound]
  dsimp only
  split <;> rfl

end

section
variable {tag : Nat} {before after : List JobEntry} {j : JobEntry}

theorem find_tag (named : j.tag = tag) (first : ∀ i ∈ before, i.tag ≠ tag) :
    ((before ++ j :: after).find? fun i => i.tag == tag) = some j := by
  rw [List.find?_append, List.find?_eq_none.2 fun i m => by simpa using first i m, Option.none_or]
  simp [named]

theorem eraseP_tag (named : j.tag = tag) (first : ∀ i ∈ before, i.tag ≠ tag) :
    ((before ++ j :: after).eraseP fun i => i.tag == tag) = before ++ after := by
  rw [List.eraseP_append_right _ fun i m => by simpa using first i m]
  simp [named]

end

section
variable {x : StationState} {tag : Nat} {rest : List JobEntry}

/-- The pending entry of a tag leaves the queue, another one stays or the station does not wait. -/
theorem removeJob_stays (erased : (x.queue.eraseP fun j => j.tag == tag) = rest)
    (stays : x.mode ≠ .waitPart ∨ rest ≠ []) : x.removeJob tag = { x with queue := rest } := by
  unfold StationState.removeJob
  rw [erased]
  exact if_neg fun h => stays.elim (fun m => m h.1) fun q => q h.2

/-- The last pending entry leaves, and WAIT-PART with it (R24). -/
theorem removeJob_last (erased : (x.queue.eraseP fun j => j.tag == tag) = []) (waits : x.mode = .waitPart) :
    x.removeJob tag = StationState.enterIdleOrWait { x with queue := [] } := by
  unfold StationState.removeJob
  rw [erased]
  exact if_pos ⟨waits, rfl⟩

end

section
variable {s : State} {u : Station} {c : Context}

theorem cancelCurrent_already (mode : (s.st u).mode = .quenchOut ∨ (s.st u).mode = .flood) :
    s.cancelCurrent u c = (s, ⟨.already, []⟩) := by
  unfold State.cancelCurrent
  rcases mode with mode | mode <;> rw [mode]

theorem cancelCurrent_marks (mode : (s.st u).mode = .runout ∨ (s.st u).mode = .returning)
    (again : c.openRepeat = true) :
    s.cancelCurrent u c = (s.modSt u fun x => x.modContext Context.markCancel, ⟨.accepted, []⟩) := by
  unfold State.cancelCurrent
  rcases mode with mode | mode <;> rw [mode] <;> exact if_pos again

theorem cancelCurrent_tooLate (mode : (s.st u).mode = .runout ∨ (s.st u).mode = .returning)
    (final : ¬ c.openRepeat = true) : s.cancelCurrent u c = (s, ⟨.tooLate, []⟩) := by
  unfold State.cancelCurrent
  rcases mode with mode | mode <;> rw [mode] <;> exact if_neg final

theorem cancelCurrent_walk (mode : (s.st u).mode = .walk) :
    s.cancelCurrent u c = (s.endWalk u .cancelled .none, ⟨.accepted, []⟩) := by
  unfold State.cancelCurrent
  rw [mode]

theorem cancelCurrent_heat (mode : (s.st u).mode = .heat) :
    s.cancelCurrent u c = (s.abortByHost u .cancel .cancelled, ⟨.accepted, []⟩) := by
  unfold State.cancelCurrent
  rw [mode]

end

/-- Settles O22. -/
theorem cancelActsOnTheTag : Obligations.CancelActsOnTheTag := by
  refine ⟨fun s e u asked unit => ?_, fun s e u c asked unit is named nonzero => ?_⟩
  · intro tag x
    refine ⟨fun zero => exec_cancel asked unit (zero ▸ cancelJob_zero), fun nonzero other => ⟨?_, fun absent =>
      exec_cancel asked unit (cancelJob_absent nonzero other absent)⟩⟩
    intro before j after queued named first
    have found : (x.queue.find? fun i => i.tag == tag) = some j := by rw [queued]; exact find_tag named first
    have erased : (x.queue.eraseP fun i => i.tag == tag) = before ++ after := by
      rw [queued]; exact eraseP_tag named first
    have cancelled := exec_cancel asked unit (cancelJob_pending nonzero other found)
    refine ⟨fun stays => ?_, fun waits last => ⟨_, cancelled, ?_, ?_⟩⟩
    · rw [cancelled, modSt_congr s u (g := fun x => { x with queue := before ++ after }) (removeJob_stays erased stays)]
    · rw [st_dropRef, st_modSt_self]; rfl
    · rw [st_dropRef, st_modSt_self, removeJob_last (erased.trans last) waits]
      simp
  · have cancelled := cancelJob_current nonzero is named
    refine ⟨fun mode => ?_, fun mode => ?_, fun w mode at' => ⟨s.endWalk u .cancelled .none, ?_, ?_⟩,
      fun mode at' => ⟨s.abortByHost u .cancel .cancelled, ?_, ?_⟩⟩
    · exact exec_cancel asked unit (cancelled.trans (cancelCurrent_already mode))
    · split
      · next again =>
        rw [exec_cancel asked unit (cancelled.trans (cancelCurrent_marks mode ((openRepeat_iff c).2 again))),
          modSt_congr s u (g := fun x => { x with current := some c.markCancel }) (modContext_some is _)]
        rfl
      · next final =>
        exact exec_cancel asked unit (cancelled.trans (cancelCurrent_tooLate mode (mt (openRepeat_iff c).1 final)))
    · exact exec_cancel asked unit (cancelled.trans (cancelCurrent_walk mode))
    · have calm := (endWalk_served s u (r := .cancelled) (by decide) .none).toCalm
      exact ⟨endWalk_ended s u w .cancelled .none at' (by decide), calm.noRecord, calm.around⟩
    · exact exec_cancel asked unit (cancelled.trans (cancelCurrent_heat mode))
    · exact abortByHost_left s u .cancel .cancelled at'

end Sys2Proof.Machine
end

section
/-! PROOFS. The start conditions judged (R25), HOME (R22, R92) and STATION-RESET (R177). -/

namespace Sys2Proof.Machine

/-! ### The start conditions (R25, R26) -/

theorem not_startable_iff (s : State) (u : Station) :
    s.startable u = false ↔ ∀ j rest, (s.st u).queue = j :: rest → ¬ Startable s u j := by
  rw [← Bool.not_eq_true, startable_iff]
  simp only [startConditions_iff]
  exact ⟨fun none j rest queued starts => none ⟨j, rest, queued, starts⟩,
    fun none ⟨j, rest, queued, starts⟩ => none j rest queued starts⟩

theorem startable_of_head {s : State} {u : Station} {j : JobEntry} {rest : List JobEntry}
    (queued : (s.st u).queue = j :: rest) (starts : Startable s u j) : s.startable u = true :=
  (startable_iff s u).2 ⟨j, rest, queued, (startConditions_iff s u j).2 starts⟩

theorem exec_takeHeadJob {s : State} {u : Station} (starts : s.startable u = true) :
    exec (.takeHeadJob u) s = .next (s.takeHead u).judgeStarts :=
  congrArg Host.Outcome.next (if_pos starts)

theorem exec_takeHeadJob_kept {s : State} {u : Station} (none : s.startable u = false) :
    exec (.takeHeadJob u) s = .next s :=
  congrArg Host.Outcome.next (if_neg (Bool.not_eq_true _ ▸ none))

/-- Settles O23. -/
theorem startConditionsAreJudged : Obligations.StartConditionsAreJudged := by
  refine ⟨fun s none => judgeStarts_none fun u => (not_startable_iff s u).2 (none u),
    fun s u j rest queued => (not_startable_iff _ u).1 (judgeStarts_taken s u) j rest queued,
    fun s u j rest queued starts none => ?_, fun s both => ?_⟩
  · have one := startable_of_head queued starts
    rw [exec_takeHeadJob one, judgeStarts_one one ((not_startable_iff s u.other).2 none)]
  · have all (u : Station) : s.startable u = true := by
      obtain ⟨j, rest, queued, starts⟩ := both u
      exact startable_of_head queued starts
    exact ⟨_, by rw [exec_takeHeadJob ((startable_setFreeIndex s _ _).trans (all _)), judgeStarts_both all]⟩

/-! ### HOME (R22, R92, R100) -/

section
variable {s : State} {e : Entry} {u : Station} {t : State} {x : Answer}

theorem exec_home (asked : Asked .home e s) (unit : unitStation e.unit = some u) (given : s.startHome u = (t, x)) :
    exec .home s = .next (t.answered e x.outcome x.payload false) := by
  refine congrArg _ ((serveStation_of_asked asked unit _).trans ?_)
  rw [given, reply_eq_answered]; rfl

theorem exec_stationReset (asked : Asked .stationReset e s) (unit : unitStation e.unit = some u)
    (given : s.resetStation u = (t, x)) :
    exec .stationReset s = .next (t.answered e x.outcome x.payload false) := by
  refine congrArg _ ((serveStation_of_asked asked unit _).trans ?_)
  rw [given, reply_eq_answered]; rfl

end

theorem startHome_wrongState {s : State} {u : Station} (homed : (s.st u).mode ≠ .unhomed)
    (runs : (s.st u).mode ≠ .halted) : s.startHome u = (s, ⟨.wrongState, []⟩) := by
  unfold State.startHome
  split
  · next m => exact absurd m homed
  · next m => exact absurd m runs
  · rfl

theorem startHome_enters {s : State} {u : Station} (mode : (s.st u).mode = .unhomed ∨ (s.st u).mode = .halted) :
    s.startHome u = (s.modSt u StationState.enterHoming, ⟨.accepted, []⟩) := by
  unfold State.startHome
  rcases mode with mode | mode <;> rw [mode]

theorem startSearch_eq (x : StationState) :
    x.startSearch =
      { x with
        motion :=
          { x.motion with
            mode := .seekHome (if x.lines.homeSw then .backOff else .seek) x.settings.homeSpeed
            arrival := .awaited
            valid := false
            searchTimer := some 120000
            stallTimer := none } } := by
  rw [StationState.startSearch, setTravel_eq]
  simp only [TravelMode.handsAxis, Bool.false_eq_true, if_false, List.append_nil]
  rfl

theorem enterHoming_searches {x : StationState} (axis : x.lines.axisFault = false) :
    x.enterHoming =
      { x with
        mode := .homing
        homingOrigin := if x.mode = .halted then .halted else .unhomed
        motion :=
          { x.motion with
            mode := .seekHome (if x.lines.homeSw then .backOff else .seek) x.settings.homeSpeed
            arrival := .awaited
            valid := false
            searchTimer := some 120000
            stallTimer := none } } := by
  rw [StationState.enterHoming, startSearch_eq]
  exact if_neg (by simp [axis])

/-- With AXIS-FAULT active the search fails at once, back to its origin. -/
theorem enterHoming_fails {x : StationState} (axis : x.lines.axisFault = true)
    (mode : x.mode = .unhomed ∨ x.mode = .halted) :
    x.enterHoming =
      { x with
        homingOrigin := if x.mode = .halted then .halted else .unhomed
        homeResult := .failed
        motion :=
          { x.motion with
            mode := .stop
            arrival := .awaited
            valid := false
            searchTimer := none
            stallTimer := none } } := by
  rw [StationState.enterHoming, startSearch_eq]
  refine (if_pos axis).trans ?_
  rw [StationState.homingFailed, setTravel_eq]
  rcases mode with mode | mode <;>
    simp [mode, HomingOrigin.mode, TravelMode.handsAxis, modeSet]

/-- Settles O24. -/
theorem homeBeginsTheSearch : Obligations.HomeBeginsTheSearch := by
  intro s e u asked unit
  refine ⟨fun homed runs => exec_home asked unit (startHome_wrongState homed runs), fun mode => ?_⟩
  intro origin
  have entered := exec_home asked unit (startHome_enters mode)
  refine ⟨fun axis => ?_, fun axis => ?_⟩
  · rw [entered, modSt_congr s u (g := fun x =>
      { x with
        mode := .homing
        homingOrigin := origin
        motion :=
          { x.motion with
            mode := .seekHome (if x.lines.homeSw then .backOff else .seek) x.settings.homeSpeed
            arrival := .awaited
            valid := false
            searchTimer := some 120000
            stallTimer := none } }) (enterHoming_searches axis)]
  · rw [entered, modSt_congr s u (g := fun x =>
      { x with
        homingOrigin := origin
        homeResult := .failed
        motion :=
          { x.motion with
            mode := .stop
            arrival := .awaited
            valid := false
            searchTimer := none
            stallTimer := none } }) (enterHoming_fails axis mode)]

/-! ### STATION-RESET (R157, R177) -/

theorem resetStation_busy {s : State} {u : Station} (runs : ¬ (s.st u).mode.takesSettings = true) :
    s.resetStation u = (s, ⟨.busy, []⟩) := if_neg runs

theorem resetStation_accepted {s : State} {u : Station} (rests : (s.st u).mode.takesSettings = true) :
    s.resetStation u = ((s.clearQueue u).modSt u StationState.stationReset, ⟨.accepted, []⟩) := if_pos rests

theorem clearQueue_around (s : State) (u : Station) : Around s (s.clearQueue u) := by
  have frame := clearQueue_frame s u
  exact ⟨frame.pending, frame.time, frame.link, frame.tank, frame.common, frame.invReady, frame.invFault,
    frame.resetLine, frame.stopMode, clearQueue_shelved s u⟩

theorem refs_clearQueue (s : State) (u : Station) (k : Fin 8) :
    ((s.clearQueue u).slot k).refs
      = (s.slot k).refs - ((s.st u).queue.filter fun j => j.slot == k).length := by
  obtain ⟨refs, -⟩ := dropAll s (s.st u).queue
  rw [← refs k]
  exact congrArg Slot.refs (by simp only [State.slot, State.clearQueue, slots_modSt])

theorem mode_stationReset (x : StationState) :
    x.stationReset.mode = if x.mode = .halted ∨ x.mode = .unhomed then .unhomed else .idle :=
  if_congr (by rw [Bool.or_eq_true, beq_iff_eq, beq_iff_eq]) rfl rfl

/-- A station reset leaves no station waiting, so READY goes inactive. -/
theorem ready_stationReset (x : StationState) : x.stationReset.ready = false := by
  have mode : (x.stationReset.mode == Mode.waitPart) = false := by
    rw [mode_stationReset]
    split <;> rfl
  rw [StationState.ready, mode]
  rfl

/-- Settles O25. -/
theorem stationResetClearsTheStation : Obligations.StationResetClearsTheStation := by
  intro s e u asked unit x
  refine ⟨fun ⟨homed, busy, waits, runs⟩ => ?_, fun mode => ⟨(s.clearQueue u).modSt u StationState.stationReset, ?_⟩⟩
  · refine exec_stationReset asked unit (resetStation_busy fun rests => ?_)
    rcases (takesSettings_iff _).1 rests with m | m | m | m
    exacts [homed m, busy m, waits m, runs m]
  · have own : ((s.clearQueue u).modSt u StationState.stationReset).st u
        = StationState.stationReset { x with queue := [] } := by
      rw [st_modSt_self, st_clearQueue, if_pos rfl]
    have other : ((s.clearQueue u).modSt u StationState.stationReset).st u.other = s.st u.other := by
      rw [st_modSt_other, st_clearQueue, if_neg (by cases u <;> decide)]
    obtain ⟨records, reservations, channel⟩ := clearQueue_rest s u
    have refs (k : Fin 8) : (((s.clearQueue u).modSt u StationState.stationReset).slot k).refs
        = (s.slot k).refs - (x.queue.filter fun j => j.slot == k).length := by
      rw [← refs_clearQueue]
      exact congrArg Slot.refs (by simp only [State.slot, slots_modSt])
    rw [own, other, records_modSt, reservations_modSt, channel_modSt, run_modSt]
    refine ⟨exec_stationReset asked unit (resetStation_accepted ((takesSettings_iff _).2 mode)), ?_, ?_, ?_,
      rfl, rfl, rfl, rfl, rfl, rfl, rfl, rfl, rfl, rfl, ready_stationReset _, rfl, rfl, rfl, rfl, rfl, rfl, refs, rfl,
      channel, records, reservations, run_clearQueue s u, (clearQueue_around s u).modSt u _⟩
    · rw [mode_stationReset]
      exact if_congr or_comm rfl rfl
    · exact if_congr beq_iff_eq rfl rfl
    · exact if_congr beq_iff_eq rfl rfl

end Sys2Proof.Machine
end

section
/-! PROOFS. The walk to W4 (R124 to R128), and TAKE_HEAD_JOB (R26, R27). -/

namespace Sys2Proof.Machine

/-! ### The walk at W3 (R127, R128) -/

/-- The station as W4 is entered with a profile that starts at `start`, W3 having been passed or bypassed. -/
def StationState.atW4 (start : Nat) (x : StationState) : StationState :=
  { x with
    walk :=
      { x.walk with
        current := some .w4
        timer := some x.settings.stepLimit
        reached := 3
        bypassed := { x.walk.bypassed with w3 := x.walk.bypassed.w3 || x.settings.bypassW3 } }
    motion := modeSet (.moveTo start x.settings.returnSpeed) x.motion
    handed := x.handed ++ axisHanded x }

/-- A move sent off hands AXIS where AXIS-FAULT is active (R100). -/
theorem setTravel_moves {m : TravelMode} (moves : m.handsAxis = true) (x : StationState) :
    x.setTravel m = { x with motion := modeSet m x.motion, handed := x.handed ++ axisHanded x } := by
  rw [setTravel_eq, moves]
  rfl

/-- STOP and a search hand nothing. -/
theorem setTravel_rests {m : TravelMode} (rests : m.handsAxis = false) (x : StationState) :
    x.setTravel m = { x with motion := modeSet m x.motion } := by
  rw [setTravel_eq, rests]
  simp

/-- A coolant tank that is not critical, or a bypassed W3, opens the way to W4. -/
theorem enterW3_opens {s : State} {u : Station}
    (opens : s.tank.state ≠ .critical ∨ (s.st u).settings.bypassW3 = true) :
    s.enterW3 u = s.modSt u (StationState.atW4 (s.profileOf u).start) := by
  have entered (f : StationState → StationState) (job : (f (s.st u)).current = (s.st u).current)
      (same : StationState.setTravel (.moveTo (s.profileOf u).start (f (s.st u)).settings.returnSpeed)
          ((f (s.st u)).enterCheckpoint .w4) = (s.st u).atW4 (s.profileOf u).start) :
      (s.modSt u f).enterW4 u = s.modSt u (StationState.atW4 (s.profileOf u).start) := by
    rw [State.enterW4, profileOf_modSt s u f (by rw [job]), modSt_modSt]
    exact modSt_congr s u same
  unfold State.enterW3
  split
  · next bypassed =>
    refine entered _ rfl ?_
    rw [setTravel_moves rfl]
    simp only [StationState.atW4, bypassed, Bool.or_true]
    rfl
  · next held =>
    rw [if_neg (opens.resolve_right held)]
    refine entered _ rfl ?_
    rw [setTravel_moves rfl]
    simp only [StationState.atW4, Bool.not_eq_true _ ▸ held, Bool.or_false]
    rfl

/-- A critical tank fails the walk at W3. -/
theorem enterW3_fails {s : State} {u : Station} (critical : s.tank.state = .critical)
    (held : (s.st u).settings.bypassW3 = false) :
    s.enterW3 u = (s.modSt u (StationState.enterCheckpoint .w3)).endWalk u .failed .tankCritical := by
  rw [State.enterW3, if_neg (Bool.not_eq_true _ ▸ held), if_pos critical]

/-- What the entry to W3 leaves, at the station and beside it. -/
structure W3Entered (u : Station) (s t : State) : Prop where
  served : Served s t
  other : t.st u.other = s.st u.other
  channel : t.channel = s.channel
  job : ∃ f : Context → PendingOutcome,
    (t.st u).current = (s.st u).current.map fun c => { c with pendingOutcome := f c }
  tallies : (t.st u).trail.tallies = (s.st u).trail.tallies
  opens : s.tank.state ≠ .critical ∨ (s.st u).settings.bypassW3 = true →
    t.st u = (s.st u).atW4 (s.profileOf u).start
  fails : s.tank.state = .critical → (s.st u).settings.bypassW3 = false →
    WalkEnded u .w3 .failed .tankCritical .notStarted (s.modSt u (StationState.enterCheckpoint .w3)) t

theorem enterW3_entered (s : State) (u : Station) : W3Entered u s (s.enterW3 u) := by
  by_cases opens : s.tank.state ≠ .critical ∨ (s.st u).settings.bypassW3 = true
  · have same := enterW3_opens opens
    have own : (s.enterW3 u).st u = (s.st u).atW4 (s.profileOf u).start := by rw [same, st_modSt_self]
    refine ⟨enterW3_served s u, by rw [same, st_modSt_other], by rw [same, channel_modSt],
      ⟨fun c => c.pendingOutcome, ?_⟩, by rw [own]; rfl, fun _ => own, fun critical held => ?_⟩
    · rw [own]
      exact Option.map_id'.symm ▸ rfl
    · rw [held] at opens
      exact absurd critical (opens.resolve_right Bool.false_ne_true)
  · obtain ⟨critical, held⟩ := not_or.1 opens
    have critical := not_not.1 critical
    have held : (s.st u).settings.bypassW3 = false := Bool.not_eq_true _ ▸ held
    have ended : WalkEnded u .w3 .failed .tankCritical .notStarted (s.modSt u (StationState.enterCheckpoint .w3))
        (s.enterW3 u) := by
      rw [enterW3_fails critical held]
      exact endWalk_ended _ u .w3 .failed .tankCritical (by rw [st_modSt_self]; rfl) (by decide)
    obtain ⟨channel, other⟩ := ended.channel (by decide) (by decide)
    refine ⟨enterW3_served s u, by rw [other, st_modSt_other], by rw [channel, channel_modSt],
      ⟨fun c => if c.pendingOutcome = .faulted then .faulted else .notStarted, ?_⟩, ?_,
      fun h => absurd h opens, fun _ _ => ended⟩
    · rw [ended.job, st_modSt_self]; rfl
    · rw [ended.trail, st_modSt_self]; rfl

/-! ### The walk of a job just taken (R26, R27, R124 to R126) -/

theorem enterW1_passes {s : State} {u : Station} (ready : (s.st u).harden = true → (s.st u).clamped = true) :
    s.enterW1 u = s.passW1 u := by
  rw [State.enterW1]
  refine if_neg fun waits => ?_
  obtain ⟨harden, open'⟩ := Bool.and_eq_true_iff.1 waits
  rw [ready harden] at open'
  exact Bool.noConfusion open'

theorem enterW2_waits {s : State} {u : Station} (harden : (s.st u).harden = true)
    (dry : (s.st u).lines.coilFlow = false) : s.enterW2 u = s.modSt u (StationState.enterCheckpoint .w2) := by
  rw [State.enterW2, harden, dry]; rfl

theorem enterW2_passes {s : State} {u : Station} (flows : (s.st u).harden = false ∨ (s.st u).lines.coilFlow = true) :
    s.enterW2 u = (s.modSt u (StationState.completeCheckpoint .w2)).enterW3 u := by
  rw [State.enterW2]
  refine if_neg fun waits => ?_
  obtain ⟨harden, still⟩ := Bool.and_eq_true_iff.1 waits
  rcases flows with h | h
  · rw [h] at harden; exact Bool.noConfusion harden
  · rw [h] at still; exact Bool.noConfusion still

/-- The station as its walk comes to W3, W1 and W2 having passed or been skipped. -/
def StationState.walkToW3 (x : StationState) : StationState :=
  ((x.enterWalk 1).completeCheckpoint .w1).completeCheckpoint .w2

theorem startWalk_waits {s : State} {u : Station} (clamped : (s.st u).clamped = true)
    (harden : (s.st u).harden = true) (dry : (s.st u).lines.coilFlow = false) :
    s.startWalk u = s.modSt u fun x =>
      ((x.enterWalk 1).completeCheckpoint .w1).enterCheckpoint .w2 := by
  rw [State.startWalk, enterW1_passes, State.passW1, enterW2_waits, modSt_modSt, modSt_modSt]
  · rw [modSt_modSt, st_modSt_self]
    simpa [StationState.enterWalk, StationState.completeCheckpoint, StationState.harden] using harden
  · rw [modSt_modSt, st_modSt_self]
    simpa [StationState.enterWalk, StationState.completeCheckpoint] using dry
  · rw [st_modSt_self]
    intro _
    simpa [StationState.enterWalk, StationState.clamped] using clamped

theorem startWalk_toW3 {s : State} {u : Station} (ready : (s.st u).harden = true → (s.st u).clamped = true)
    (flows : (s.st u).harden = false ∨ (s.st u).lines.coilFlow = true) :
    s.startWalk u =
      (s.modSt u StationState.walkToW3).enterW3 u := by
  rw [State.startWalk, enterW1_passes, State.passW1, enterW2_passes, modSt_modSt, modSt_modSt]
  · rfl
  · rw [modSt_modSt, st_modSt_self]
    simpa [StationState.enterWalk, StationState.completeCheckpoint, StationState.harden] using flows
  · rw [st_modSt_self]
    simpa [StationState.enterWalk, StationState.clamped, StationState.harden] using ready

/-- What the start of a walk leaves beside the walk: the channel, the other station, the tallies, and the context but
for a pending outcome. -/
theorem startWalk_leaves {s : State} {u : Station} (ready : (s.st u).harden = true → (s.st u).clamped = true) :
    (s.startWalk u).channel = s.channel ∧ (s.startWalk u).st u.other = s.st u.other
      ∧ ((s.startWalk u).st u).trail.tallies = (s.st u).trail.tallies
      ∧ ∃ f : Context → PendingOutcome,
        ((s.startWalk u).st u).current = (s.st u).current.map fun c => { c with pendingOutcome := f c } := by
  by_cases flows : (s.st u).harden = false ∨ (s.st u).lines.coilFlow = true
  · have entered := enterW3_entered
      (s.modSt u StationState.walkToW3) u
    rw [← startWalk_toW3 ready flows] at entered
    obtain ⟨f, job⟩ := entered.job
    rw [entered.channel, entered.other, entered.tallies, channel_modSt, st_modSt_other]
    refine ⟨rfl, rfl, ?_, f, ?_⟩
    · rw [st_modSt_self]; simp [StationState.walkToW3, StationState.enterWalk, StationState.completeCheckpoint]
    · rw [job, st_modSt_self]; simp [StationState.walkToW3, StationState.enterWalk, StationState.completeCheckpoint]
  · obtain ⟨harden, dry⟩ := not_or.1 flows
    have harden : (s.st u).harden = true := Bool.not_eq_false _ ▸ harden
    rw [startWalk_waits (ready harden) harden (Bool.not_eq_true _ ▸ dry), channel_modSt, st_modSt_other]
    refine ⟨rfl, rfl, ?_, fun c => c.pendingOutcome, ?_⟩
    · rw [st_modSt_self]; simp [StationState.enterWalk, StationState.completeCheckpoint, StationState.enterCheckpoint]
    · rw [st_modSt_self]; simp [StationState.enterWalk, StationState.completeCheckpoint, StationState.enterCheckpoint]

theorem Around.trans {s t r : State} (h : Around s t) (k : Around t r) : Around s r where
  pending := k.pending.trans h.pending
  time := k.time.trans h.time
  link := k.link.trans h.link
  tank := k.tank.trans h.tank
  common := k.common.trans h.common
  invReady := k.invReady.trans h.invReady
  invFault := k.invFault.trans h.invFault
  resetLine := k.resetLine.trans h.resetLine
  stopMode := k.stopMode.trans h.stopMode
  slots := fun i => ⟨(k.slots i).1.trans (h.slots i).1, (k.slots i).2.trans (h.slots i).2⟩

/-! ### TAKE_HEAD_JOB (R26, R27) -/

section
variable {s : State} {u : Station} {j : JobEntry} {rest : List JobEntry}

theorem headTaken_around (s : State) (u : Station) (j : JobEntry) : Around s (s.headTaken u j) := by
  cases u <;> exact ⟨rfl, rfl, rfl, rfl, rfl, rfl, rfl, rfl, rfl, fun _ => ⟨rfl, rfl⟩⟩

theorem headTaken_rest (s : State) (u : Station) (j : JobEntry) :
    (s.headTaken u j).slots = s.slots ∧ (s.headTaken u j).records = s.records
      ∧ (s.headTaken u j).reservations = s.reservations + 1 ∧ (s.headTaken u j).run = s.run
      ∧ (s.headTaken u j).channel = s.channel := by
  cases u <;> exact ⟨rfl, rfl, rfl, rfl, rfl⟩

theorem takeHead_eq (queued : (s.st u).queue = j :: rest) (starts : Startable s u j) :
    s.takeHead u =
      if Fits (s.st u).settings (s.slot j.slot).profile.start (s.slot j.slot).profile.stop then
        (s.headTaken u j).startWalk u
      else (s.headTaken u j).refuseStart u j := by
  have settings : ((s.headTaken u j).st u).settings = (s.st u).settings := by rw [(st_headTaken s u j).1]; rfl
  have slot : (s.headTaken u j).slot j.slot = s.slot j.slot := by cases u <;> rfl
  have conditions := (startConditions_iff s u j).2 starts
  unfold State.takeHead
  rw [queued]
  dsimp only
  rw [if_pos conditions]
  change (if travelFits ((s.headTaken u j).st u).settings ((s.headTaken u j).slot j.slot).profile.start
    ((s.headTaken u j).slot j.slot).profile.stop then _ else _) = _
  rw [settings, slot]
  exact if_congr (travelFits_iff _ _ _) rfl rfl

theorem harden_takeJob (x : StationState) (now : Time) :
    (x.takeJob j now).harden = true ↔ j.kind = .harden := beq_iff_eq

end

/-- Settles O26. -/
theorem headJobEntersItsWalk : Obligations.HeadJobEntersItsWalk := by
  intro s u j rest queued starts x p fits
  have took := exec_takeHeadJob (startable_of_head queued starts)
  rw [takeHead_eq queued starts, if_pos fits] at took
  obtain ⟨own, other⟩ := st_headTaken s u j
  obtain ⟨slots, records, reservations, run, channel⟩ := headTaken_rest s u j
  have served := startWalk_served (s.headTaken u j) u
  have isHarden : ((s.headTaken u j).st u).harden = true ↔ j.kind = .harden := by rw [own]; exact harden_takeJob x _
  have ready : ((s.headTaken u j).st u).harden = true → ((s.headTaken u j).st u).clamped = true := fun harden => by
    obtain ⟨present, clamped, -⟩ := starts.2.2.2.2 (isHarden.1 harden)
    rw [own]
    exact Bool.and_eq_true_iff.2 ⟨present, clamped⟩
  obtain ⟨channel', other', tallies, f, job⟩ := startWalk_leaves ready
  have profile (g : StationState → StationState)
      (same : (g ((s.headTaken u j).st u)).current = ((s.headTaken u j).st u).current) :
      ((s.headTaken u j).modSt u g).profileOf u = p := by
    rw [profileOf_modSt _ _ _ (by rw [same]), State.profileOf, own]
    exact congrArg Slot.profile (by cases u <;> rfl)
  refine ⟨_, took, ?_, served.reservations.trans reservations, served.records.trans records, served.slots.trans slots,
    served.run.trans run, channel'.trans channel, other'.trans other, (headTaken_around s u j).trans served.toCalm.around,
    ?_, ?_, fun harden dry => ?_, fun flows => ⟨fun opens => ?_, fun critical held => ?_⟩⟩
  · rw [(served.carries u).queue, own]
    exact congrArg List.tail queued
  · rw [tallies, own]; rfl
  · exact ⟨_, by rw [job, own]; rfl, rfl, rfl, rfl, rfl, rfl, rfl, rfl, rfl, rfl, rfl⟩
  · rw [startWalk_waits (ready (isHarden.2 harden)) (isHarden.2 harden) (by rw [own]; exact dry), st_modSt_self, own,
      StationState.enterWalk, setTravel_rests rfl]
    exact ⟨rfl, rfl, rfl, rfl⟩
  all_goals
    have flows : ((s.headTaken u j).st u).harden = false ∨ ((s.headTaken u j).st u).lines.coilFlow = true := by
      refine flows.imp (fun dry => ?_) fun flow => by rw [own]; exact flow
      rw [← Bool.not_eq_true, isHarden, dry]
      exact JobKind.noConfusion
    have entered := enterW3_entered
      ((s.headTaken u j).modSt u StationState.walkToW3) u
    rw [← startWalk_toW3 ready flows] at entered
    have tank : ((s.headTaken u j).modSt u StationState.walkToW3).tank = s.tank := by cases u <;> rfl
    have walked : ((s.headTaken u j).modSt u StationState.walkToW3).st u =
          { x.takeJob j s.time with
            mode := .walk, motion := modeSet .stop x.motion, walk := { reached := 2, result := .running } } := by
      rw [st_modSt_self, own, StationState.walkToW3, StationState.enterWalk, setTravel_rests rfl]
      rfl
  · rw [entered.opens (by rw [tank, walked]; exact opens), walked, profile _ (by
      rw [own]; simp [StationState.walkToW3, StationState.enterWalk, StationState.completeCheckpoint])]
    exact ⟨rfl, rfl, rfl, rfl⟩
  · have ended := entered.fails (by rw [tank]; exact critical) (by rw [walked]; exact held)
    have at3 : (((s.headTaken u j).modSt u StationState.walkToW3).modSt u
          (StationState.enterCheckpoint .w3)).st u =
        { x.takeJob j s.time with
          mode := .walk, motion := modeSet .stop x.motion
          walk := { current := some .w3, timer := some x.settings.stepLimit, reached := 2, result := .running } } := by
      rw [st_modSt_self, walked]; rfl
    refine ⟨ended.mode, ?_, ?_, ?_, fun c is => ?_⟩
    · rw [ended.motion, at3]; rfl
    · rw [ended.faults, at3]; rfl
    · rw [ended.walk, at3]
    · rw [ended.job, at3] at is
      obtain rfl := Option.some.inj is
      rfl

end Sys2Proof.Machine
end

section
/-! PROOFS. A record written and the station released or waiting after it (R36 to R38, R43, R143), and the head job
kept or refused (R26, R27). -/

namespace Sys2Proof.Machine

/-! ### Entry to RELEASE -/

/-- The station as its handshake begins at the entry to RELEASE (R38). -/
def StationState.releasing (x : StationState) : StationState :=
  { ((x.setTravel .stop).modMotion (Motion.setSpindle 0)) with mode := .release }

theorem lined_enterRelease (x : StationState) : Lined x.releasing x.enterRelease := lined_beginHandshake _

theorem enterRelease_rest (x : StationState) :
    x.enterRelease.queue = x.queue ∧ x.enterRelease.current = x.current ∧ x.enterRelease.quench = x.quench
      ∧ x.enterRelease.handed = x.handed ∧ x.enterRelease.lapsed = x.lapsed ∧ x.enterRelease.settings = x.settings
      ∧ x.enterRelease.homeResult = x.homeResult ∧ x.enterRelease.haltCause = x.haltCause := by
  have lined := lined_enterRelease x
  exact ⟨lined.queue, lined.current, lined.quench, lined.faults.1, lined.faults.2, lined.settings, lined.homeResult,
    lined.haltCause⟩

/-! ### The end of a cycle with its record -/

/-- The state a station enters once its record is written: RELEASE for a HARDEN job, else WAIT-PART or IDLE. -/
def StationState.endCycle (harden : Bool) : StationState → StationState :=
  if harden then StationState.enterRelease else StationState.enterIdleOrWait

/-- What the end of a cycle leaves: the record through its reservation, and the station released or waiting. -/
structure CycleEnded (u : Station) (c : Context) (r : Record) (s t : State) : Prop where
  written : RecordWritten u c r s t
  other : t.st u.other = s.st u.other
  channel : t.channel = s.channel
  around : Around s t
  queue : (t.st u).queue = (s.st u).queue
  quench : (t.st u).quench = (s.st u).quench
  faults : (t.st u).handed = [] ∧ (t.st u).lapsed = (s.st u).lapsed ++ (s.st u).handed
  stops : (t.st u).motion.mode = .stop ∧ (t.st u).motion.spindleDemand = 0
  dry : c.job.kind = .dry →
    (t.st u).mode = (if (s.st u).queue = [] then .idle else .waitPart)
      ∧ (t.st u).releaseOwed = (s.st u).releaseOwed ∧ (t.st u).finished = none
      ∧ (t.st u).partConsumed = (s.st u).partConsumed ∧ (t.st u).lines = (s.st u).lines
  harden : c.job.kind = .harden →
    ReleaseEntered (s.st u) (t.st u) (some (r.outcome != .good)) (some c.job.tag)

theorem endCycle_ended {s : State} {u : Station} {c : Context} (o : Option RecordOutcome)
    (is : (s.st u).current = some c) :
    CycleEnded u c ((s.st u).recordOf u o c) s ((s.writeRecord u o).modSt u (StationState.endCycle c.harden)) := by
  have own := st_writeRecord_self s u o is
  have written := writeRecord_written s u o is
  have around := (writeRecord_around s u o).modSt u (StationState.endCycle c.harden)
  have other := st_writeRecord_other s u o
  cases kind : c.job.kind with
  | harden =>
    have ends : c.harden = true := beq_iff_eq.2 kind
    have owed : (x : Context) → x.job = c.job → x.harden = true := fun x job => by rw [Context.harden, job]; exact ends
    have is' : ((s.writeRecord u o).modSt u (StationState.endCycle c.harden)).st u
        = ((s.writeRecord u o).st u).enterRelease := by rw [st_modSt_self, ends]; rfl
    obtain ⟨queue, current, quench, handed, lapsed, -⟩ := enterRelease_rest ((s.writeRecord u o).st u)
    have entered : ReleaseEntered (s.st u) ((s.writeRecord u o).st u).enterRelease _ _ :=
      enterRelease_entered (by rw [own]; rfl) (by rw [own]; rfl) (by rw [own]; rfl)
    refine ⟨written.modSt ?_, by rw [st_modSt_other, other], by rw [channel_modSt, channel_writeRecord], around,
      ?_, ?_, ?_, ?_, fun dry => ?_, fun _ => ?_⟩
    · rw [ends]; exact current
    · rw [is', queue, own]; rfl
    · rw [is', quench, own]; rfl
    · rw [is', handed, lapsed, own]; exact ⟨rfl, rfl⟩
    · rw [is']; exact entered.rest
    · rw [kind] at dry; exact JobKind.noConfusion dry
    · rw [is']
      have release : ((s.writeRecord u o).st u).releaseOwed = some (((s.st u).recordOf u o c).outcome != .good) := by
        rw [own]
        exact if_pos (owed _ (job_closing _ _))
      have finished : ((s.writeRecord u o).st u).finished = some c.job.tag := by
        rw [own]
        exact congrArg some (congrArg JobEntry.tag (job_closing _ _))
      rw [release, finished] at entered
      exact entered
  | dry =>
    have ends : c.harden = false := by rw [Context.harden, kind]; rfl
    have owed : (x : Context) → x.job = c.job → x.harden = false := fun x job => by rw [Context.harden, job]; exact ends
    have is' : ((s.writeRecord u o).modSt u (StationState.endCycle c.harden)).st u
        = ((s.writeRecord u o).st u).enterIdleOrWait := by rw [st_modSt_self, ends]; rfl
    refine ⟨written.modSt ?_, by rw [st_modSt_other, other], by rw [channel_modSt, channel_writeRecord], around,
      ?_, ?_, ?_, ?_, fun _ => ?_, fun harden => ?_⟩
    · rw [ends]; rfl
    · rw [is', queue_enterIdleOrWait, own]; rfl
    · rw [is', quench_enterIdleOrWait, own]; rfl
    · obtain ⟨handed, lapsed⟩ := enterIdleOrWait_faults ((s.writeRecord u o).st u)
      rw [is', handed, lapsed, own]; exact ⟨rfl, rfl⟩
    · rw [is', motion_enterIdleOrWait]; simp
    · rw [is']
      simp only [mode_enterIdleOrWait, releaseOwed_enterIdleOrWait, finished_enterIdleOrWait,
        partConsumed_enterIdleOrWait, lines_enterIdleOrWait, own]
      exact ⟨rfl, if_neg (by rw [owed _ (job_closing _ _)]; exact Bool.false_ne_true), trivial, rfl, rfl⟩
    · rw [kind] at harden; exact JobKind.noConfusion harden

/-! ### TAKE_HEAD_JOB without a travel fit (R27) -/

/-- Settles O27. -/
theorem headJobKeptOrRefused : Obligations.HeadJobKeptOrRefused := by
  refine ⟨fun s u none => exec_takeHeadJob_kept ((not_startable_iff s u).2 none), ?_⟩
  intro s u j rest queued starts p misfit
  have took := exec_takeHeadJob (startable_of_head queued starts)
  rw [takeHead_eq queued starts, if_neg misfit] at took
  obtain ⟨own, other⟩ := st_headTaken s u j
  obtain ⟨slots, records, reservations, run, channel⟩ := headTaken_rest s u j
  have current : ((s.headTaken u j).st u).current = some (newContext j s.time) := by rw [own]; rfl
  have ended := endCycle_ended (some .refusedAtStart) current
  have refused : (s.headTaken u j).refuseStart u j = ((s.headTaken u j).writeRecord u (some .refusedAtStart)).modSt u
      (StationState.endCycle (newContext j s.time).harden) := by
    rw [State.refuseStart, StationState.endCycle]
    exact congrArg _ (if_congr (beq_iff_eq (a := j.kind) (b := .harden)).symm rfl rfl)
  rw [← refused] at ended
  obtain ⟨written, reserved, dropped, gone, ran⟩ := ended.written
  refine ⟨_, _, took, written.trans (by rw [records]), ?_, rfl, job_closing _ _, rfl, ?_, ?_, fun k => ?_, ?_,
    ended.channel.trans channel, ended.other.trans other, (headTaken_around s u j).trans ended.around, ?_, gone,
    ended.stops.1, ended.stops.2, ?_, fun harden => ?_, fun dry => ?_⟩
  · rw [reserved, reservations]; rfl
  · show ((s.headTaken u j).st u).walk.reached = 0
    rw [own]; rfl
  · show ((s.headTaken u j).st u).trail.tallies.heated = 0
    rw [own]; rfl
  · have slot : ((s.headTaken u j).refuseStart u j).slot k = ((s.headTaken u j).dropRef j.slot).slot k := by
      simp only [State.slot, dropped]
      rfl
    have same : (s.headTaken u j).slot k = s.slot k := by simp only [State.slot, slots]
    rw [slot, refs_of_dropRef, same]
    split <;> rfl
  · rw [ran, run, starts.2.1]
    exact if_neg fun h => RunState.noConfusion h.1
  · rw [ended.queue, own]
    exact congrArg List.tail queued
  · rw [ended.quench, own]; rfl
  · have entered := ended.harden harden
    rw [own] at entered
    have entered : ReleaseEntered (s.st u) (((s.headTaken u j).refuseStart u j).st u) (some true) (some j.tag) :=
      ⟨entered.lasts, entered.completes, entered.consumed, entered.lines, entered.rest⟩
    have lasts : (s.st u).Releases := .inr (.inl (starts.2.2.2.2 harden).1)
    exact ⟨(entered.lasts lasts).1, entered⟩
  · obtain ⟨mode, owed, finished, consumed, lines⟩ := ended.dry dry
    have tail : ((s.headTaken u j).st u).queue = rest := by rw [own]; exact congrArg List.tail queued
    rw [tail] at mode
    rw [own] at owed consumed lines
    exact ⟨mode, owed, finished, consumed, lines⟩

end Sys2Proof.Machine
end

section
/-! PROOFS. The arrivals of the sequencer's moves (R94): homing, W4 and RETURN (R23, R36, R40, R42, R128). -/

namespace Sys2Proof.Machine

/-! ### The arrival reported -/

/-- The station with the arrival of its move reported (R94). -/
def StationState.reported (x : StationState) : StationState :=
  x.modMotion fun m => { m with arrival := .reported }

section
variable {s : State} {u : Station}

theorem moveArrived_not (no : (s.st u).motion.arrival ≠ .found) : s.moveArrived u = s := if_neg no

theorem moveArrived_homing (found : (s.st u).motion.arrival = .found) (mode : (s.st u).mode = .homing) :
    s.moveArrived u = (s.modSt u fun x => x.reported.homingComplete).judgeStarts := by
  have own : ((s.modSt u StationState.reported).st u).mode = .homing := by rw [st_modSt_self]; exact mode
  refine (if_pos found).trans ?_
  change (match ((s.modSt u StationState.reported).st u).mode with | .homing => _ | .walk => _ | .returning => _ | _ => _) = _
  rw [own]
  dsimp only
  exact congrArg State.judgeStarts (modSt_modSt s u _ _)

theorem moveArrived_walk (found : (s.st u).motion.arrival = .found) (mode : (s.st u).mode = .walk) :
    s.moveArrived u =
      if (s.st u).walk.current = some .w4 then (s.modSt u StationState.reported).passW4 u
      else s.modSt u StationState.reported := by
  have own : ((s.modSt u StationState.reported).st u).mode = .walk := by rw [st_modSt_self]; exact mode
  have walk : ((s.modSt u StationState.reported).st u).walk = (s.st u).walk := by rw [st_modSt_self]; rfl
  refine (if_pos found).trans ?_
  change (match ((s.modSt u StationState.reported).st u).mode with | .homing => _ | .walk => _ | .returning => _ | _ => _) = _
  rw [own, ← walk]
  rfl

theorem moveArrived_returning (found : (s.st u).motion.arrival = .found) (mode : (s.st u).mode = .returning) :
    s.moveArrived u = (s.modSt u StationState.reported).returnArrived u := by
  have own : ((s.modSt u StationState.reported).st u).mode = .returning := by rw [st_modSt_self]; exact mode
  refine (if_pos found).trans ?_
  change (match ((s.modSt u StationState.reported).st u).mode with | .homing => _ | .walk => _ | .returning => _ | _ => _) = _
  rw [own]
  rfl

end

/-! ### The end of homing (R23, R92) -/

theorem modSt_eq_setSt (s : State) (u : Station) (f : StationState → StationState) :
    s.modSt u f = s.setSt u ((s.modSt u f).st u) := by
  rw [st_modSt_self]; rfl

theorem searchTimer_setSpindle (d : Nat) (m : Motion) : (m.setSpindle d).searchTimer = m.searchTimer := by
  rw [setSpindle_eq]; rfl

theorem searchTimer_completeHandshake {x : StationState} (stopped : x.motion.searchTimer = none) :
    x.completeHandshake.motion.searchTimer = none := by
  unfold StationState.completeHandshake
  split
  · rw [motion_enterIdleOrWait, searchTimer_setSpindle]; rfl
  · exact stopped

theorem searchTimer_assertDone {x : StationState} (stopped : x.motion.searchTimer = none) :
    x.assertDone.motion.searchTimer = none := by
  unfold StationState.assertDone
  dsimp only
  split
  · exact stopped
  split
  · exact stopped
  split
  · exact searchTimer_completeHandshake stopped
  · exact stopped

/-- RELEASE stops a search with the carriage. -/
theorem searchTimer_enterRelease (x : StationState) : x.enterRelease.motion.searchTimer = none := by
  have stopped : x.releasing.motion.searchTimer = none := searchTimer_setSpindle 0 _
  change x.releasing.beginHandshake.motion.searchTimer = none
  unfold StationState.beginHandshake
  split
  · exact stopped
  unfold StationState.startStep
  split
  · exact stopped
  · exact searchTimer_assertDone stopped

/-- The station as the search ends, its result recorded. -/
def StationState.homed (x : StationState) : StationState :=
  { x.setTravel .stop with homeResult := .ok, haltCause := .none }

theorem homingComplete_owed {x : StationState} (owed : x.releaseOwed ≠ none) :
    x.homingComplete = x.homed.enterRelease := if_pos (Option.isSome_iff_ne_none.2 owed)

theorem homingComplete_free {x : StationState} (free : x.releaseOwed = none) :
    x.homingComplete = x.homed.enterIdleOrWait := if_neg (by rw [releaseOwed_setTravel, free]; exact Bool.false_ne_true)

/-- What the end of homing leaves in either case. -/
theorem homingComplete_rest (x : StationState) :
    x.homingComplete.homeResult = .ok ∧ x.homingComplete.haltCause = .none ∧ x.homingComplete.motion.mode = .stop
      ∧ x.homingComplete.motion.searchTimer = none ∧ x.homingComplete.queue = x.queue
      ∧ x.homingComplete.current = x.current ∧ x.homingComplete.settings = x.settings := by
  cases owed : x.releaseOwed with
  | none =>
    rw [homingComplete_free owed]
    refine ⟨rfl, rfl, ?_, ?_, rfl, rfl, rfl⟩
    · rw [motion_enterIdleOrWait]; simp
    · rw [motion_enterIdleOrWait, searchTimer_setSpindle]; rfl
  | some reject =>
    rw [homingComplete_owed (by rw [owed]; exact Option.some_ne_none _)]
    have lined := lined_enterRelease x.homed
    refine ⟨lined.homeResult, lined.haltCause, lined.stop ?_, searchTimer_enterRelease _, lined.queue, lined.current,
      lined.settings⟩
    exact (mode_setSpindle _ _)

/-! ### W4 passed (R128, R129) -/

theorem passW4_eq (s : State) (u : Station) :
    s.passW4 u = s.modSt u fun x =>
      { x with
        walk := { x.walk with current := some .w5, timer := some x.settings.stepLimit, reached := 4 }
        motion :=
          { spindleSet (segGet (s.profileOf u).segs 0).rotation (modeSet .stop x.motion) with watch := .on } } := by
  have job : StationState.current (StationState.setTravel .stop ((s.st u).completeCheckpoint .w4)) = (s.st u).current := by
    rw [current_setTravel]; rfl
  rw [State.passW4, State.enterW5, profileOf_modSt s u _ (by rw [job]), modSt_modSt]
  refine modSt_congr s u ?_
  rw [setTravel_rests rfl, StationState.modMotion, setSpindle_eq]
  rfl

/-- Settles O28. -/
theorem arrivalEndsHomingOrPassesW4 : Obligations.ArrivalEndsHomingOrPassesW4 := by
  intro s u x
  refine ⟨fun no => congrArg _ (moveArrived_not no), fun found mode => ?_, fun found mode at' => ?_,
    fun found mode at' => ?_⟩
  · refine ⟨_, congrArg _ (moveArrived_homing found mode), modSt_eq_setSt _ _ _, ?_⟩
    rw [st_modSt_self]
    obtain ⟨home, halt, stop, search, queue, current, settings⟩ := homingComplete_rest x.reported
    refine ⟨home, halt, stop, search, queue, current, settings, fun free => ?_, fun owed => ?_⟩
    · rw [homingComplete_free (x := (s.st u).reported) free]
      exact ⟨rfl, rfl, mode_enterIdleOrWait _, rfl⟩
    · rw [homingComplete_owed (x := (s.st u).reported) owed]
      exact enterRelease_entered rfl rfl rfl
  · refine congrArg _ ((moveArrived_walk found mode).trans ?_)
    rw [if_pos at', passW4_eq, profileOf_modSt s u _ rfl, modSt_modSt]
    rfl
  · refine congrArg _ ((moveArrived_walk found mode).trans ?_)
    rw [if_neg at']
    rfl

/-! ### The RETURN arrival of a job that ends there (R36, R37, R42) -/

theorem Flags.find_first (f : Flags) :
    ([(f.energyLow, SliceFlag.energyLow), (f.energyHigh, .energyHigh), (f.powerBand, .powerBand), (f.late, .late),
      (f.lowFlow, .lowFlow), (f.flooded, .flooded), (f.aborted, .aborted)].find? Prod.fst)
      = f.first.map fun q => (f.has q, q) :=
  List.find?_map (f := fun q => (f.has q, q)) (l := SliceFlag.all)

theorem Flags.any_eq_first (f : Flags) : f.any = f.first.isSome := by
  rw [Bool.eq_iff_iff, Flags.first, List.find?_isSome]
  exact List.any_eq_true.trans ⟨fun ⟨b, m, set⟩ => by
    obtain ⟨q, all, rfl⟩ := List.mem_map.1 (show b ∈ SliceFlag.all.map f.has from m)
    exact ⟨q, all, set⟩, fun ⟨q, all, set⟩ => ⟨f.has q, List.mem_map_of_mem all, set⟩⟩

/-- The soak fields of a record: the counts as the repeat in progress closes them, where the job repeats (R42). -/
theorem soak_recordOf (u : Station) (c : Context) (x : StationState) :
    (x.recordOf u none c).soak =
      if c.job.kind = .dry ∧ 1 < c.job.repeats then
        match c.heated, c.firstFault, x.trail.tallies.repeatUnion.first with
        | true, some g, _ => some ⟨c.repeatsDone, min 255 (c.errorCount + 1), .fault g⟩
        | true, none, some q => some ⟨c.repeatsDone, min 255 (c.errorCount + 1), .flag q⟩
        | _, _, _ => some ⟨c.repeatsDone, c.errorCount, c.lastError⟩
      else none := by
  have soak : (x.recordOf u none c).soak =
      if c.job.kind = .dry ∧ 1 < c.job.repeats then
        some ⟨(x.closing c).repeatsDone, (x.closing c).errorCount, (x.closing c).lastError⟩
      else none := by
    rw [StationState.recordOf, composeRecord, job_closing]
  rw [soak]
  by_cases repeats : c.job.kind = .dry ∧ 1 < c.job.repeats
  · rw [if_pos repeats, if_pos repeats, StationState.closing, Context.closeRepeat, Flags.any_eq_first]
    cases c.heated <;> cases c.firstFault <;> cases x.trail.tallies.repeatUnion.first <;>
      simp [repeats.1]
  · rw [if_neg repeats, if_neg repeats]

theorem repeatsAgain_iff (c : Context) :
    c.repeatsAgain = true ↔
      c.job.kind = .dry ∧ c.repeatsDone < c.job.repeats ∧ c.endAfterRepeat = false ∧ c.firstFault = none
        ∧ c.pendingOutcome = .none := by
  simp [Context.repeatsAgain, and_assoc]

theorem returnArrived_ends {s : State} {u : Station} {c : Context} (is : (s.st u).current = some c)
    (ends : ¬ c.repeatsAgain = true) :
    s.returnArrived u = ((s.writeRecord u none).modSt u (StationState.endCycle c.harden)).judgeStarts := by
  simp only [State.returnArrived, is]
  exact if_neg ends

theorem returnArrived_again {s : State} {u : Station} {c : Context} (is : (s.st u).current = some c)
    (again : c.repeatsAgain = true) : s.returnArrived u = s.startNextRepeat u := by
  simp only [State.returnArrived, is]
  exact if_pos again

theorem Around.refl (s : State) : Around s s := ⟨rfl, rfl, rfl, rfl, rfl, rfl, rfl, rfl, rfl, fun _ => ⟨rfl, rfl⟩⟩

/-- The end of a cycle does not read the motion unit. -/
theorem CycleEnded.of_modMotion {u : Station} {c : Context} {r : Record} {s t : State} {f : Motion → Motion}
    (h : CycleEnded u c r (s.modSt u fun x => x.modMotion f) t) : CycleEnded u c r s t := by
  obtain ⟨written, other, channel, around, queue, quench, faults, stops, dry, harden⟩ := h
  have kept := ((Around.refl s).modSt u fun x => x.modMotion f).trans around
  cases u
  all_goals
    refine ⟨written, other, channel, kept, queue, quench, faults, stops, dry, fun kind => ?_⟩
    obtain ⟨lasts, completes, consumed, lines, rest⟩ := harden kind
    exact ⟨lasts, completes, consumed, lines, rest⟩

/-- Settles O29. -/
theorem returnArrivalWritesTheRecord : Obligations.ReturnArrivalWritesTheRecord := by
  intro s u c found mode is ends
  have last : ¬ c.repeatsAgain = true := fun again => by
    obtain ⟨kind, more, goes, clean, open'⟩ := (repeatsAgain_iff c).1 again
    rcases ends with h | h | h | h | h
    · rw [h] at kind; exact JobKind.noConfusion kind
    · omega
    · rw [h] at goes; exact Bool.noConfusion goes
    · exact h clean
    · exact h open'
  have own : ((s.modSt u StationState.reported).st u) = (s.st u).reported := st_modSt_self _ _ _
  have is' : ((s.modSt u StationState.reported).st u).current = some c := by rw [own]; exact is
  have arrived := (moveArrived_returning found mode).trans (returnArrived_ends is' last)
  have ended := endCycle_ended none is'
  rw [own] at ended
  have ended : CycleEnded u c ((s.st u).reported.recordOf u none c) s _ := ended.of_modMotion
  refine ⟨_, _, congrArg _ arrived, ended.written, rfl, job_closing _ _, outcome_recordOf u c _, rfl, rfl,
    firstFault_closing _ _, secondFault_closing _ _, startTime_closing _ _, heatTime_closing _ _, rfl, rfl, rfl, rfl, rfl, rfl,
    rfl, ?_, ended.other, ended.channel, ended.around, ended.queue, ended.faults.1, ended.faults.2, ended.dry,
    ended.harden⟩
  rw [soak_recordOf]
  dsimp only
  rw [Flags.find_first, show (s.st u).reported.trail = (s.st u).trail from rfl]
  cases c.heated <;> cases c.firstFault <;> cases (s.st u).trail.tallies.repeatUnion.first <;> rfl

/-! ### The next repeat of a DRY job (R36, R40, R42) -/

theorem NoRecord.of_modSt {s t : State} {u : Station} {f : StationState → StationState}
    (h : NoRecord (s.modSt u f) t) : NoRecord s t :=
  ⟨by rw [h.slots, slots_modSt], by rw [h.records, records_modSt], by rw [h.reservations, reservations_modSt],
    by rw [h.run, run_modSt]⟩

theorem Around.of_modSt {s t : State} {u : Station} {f : StationState → StationState}
    (h : Around (s.modSt u f) t) : Around s t := ((Around.refl s).modSt u f).trans h

/-- The station at W3 of its next repeat, the one before closed. -/
def StationState.nextToW3 (x : StationState) : StationState :=
  ((x.reported.modContext (Context.nextRepeat x.trail.tallies.repeatUnion)).enterWalk 2).completeCheckpoint .w2

theorem nextToW3_eq {x : StationState} {c : Context} (is : x.current = some c) :
    x.nextToW3 =
      { x with
        mode := .walk
        current := some (c.nextRepeat x.trail.tallies.repeatUnion)
        motion := modeSet .stop x.reported.motion
        walk := { x.walk with result := .running, endedAt := none, cause := .none, reached := 2, timer := none } } := by
  rw [StationState.nextToW3, modContext_some (x := x.reported) is, StationState.enterWalk, setTravel_rests rfl]
  rfl

theorem startNextRepeat_reported {s : State} {u : Station} {c : Context} (is : (s.st u).current = some c)
    (dry : c.job.kind = .dry) :
    (s.modSt u StationState.reported).startNextRepeat u = (s.modSt u StationState.nextToW3).enterW3 u := by
  have passes : (((s.modSt u StationState.reported).modSt u fun x =>
      (x.modContext (Context.nextRepeat x.trail.tallies.repeatUnion)).enterWalk 2).st u).harden = false := by
    rw [st_modSt_self, st_modSt_self, modContext_some (x := (s.st u).reported) is, StationState.harden,
      StationState.enterWalk, setTravel_rests rfl]
    exact (congrArg (· == JobKind.harden) ((congrArg JobEntry.kind (nextRepeat_job _ c)).trans dry))
  rw [State.startNextRepeat, enterW2_passes (.inl passes), modSt_modSt, modSt_modSt]
  rfl

theorem errorCount_nextRepeat {c : Context} {union : Flags} (dry : c.job.kind = .dry) (clean : c.firstFault = none) :
    (c.nextRepeat union).errorCount =
      if c.heated = true ∧ union.any = true then min 255 (c.errorCount + 1) else c.errorCount := by
  rw [Context.nextRepeat, Context.closeRepeat, clean]
  by_cases counts : c.heated = true ∧ union.any = true
  · rw [if_pos counts, if_pos ⟨dry, counts.1, .inr counts.2⟩]
  · rw [if_neg counts, if_neg fun h => counts ⟨h.2.1, h.2.2.resolve_left Bool.false_ne_true⟩]

theorem repeatsDone_nextRepeat (c : Context) (union : Flags) : (c.nextRepeat union).repeatsDone = c.repeatsDone := by
  unfold Context.nextRepeat Context.closeRepeat
  split <;> rfl

/-- Settles O30. -/
theorem returnArrivalRepeatsADryJob : Obligations.ReturnArrivalRepeatsADryJob := by
  intro s u c found mode is dry more goes clean open'
  have again := (repeatsAgain_iff c).2 ⟨dry, more, goes, clean, open'⟩
  have is' : ((s.modSt u StationState.reported).st u).current = some c := by rw [st_modSt_self]; exact is
  have arrived := (moveArrived_returning found mode).trans (returnArrived_again is' again)
  rw [startNextRepeat_reported is dry] at arrived
  have own : (s.modSt u StationState.nextToW3).st u = _ := (st_modSt_self _ _ _).trans (nextToW3_eq is)
  have profile : (s.modSt u StationState.nextToW3).profileOf u = s.profileOf u := by
    refine profileOf_modSt s u _ ?_
    rw [nextToW3_eq is, is]
    exact congrArg (fun j : JobEntry => some j.slot) (nextRepeat_job _ c)
  have tank : (s.modSt u StationState.nextToW3).tank = s.tank := by cases u <;> rfl
  have entered := enterW3_entered (s.modSt u StationState.nextToW3) u
  obtain ⟨f, job⟩ := entered.job
  have next : (((s.modSt u StationState.nextToW3).enterW3 u).st u).current =
      (some (c.nextRepeat (s.st u).trail.tallies.repeatUnion)).map fun c => { c with pendingOutcome := f c } := by
    rw [job, own]
  refine ⟨_, congrArg Host.Outcome.next arrived, entered.served.toCalm.noRecord.of_modSt, entered.served.toCalm.around.of_modSt,
    entered.channel.trans (channel_modSt _ _ _), entered.other.trans (st_modSt_other _ _ _), ?_, ?_,
    ⟨_, next, nextRepeat_job _ c, repeatsDone_nextRepeat c _, errorCount_nextRepeat dry clean⟩,
    fun opens => ?_, fun critical held => ?_⟩
  · rw [(entered.served.carries u).queue, own]
  · rw [entered.tallies, own]
  · rw [entered.opens (by rw [tank, own]; exact opens), profile, own]
    exact ⟨rfl, rfl, rfl, rfl, rfl, rfl⟩
  · have ended := entered.fails (by rw [tank]; exact critical) (by rw [own]; exact held)
    have at3 : ((s.modSt u StationState.nextToW3).modSt u (StationState.enterCheckpoint .w3)).st u = _ :=
      (st_modSt_self _ _ _).trans (congrArg (StationState.enterCheckpoint .w3) own)
    rw [ended.mode, ended.walk, ended.motion, ended.faults, at3]
    exact ⟨rfl, rfl, rfl, rfl, rfl, rfl⟩

end Sys2Proof.Machine
end

section
/-! PROOFS. The walk from W5 to its end (R102, R113, R114, R124 to R135): the spindle at speed, the proof, and the step
limit. -/

namespace Sys2Proof.Machine

/-! ### W5 to HEAT -/

theorem noticeHeat_unheld {c : Channel} {u : Station} (unheld : c.holder ≠ some u) (d k : Nat) :
    c.noticeHeat u d k = c := by
  unfold Channel.noticeHeat
  split
  · next v h is =>
    have holder : c.holder = some v := by rw [Channel.holder, is]
    exact if_neg (c := v = u) fun same => unheld (same ▸ holder)
  · rfl

theorem setChannel_same (s : State) : s.setChannel s.channel = s := rfl

/-- A station that does not hold the channel enters HEAT by itself. -/
theorem passWalk_unheld {s : State} {u : Station} (unheld : s.channel.holder ≠ some u) :
    s.passWalk u = s.modSt u fun x =>
      (x.modWalk Walk.pass).enterHeat s.time s.tank.state (s.profileOf u) := by
  have profile : (s.modSt u fun x => x.modWalk Walk.pass).profileOf u = s.profileOf u := profileOf_modSt _ _ _ rfl
  rw [State.passWalk, State.enterHeat]
  rw [channel_modSt, channel_modSt, noticeHeat_unheld unheld, profile]
  refine (if_neg fun h => unheld h.1).trans ?_
  cases u <;> rfl

/-- The station at W7, the power wait begun (R125, R131). -/
def StationState.atW7 (x : StationState) : StationState :=
  x.modWalk fun k =>
    { k with current := some .w7, timer := if x.settings.powerWait = 0 then none else some x.settings.powerWait }

theorem enterW7_harden {s : State} {u : Station} (harden : (s.st u).harden = true) :
    s.enterW7 u = (s.modSt u StationState.atW7).requestPower u := if_pos harden

theorem enterW7_dry {s : State} {u : Station} (dry : (s.st u).harden = false) : s.enterW7 u = s.passWalk u :=
  if_neg (by rw [dry]; exact Bool.false_ne_true)

theorem enterW6_proves {s : State} {u : Station} (proves : (s.st u).settings.bypassW6 = false) :
    s.enterW6 u = s.modSt u fun x => (x.enterCheckpoint .w6).startProof :=
  if_neg (by rw [proves]; exact Bool.false_ne_true)

/-- The station with W6 bypassed. -/
def StationState.pastW6 (x : StationState) : StationState :=
  (x.modWalk fun k => { k with bypassed := { k.bypassed with w6 := true } }).completeCheckpoint .w6

theorem enterW6_bypassed {s : State} {u : Station} (bypassed : (s.st u).settings.bypassW6 = true) :
    s.enterW6 u = (s.modSt u StationState.pastW6).enterW7 u := if_pos bypassed

/-! ### SPINDLE_AT_SPEED (R102) -/

/-- The station with its watch off, the speed having been reported. -/
def StationState.watched (x : StationState) : StationState := x.modMotion fun m => { m with watch := .off }

section
variable {s : State} {u : Station}

theorem spindleAtSpeed_not (no : (s.st u).motion.watch ≠ .found) : exec (.spindleAtSpeed u) s = .next s :=
  congrArg Host.Outcome.next (if_neg no)

theorem spindleAtSpeed_elsewhere (found : (s.st u).motion.watch = .found) (other : (s.st u).walk.current ≠ some .w5) :
    exec (.spindleAtSpeed u) s = .next (s.modSt u StationState.watched) := by
  refine congrArg Host.Outcome.next ((if_pos found).trans (if_neg fun h => other ?_))
  rw [st_modSt_self] at h
  exact h

theorem spindleAtSpeed_passes (found : (s.st u).motion.watch = .found) (at' : (s.st u).walk.current = some .w5) :
    exec (.spindleAtSpeed u) s =
      .next ((s.modSt u fun x => x.watched.completeCheckpoint .w5).enterW6 u) := by
  refine congrArg Host.Outcome.next ((if_pos found).trans ((if_pos ?_).trans ?_))
  · rw [st_modSt_self]; exact at'
  · rw [State.passW5, modSt_modSt]; rfl

end

theorem harden_watched (x : StationState) : (x.watched.completeCheckpoint .w5).pastW6.harden = x.harden := by
  simp only [StationState.harden, StationState.pastW6, StationState.completeCheckpoint, StationState.watched,
    current_modWalk, current_modMotion]

theorem watched_atW7 (x : StationState) :
    (x.watched.completeCheckpoint .w5).pastW6.atW7 =
      { x with
        motion := { x.motion with watch := .off }
        walk :=
          { x.walk with
            current := some .w7
            timer := if x.settings.powerWait = 0 then none else some x.settings.powerWait
            reached := 6
            bypassed := { x.walk.bypassed with w6 := true } } } := by
  simp only [StationState.watched, StationState.completeCheckpoint, StationState.pastW6, StationState.atW7,
    StationState.modWalk, StationState.modMotion, Walk.complete, Checkpoint.number]
  rfl

/-- Settles O31. -/
theorem spindleAtSpeedPassesW5 : Obligations.SpindleAtSpeedPassesW5 := by
  intro s u x
  refine ⟨spindleAtSpeed_not, spindleAtSpeed_elsewhere, fun found at' proves => ?_, fun found at' bypassed harden => ?_,
    fun found at' bypassed dry unheld => ?_⟩
  · rw [spindleAtSpeed_passes found at', enterW6_proves (by rw [st_modSt_self]; exact proves), modSt_modSt]
    rfl
  · refine ⟨_, spindleAtSpeed_passes found at', ?_⟩
    rw [enterW6_bypassed (by rw [st_modSt_self]; exact bypassed), modSt_modSt,
      enterW7_harden (by rw [st_modSt_self]; exact (harden_watched _).trans harden), modSt_modSt]
    simp only [watched_atW7]
    exact requestPower_requested _ u
  · have walked : ((s.modSt u fun x => x.watched.completeCheckpoint .w5).enterW6 u)
        = (s.modSt u fun x => (x.watched.completeCheckpoint .w5).pastW6).passWalk u := by
      rw [enterW6_bypassed (by rw [st_modSt_self]; exact bypassed), modSt_modSt,
        enterW7_dry (by rw [st_modSt_self]; exact (harden_watched _).trans dry)]
    refine ⟨_, (spindleAtSpeed_passes found at').trans (congrArg _ walked), ?_, ?_⟩
    · rw [passWalk_unheld (by rw [channel_modSt]; exact unheld), modSt_modSt]
      exact modSt_eq_setSt _ _ _
    · have stands : (s.modSt u fun x => (x.watched.completeCheckpoint .w5).pastW6)
          = (s.modSt u fun x =>
              { x with
                motion := { x.motion with watch := .off }
                walk := { x.walk with bypassed := { x.walk.bypassed with w6 := true } } }).modSt u fun x =>
            x.modWalk fun k => { k with reached := 6, timer := none } := by
        rw [modSt_modSt]; rfl
      rw [stands]
      exact (passWalk_entered _ u).of_walk rfl

/-! ### The proof at W6 (R114, R130) -/

/-- The station with its proof ended: the ring closed and the result as given. -/
def StationState.proved (r : ProofResult) (x : StationState) : StationState :=
  { x with
    quench :=
      { x.quench with valve := .closed, proofTimer := none, riseTimer := none, afterTimer := none, proofResult := r } }

theorem modQuench_endProof (x : StationState) :
    x.modQuench Quench.endProof = x.proved (if x.quench.proofSeen then .passed else .failed) := rfl

section
variable {s : State} {u : Station} {n : Nat}

theorem proofTimer_passes (running : (s.st u).quench.proofTimer = some n) (at' : (s.st u).walk.current = some .w6)
    (seen : (s.st u).quench.proofSeen = true) :
    exec (.proofTimerExpiry u) s = .next (((s.elapse n).modSt u (StationState.proved .passed)).passW6 u) := by
  have ends : (s.elapse n).modSt u (fun x => x.modQuench Quench.endProof)
      = (s.elapse n).modSt u (StationState.proved .passed) := by
    refine modSt_congr _ u ?_
    rw [st_elapse, modQuench_endProof]
    exact congrArg (StationState.proved · _) (if_pos seen)
  refine congrArg Host.Outcome.next ((expire_some s running _).trans ?_)
  rw [ends]
  refine (if_pos ?_).trans (if_pos ?_)
  · rw [st_modSt_self, st_elapse]; exact at'
  · rw [st_modSt_self]; rfl

theorem proofTimer_fails (running : (s.st u).quench.proofTimer = some n) (at' : (s.st u).walk.current = some .w6)
    (unseen : (s.st u).quench.proofSeen = false) :
    exec (.proofTimerExpiry u) s =
      .next (((s.elapse n).modSt u (StationState.proved .failed)).endWalk u .failed .proofFailed) := by
  have ends : (s.elapse n).modSt u (fun x => x.modQuench Quench.endProof)
      = (s.elapse n).modSt u (StationState.proved .failed) := by
    refine modSt_congr _ u ?_
    rw [st_elapse, modQuench_endProof]
    exact congrArg (StationState.proved · _) (if_neg (unseen ▸ Bool.false_ne_true))
  refine congrArg Host.Outcome.next ((expire_some s running _).trans ?_)
  rw [ends]
  refine (if_pos ?_).trans (if_neg ?_)
  · rw [st_modSt_self, st_elapse]; exact at'
  · rw [st_modSt_self]; exact ProofResult.noConfusion

end

theorem NoRecord.of_elapse {s t : State} {n : Nat} (h : NoRecord (s.elapse n) t) : NoRecord s t :=
  ⟨h.slots, h.records, h.reservations, h.run⟩

theorem harden_proved (r : ProofResult) (n : Nat) (x : StationState) :
    (((x.elapse n).proved r).completeCheckpoint .w6).harden = x.harden := by
  rw [StationState.harden, StationState.completeCheckpoint, current_modWalk]
  rfl

theorem proved_atW7 (r : ProofResult) (x : StationState) :
    ((x.proved r).completeCheckpoint .w6).atW7 =
      { x with
        quench :=
          { x.quench with
            valve := .closed
            proofTimer := none
            riseTimer := none
            afterTimer := none
            proofResult := r }
        walk :=
          { x.walk with
            current := some .w7
            timer := if x.settings.powerWait = 0 then none else some x.settings.powerWait
            reached := 6 } } := by
  simp only [StationState.proved, StationState.completeCheckpoint, StationState.atW7, StationState.modWalk,
    Walk.complete, Checkpoint.number]
  rfl

/-- Settles O32. -/
theorem proofPassedGoesOn : Obligations.ProofPassedGoesOn := by
  intro s u n x running at' seen
  have passes := proofTimer_passes running at' seen
  refine ⟨fun harden => ⟨_, passes, ?_⟩, fun dry unheld => ⟨_, passes, ?_⟩⟩
  · rw [State.passW6, modSt_modSt, enterW7_harden (by
      rw [st_modSt_self, st_elapse]; exact (harden_proved _ n _).trans harden), modSt_modSt]
    simp only [proved_atW7]
    exact requestPower_requested _ u
  · have walks : ((s.elapse n).modSt u (StationState.proved .passed)).passW6 u
        = (((s.elapse n).modSt u (StationState.proved .passed)).modSt u
            (StationState.completeCheckpoint .w6)).passWalk u :=
      enterW7_dry (by rw [modSt_modSt, st_modSt_self, st_elapse]; exact (harden_proved _ n _).trans dry)
    have entered := passWalk_entered (((s.elapse n).modSt u (StationState.proved .passed)).modSt u
      (StationState.completeCheckpoint .w6)) u
    rw [← walks] at entered
    refine ⟨?_, ?_, entered.records.of_modSt.of_modSt.of_elapse, entered.of_walk rfl⟩
    · rw [entered.unheld (by rw [channel_modSt, channel_modSt]; exact unheld), channel_modSt, channel_modSt]
      rfl
    · rw [entered.other, st_modSt_other, st_modSt_other, st_elapse]

/-! ### The proof failed, and the step limit (R125, R135) -/

/-- A walk that ends at W6 closes the ring, whatever the quench unit held. -/
theorem WalkEnded.of_proved {u : Station} {r : WalkResult} {cause : FailureCause} {o : PendingOutcome} {p : ProofResult}
    {s t : State} (h : WalkEnded u .w6 r cause o (s.modSt u (StationState.proved p)) t) :
    WalkEnded u .w6 r cause o s t := by
  have own := st_modSt_self s u (StationState.proved p)
  obtain ⟨mode, walk, motion, faults, -, valve, trail, job, kept, channel, -, -, -⟩ := h
  rw [own] at walk motion faults trail job kept
  rw [channel_modSt, st_modSt_other] at channel
  exact ⟨mode, walk, motion, faults, fun no => absurd rfl no, valve, trail, job, kept, channel,
    fun no => Checkpoint.noConfusion no, fun no => Checkpoint.noConfusion no, fun no => Checkpoint.noConfusion no⟩

/-- A walk that ends at W6 keeps the proof's result. -/
theorem proofResult_endWalk {s : State} {u : Station} {cause : FailureCause}
    (at' : (s.st u).walk.current = some .w6) :
    ((s.endWalk u .failed cause).st u).quench.proofResult = (s.st u).quench.proofResult := by
  rw [State.endWalk, at']
  dsimp only
  rw [takeWalkReport_eq _ _ _ (by decide), st_modSt_self, quench_enterReturn, quench_modContext,
    State.undoWalk, st_modSt_self, st_modSt_self]
  rfl

theorem stepTimer_expires {s : State} {u : Station} {n : Nat} {w : Checkpoint} (running : (s.st u).walk.timer = some n)
    (at' : (s.st u).walk.current = some w) :
    exec (.stepTimerExpiry u) s =
      .next ((s.elapse n).endWalk u .failed (if w = .w7 then .powerWait else .stepLimit)) := by
  have same : ((s.elapse n).st u).walk.current = some .w7 ↔ w = .w7 := by
    rw [st_elapse]
    exact (Eq.congr_left at').trans Option.some_inj
  refine congrArg Host.Outcome.next ((expire_some s running _).trans ?_)
  exact congrArg (fun c => State.endWalk u .failed c (s.elapse n)) (if_congr same rfl rfl)

/-- Settles O33. -/
theorem proofAndStepLimitFailTheWalk : Obligations.ProofAndStepLimitFailTheWalk := by
  intro s u n w x
  refine ⟨fun running at' unseen => ⟨_, proofTimer_fails running at' unseen, ?_⟩,
    fun running at' => ⟨_, stepTimer_expires running at', ?_⟩⟩
  · have stands : (((s.elapse n).modSt u (StationState.proved .failed)).st u).walk.current = some .w6 := by
      rw [st_modSt_self, st_elapse]; exact at'
    have calm := (endWalk_served ((s.elapse n).modSt u (StationState.proved .failed)) u (r := .failed) (by decide)
      .proofFailed).toCalm
    refine ⟨(endWalk_ended _ u .w6 .failed .proofFailed stands (by decide)).of_proved, ?_,
      calm.noRecord.of_modSt.of_elapse, calm.around.of_modSt⟩
    rw [proofResult_endWalk stands, st_modSt_self]
    rfl
  · have calm := (endWalk_served (s.elapse n) u (r := .failed) (by decide)
      (if w = .w7 then .powerWait else .stepLimit)).toCalm
    exact ⟨endWalk_ended _ u w .failed _ (by rw [st_elapse]; exact at') (by decide), calm.noRecord.of_elapse,
      calm.around⟩

end Sys2Proof.Machine
end

section
/-! PROOFS. Faults taken (R167 to R173): in HEAT, and in every other state. -/

namespace Sys2Proof.Machine

/-! ### The fault recorded (R169) -/

/-- The station with a handed fault taken from the list and recorded. -/
def StationState.recorded (f : FaultCode) (x : StationState) : StationState :=
  (x.unhand f).modContext (faultRecorded f)

theorem job_faultRecorded (f : FaultCode) (c : Context) : (faultRecorded f c).job = c.job := by
  unfold faultRecorded
  split_ifs <;> rfl

theorem abortCause_faultRecorded (f : FaultCode) (c : Context) : (faultRecorded f c).abortCause = c.abortCause := by
  unfold faultRecorded
  split_ifs <;> rfl

theorem heat_faultRecorded (f : FaultCode) (c : Context) :
    (faultRecorded f c).heatTime = c.heatTime ∧ (faultRecorded f c).heatStart = c.heatStart := by
  unfold faultRecorded
  split_ifs <;> exact ⟨rfl, rfl⟩

theorem firstFault_faultRecorded (f : FaultCode) (c : Context) : (faultRecorded f c).firstFault ≠ none := by
  unfold faultRecorded
  split_ifs with first second
  · exact Option.some_ne_none f
  · exact first
  · exact first

/-- The context of an abort by a fault: the fault recorded, the abort cause FAULT unless one stands (R33). -/
def faultAborted (f : FaultCode) (c : Context) : Context :=
  { faultRecorded f c with abortCause := if c.abortCause = .none then .fault else c.abortCause }

theorem abort_faultRecorded (f : FaultCode) (c : Context) :
    (faultRecorded f c).abort .fault = faultAborted f c := by
  rw [Context.abort_eq, abortCause_faultRecorded]
  rfl

/-! ### A fault in HEAT (R33, R35, R168) -/

theorem floodClass_quenchOut {f : FaultCode}
    (is : f = .inverter ∨ f = .invDrop ∨ f = .noPower ∨ f = .coilFlow ∨ f = .spindle) : floodClass f = false := by
  rcases is with rfl | rfl | rfl | rfl | rfl <;> rfl

theorem floodClass_flood {f : FaultCode}
    (is : f = .stall ∨ f = .reverse ∨ f = .limit ∨ f = .quenchFlow ∨ f = .axis) : floodClass f = true := by
  rcases is with rfl | rfl | rfl | rfl | rfl <;> rfl

/-- The part as HEAT is left for a fault, before the state that follows is entered. -/
def State.faultLeft (u : Station) (f : FaultCode) (s : State) : State :=
  ((s.modSt u (StationState.unhand f)).modSt u fun x => x.modContext (faultAborted f)).leaveHeat u

theorem actOnFault_heat {s : State} {u : Station} {f : FaultCode} (heat : (s.st u).mode = .heat) :
    (s.modSt u (StationState.recorded f)).actOnFault u f =
      (s.faultLeft u f).modSt u (if floodClass f then StationState.enterFlood else StationState.runOut .quenchOut) := by
  have mode : ((s.modSt u (StationState.recorded f)).st u).mode = .heat := by rw [st_modSt_self]; exact heat
  have aborted : (s.modSt u (StationState.recorded f)).modSt u (fun x => x.modContext (Context.abort .fault))
      = (s.modSt u (StationState.unhand f)).modSt u fun x => x.modContext (faultAborted f) := by
    rw [modSt_modSt, modSt_modSt]
    refine modSt_congr s u ?_
    simp only [StationState.recorded, StationState.modContext, Option.map_map]
    congr 2
    exact funext (abort_faultRecorded f)
  rw [State.actOnFault, mode]
  dsimp only
  rw [aborted]
  cases floodClass f <;> rfl

theorem HeatLeft.of_unhand {u : Station} {f : FaultCode} {F : Context → Context} {s t : State}
    (h : HeatLeft u F (s.modSt u (StationState.unhand f)) t) : HeatLeft u F s t := by
  obtain ⟨dwell, job, sums, queue, channel, released⟩ := h
  cases u <;> exact ⟨dwell, job, sums, queue, channel, released⟩

theorem NoRecord.modSt {s t : State} (h : NoRecord s t) (u : Station) (f : StationState → StationState) :
    NoRecord s (t.modSt u f) :=
  ⟨by rw [slots_modSt, h.slots], by rw [records_modSt, h.records], by rw [reservations_modSt, h.reservations],
    by rw [run_modSt, h.run]⟩

theorem exec_faultTaken {s : State} {u : Station} {f : FaultCode} {c : Context} (fresh : f ∉ (s.st u).lapsed)
    (handed : f ∈ (s.st u).handed) (is : (s.st u).current = some c) :
    exec (.faultTaken u f) s = .next ((s.modSt u (StationState.recorded f)).actOnFault u f) :=
  congrArg Host.Outcome.next (takeHanded_eq s u f fresh handed is)

theorem length_abortedSlices {now : Time} {t : Trail} {h : Nat} {sl : SliceRec} (heating : t.phase = .heating h sl) :
    (abortedSlices now t).length = t.list.length + 1 := by
  rw [abortedSlices, heating, List.length_append, List.length_map]
  rfl

theorem runOut_eq (m : Mode) (x : StationState) :
    x.runOut m =
      { x with
        mode := m
        motion := modeSet (.scan x.settings.runoutSpeed) x.motion
        handed := x.handed ++ axisHanded x } := by
  rw [StationState.runOut, setTravel_moves rfl]

/-- Settles O34. -/
theorem faultInHeatEndsHeat : Obligations.FaultInHeatEndsHeat := by
  intro s u f c fresh handed heat is at'
  have taken := (exec_faultTaken fresh handed is).trans (congrArg _ (actOnFault_heat heat))
  have unhanded : (s.modSt u (StationState.unhand f)).st u = (s.st u).unhand f := st_modSt_self _ _ _
  obtain ⟨left, settings, tallies, lines, walk, motion, faults, trail⟩ :=
    leaveHeat_left (s.modSt u (StationState.unhand f)) u (faultAborted f) (fun c => heat_faultRecorded f c)
      (by rw [unhanded]; exact at') (t := s.faultLeft u f) rfl
  have calm := (leaveHeat_served ((s.modSt u (StationState.unhand f)).modSt u fun x =>
    x.modContext (faultAborted f)) u).toCalm
  rw [unhanded] at settings tallies lines walk motion faults trail
  rw [time_modSt] at trail
  have idle : ((s.faultLeft u f).st u).walk.current ≠ some .w7 := by
    rw [walk]
    exact fun h => Option.some_ne_none _ (h.symm.trans at')
  refine ⟨_, taken, ?_, calm.noRecord.of_modSt.of_modSt.modSt _ _, calm.around.of_modSt.of_modSt.modSt _ _,
    fun quenches => ?_, fun floods => ?_⟩
  · cases floodClass f with
    | false =>
      rw [if_neg Bool.false_ne_true]
      have same := runOut_eq .quenchOut ((s.faultLeft u f).st u)
      exact left.of_unhand.modSt idle (by rw [same]; exact idle) (by rw [same]) (by rw [same]) (by rw [same])
        (by rw [same])
    | true =>
      rw [if_pos rfl]
      exact left.of_unhand.modSt idle (by rw [walk_enterFlood]; exact idle) (dwellTimer_enterFlood _) (dwells_enterFlood _)
        (current_enterFlood _) (queue_enterFlood _)
  · rw [floodClass_quenchOut quenches, if_neg Bool.false_ne_true, st_modSt_self, runOut_eq]
    refine ⟨rfl, ?_, ?_, trail⟩
    · show modeSet _ _ = _
      rw [settings, motion]
      rfl
    · show _ ++ axisHanded _ = _
      rw [axisHanded, lines, faults]
      rfl
  · rw [floodClass_flood floods, if_pos rfl, st_modSt_self, enterFlood_eq]
    refine ⟨rfl, ?_, faults, rfl, rfl, rfl, ?_, fun h sl heating => ?_⟩
    · show { modeSet .stop ((s.faultLeft u f).st u).motion with
        spindleTimer := none, reverseRaised := false, limitRaised := false } = _
      rw [motion]
      rfl
    · show some (Flood.mk ((s.faultLeft u f).st u).settings.floodTime .floodEntry) = _
      rw [settings]
      rfl
    · obtain ⟨-, list⟩ := trail h sl heating
      show ((s.faultLeft u f).st u).trail.tallyFlooded.tallies.heated = _
      rw [heated_tallyFlooded, tallies, list, length_abortedSlices (t := ((s.st u).unhand f).trail) heating]
      rfl

/-! ### A fault elsewhere (R35, R167 to R173) -/

section
variable {s : State} {u : Station} {f : FaultCode}

theorem takeHanded_absent (fresh : f ∉ (s.st u).lapsed) (absent : f ∉ (s.st u).handed) : s.takeHanded u f = s := by
  unfold State.takeHanded
  rw [if_neg (by simpa using fresh), if_neg (by simpa using absent)]

/-- Without a current job a fault is dropped (R167). -/
theorem takeHanded_dropped (fresh : f ∉ (s.st u).lapsed) (handed : f ∈ (s.st u).handed)
    (idle : (s.st u).current = none) : s.takeHanded u f = s.modSt u (StationState.unhand f) := by
  have rests : ((s.modSt u (StationState.unhand f)).st u).busy = false := by
    rw [st_modSt_self, StationState.busy, StationState.unhand, idle]; rfl
  unfold State.takeHanded
  rw [if_neg (by simpa using fresh), if_pos (by simpa using handed), State.takeFault, rests]
  rfl

/-- Where the state makes nothing more of a fault just recorded. -/
theorem actOnFault_records
    (mode : (s.st u).mode = .flood ∨ ((s.st u).mode = .walk ∧ (f ≠ .axis ∨ (s.st u).walk.current ≠ some .w4))
      ∨ ((s.st u).mode = .returning ∧ f ≠ .axis)
      ∨ (((s.st u).mode = .runout ∨ (s.st u).mode = .quenchOut) ∧ floodClass f = false)) :
    s.actOnFault u f = s := by
  unfold State.actOnFault
  rcases mode with m | ⟨m, no⟩ | ⟨m, no⟩ | ⟨m | m, no⟩ <;> rw [m] <;> dsimp only
  · exact if_neg fun h => no.elim (fun k => k h.1) fun k => k h.2
  · exact if_neg no
  · rw [no]; rfl
  · rw [no]; rfl

theorem actOnFault_floods (mode : (s.st u).mode = .runout ∨ (s.st u).mode = .quenchOut)
    (floods : floodClass f = true) : s.actOnFault u f = s.modSt u StationState.enterFlood := by
  unfold State.actOnFault
  rcases mode with m | m <;> rw [m] <;> exact if_pos floods

theorem actOnFault_axis_walk (mode : (s.st u).mode = .walk) (at' : (s.st u).walk.current = some .w4) :
    s.actOnFault u .axis =
      (((s.modSt u fun x => x.modWalk (Walk.finish .w4 .axis .none)).writeRecord u none).modSt u
        (StationState.enterHalted .axis)).judgeStarts := by
  unfold State.actOnFault
  rw [mode]
  dsimp only
  rw [if_pos ⟨rfl, at'⟩, State.endWalk, at']
  rfl

theorem actOnFault_axis_returning (mode : (s.st u).mode = .returning) :
    s.actOnFault u .axis =
      ((s.writeRecord u none).modSt u (StationState.enterHalted .axis)).judgeStarts := by
  unfold State.actOnFault
  rw [mode]
  rfl

end

theorem RecordWritten.of_modSt {u : Station} {c : Context} {r : Record} {s t : State} {g : StationState → StationState}
    (h : RecordWritten u c r (s.modSt u g) t) : RecordWritten u c r s t := by
  obtain ⟨records, reservations, slots, current, run⟩ := h
  cases u <;> exact ⟨records, reservations, slots, current, run⟩

/-- A record written reads of the context only the job. -/
theorem RecordWritten.of_job {u : Station} {c d : Context} {r : Record} {s t : State}
    (h : RecordWritten u d r s t) (same : d.job = c.job) : RecordWritten u c r s t := by
  unfold RecordWritten at h ⊢
  rwa [same] at h

/-- AXIS ends a cycle with its record and halts its station (R36, R39, R168). -/
theorem halted_by_axis {s : State} {u : Station} {f : FaultCode} {c d : Context} {g : StationState → StationState}
    (is : (g (s.st u)).current = some d) (recorded : d = faultRecorded f c) :
    let t := ((s.modSt u g).writeRecord u none).modSt u (StationState.enterHalted .axis)
    ∃ r, RecordWritten u c r s t ∧ r.outcome = .faulted ∧ r.firstFault = (faultRecorded f c).firstFault
      ∧ r.secondFault = (faultRecorded f c).secondFault
      ∧ (t.st u).mode = .halted ∧ (t.st u).haltCause = .axis ∧ (t.st u).motion.mode = .stop
      ∧ (t.st u).motion.spindleDemand = 0
      ∧ (t.st u).releaseOwed = (if c.job.kind = .harden then some true else (g (s.st u)).releaseOwed)
      ∧ (t.st u).walk = (g (s.st u)).walk
      ∧ t.channel = s.channel ∧ t.st u.other = s.st u.other ∧ Around s t := by
  intro t
  subst recorded
  have own : (s.modSt u g).st u = g (s.st u) := st_modSt_self _ _ _
  have is' : ((s.modSt u g).st u).current = some (faultRecorded f c) := by rw [own]; exact is
  have outcome : (((s.modSt u g).st u).recordOf u none (faultRecorded f c)).outcome = .faulted := by
    rw [outcome_recordOf, outcomeOrder, firstFault_closing]
    exact if_pos (firstFault_faultRecorded f c)
  have after : t.st u = (((s.modSt u g).writeRecord u none).st u).enterHalted .axis := st_modSt_self _ _ _
  have written : RecordWritten u (faultRecorded f c) _ (s.modSt u g) t :=
    (writeRecord_written (s.modSt u g) u none is').modSt rfl
  refine ⟨_, written.of_modSt.of_job (job_faultRecorded f c), outcome, firstFault_closing _ _, secondFault_closing _ _,
    ?_, ?_, ?_, ?_, ?_, ?_, ?_, ?_, ((writeRecord_around (s.modSt u g) u none).modSt u _).of_modSt⟩
  · rw [after, mode_enterHalted]
  · rw [after, haltCause_enterHalted]
  · rw [after, motion_enterHalted]; simp
  · rw [after, motion_enterHalted]; simp
  · have forced : ((s.modSt u g).st u).outcomeOf none (faultRecorded f c) = .faulted := outcome
    have kind : (((s.modSt u g).st u).closing (faultRecorded f c)).job = c.job := by
      rw [job_closing, job_faultRecorded]
    rw [after, releaseOwed_enterHalted, st_writeRecord_self _ u none is', forced, own]
    refine if_congr ?_ rfl rfl
    rw [own] at kind
    rw [Context.harden, beq_iff_eq, kind]
  · rw [after, walk_enterHalted, st_writeRecord_self _ u none is', own]; rfl
  · rw [channel_modSt, channel_writeRecord, channel_modSt]
  · rw [st_modSt_other, st_writeRecord_other, st_modSt_other]

theorem recorded_eq {x : StationState} {c : Context} (f : FaultCode) (is : x.current = some c) :
    x.recorded f = { x with handed := x.handed.erase f, current := some (faultRecorded f c) } :=
  modContext_some (x := x.unhand f) is _

/-- Settles O35. -/
theorem faultOutsideHeat : Obligations.FaultOutsideHeat := by
  intro s u f x
  refine ⟨fun fresh absent => congrArg _ (takeHanded_absent fresh absent),
    fun lapsed => congrArg _ (takeHanded_lapsed s u f lapsed),
    fun fresh handed idle => congrArg _ (takeHanded_dropped fresh handed idle), fun c fresh handed is => ?_⟩
  intro recorded
  have same : s.modSt u (StationState.recorded f) = recorded := modSt_congr s u (recorded_eq f is)
  have taken : exec (.faultTaken u f) s = .next (recorded.actOnFault u f) := same ▸ exec_faultTaken fresh handed is
  have own : recorded.st u = { x with handed := x.handed.erase f, current := some (faultRecorded f c) } :=
    st_modSt_self _ _ _
  refine ⟨fun mode => ?_, fun mode floods => ⟨recorded.modSt u StationState.enterFlood, ?_, ?_, ?_⟩,
    fun axis mode => ?_⟩
  · rw [taken, actOnFault_records (by rw [own]; exact mode)]
  · exact taken.trans (congrArg _ (actOnFault_floods (by rw [own]; exact mode) floods))
  · rw [modSt_modSt]; exact modSt_eq_setSt _ _ _
  · rw [st_modSt_self, own, enterFlood_eq]
    exact ⟨rfl, rfl, rfl, rfl, rfl, rfl, heated_tallyFlooded _, rfl, rfl⟩
  · subst axis
    rcases mode with ⟨mode, at'⟩ | mode
    · have acted := actOnFault_axis_walk (s := recorded) (u := u) (by rw [own]; exact mode) (by rw [own]; exact at')
      have ends : (recorded.modSt u fun x => x.modWalk (Walk.finish .w4 .axis .none)) = s.modSt u fun x =>
          ({ x with handed := x.handed.erase .axis, current := some (faultRecorded .axis c) } :
            StationState).modWalk (Walk.finish .w4 .axis .none) := modSt_modSt _ _ _ _
      rw [ends] at acted
      obtain ⟨r, written, outcome, first, second, halted, cause, stop, spindle, owed, walk, channel, other, around⟩ :=
        halted_by_axis (s := s) (u := u) (f := .axis) (c := c) (g := fun x =>
          ({ x with handed := x.handed.erase .axis, current := some (faultRecorded .axis c) } :
            StationState).modWalk (Walk.finish .w4 .axis .none)) rfl rfl
      exact ⟨_, r, taken.trans (congrArg _ acted), written, outcome, first, second, halted, cause, stop, spindle, owed,
        fun _ => by rw [walk]; exact ⟨rfl, rfl⟩, channel, other, around⟩
    · have acted := actOnFault_axis_returning (s := recorded) (u := u) (by rw [own]; exact mode)
      obtain ⟨r, written, outcome, first, second, halted, cause, stop, spindle, owed, walk, channel, other, around⟩ :=
        halted_by_axis (s := s) (u := u) (f := .axis) (c := c) (g := fun x =>
          { x with handed := x.handed.erase .axis, current := some (faultRecorded .axis c) }) rfl rfl
      exact ⟨_, r, taken.trans (congrArg _ acted), written, outcome, first, second, halted, cause, stop, spindle, owed,
        fun walks => by rw [mode] at walks; exact Mode.noConfusion walks, channel, other, around⟩

end Sys2Proof.Machine
end

section
/-! PROOFS. The loader lines and their qualification (R126, R140). -/

namespace Sys2Proof.Machine

/-! ### No time passing -/

theorem Timer.elapse_zero (t : Timer) : t.elapse 0 = t := by
  cases t <;> rfl

theorem SliceRec.elapse_zero (sl : SliceRec) : sl.elapse 0 = sl := by
  rw [SliceRec.elapse, Timer.elapse_zero]

theorem Flood.elapse_zero (f : Flood) : f.elapse 0 = f := rfl

theorem StationState.elapse_zero (x : StationState) : x.elapse 0 = x := by
  have list : x.trail.list.map (SliceRec.elapse 0) = x.trail.list := by
    rw [funext SliceRec.elapse_zero]; exact List.map_id' _
  have flood : x.quench.flood.map (Flood.elapse 0) = x.quench.flood := by
    rw [funext Flood.elapse_zero]; exact Option.map_id'
  simp only [StationState.elapse, Walk.elapse, Trail.elapse, Motion.elapse, Quench.elapse, Lines.elapse,
    QualInput.elapse, Timer.elapse_zero, list, flood]

theorem State.elapse_zero (s : State) : s.elapse 0 = s := by
  have time : s.time + BitVec.ofNat 32 0 = s.time := BitVec.add_zero _
  simp only [State.elapse, StationState.elapse_zero, Link.elapse, Channel.elapse, Timer.elapse_zero, time]

theorem qual_elapse (n : Nat) (l : Lines) (k : LoaderLine) : (l.elapse n).qual k = (l.qual k).elapse n := by
  cases k <;> rfl

theorem profileOf_elapse (s : State) (u : Station) (n : Nat) : (s.elapse n).profileOf u = s.profileOf u := by
  cases u <;> rfl

/-! ### A sample and its qualification (R140) -/

/-- The part with a loader line of a station as given. -/
def State.putLine (u : Station) (k : LoaderLine) (r : QualInput) (s : State) : State :=
  s.modSt u fun x => x.modLines (Lines.setQual k r)

section
variable {s : State} {u : Station} {k : LoaderLine}

theorem qual_putLine (r : QualInput) : ((s.putLine u k r).st u).lines.qual k = r := by
  rw [State.putLine, st_modSt_self, lines_modLines, qual_setQual]

theorem putLine_putLine (q r : QualInput) : (s.putLine u k q).putLine u k r = s.putLine u k r := by
  rw [State.putLine, State.putLine, modSt_modSt]
  refine modSt_congr s u ?_
  simp only [StationState.modLines, setQual_setQual]

/-- What a line's qualification makes of the part: the qualified state follows, and a change is handed on. -/
def State.qualified (u : Station) (k : LoaderLine) (q : QualInput) (s : State) : State :=
  if q.sampled = q.qualified then s.putLine u k ⟨q.sampled, q.sampled, none⟩
  else (s.putLine u k ⟨q.sampled, q.sampled, none⟩).lineChanged u k q.sampled

theorem qualify_eq : s.qualify u k = s.qualified u k ((s.st u).lines.qual k) := rfl

theorem qualify_putLine (r : QualInput) : (s.putLine u k r).qualify u k = s.qualified u k r := by
  rw [qualify_eq, qual_putLine, State.qualified, State.qualified, putLine_putLine]

theorem judgeLine_same {before : Bool} (same : ((s.st u).lines.qual k).qualified = before) :
    s.judgeLine u k before = s := if_pos same

theorem judgeLine_changed {before : Bool} (changed : ((s.st u).lines.qual k).qualified ≠ before) :
    s.judgeLine u k before = s.judgeStarts := if_neg changed

/-- The qualified state ends up as sampled. -/
theorem qual_qualified (q : QualInput) :
    ((s.qualified u k q).st u).lines.qual k = ⟨q.sampled, q.sampled, none⟩ := by
  unfold State.qualified
  split
  · exact qual_putLine _
  · rw [qual_lineChanged, qual_putLine]

theorem takeSample_same {a : Bool} (same : ((s.st u).lines.qual k).sampled = a) : s.takeSample u k a = s := by
  have kept : s.sampleLine u k a = s := if_pos same
  rw [State.takeSample, kept, judgeLine_same rfl]

theorem takeSample_back {a : Bool} (differs : ((s.st u).lines.qual k).sampled ≠ a)
    (back : a = ((s.st u).lines.qual k).qualified) :
    s.takeSample u k a = s.putLine u k ⟨a, ((s.st u).lines.qual k).qualified, none⟩ := by
  have stops : s.sampleLine u k a = s.putLine u k ⟨a, ((s.st u).lines.qual k).qualified, none⟩ :=
    (if_neg differs).trans (if_pos back)
  rw [State.takeSample, stops, judgeLine_same (by rw [qual_putLine])]

theorem qualTime_some {x : StationSettings} (timed : 2 ≤ x.qualFactor) :
    x.qualTime = some ((x.qualFactor - 1) * 10 ^ x.qualRange) := if_neg (by omega)

theorem qualTime_none {x : StationSettings} (untimed : x.qualFactor < 2) : x.qualTime = none := if_pos (by omega)

theorem sampleLine_away {a : Bool} (differs : ((s.st u).lines.qual k).sampled ≠ a)
    (away : a ≠ ((s.st u).lines.qual k).qualified) :
    s.sampleLine u k a =
      if (s.st u).settings.qualTime.isNone then
        (s.putLine u k ⟨a, ((s.st u).lines.qual k).qualified, (s.st u).settings.qualTime⟩).qualify u k
      else s.putLine u k ⟨a, ((s.st u).lines.qual k).qualified, (s.st u).settings.qualTime⟩ :=
  (if_neg differs).trans (if_neg away)

theorem takeSample_timed {a : Bool} (differs : ((s.st u).lines.qual k).sampled ≠ a)
    (away : a ≠ ((s.st u).lines.qual k).qualified) (timed : 2 ≤ (s.st u).settings.qualFactor) :
    s.takeSample u k a = s.putLine u k ⟨a, ((s.st u).lines.qual k).qualified,
      some (((s.st u).settings.qualFactor - 1) * 10 ^ (s.st u).settings.qualRange)⟩ := by
  rw [State.takeSample, sampleLine_away differs away, qualTime_some timed, Option.isNone_some,
    if_neg Bool.false_ne_true, judgeLine_same (by rw [qual_putLine])]

theorem takeSample_untimed {a : Bool} (differs : ((s.st u).lines.qual k).sampled ≠ a)
    (away : a ≠ ((s.st u).lines.qual k).qualified) (untimed : (s.st u).settings.qualFactor < 2) (t : Timer) :
    s.takeSample u k a =
      (s.putLine u k ⟨a, ((s.st u).lines.qual k).qualified, t⟩).takeQualified u k := by
  rw [State.takeSample, sampleLine_away differs away, qualTime_none untimed, State.takeQualified, qual_putLine,
    qualify_putLine]
  refine congrArg (State.judgeLine u k ((s.st u).lines.qual k).qualified) ((if_pos rfl).trans ?_)
  rw [qualify_putLine]
  rfl

theorem takeQualified_same (same : ((s.st u).lines.qual k).sampled = ((s.st u).lines.qual k).qualified) :
    s.takeQualified u k =
      s.putLine u k ⟨((s.st u).lines.qual k).sampled, ((s.st u).lines.qual k).sampled, none⟩ := by
  rw [State.takeQualified, qualify_eq, judgeLine_same (by rw [qual_qualified]; exact same), State.qualified, if_pos same]

theorem takeQualified_changed (changed : ((s.st u).lines.qual k).sampled ≠ ((s.st u).lines.qual k).qualified) :
    s.takeQualified u k =
      ((s.putLine u k ⟨((s.st u).lines.qual k).sampled, ((s.st u).lines.qual k).sampled, none⟩).lineChanged u k
        ((s.st u).lines.qual k).sampled).judgeStarts := by
  rw [State.takeQualified, qualify_eq, judgeLine_changed (by rw [qual_qualified]; exact changed), State.qualified,
    if_neg changed]

theorem qualificationExpiry_expires {n : Nat} (running : ((s.st u).lines.qual k).timer = some n) :
    exec (.qualificationExpiry u k) s = .next ((s.elapse n).takeQualified u k) :=
  congrArg Host.Outcome.next (expire_some s running _)

end

/-! ### W1 and W2 passed (R126, R127) -/

theorem judgeW1_not {s : State} {u : Station} (no : ¬ ((s.st u).walk.current = some .w1 ∧ (s.st u).clamped = true)) :
    s.judgeW1 u = s := if_neg no

theorem judgeW1_passes {s : State} {u : Station} (at' : (s.st u).walk.current = some .w1)
    (clamped : (s.st u).clamped = true) : s.judgeW1 u = s.passW1 u := if_pos ⟨at', clamped⟩

/-- PRESENT or CLAMPED becoming active goes to W1. -/
theorem lineChanged_active {s : State} {u : Station} {k : LoaderLine} (clamp : k ≠ .hold) :
    s.lineChanged u k true = s.judgeW1 u := by
  cases k
  · rfl
  · rfl
  · exact absurd rfl clamp

/-- W4 entered straight from a checkpoint completed before it. -/
theorem atW4_completed (start : Nat) (w : Checkpoint) (x : StationState) :
    (x.completeCheckpoint w).atW4 start =
      { x with
        motion := modeSet (.moveTo start x.settings.returnSpeed) x.motion
        handed := x.handed ++ axisHanded x
        walk :=
          { x.walk with
            current := some .w4
            timer := some x.settings.stepLimit
            reached := 3
            bypassed := { x.walk.bypassed with w3 := x.settings.bypassW3 || x.walk.bypassed.w3 } } } := by
  rw [Bool.or_comm]
  rfl

theorem passW2_opens {s : State} {u : Station} (opens : s.tank.state ≠ .critical ∨ (s.st u).settings.bypassW3 = true) :
    s.passW2 u = s.modSt u fun x =>
      { x with
        motion := modeSet (.moveTo (s.profileOf u).start x.settings.returnSpeed) x.motion
        handed := x.handed ++ axisHanded x
        walk :=
          { x.walk with
            current := some .w4
            timer := some x.settings.stepLimit
            reached := 3
            bypassed := { x.walk.bypassed with w3 := x.settings.bypassW3 || x.walk.bypassed.w3 } } } := by
  rw [State.passW2, enterW3_opens (by rw [st_modSt_self]; cases u <;> exact opens), profileOf_modSt s u _ rfl, modSt_modSt]
  exact modSt_congr s u (atW4_completed _ _ _)

/-- A walk that ends leaves nothing of the checkpoint it was at. -/
theorem WalkEnded.of_modWalk {u : Station} {r : WalkResult} {cause : FailureCause} {o : PendingOutcome}
    {g : Walk → Walk} {s t : State} (h : WalkEnded u .w3 r cause o (s.modSt u fun x => x.modWalk g) t)
    (same : ({ g (s.st u).walk with
        current := none, timer := none, result := r, endedAt := some .w3, cause := cause } : Walk)
      = { (s.st u).walk with
          current := none, timer := none, result := r, endedAt := some .w3, cause := cause }) :
    WalkEnded u .w3 r cause o s t := by
  have own := st_modSt_self s u fun x => x.modWalk g
  obtain ⟨mode, walk, motion, faults, quench, -, trail, job, kept, channel, -, -, -⟩ := h
  rw [own] at walk motion faults quench trail job kept
  rw [channel_modSt, st_modSt_other] at channel
  exact ⟨mode, walk.trans same, motion, faults, quench, fun no => Checkpoint.noConfusion no, trail, job, kept, channel,
    fun no => Checkpoint.noConfusion no, fun no => Checkpoint.noConfusion no, fun no => Checkpoint.noConfusion no⟩

/-- Nothing is in flight at W3. -/
theorem undoWalk_w3 (s : State) (u : Station) : s.undoWalk u .w3 = s := rfl

/-- A walk failed at W3 touches its station alone. -/
theorem passW2_fails {s : State} {u : Station} (critical : s.tank.state = .critical)
    (held : (s.st u).settings.bypassW3 = false) :
    s.passW2 u = s.setSt u ((s.passW2 u).st u)
      ∧ WalkEnded u .w3 .failed .tankCritical .notStarted
          (s.modSt u fun x => { x with walk := { x.walk with reached := 2 } }) (s.passW2 u) := by
  have entered := enterW3_entered (s.modSt u (StationState.completeCheckpoint .w2)) u
  have ended := entered.fails (by cases u <;> exact critical) (by rw [st_modSt_self]; exact held)
  have stands : (s.modSt u (StationState.completeCheckpoint .w2)).modSt u (StationState.enterCheckpoint .w3)
      = (s.modSt u fun x => { x with walk := { x.walk with reached := 2 } }).modSt u fun x =>
          x.modWalk fun k => { k with current := some .w3, timer := some (s.st u).settings.stepLimit } := by
    rw [modSt_modSt, modSt_modSt]
    exact modSt_congr s u rfl
  rw [stands] at ended
  refine ⟨?_, ended.of_modWalk rfl⟩
  have failed : s.passW2 u = s.modSt u fun x =>
      ((((x.completeCheckpoint .w2).enterCheckpoint .w3).modWalk
        (Walk.finish .w3 .failed .tankCritical)).modContext (Context.fix .notStarted)).enterReturn := by
    have at' : (((s.modSt u (StationState.completeCheckpoint .w2)).modSt u (StationState.enterCheckpoint .w3)).st
        u).walk.current = some .w3 := by
      rw [st_modSt_self]; rfl
    rw [State.passW2, enterW3_fails (by cases u <;> exact critical) (by rw [st_modSt_self]; exact held), State.endWalk, at']
    dsimp only
    rw [takeWalkReport_eq _ _ _ (by decide), undoWalk_w3, modSt_modSt, modSt_modSt, modSt_modSt]
    rfl
  rw [failed]
  exact modSt_eq_setSt _ _ _

/-- W1 passed with coolant flowing, or by a DRY job, goes straight through W2. -/
theorem passW1_passes {s : State} {u : Station} (flows : (s.st u).lines.coilFlow = true ∨ (s.st u).harden = false) :
    s.passW1 u = (s.modSt u (StationState.completeCheckpoint .w1)).passW2 u := by
  refine enterW2_passes ?_
  rw [st_modSt_self]
  exact flows.symm

theorem passW1_waits {s : State} {u : Station} (harden : (s.st u).harden = true)
    (dry : (s.st u).lines.coilFlow = false) :
    s.passW1 u = s.modSt u fun x =>
      { x with
        walk := { x.walk with current := some .w2, timer := some x.settings.stepLimit, reached := 1 } } := by
  rw [State.passW1, enterW2_waits (by rw [st_modSt_self]; exact harden) (by rw [st_modSt_self]; exact dry), modSt_modSt]
  rfl

theorem passW1_opens {s : State} {u : Station} (flows : (s.st u).lines.coilFlow = true ∨ (s.st u).harden = false)
    (opens : s.tank.state ≠ .critical ∨ (s.st u).settings.bypassW3 = true) :
    s.passW1 u = s.modSt u fun x =>
      { x with
        motion := modeSet (.moveTo (s.profileOf u).start x.settings.returnSpeed) x.motion
        handed := x.handed ++ axisHanded x
        walk :=
          { x.walk with
            current := some .w4
            timer := some x.settings.stepLimit
            reached := 3
            bypassed := { x.walk.bypassed with w3 := x.settings.bypassW3 || x.walk.bypassed.w3 } } } := by
  rw [passW1_passes flows, passW2_opens (by rw [st_modSt_self]; cases u <;> exact opens),
    profileOf_modSt s u _ rfl, modSt_modSt]
  rfl

theorem passW1_fails {s : State} {u : Station} (flows : (s.st u).lines.coilFlow = true ∨ (s.st u).harden = false)
    (critical : s.tank.state = .critical) (held : (s.st u).settings.bypassW3 = false) :
    s.passW1 u = s.setSt u ((s.passW1 u).st u)
      ∧ WalkEnded u .w3 .failed .tankCritical .notStarted
          (s.modSt u fun x => { x with walk := { x.walk with reached := 2 } }) (s.passW1 u) := by
  obtain ⟨alone, ended⟩ := passW2_fails (s := s.modSt u (StationState.completeCheckpoint .w1)) (u := u)
    (by cases u <;> exact critical) (by rw [st_modSt_self]; exact held)
  rw [← passW1_passes flows] at alone ended
  have stands : (s.modSt u (StationState.completeCheckpoint .w1)).modSt u
        (fun x => { x with walk := { x.walk with reached := 2 } })
      = (s.modSt u fun x => { x with walk := { x.walk with reached := 2 } }).modSt u fun x =>
          x.modWalk fun k => { k with timer := none } := by
    rw [modSt_modSt, modSt_modSt]
    rfl
  rw [stands] at ended
  exact ⟨alone.trans (setSt_setSt s u _ _), ended.of_modWalk rfl⟩

/-- Settles O36. -/
theorem loaderLinesAreQualified : Obligations.LoaderLinesAreQualified := by
  intro s u line a n x q put
  refine ⟨fun same => congrArg _ (takeSample_same same), fun differs back => congrArg _ (takeSample_back differs back),
    fun differs away timed => congrArg _ (takeSample_timed differs away timed),
    fun differs away untimed t expired => ?_, fun running => ?_⟩
  · have zero : ((((s.putLine u line ⟨a, q.qualified, some 0⟩).st u).lines.qual line).timer) = some 0 := by
      rw [qual_putLine]
    have sampled := takeSample_untimed differs away untimed (some 0)
    rw [← State.elapse_zero (s.putLine u line _)] at sampled
    exact (congrArg Host.Outcome.next sampled).trans ((qualificationExpiry_expires zero).symm.trans expired)
  · intro done
    have own : ((s.elapse n).st u).lines.qual line = q.elapse n := by rw [st_elapse]; exact qual_elapse n _ line
    have expires := qualificationExpiry_expires running
    have state : done.st u =
        { x.elapse n with lines := (x.lines.elapse n).setQual line ⟨q.sampled, q.sampled, none⟩ } := by
      rw [st_modSt_self, st_elapse]; rfl
    have profile : done.profileOf u = s.profileOf u :=
      (profileOf_modSt _ u _ rfl).trans (profileOf_elapse s u n)
    have tank : done.tank = s.tank := tank_modSt _ _ _
    have flow : (done.st u).lines.coilFlow = x.lines.coilFlow := by
      rw [state]; cases line <;> rfl
    have changed (differs : q.sampled ≠ q.qualified) :
        (s.elapse n).takeQualified u line = (done.lineChanged u line q.sampled).judgeStarts := by
      have moved := takeQualified_changed (s := s.elapse n) (u := u) (k := line) (by rw [own]; exact differs)
      rw [own] at moved
      exact moved
    have rises (clamp : line ≠ .hold) (active : q.sampled = true) (was : q.qualified = false) :
        exec (.qualificationExpiry u line) s = .next (done.judgeW1 u).judgeStarts := by
      rw [expires, changed (by rw [active, was]; decide), active, lineChanged_active clamp]
    have stands (clamp : line ≠ .hold) (active : q.sampled = true) (was : q.qualified = false)
        (no : ¬ ((done.st u).walk.current = some .w1 ∧ (done.st u).clamped = true)) :
        exec (.qualificationExpiry u line) s = .next done.judgeStarts := by
      rw [rises clamp active was, judgeW1_not no]
    have passes (clamp : line ≠ .hold) (active : q.sampled = true) (was : q.qualified = false)
        (at' : x.walk.current = some .w1) (present : (done.st u).lines.present.qualified = true)
        (clamped : (done.st u).lines.clamped.qualified = true) :
        exec (.qualificationExpiry u line) s = .next (done.passW1 u).judgeStarts := by
      rw [rises clamp active was, judgeW1_passes (by rw [state]; exact at')
        (Bool.and_eq_true_iff.2 ⟨present, clamped⟩)]
    refine ⟨fun same => ?_, fun clamp gone was => ?_, fun clamp active was away => ?_,
      fun clamp active was at' present clamped harden dry => ?_, fun clamp active was at' present clamped flows =>
        ⟨fun opens => ?_, fun critical held => ?_⟩, fun clamp active was at' open' => ?_⟩
    · rw [expires, takeQualified_same (by rw [own]; exact same), own]
      rfl
    · rw [expires, changed (by rw [gone, was]; decide), gone, clamp]
      rfl
    · exact stands clamp active was fun h => away (by rw [state] at h; exact h.1)
    · rw [passes clamp active was at' present clamped, passW1_waits (by rw [state]; exact harden) (flow.trans dry)]
    · rw [passes clamp active was at' present clamped,
        passW1_opens (by rw [flow, state]; exact flows) (by rw [tank, state]; exact opens), profile]
    · obtain ⟨alone, ended⟩ := passW1_fails (s := done) (u := u) (by rw [flow, state]; exact flows)
        (by rw [tank]; exact critical) (by rw [state]; exact held)
      exact ⟨_, passes clamp active was at' present clamped, alone, ended⟩
    · refine stands clamp active was fun h => ?_
      obtain ⟨present, clamped⟩ := Bool.and_eq_true_iff.1 h.2
      rcases open' with no | no
      · rw [no] at present; exact Bool.noConfusion present
      · rw [no] at clamped; exact Bool.noConfusion clamped

end Sys2Proof.Machine
end

section
/-! PROOFS. The release handshake as the loader lines and its timer drive it (section 8.5). -/

namespace Sys2Proof.Machine

namespace StationState

/-! ### The assertion of DONE (R144) -/

/-- What the handshake completed in RELEASE leaves of a station with this queue. -/
structure LeftRelease (queue : List JobEntry) (y : StationState) : Prop where
  handshake : y.lines.handshake = .idle
  timer : y.lines.handshakeTimer = none
  mode : y.mode = if queue = [] then .idle else .waitPart
  owed : y.releaseOwed = none
  finished : y.finished = none

section
variable {x : StationState}

theorem completeHandshake_of_release (release : x.mode = .release) :
    x.completeHandshake = ({ (x.setHandshake .idle none) with releaseOwed := none }).enterIdleOrWait := if_pos release

theorem leftRelease_completeHandshake {queue : List JobEntry} (release : x.mode = .release) (same : x.queue = queue) :
    LeftRelease queue x.completeHandshake := by
  rw [completeHandshake_of_release release, ← same]
  refine ⟨rfl, rfl, ?_, rfl, rfl⟩
  exact if_congr List.isEmpty_iff rfl rfl

theorem partConsumed_completeHandshake : x.completeHandshake.partConsumed = x.partConsumed := by
  unfold completeHandshake
  split <;> rfl

theorem assertDone_pulse (pulse : x.settings.handshakeType = .pulse) :
    x.assertDone = ({ x with partConsumed := x.partConsumed || x.lines.present.qualified }).setHandshake .pulsing
      (some x.settings.doneDelay) := if_pos pulse

theorem assertDone_present (long : x.settings.handshakeType ≠ .pulse) (present : x.lines.present.qualified = true) :
    x.assertDone = ({ x with partConsumed := true }).setHandshake .asserted none :=
  (if_neg long).trans ((if_pos present).trans (by rw [present, Bool.or_true]))

theorem assertDone_absent (long : x.settings.handshakeType ≠ .pulse) (absent : x.lines.present.qualified = false)
    (delay : 0 < x.settings.doneDelay) : x.assertDone = x.setHandshake .pulsing (some x.settings.doneDelay) :=
  (if_neg long).trans ((if_neg (by rw [absent]; exact Bool.false_ne_true)).trans (if_neg delay.ne'))

theorem assertDone_completes (long : x.settings.handshakeType ≠ .pulse) (absent : x.lines.present.qualified = false)
    (noDelay : x.settings.doneDelay = 0) : x.assertDone = x.completeHandshake :=
  (if_neg long).trans ((if_neg (by rw [absent]; exact Bool.false_ne_true)).trans (if_pos noDelay))

/-! ### The start step (R143) -/

theorem startStep_delays (delayed : x.settings.handshakeType = .delayed) (delay : 0 < x.settings.doneDelay) :
    x.startStep = x.setHandshake .delaying (some x.settings.doneDelay) := if_pos ⟨delayed, delay⟩

theorem startStep_asserts (now : ¬ (x.settings.handshakeType = .delayed ∧ 0 < x.settings.doneDelay)) :
    x.startStep = x.assertDone := if_neg now

theorem startStep_level (level : x.settings.handshakeType = .level) : x.startStep = x.assertDone :=
  startStep_asserts fun h => HandshakeType.noConfusion (level.symm.trans h.1)

theorem startStep_pulse (pulse : x.settings.handshakeType = .pulse) : x.startStep = x.assertDone :=
  startStep_asserts fun h => HandshakeType.noConfusion (pulse.symm.trans h.1)

theorem startStep_noDelay (noDelay : x.settings.doneDelay = 0) : x.startStep = x.assertDone :=
  startStep_asserts fun h => h.2.ne' noDelay

/-! ### HOLD, PRESENT and the timer (R43, R143, R145) -/

theorem holdChanged_held (delaying : x.lines.handshake = .delaying) :
    x.holdChanged true = x.setHandshake .heldBack none := by
  unfold holdChanged
  rw [delaying]

theorem holdChanged_released (held : x.lines.handshake = .heldBack) : x.holdChanged false = x.startStep := by
  unfold holdChanged
  rw [held]

theorem holdChanged_active_other (other : x.lines.handshake ≠ .delaying) : x.holdChanged true = x := by
  unfold holdChanged
  split
  case h_1 delaying _ => exact absurd delaying other
  case h_2 inactive => exact Bool.noConfusion inactive
  case h_3 => rfl

theorem holdChanged_inactive_other (other : x.lines.handshake ≠ .heldBack) : x.holdChanged false = x := by
  unfold holdChanged
  split
  case h_1 inactive => exact Bool.noConfusion inactive
  case h_2 held _ => exact absurd held other
  case h_3 => rfl

theorem presentGone_asserted (asserted : x.lines.handshake = .asserted) :
    x.presentGone = ({ x with partConsumed := false }).completeHandshake := if_pos asserted

theorem presentGone_other (other : x.lines.handshake ≠ .asserted) :
    x.presentGone = { x with partConsumed := false } := if_neg other

theorem handshakeDue_delaying (delaying : x.lines.handshake = .delaying) : x.handshakeDue = x.assertDone := by
  unfold handshakeDue
  rw [delaying]

theorem handshakeDue_pulsing (pulsing : x.lines.handshake = .pulsing) : x.handshakeDue = x.completeHandshake := by
  unfold handshakeDue
  rw [pulsing]

end

end StationState

/-! ### The three events -/

theorem handshakeTimerExpiry_expires {s : State} {u : Station} {n : Nat}
    (running : (s.st u).lines.handshakeTimer = some n) :
    exec (.handshakeTimerExpiry u) s = .next ((s.elapse n).modSt u StationState.handshakeDue).judgeStarts :=
  congrArg Host.Outcome.next (expire_some s running _)

/-- A change of a loader line that the station alone takes. -/
theorem qualificationExpiry_station {s : State} {u : Station} {k : LoaderLine} {n : Nat} {b : Bool}
    (g : StationState → StationState) (taken : ∀ s' : State, s'.lineChanged u k b = s'.modSt u g)
    (running : ((s.st u).lines.qual k).timer = some n) (sampled : ((s.st u).lines.qual k).sampled = b)
    (changed : b ≠ ((s.st u).lines.qual k).qualified) :
    ∃ t, exec (.qualificationExpiry u k) s = .next t.judgeStarts ∧ t = (s.elapse n).setSt u (t.st u)
      ∧ t.st u = g (((s.st u).elapse n).modLines (Lines.setQual k ⟨b, b, none⟩)) := by
  have own : ((s.elapse n).st u).lines.qual k = ((s.st u).lines.qual k).elapse n := by
    rw [st_elapse]; exact qual_elapse n _ k
  have moved := takeQualified_changed (s := s.elapse n) (u := u) (k := k)
    (by rw [own]; exact fun h => changed (sampled.symm.trans h))
  rw [own, show ((s.st u).lines.qual k |>.elapse n).sampled = b from sampled, taken, State.putLine, modSt_modSt] at moved
  refine ⟨_, (qualificationExpiry_expires running).trans (congrArg _ moved), modSt_eq_setSt _ _ _, ?_⟩
  rw [st_modSt_self, st_elapse]

open StationState in
/-- The start step, by the handshake type and PRESENT. -/
theorem startStep_cases (x : StationState) :
    (x.settings.handshakeType = .delayed → 0 < x.settings.doneDelay →
        x.startStep.lines.handshake = .delaying ∧ x.startStep.lines.handshakeTimer = some x.settings.doneDelay)
      ∧ (x.settings.handshakeType = .pulse →
        x.startStep.lines.handshake = .pulsing ∧ x.startStep.lines.handshakeTimer = some x.settings.doneDelay
          ∧ x.startStep.partConsumed = (x.partConsumed || x.lines.present.qualified))
      ∧ (x.settings.handshakeType = .level ∨ x.settings.handshakeType = .delayed ∧ x.settings.doneDelay = 0 →
        x.lines.present.qualified = true →
        x.startStep.lines.handshake = .asserted ∧ x.startStep.lines.handshakeTimer = none
          ∧ x.startStep.partConsumed = true)
      ∧ (x.settings.handshakeType = .level → x.lines.present.qualified = false → 0 < x.settings.doneDelay →
        x.startStep.lines.handshake = .pulsing ∧ x.startStep.lines.handshakeTimer = some x.settings.doneDelay
          ∧ x.startStep.partConsumed = x.partConsumed)
      ∧ (x.settings.handshakeType ≠ .pulse → x.lines.present.qualified = false → x.settings.doneDelay = 0 →
        x.mode = .release → LeftRelease x.queue x.startStep) := by
  refine ⟨fun delayed delay => ?_, fun pulse => ?_, fun now there => ?_, fun level absent delay => ?_,
    fun long absent noDelay release => ?_⟩
  · rw [startStep_delays delayed delay]; exact ⟨rfl, rfl⟩
  · rw [startStep_pulse pulse, assertDone_pulse pulse]; exact ⟨rfl, rfl, rfl⟩
  · rcases now with level | ⟨delayed, noDelay⟩
    · rw [startStep_level level, assertDone_present (by rw [level]; decide) there]; exact ⟨rfl, rfl, rfl⟩
    · rw [startStep_noDelay noDelay, assertDone_present (by rw [delayed]; decide) there]; exact ⟨rfl, rfl, rfl⟩
  · rw [startStep_level level, assertDone_absent (by rw [level]; decide) absent delay]; exact ⟨rfl, rfl, rfl⟩
  · rw [startStep_noDelay noDelay, assertDone_completes long absent noDelay]
    exact leftRelease_completeHandshake (by exact release) rfl

open StationState in
/-- Settles O37: by the handshake states: the start step, the assertion of DONE, and the completion that leaves RELEASE. -/
theorem handshakeFollowsItsLines : Obligations.HandshakeFollowsItsLines := by
  intro s u n x set left
  have leaves {t : State} (h : LeftRelease x.queue (t.st u)) : left t := ⟨h.handshake, h.timer, h.mode, h.owed, h.finished⟩
  refine ⟨fun q line running changed => ?_, fun running gone was => ?_, fun running => ?_⟩
  · subst line
    obtain ⟨t, run, alone, state⟩ := qualificationExpiry_station (k := .hold) (holdChanged x.lines.hold.sampled)
      (fun _ => rfl) running rfl changed
    have kept : (t.st u).lines.hold = ⟨x.lines.hold.sampled, x.lines.hold.sampled, none⟩ := by
      have line := qual_lineChanged ((s.elapse n).putLine u .hold ⟨x.lines.hold.sampled, x.lines.hold.sampled, none⟩) u
        .hold x.lines.hold.sampled .hold
      rw [qual_putLine] at line
      refine Eq.trans ?_ line
      rw [state, State.lineChanged, State.putLine, modSt_modSt, st_modSt_self, st_elapse]
      rfl
    have becomes {b : Bool} (sampled : x.lines.hold.sampled = b) :
        t.st u = holdChanged b ((x.elapse n).modLines (Lines.setQual .hold ⟨b, b, none⟩)) := sampled ▸ state
    refine ⟨t, run, alone, kept, fun active delaying => ?_, fun active other => ?_, fun inactive other => ?_,
      fun inactive held => ?_⟩
    · rw [(becomes active).trans (holdChanged_held delaying)]; exact ⟨rfl, rfl⟩
    · rw [(becomes active).trans (holdChanged_active_other other)]; rfl
    · rw [(becomes inactive).trans (holdChanged_inactive_other other)]; rfl
    · rw [(becomes inactive).trans (holdChanged_released held)]
      obtain ⟨delays, pulses, asserts, absent, completes⟩ := startStep_cases
        ((x.elapse n).modLines (Lines.setQual .hold ⟨false, false, none⟩))
      refine ⟨delays, pulses, asserts, absent, fun long missing noDelay release => leaves ?_⟩
      rw [(becomes inactive).trans (holdChanged_released held)]
      exact completes long missing noDelay release
  · obtain ⟨t, run, alone, state⟩ := qualificationExpiry_station (k := .present) presentGone (fun _ => rfl) running gone
      (by rw [show (x.lines.qual .present).qualified = true from was]; decide)
    have consumed : (t.st u).partConsumed = false := by
      rw [state]
      unfold presentGone
      dsimp only
      split
      · exact partConsumed_completeHandshake
      · rfl
    refine ⟨t, run, alone, consumed, fun asserted release => leaves ?_, fun other => ?_⟩
    · rw [state, presentGone_asserted (by exact asserted)]
      exact leftRelease_completeHandshake (by exact release) rfl
    · rw [state, presentGone_other (by exact other)]
      exact ⟨rfl, rfl⟩
  · have state : ((s.elapse n).modSt u handshakeDue).st u = (x.elapse n).handshakeDue := by
      rw [st_modSt_self, st_elapse]
    refine ⟨_, handshakeTimerExpiry_expires running, modSt_eq_setSt _ _ _, fun delaying long present => ?_,
      fun delaying long absent delay => ?_, fun delaying long absent noDelay release => leaves ?_,
      fun delaying pulse => ?_, fun pulsing release => ⟨leaves ?_, ?_⟩⟩
    · rw [state.trans (handshakeDue_delaying delaying), assertDone_present (by exact long) (by exact present)]
      exact ⟨rfl, rfl, rfl⟩
    · rw [state.trans (handshakeDue_delaying delaying),
        assertDone_absent (by exact long) (by exact absent) (by exact delay)]
      exact ⟨rfl, rfl, rfl, rfl⟩
    · rw [state.trans (handshakeDue_delaying delaying),
        assertDone_completes (by exact long) (by exact absent) (by exact noDelay)]
      exact leftRelease_completeHandshake (by exact release) rfl
    · rw [state.trans (handshakeDue_delaying delaying), assertDone_pulse (by exact pulse)]; exact ⟨rfl, rfl, rfl⟩
    · rw [state.trans (handshakeDue_pulsing pulsing)]
      exact leftRelease_completeHandshake (by exact release) rfl
    · rw [state.trans (handshakeDue_pulsing pulsing)]
      exact partConsumed_completeHandshake

end Sys2Proof.Machine
end

section
/-! PROOFS. AXIS-FAULT, HOME-SW and the search timer (R92, R93, R100). -/

namespace Sys2Proof.Machine

/-- A search that fails: the motion stops, and homing ends where it began. -/
theorem homingFailed_eq (x : StationState) :
    x.homingFailed =
      { x with
        homeResult := .failed
        mode := if x.mode = .homing then x.homingOrigin.mode else x.mode
        motion :=
          { x.motion with mode := .stop, arrival := .awaited, searchTimer := none, stallTimer := none } } := by
  rw [StationState.homingFailed, setTravel_rests rfl]
  rfl

section
variable {s : State} {u : Station}

theorem exec_axisFaultActive_same (same : (s.st u).lines.axisFault = true) : exec (.axisFaultActive u) s = .next s :=
  congrArg Host.Outcome.next (if_pos same)

theorem exec_axisFaultActive (low : (s.st u).lines.axisFault = false) :
    exec (.axisFaultActive u) s = .next (s.axisRaised u) :=
  congrArg Host.Outcome.next (if_neg (by rw [low]; exact Bool.false_ne_true))

/-- The travel mode is as before the line was sampled. -/
theorem mode_setAxisLine (b : Bool) :
    ((s.modSt u (StationState.setAxisLine b)).st u).motion.mode = (s.st u).motion.mode := by
  rw [st_modSt_self]; rfl

/-- With the motion at rest, AXIS-FAULT is only kept. -/
theorem axisRaised_stop (stop : (s.st u).motion.mode = .stop) :
    s.axisRaised u = s.modSt u (StationState.setAxisLine true) := by
  rw [State.axisRaised, mode_setAxisLine, stop]

/-- In HOLD and SCAN the fault is handed. -/
theorem axisRaised_hands (moves : (∃ v, (s.st u).motion.mode = .scan v) ∨ (s.st u).motion.mode = .hold) :
    s.axisRaised u = s.modSt u fun x => (x.setAxisLine true).hand .axis := by
  rw [State.axisRaised, mode_setAxisLine]
  rcases moves with ⟨v, scan⟩ | hold
  · rw [scan]; exact modSt_modSt _ _ _ _
  · rw [hold]; exact modSt_modSt _ _ _ _

/-- A search fails. -/
theorem axisRaised_search {ph : SeekPhase} {v : Nat} (search : (s.st u).motion.mode = .seekHome ph v) :
    s.axisRaised u = s.modSt u fun x => (x.setAxisLine true).homingFailed := by
  rw [State.axisRaised, mode_setAxisLine, search]
  exact modSt_modSt _ _ _ _

/-- In a move the sequencer takes the fault at once. -/
theorem axisRaised_move {g : Nat} {v : Nat} (move : (s.st u).motion.mode = .moveTo g v) :
    s.axisRaised u = (s.modSt u (StationState.setAxisLine true)).takeFault u .axis := by
  rw [State.axisRaised, mode_setAxisLine, move]

theorem takeFault_unowned {f : FaultCode} (free : (s.st u).current = none) : s.takeFault u f = s :=
  if_neg (by rw [StationState.busy, free]; exact Bool.false_ne_true)

theorem takeFault_recorded {f : FaultCode} {c : Context} (is : (s.st u).current = some c) :
    s.takeFault u f = (s.modSt u fun x => { x with current := some (faultRecorded f c) }).actOnFault u f := by
  refine (if_pos (by rw [StationState.busy, is]; rfl)).trans (congrArg (State.actOnFault u f) ?_)
  refine modSt_congr s u ?_
  rw [modContext_some is, recordFault_recorded]

/-- A record and the halt leave the lines of the station. -/
theorem lines_halted {c : Context} {cause : HaltCause} {g : StationState → StationState}
    (is : (g (s.st u)).current = some c) :
    ((((s.modSt u g).writeRecord u none).modSt u (StationState.enterHalted cause)).st u).lines = (g (s.st u)).lines := by
  have own : (s.modSt u g).st u = g (s.st u) := st_modSt_self _ _ _
  rw [st_modSt_self, lines_enterHalted, st_writeRecord_self (s.modSt u g) u none (by rw [own]; exact is), own]
  rfl

/-- AXIS-FAULT active, and AXIS recorded. -/
def StationState.axisRecorded (c : Context) (x : StationState) : StationState :=
  { x.setAxisLine true with current := some (faultRecorded .axis c) }

/-- AXIS at W4 or in RETURN ends the cycle with its record, and halts the station (R36, R168). -/
theorem axisRaised_halts {c : Context} {g : Nat} {v : Nat} (move : (s.st u).motion.mode = .moveTo g v)
    (is : (s.st u).current = some c)
    (at' : ((s.st u).mode = .walk ∧ (s.st u).walk.current = some .w4) ∨ (s.st u).mode = .returning) :
    ∃ t r, s.axisRaised u = t.judgeStarts ∧ RecordWritten u c r s t ∧ r.outcome = .faulted
      ∧ r.firstFault = (faultRecorded .axis c).firstFault
      ∧ (t.st u).lines.axisFault = true ∧ (t.st u).mode = .halted
      ∧ (t.st u).haltCause = .axis ∧ (t.st u).motion.mode = .stop
      ∧ t.channel = s.channel ∧ t.st u.other = s.st u.other ∧ Around s t := by
  have taken : s.axisRaised u = (s.modSt u (StationState.axisRecorded c)).actOnFault u .axis := by
    rw [axisRaised_move move, takeFault_recorded (by rw [st_modSt_self]; exact is), modSt_modSt]
    rfl
  have own : (s.modSt u (StationState.axisRecorded c)).st u = (s.st u).axisRecorded c := st_modSt_self _ _ _
  have halts (g : StationState → StationState) (recorded : (g (s.st u)).current = some (faultRecorded .axis c))
      (raised : (g (s.st u)).lines.axisFault = true)
      (ends : s.axisRaised u
        = (((s.modSt u g).writeRecord u none).modSt u (StationState.enterHalted .axis)).judgeStarts) : ∃ t r,
      s.axisRaised u = t.judgeStarts ∧ RecordWritten u c r s t ∧ r.outcome = .faulted
        ∧ r.firstFault = (faultRecorded .axis c).firstFault ∧ (t.st u).lines.axisFault = true
        ∧ (t.st u).mode = .halted ∧ (t.st u).haltCause = .axis ∧ (t.st u).motion.mode = .stop
        ∧ t.channel = s.channel ∧ t.st u.other = s.st u.other ∧ Around s t := by
    obtain ⟨r, written, outcome, first, -, halted, cause, stop, -, -, -, channel, other, around⟩ :=
      halted_by_axis (s := s) (u := u) (f := .axis) (c := c) recorded rfl
    exact ⟨_, r, ends, written, outcome, first, by rw [lines_halted recorded]; exact raised, halted, cause, stop,
      channel, other, around⟩
  rcases at' with ⟨walk, w4⟩ | returning
  · refine halts (fun x => (x.axisRecorded c).modWalk (Walk.finish .w4 .axis .none)) rfl rfl ?_
    rw [taken, actOnFault_axis_walk (by rw [own]; exact walk) (by rw [own]; exact w4), modSt_modSt]
  · refine halts (StationState.axisRecorded c) rfl rfl ?_
    rw [taken, actOnFault_axis_returning (by rw [own]; exact returning)]

end

/-- Settles O38: by the travel mode the fault finds; in a move the sequencer records it and halts. -/
theorem axisAndHomeSwitch : Obligations.AxisAndHomeSwitch := by
  intro s u a n x raised failed
  refine ⟨rfl, exec_axisFaultActive_same, fun low => ?_, fun same => congrArg Host.Outcome.next (if_pos same),
    fun differs => ?_, fun running => ?_⟩
  · have run := exec_axisFaultActive low
    refine ⟨fun stop => ?_, fun moves => ?_, fun ph v search => ?_,
      fun g v move => ⟨fun free => ?_, fun c is at' => ?_⟩⟩
    · rw [run, axisRaised_stop stop]; rfl
    · rw [run, axisRaised_hands moves]; rfl
    · rw [run, axisRaised_search search]
      exact congrArg Host.Outcome.next (modSt_congr s u (homingFailed_eq _))
    · rw [run, axisRaised_move move, takeFault_unowned (by rw [st_modSt_self]; exact free)]; rfl
    · obtain ⟨t, r, raises, rest⟩ := axisRaised_halts move is at'
      exact ⟨t, r, run.trans (congrArg _ raises), rest⟩
  · exact congrArg Host.Outcome.next (if_neg differs)
  · refine congrArg Host.Outcome.next ((expire_some s running _).trans ?_)
    exact modSt_congr _ u (homingFailed_eq _)

end Sys2Proof.Machine
end

section
/-! PROOFS. COIL-FLOW (R117, R127). -/

namespace Sys2Proof.Machine

section
variable {s : State} {u : Station}

theorem coilFlowOff_eq :
    s.coilFlowOff u = s.modSt u fun x =>
      { x with
        lines := { x.lines with coilFlow := false }
        handed :=
          if x.mode = .heat ∧ s.channel.holder = some u then x.handed ++ [.coilFlow] else x.handed } := by
  rw [State.coilFlowOff]
  by_cases heats : (s.st u).mode = .heat ∧ s.channel.holder = some u
  · refine (if_pos (by rw [st_modSt_self, channel_modSt]; exact heats)).trans ?_
    rw [modSt_modSt]
    refine modSt_congr s u ?_
    rw [if_pos heats]
    rfl
  · refine (if_neg (by rw [st_modSt_self, channel_modSt]; exact heats)).trans (modSt_congr s u ?_)
    rw [if_neg heats]
    rfl

/-- The state with COIL-FLOW active. -/
def State.flowing (u : Station) (s : State) : State :=
  s.modSt u fun x => { x with lines := { x.lines with coilFlow := true } }

theorem st_flowing : (s.flowing u).st u = { s.st u with lines := { (s.st u).lines with coilFlow := true } } :=
  st_modSt_self _ _ _

theorem tank_flowing : (s.flowing u).tank = s.tank := tank_modSt _ _ _

theorem exec_coilFlowActive_same (same : (s.st u).lines.coilFlow = true) : exec (.coilFlowActive u) s = .next s :=
  congrArg Host.Outcome.next (if_pos same)

theorem exec_coilFlowActive_elsewhere (low : (s.st u).lines.coilFlow = false) (away : (s.st u).walk.current ≠ some .w2) :
    exec (.coilFlowActive u) s = .next (s.flowing u) := by
  refine congrArg Host.Outcome.next ((if_neg (by rw [low]; exact Bool.false_ne_true)).trans ?_)
  exact if_neg (by rw [st_modSt_self]; exact away)

theorem exec_coilFlowActive_w2 (low : (s.st u).lines.coilFlow = false) (at' : (s.st u).walk.current = some .w2) :
    exec (.coilFlowActive u) s = .next ((s.flowing u).passW2 u) := by
  refine congrArg Host.Outcome.next ((if_neg (by rw [low]; exact Bool.false_ne_true)).trans ?_)
  exact if_pos (by rw [st_modSt_self]; exact at')

end

/-- Settles O39: from the two ways past W2: on to W4, or a walk failed at W3. -/
theorem coilFlowLine : Obligations.CoilFlowLine := by
  intro s u x p
  refine ⟨fun low => congrArg Host.Outcome.next (if_neg (Bool.not_eq_true _ ▸ low)), fun high => ?_,
    exec_coilFlowActive_same, fun low => ?_⟩
  · exact congrArg Host.Outcome.next ((if_pos high).trans coilFlowOff_eq)
  · intro flowing
    refine ⟨exec_coilFlowActive_elsewhere low, fun at' opens => ?_, fun at' critical held => ?_⟩
    · rw [exec_coilFlowActive_w2 low at',
        passW2_opens (by rw [tank_flowing, st_flowing]; exact opens), State.flowing, profileOf_modSt s u _ rfl]
    · obtain ⟨alone, ended⟩ := passW2_fails (s := s.flowing u) (u := u) (by rw [tank_flowing]; exact critical)
        (by rw [st_flowing]; exact held)
      exact ⟨_, exec_coilFlowActive_w2 low at', alone.trans (setSt_setSt s u _ _), ended⟩

end Sys2Proof.Machine
end

section
/-! PROOFS. The inverter's lines and the changeover (R75, R79, R80, R83, R132). -/

namespace Sys2Proof.Machine

/-! ### INV-READY -/

theorem invReadyOff_heats {s : State} {u : Station} (heats : s.channel.state = .held u true) :
    s.invReadyOff = ({ s with invReady := false } : State).modSt u (StationState.hand .invDrop) := by
  rw [State.invReadyOff, Channel.holderInHeat, heats]

theorem invReadyOff_elsewhere {s : State} (elsewhere : ∀ v, s.channel.state ≠ .held v true) :
    s.invReadyOff = { s with invReady := false } := by
  have none' : s.channel.holderInHeat = none := by
    unfold Channel.holderInHeat
    split
    case h_1 v heats => exact absurd heats (elsewhere v)
    case h_2 => rfl
  rw [State.invReadyOff, none']

theorem passW8_elsewhere {s : State} {u : Station} (away : (s.st u).walk.current ≠ some .w8) : s.passW8 u = s :=
  if_neg away

theorem passW8_passes {s : State} {u : Station} (at' : (s.st u).walk.current = some .w8) :
    s.passW8 u = s.passWalk u := if_pos at'

theorem invReadyOn_nobody {s : State} (a : s.a.walk.current ≠ some .w8) (b : s.b.walk.current ≠ some .w8) :
    s.invReadyOn = { s with invReady := true } := by
  rw [State.invReadyOn, passW8_elsewhere (u := .a) (by exact a), passW8_elsewhere (u := .b) (by exact b)]

/-- A station alone at W8 passes into HEAT. -/
theorem invReadyOn_passes {s : State} {u : Station} (at' : (s.st u).walk.current = some .w8)
    (alone : (s.st u.other).walk.current ≠ some .w8) :
    s.invReadyOn = ({ s with invReady := true } : State).passWalk u := by
  cases u
  case a =>
    have other := (passWalk_entered { s with invReady := true } .a).other
    rw [State.invReadyOn, passW8_passes (u := .a) (by exact at')]
    exact passW8_elsewhere (u := .b) (by rw [show (_ : State).st .b = _ from other]; exact alone)
  case b => rw [State.invReadyOn, passW8_elsewhere (u := .a) (by exact alone), passW8_passes (u := .b) (by exact at')]

/-- Settles O40: the one station at W8 passes into HEAT as `passWalk_entered` says. -/
theorem inverterReadyLine : Obligations.InverterReadyLine := by
  intro s u
  refine ⟨fun low => congrArg Host.Outcome.next (if_neg (by rw [low]; exact Bool.false_ne_true)), fun high => ?_,
    fun high => congrArg Host.Outcome.next (if_pos high), fun low => ?_⟩
  · have run : exec .invReadyInactive s = .next s.invReadyOff := congrArg Host.Outcome.next (if_pos high)
    exact ⟨fun heats => run.trans (congrArg _ (invReadyOff_heats heats)),
      fun elsewhere => run.trans (congrArg _ (invReadyOff_elsewhere elsewhere))⟩
  · have run : exec .invReadyActive s = .next s.invReadyOn :=
      congrArg Host.Outcome.next (if_neg (by rw [low]; exact Bool.false_ne_true))
    refine ⟨fun a b => run.trans (congrArg _ (invReadyOn_nobody a b)), fun at' alone held => ?_⟩
    have entered := passWalk_entered { s with invReady := true } u
    exact ⟨_, run.trans (congrArg _ (invReadyOn_passes at' alone)), entered.around.invReady, entered⟩

/-! ### INV-FAULT -/

/-- The channel FAULTED, its demand and its timers gone. -/
def Channel.dead (c : Channel) : Channel := c.leaveHeld .faulted

theorem NoRecord.of_channel {s t : State} {b : Bool} {c : Channel}
    (h : NoRecord (({ s with invFault := b } : State).setChannel c) t) : NoRecord s t :=
  ⟨h.slots, h.records, h.reservations, h.run⟩

theorem Around.of_channel {s t : State} {c : Channel} (h : Around (s.setChannel c) t) : Around s t := by
  obtain ⟨pending, time, link, tank, common, ready, fault, line, stop, slots⟩ := h
  exact ⟨pending, time, link, tank, common, ready, fault, line, stop, slots⟩

section
variable {s : State} {u : Station}

theorem channelFault_free (free : s.channel.state = .free) :
    s.channelFault = s.setChannel { s.channel with state := .faulted } := by
  rw [State.channelFault, free]

theorem channelFault_elsewhere (stands : (∃ v w, s.channel.state = .switching v w) ∨ s.channel.state = .faulted) :
    s.channelFault = s := by
  rw [State.channelFault]
  rcases stands with ⟨v, w, switching⟩ | faulted
  · rw [switching]
  · rw [faulted]

theorem channelFault_heats (heats : s.channel.state = .held u true) :
    s.channelFault = (s.setChannel s.channel.dead).modSt u (StationState.hand .inverter) := by
  rw [State.channelFault, heats]
  rfl

theorem channelFault_w8 (held : s.channel.state = .held u false) (at' : (s.st u).walk.current = some .w8) :
    s.channelFault = (s.setChannel s.channel.dead).endWalk u .failed .invFault := by
  rw [State.channelFault, held]
  exact if_pos (by cases u <;> exact at')

/-- A walk that fails at W8 with the channel already FAULTED leaves the channel and the other station alone. -/
theorem endWalk_w8_dead (at' : (s.st u).walk.current = some .w8) :
    let b := s.setChannel s.channel.dead
    let t := b.endWalk u .failed .invFault
    WalkEnded u .w8 .failed .invFault .notStarted b t ∧ t.channel = b.channel ∧ t.st u.other = b.st u.other := by
  intro b t
  have ended : WalkEnded u .w8 .failed .invFault .notStarted b t :=
    endWalk_ended b u .w8 .failed .invFault (by cases u <;> exact at') (by decide)
  exact ⟨ended, ended.unheld rfl (Option.some_ne_none u).symm⟩

end

theorem invFaultOff_faulted {s : State} (faulted : s.channel.state = .faulted) :
    s.invFaultOff = ((({ s with invFault := false } : State).setChannel { s.channel with state := .free })).grant :=
  if_pos faulted

/-- Settles O41: by the channel's state; a walk failing at W8 finds the channel FAULTED already, so nothing is released. -/
theorem inverterFaultLine : Obligations.InverterFaultLine := by
  intro s u on off dead
  refine ⟨fun high => congrArg Host.Outcome.next (if_pos high), fun low => ?_,
    fun low => congrArg Host.Outcome.next (if_neg (by rw [low]; exact Bool.false_ne_true)), fun high => ?_⟩
  · have run : exec .invFaultActive s = .next on.channelFault :=
      congrArg Host.Outcome.next (if_neg (by rw [low]; exact Bool.false_ne_true))
    refine ⟨fun free => run.trans (congrArg _ (channelFault_free (s := on) free)),
      fun stands => run.trans (congrArg _ (channelFault_elsewhere (s := on) stands)),
      fun heats => run.trans (congrArg _ (channelFault_heats (s := on) heats)), fun held at' => ?_⟩
    have at'' : (on.st u).walk.current = some .w8 := by cases u <;> exact at'
    obtain ⟨ended, channel, other⟩ := endWalk_w8_dead (s := on) at''
    have calm := (endWalk_served (on.setChannel dead) u (r := .failed) (by decide) .invFault).toCalm
    exact ⟨_, run.trans (congrArg _ (channelFault_w8 (s := on) held at'')), ended, channel,
      other.trans (by cases u <;> rfl), calm.noRecord.of_channel, calm.around.of_channel⟩
  · have run : exec .invFaultInactive s = .next s.invFaultOff := congrArg Host.Outcome.next (if_pos high)
    refine ⟨fun other => run.trans (congrArg _ (if_neg other)), fun faulted => ?_⟩
    exact ⟨_, run.trans (congrArg _ (invFaultOff_faulted faulted)), grant_made rfl⟩

/-! ### The end of a changeover (R75) -/

section
variable {s : State} {u : Station} {withdrawn : Bool}

theorem changeoverDue_fault (switching : s.channel.state = .switching u withdrawn) (fault : s.invFault = true) :
    s.changeoverDue = s.setChannel
      { s.channel with
        changeover := none
        state := .faulted
        waiting := if withdrawn then s.channel.waiting else u :: s.channel.waiting } := by
  rw [State.changeoverDue, switching]
  exact if_pos fault

theorem changeoverDue_withdrawn (switching : s.channel.state = .switching u true) (fault : s.invFault = false) :
    s.changeoverDue = (s.setChannel { s.channel with changeover := none, state := .free }).grant := by
  rw [State.changeoverDue, switching]
  exact if_neg (by rw [fault]; exact Bool.false_ne_true)

theorem changeoverDue_holds (switching : s.channel.state = .switching u false) (fault : s.invFault = false) :
    s.changeoverDue = (s.setChannel { s.channel with changeover := none }).holdChannel u := by
  rw [State.changeoverDue, switching]
  exact if_neg (by rw [fault]; exact Bool.false_ne_true)

theorem changeoverExpiry_expires {n : Nat} (running : s.channel.changeover = some n) :
    exec .changeoverExpiry s = .next (s.elapse n).changeoverDue :=
  congrArg Host.Outcome.next (expire_some s running _)

end

/-- Settles O42: a changeover ends in a fault, a hold (`holdChannel_granted`) or a grant (`grant_made`). -/
theorem changeoverEnds : Obligations.ChangeoverEnds := by
  intro s u withdrawn n running switching b c
  have run := changeoverExpiry_expires running
  refine ⟨fun fault => ?_, fun quiet kept => ?_, fun quiet gone => ?_⟩
  · exact run.trans (congrArg _ (changeoverDue_fault (s := s.elapse n) switching fault))
  · subst kept
    exact ⟨_, run.trans (congrArg _ (changeoverDue_holds (s := s.elapse n) switching quiet)),
      holdChannel_granted (b.setChannel c) u⟩
  · subst gone
    exact ⟨_, run.trans (congrArg _ (changeoverDue_withdrawn (s := s.elapse n) switching quiet)), grant_made rfl⟩

end Sys2Proof.Machine
end

section
/-! PROOFS. A power reading, and the channel's two timers (R51, R57, R81, R82, R84). -/

namespace Sys2Proof.Machine

theorem modSt_fixed {s : State} {u : Station} {f : StationState → StationState} (fixed : f (s.st u) = s.st u) :
    s.modSt u f = s := by
  rw [State.modSt, fixed, setSt_st]

theorem setChannel_modSt (s : State) (u : Station) (f : StationState → StationState) (c : Channel) :
    (s.modSt u f).setChannel c = (s.setChannel c).modSt u f := by
  cases u <;> rfl

theorem setChannel_setChannel (s : State) (c d : Channel) : (s.setChannel c).setChannel d = s.setChannel d := rfl

/-! ### The open slice -/

/-- A trail with a reading credited, and reported out of band or not. -/
def Trail.metered (outside : Bool) (power : Nat) (t : Trail) : Trail :=
  if outside then (t.credit power).bandReport else t.credit power

theorem metered_heating {outside : Bool} {power h : Nat} {sl : SliceRec} {t : Trail} (heating : t.phase = .heating h sl) :
    t.metered outside power =
      { t with
        remainder := (t.remainder + power) % 10
        phase := .heating h
          { sl with
            energy := addEnergy sl.energy ((t.remainder + power) / 10)
            peak := max sl.peak power
            flags := if outside then { sl.flags with powerBand := true } else sl.flags } } := by
  have credited : t.credit power =
      { t with
        phase := .heating h
          { sl with
            energy := addEnergy sl.energy ((t.remainder + power) / 10), peak := max sl.peak power }
        remainder := (t.remainder + power) % 10 } := by
    rw [Trail.credit, heating]
  rw [Trail.metered, credited]
  cases outside <;> rfl

theorem metered_rest {outside : Bool} {power h : Nat} {t : Trail} (rests : t.phase = .draining h ∨ t.phase = .idle) :
    t.metered outside power = t := by
  have credited : t.credit power = t := by
    rw [Trail.credit]; rcases rests with p | p <;> rw [p]
  have reported : t.bandReport = t := by
    rw [Trail.bandReport]; rcases rests with p | p <;> rw [p]
  rw [Trail.metered, credited, reported]
  exact ite_self t

/-! ### The reading and the timers -/

theorem holderInHeat_none {c : Channel} (elsewhere : ∀ v, c.state ≠ .held v true) : c.holderInHeat = none := by
  unfold Channel.holderInHeat
  split
  case h_1 v heats => exact absurd heats (elsewhere v)
  case h_2 => rfl

theorem holderInHeat_some {c : Channel} {u : Station} (heats : c.state = .held u true) : c.holderInHeat = some u := by
  rw [Channel.holderInHeat, heats]

theorem judgeResponse_eq (limit power : Nat) (c : Channel) :
    c.judgeResponse limit power =
      { c with
        response := if 0 < c.demand ∧ 10 * power < c.demand then some (c.response.getD limit) else none } := by
  unfold Channel.judgeResponse
  split <;> rfl

theorem settle_judgeResponse (limit power : Nat) (c : Channel) : (c.judgeResponse limit power).settle = c.settle := by
  rw [judgeResponse_eq]

theorem demand_judgeResponse (limit power : Nat) (c : Channel) : (c.judgeResponse limit power).demand = c.demand := by
  rw [judgeResponse_eq]

section
variable {s : State} {u : Station}

theorem readPower_elsewhere {power : Nat} (elsewhere : ∀ v, s.channel.state ≠ .held v true) :
    s.readPower power = s.setChannel { s.channel with measured := power } := by
  rw [State.readPower, holderInHeat_none (by exact elsewhere)]

/-- With the holder in HEAT the reading runs the response timer and is credited to the open slice. -/
theorem readPower_heats {power : Nat} (heats : s.channel.state = .held u true) :
    s.readPower power =
      (s.setChannel
        (({ s.channel with measured := power } : Channel).judgeResponse s.common.responseLimit power)).modSt u
        fun x => x.modTrail (Trail.metered
          (s.channel.settle = none
            ∧ outOfBand s.common.powerBand s.common.ratedPower s.channel.demand power = true) power) := by
  rw [State.readPower, holderInHeat_some (u := u) (by exact heats)]
  dsimp only
  rw [channel_modSt, common_modSt, setChannel_modSt, common_modSt, settle_judgeResponse, demand_judgeResponse]
  by_cases outside : s.channel.settle = none
      ∧ outOfBand s.common.powerBand s.common.ratedPower s.channel.demand power = true
  · refine (if_pos outside).trans ?_
    rw [modSt_modSt]
    simp only [outside, and_self, decide_true]
    rfl
  · refine (if_neg outside).trans ?_
    simp only [outside, decide_false]
    rfl

/-- The response timer stopped. -/
def State.unanswered (s : State) : State := s.setChannel { s.channel with response := none }

theorem responseTimerExpiry_expires {n : Nat} (running : s.channel.response = some n) :
    exec .responseTimerExpiry s = .next
      (match (s.elapse n).unanswered.channel.holderInHeat with
      | some u =>
        if (s.elapse n).unanswered.channel.noPowerGiven then (s.elapse n).unanswered
        else ((s.elapse n).unanswered.setChannel
          { (s.elapse n).unanswered.channel with noPowerGiven := true }).modSt u (StationState.hand .noPower)
      | none => (s.elapse n).unanswered) :=
  congrArg Host.Outcome.next (expire_some s running _)

theorem responseTimerExpiry_hands {n : Nat} (running : s.channel.response = some n)
    (heats : s.channel.state = .held u true) (fresh : s.channel.noPowerGiven = false) :
    exec .responseTimerExpiry s = .next
      (((s.elapse n).unanswered.setChannel
        { (s.elapse n).unanswered.channel with noPowerGiven := true }).modSt u (StationState.hand .noPower)) := by
  rw [responseTimerExpiry_expires running, holderInHeat_some (u := u) (by exact heats)]
  exact congrArg Host.Outcome.next (if_neg (by rw [show (s.elapse n).unanswered.channel.noPowerGiven = false from fresh]
                                               exact Bool.false_ne_true))

theorem responseTimerExpiry_stops {n : Nat} (running : s.channel.response = some n)
    (quiet : s.channel.noPowerGiven = true ∨ ∀ v, s.channel.state ≠ .held v true) :
    exec .responseTimerExpiry s = .next (s.elapse n).unanswered := by
  rw [responseTimerExpiry_expires running]
  refine congrArg Host.Outcome.next ?_
  rcases quiet with given | elsewhere
  · split
    · exact if_pos given
    · rfl
  · rw [holderInHeat_none (by exact elsewhere)]

end

/-- Settles O43: the reading as one change of the channel and one of the open slice. -/
theorem powerReadingIsCredited : Obligations.PowerReadingIsCredited := by
  intro s u power h n sl w c measured apart outside
  have run (heats : c.state = .held u true) : exec (.powerReading power) s = .next
      ((s.setChannel measured).modSt u fun x => x.modTrail (Trail.metered (decide outside) w)) := by
    refine congrArg Host.Outcome.next ((readPower_heats heats).trans ?_)
    have same : outside ↔ s.channel.settle = none
        ∧ outOfBand s.common.powerBand s.common.ratedPower s.channel.demand w = true :=
      and_congr_right' decide_eq_true_iff.symm
    rw [judgeResponse_eq, decide_eq_decide.2 same]
  refine ⟨fun elsewhere => congrArg Host.Outcome.next (readPower_elsewhere elsewhere), fun heats heating => ?_,
    fun heats rests => ?_, fun x y fits => if_pos fits, fun running => ⟨responseTimerExpiry_hands running,
      responseTimerExpiry_stops running⟩, fun running => congrArg Host.Outcome.next (expire_some s running _)⟩
  · rw [run heats]
    refine congrArg Host.Outcome.next (modSt_congr _ u ?_)
    rw [st_setChannel, StationState.modTrail, metered_heating heating]
    simp only [decide_eq_true_eq]
  · rw [run heats]
    refine congrArg Host.Outcome.next (modSt_fixed ?_)
    rw [st_setChannel, StationState.modTrail, metered_rest rests]

end Sys2Proof.Machine
end

section
/-! PROOFS. The readings of rpm, of the ring flow and of the tank (R101 to R103, R107, R112, R113, R118). -/

namespace Sys2Proof.Machine

/-! ### Rpm -/

/-- The latest rpm reading is within tolerance of the demand (R101). -/
abbrev StationState.InTolerance (rpm : Nat) (x : StationState) : Prop :=
  rpm ≤ x.motion.spindleDemand + max 1 (x.motion.spindleDemand * x.settings.spindleTolerance / 100)
    ∧ x.motion.spindleDemand ≤ rpm + max 1 (x.motion.spindleDemand * x.settings.spindleTolerance / 100)

/-- The station with the rpm just read. -/
def StationState.withRpm (rpm : Nat) (x : StationState) : StationState := x.modMotion fun m => { m with rpm := rpm }

theorem spindleInTolerance_withRpm (rpm : Nat) (x : StationState) :
    (x.withRpm rpm).spindleInTolerance = decide (x.InTolerance rpm) :=
  (Bool.decide_and _ _).symm

theorem spindleJudged_iff (m : Mode) : m.spindleJudged = true ↔ m = .heat ∨ m = .runout ∨ m = .quenchOut := by
  cases m <;> simp [Mode.spindleJudged]

/-- The watch for a spindle at speed reports once. -/
def StationState.watchTold (ok : Bool) (x : StationState) : StationState :=
  if ok && x.motion.watch == .on then x.modMotion fun m => { m with watch := .found } else x

theorem watchTold_eq (ok : Bool) (x : StationState) :
    x.watchTold ok =
      x.modMotion fun m => { m with watch := if ok = true ∧ m.watch = .on then .found else m.watch } := by
  unfold StationState.watchTold
  by_cases told : ok = true ∧ x.motion.watch = .on
  · simp only [told, StationState.modMotion, beq_self_eq_true, Bool.and_self, and_self, if_true]
  · have quiet : ¬ (ok && x.motion.watch == .on) = true := by simpa using told
    rw [if_neg quiet]
    simp only [told, StationState.modMotion, if_false]

/-- The spindle timer and marker after a reading in HEAT, RUNOUT and QUENCH-OUT (R103). -/
def Motion.spindleWatched (ok : Bool) (m : Motion) : Motion :=
  if ok then { m with spindleTimer := none, spindleRaised := false }
  else if m.spindleRaised then m
  else { m with spindleTimer := some (m.spindleTimer.getD Config.spindleTime) }

theorem spindleWatched_eq (ok : Bool) (m : Motion) :
    m.spindleWatched ok =
      { m with
        spindleTimer :=
          if ok then none
          else if m.spindleRaised then m.spindleTimer
          else some (m.spindleTimer.getD Config.spindleTime)
        spindleRaised := if ok then false else m.spindleRaised } := by
  unfold Motion.spindleWatched
  split_ifs <;> rfl

theorem readRpm_unfold (rpm : Nat) (x : StationState) :
    x.readRpm rpm =
      let y := (x.withRpm rpm).watchTold (x.withRpm rpm).spindleInTolerance
      if y.mode.spindleJudged then y.modMotion (Motion.spindleWatched (x.withRpm rpm).spindleInTolerance) else y := rfl

theorem readRpm_eq (rpm : Nat) (x : StationState) :
    x.readRpm rpm =
      x.modMotion fun m =>
        { m with
          rpm := rpm
          watch := if x.InTolerance rpm ∧ m.watch = .on then .found else m.watch
          spindleTimer :=
            if x.mode.spindleJudged then
              if x.InTolerance rpm then none
              else if m.spindleRaised then m.spindleTimer
              else some (m.spindleTimer.getD Config.spindleTime)
            else m.spindleTimer
          spindleRaised := if x.mode.spindleJudged ∧ x.InTolerance rpm then false else m.spindleRaised } := by
  have mode : ((x.withRpm rpm).watchTold (decide (x.InTolerance rpm))).mode = x.mode := by
    rw [watchTold_eq]; rfl
  simp only [readRpm_unfold, spindleInTolerance_withRpm, mode]
  rw [watchTold_eq]
  cases x.mode.spindleJudged
  · rw [if_neg Bool.false_ne_true]
    simp only [decide_eq_true_eq, Bool.false_eq_true, if_false, false_and]
    rfl
  · rw [if_pos rfl]
    simp only [StationState.modMotion, spindleWatched_eq, decide_eq_true_eq, true_and, if_true]
    rfl

/-- Settles O48: the two blocks of the reading as one change of the motion unit. -/
theorem rpmReadingIsJudged : Obligations.RpmReadingIsJudged := by
  intro s u rpm n x m half ok judged
  refine ⟨congrArg Host.Outcome.next (modSt_congr s u ?_),
    fun running => congrArg Host.Outcome.next (expire_some s running _),
    fun running => congrArg Host.Outcome.next (expire_some s running _)⟩
  rw [readRpm_eq]
  simp only [spindleJudged_iff]
  rfl

/-! ### The ring flow -/

/-- The QUENCH-FLOW judgement wants the fault (R112). -/
abbrev StationState.FlowFails (x : StationState) : Prop :=
  x.quench.valve = .quench ∧ x.quench.riseTimer = none ∧ x.lowFlow = true ∧ x.quench.flowRaised = false

theorem judgeFlow_eq (x : StationState) :
    x.judgeFlow =
      { x with
        quench := { x.quench with flowRaised := if x.FlowFails then true else x.quench.flowRaised }
        handed := if x.FlowFails then x.handed ++ [.quenchFlow] else x.handed } := by
  by_cases fails : x.FlowFails
  · rw [if_pos fails, if_pos fails]
    exact if_pos fails
  · rw [if_neg fails, if_neg fails]
    exact if_neg fails

theorem lowFlow_iff (x : StationState) : x.lowFlow = true ↔ x.quench.flow < x.settings.flowMinimum := decide_eq_true_iff

/-- The quench unit with a flow reading taken, before it is judged (R113). -/
def StationState.withFlow (flow : Nat) (x : StationState) : StationState :=
  x.modQuench fun q =>
    { q with
      flow := flow
      proofPeak := if q.valve = .proof then max q.proofPeak flow else q.proofPeak
      proofSeen := if q.valve = .proof ∧ ¬ flow < x.settings.flowMinimum then true else q.proofSeen }

theorem readFlow_eq (flow : Nat) (x : StationState) : x.readFlow flow = (x.withFlow flow).judgeFlow := by
  refine congrArg StationState.judgeFlow ?_
  by_cases proof : x.quench.valve = .proof
  · rw [if_pos (by exact proof)]
    by_cases low : flow < x.settings.flowMinimum
    · simp [StationState.withFlow, StationState.modQuench, StationState.lowFlow, proof, low]
    · simp [StationState.withFlow, StationState.modQuench, StationState.lowFlow, proof, low]
  · rw [if_neg (by exact proof)]
    simp only [StationState.withFlow, StationState.modQuench, proof, if_false, false_and]

/-- Settles O49: the reading taken, then the judgement of QUENCH-FLOW. -/
theorem flowReadingIsJudged : Obligations.FlowReadingIsJudged := by
  intro s u flow n x q low raise late
  refine ⟨congrArg Host.Outcome.next (modSt_congr s u ?_), fun running =>
    congrArg Host.Outcome.next ((expire_some s running _).trans (modSt_congr _ u ?_))⟩
  · rw [readFlow_eq, judgeFlow_eq]
    simp only [StationState.FlowFails, lowFlow_iff]
    rfl
  · have fails : ((x.elapse n).modQuench fun q => { q with riseTimer := none }).FlowFails ↔ late :=
      and_congr_right' ((and_iff_right rfl).trans (and_congr_left' (lowFlow_iff _)))
    rw [judgeFlow_eq, st_elapse]
    by_cases fault : late
    · rw [if_pos (by exact fails.2 fault), if_pos (by exact fails.2 fault), if_pos fault, if_pos fault]
      rfl
    · rw [if_neg (by exact fails.not.2 fault), if_neg (by exact fails.not.2 fault), if_neg fault, if_neg fault]
      rfl

/-! ### The tank -/

theorem tankNext_eq (w c r : Int) (t : TankState) :
    tankNext w c t r =
      if r < -100 ∨ 1200 < r then .critical
      else
        match t with
        | .normal => if c ≤ r then .critical else if w ≤ r then .warm else .normal
        | .warm => if c ≤ r then .critical else if w ≤ r then .warm else if w - 10 ≤ r then .warm else .normal
        | .critical => if c - 10 ≤ r then .critical else if w - 10 ≤ r then .warm else .normal := by
  unfold tankNext
  refine if_congr Iff.rfl rfl ?_
  cases t
  case normal => rfl
  case warm =>
    by_cases warm : w ≤ r
    · exact if_congr Iff.rfl rfl ((if_pos (by omega)).trans (if_pos warm).symm)
    · exact if_congr Iff.rfl rfl (if_neg warm).symm
  case critical => rfl

theorem hot_iff (t : TankState) : t.hot = true ↔ t ≠ .normal := by
  cases t <;> decide

/-- What a tank that has become `next` makes of a station. -/
def StationState.tankTold (was next : TankState) (x : StationState) : StationState :=
  if next ≠ was ∧ next ≠ .normal ∧ (x.mode = .heat ∨ x.mode = .runout) then x.markTankWarm else x

theorem tankTold_changed {was next : TankState} (changed : (next != was && next.hot) = true) (x : StationState) :
    x.tankTold was next = x.tankChanged := by
  obtain ⟨differs, hot⟩ := Bool.and_eq_true_iff.1 changed
  refine if_congr ?_ rfl rfl
  simp only [bne_iff_ne.1 differs, (hot_iff next).1 hot, ne_eq, not_false_eq_true, true_and]

theorem tankTold_same {was next : TankState} (same : ¬ (next != was && next.hot) = true) (x : StationState) :
    x.tankTold was next = x :=
  if_neg fun h => same (Bool.and_eq_true_iff.2 ⟨bne_iff_ne.2 h.1, (hot_iff next).2 h.2.1⟩)

theorem readTank_eq (r : Int) (s : State) :
    s.readTank r =
      let next := tankNext s.common.warnThreshold s.common.criticalThreshold s.tank.state r
      { s with tank := ⟨next, r⟩, a := s.a.tankTold s.tank.state next, b := s.b.tankTold s.tank.state next } := by
  dsimp only [State.readTank]
  generalize tankNext _ _ _ _ = next
  by_cases changed : (next != s.tank.state && next.hot) = true
  · rw [tankTold_changed changed, tankTold_changed changed]
    exact if_pos changed
  · rw [tankTold_same changed, tankTold_same changed]
    exact if_neg changed

/-- Settles O50: the tables of R118, and what a station is told of a change. -/
theorem tankReadingIsClassified : Obligations.TankReadingIsClassified := by
  intro s reading r w c next told
  refine congrArg Host.Outcome.next ((readTank_eq r s).trans ?_)
  rw [tankNext_eq]
  rfl

end Sys2Proof.Machine
end

section
/-! PROOFS. A slice tallied (R50, R56, R58, R60, R61, R64). -/

namespace Sys2Proof.Machine

/-- The cycle tallies with a slice counted (R60). -/
def Tallies.counted (delay : Option Nat) (sl : SliceRec) (ta : Tallies) : Tallies :=
  { ta.addSlice delay sl with flagged := if sl.flags = {} then ta.flagged else ta.flagged + 1 }

theorem addSlice_eq (delay : Option Nat) (sl : SliceRec) (ta : Tallies) : ta.addSlice delay sl = ta.counted delay sl := by
  have flagged : (if sl.flags.any then ta.flagged + 1 else ta.flagged)
      = if sl.flags = {} then ta.flagged else ta.flagged + 1 := by
    by_cases clean : sl.flags = {}
    · rw [if_neg fun h => (Flags.any_iff _).1 h clean, if_pos clean]
    · rw [if_pos ((Flags.any_iff _).2 clean), if_neg clean]
  unfold Tallies.counted Tallies.addSlice
  rw [flagged]

theorem tally_eq (delay : Option Nat) (sl : SliceRec) (t : Trail) :
    t.tally delay sl = Trail.tallyZone sl.index sl.flags { t with tallies := t.tallies.counted delay sl } := by
  rw [Trail.tally, addSlice_eq]

section
variable {t : Trail} {k : Nat} {f : Flags}

theorem tallyZone_clean (clean : f = {}) : t.tallyZone k f = { t with run := .none } :=
  if_neg fun h => (Flags.any_iff f).1 h clean

theorem tallyZone_opens (flagged : f ≠ {}) (none' : t.run = .none) (room : t.tallies.zones.length < 8) :
    t.tallyZone k f =
      { t with tallies := { t.tallies with zones := t.tallies.zones ++ [⟨k, 1, f⟩] }, run := .listed } := by
  refine (if_pos ((Flags.any_iff f).2 flagged)).trans ?_
  rw [none']
  exact if_pos room

theorem tallyZone_overflows (flagged : f ≠ {}) (none' : t.run = .none) (full : 8 ≤ t.tallies.zones.length) :
    t.tallyZone k f =
      { t with tallies := { t.tallies with beyond := min 255 (t.tallies.beyond + 1) }, run := .beyond } := by
  refine (if_pos ((Flags.any_iff f).2 flagged)).trans ?_
  rw [none']
  exact if_neg full.not_gt

theorem tallyZone_extends {zones : List Zone} {z : Zone} (flagged : f ≠ {}) (listed : t.run = .listed)
    (last : t.tallies.zones = zones ++ [z]) :
    t.tallyZone k f =
      { t with
        tallies :=
          { t.tallies with zones := zones ++ [{ z with count := z.count + 1, flags := z.flags.union f }] } } := by
  refine (if_pos ((Flags.any_iff f).2 flagged)).trans ?_
  rw [listed, last, extendLastZone_append]

theorem tallyZone_beyond (flagged : f ≠ {}) (beyond : t.run = .beyond) : t.tallyZone k f = t := by
  refine (if_pos ((Flags.any_iff f).2 flagged)).trans ?_
  rw [beyond]

end

/-- Settles O47: one equation of `tallyZone` for each run of zones. -/
theorem slicesAreTallied : Obligations.SlicesAreTallied := by
  intro t delay sl f ta union up counted
  refine ⟨fun clean => ?_, fun flagged none' room => ?_, fun flagged none' full => ?_,
    fun zones z flagged listed last => ?_, fun flagged beyond => ?_, rfl, fun x y fits => if_pos fits, fun now => rfl,
    rfl, rfl, fun now earlier => rfl, fun set p k => rfl⟩
  · rw [tally_eq, tallyZone_clean clean]; rfl
  · rw [tally_eq, tallyZone_opens flagged (by exact none') (by exact room)]; rfl
  · rw [tally_eq, tallyZone_overflows flagged (by exact none') (by exact full)]; rfl
  · rw [tally_eq, tallyZone_extends flagged (by exact listed) (by exact last)]; rfl
  · rw [tally_eq, tallyZone_beyond flagged (by exact beyond)]; rfl

end Sys2Proof.Machine
end

section
/-! PROOFS. The trail's own operations: appends, arrivals and openings (R52, R53, R55, R67, R108, R109). -/

namespace Sys2Proof.Machine

namespace StationState

/-! ### The ring valve's opening (R108) -/

/-- The ring valve opened. -/
def opened (x : StationState) : StationState :=
  { x with quench := { x.quench with valve := .quench, riseTimer := some x.settings.flowRise, flowRaised := false } }

section
variable {x : StationState} {p : Profile}

theorem judgeOpen_open (open' : x.quench.valve ≠ .closed) : x.judgeOpen p = x := if_neg fun h => open' h.1

theorem opensRing_idle (idle : x.trail.high? = none) : x.opensRing p = false := by
  rw [opensRing, idle]

theorem opensRing_none (none' : ∀ o ∈ x.trail.list, o.quench = false) : x.opensRing p = false := by
  have found : x.trail.list.find? (fun sl => sl.quench) = none :=
    List.find?_eq_none.2 fun o has => by rw [none' o has]; exact Bool.false_ne_true
  rw [opensRing, oldestQuench, found]
  cases x.trail.high? <;> rfl

theorem opensRing_some {h : Nat} {o : SliceRec} (high : x.trail.high? = some h)
    (oldest : x.trail.list.find? (fun sl => sl.quench) = some o) :
    x.opensRing p = true ↔ sliceMid p x.settings.pitch o.index + x.settings.offset ≤ h + x.settings.preOpen := by
  rw [opensRing, oldestQuench, high, oldest]
  exact decide_eq_true_iff

theorem judgeOpen_closed (closed : x.quench.valve = .closed) :
    x.judgeOpen p = if x.opensRing p = true then x.opened else x :=
  if_congr (and_iff_right closed) rfl rfl

theorem judgeOpen_shut (shut : x.opensRing p = false) : x.judgeOpen p = x :=
  if_neg fun h => Bool.false_ne_true (shut.symm.trans h.2)

/-! ### What the high-water position has reached -/

theorem openReached_iff :
    x.openReached p = true ↔
      ∃ h o, x.trail.phase = .heating h o ∧ sliceUpper p x.settings.pitch o.index ≤ h
        ∧ sliceUpper p x.settings.pitch o.index < p.stop := by
  unfold openReached
  cases x.trail.phase with
  | heating h o =>
    rw [Bool.and_eq_true_iff, decide_eq_true_iff, decide_eq_true_iff]
    exact ⟨fun k => ⟨h, o, rfl, k⟩, fun ⟨_, _, same, k⟩ => by cases same; exact k⟩
  | _ => exact ⟨fun k => Bool.noConfusion k, fun ⟨_, _, same, _⟩ => by cases same⟩

theorem headReached_iff :
    x.headReached p = true ↔
      ∃ h o more, x.trail.high? = some h ∧ x.trail.list = o :: more
        ∧ sliceMid p x.settings.pitch o.index + x.settings.offset ≤ h := by
  unfold headReached
  cases high : x.trail.high? with
  | none => exact ⟨fun k => Bool.noConfusion k, fun ⟨_, _, _, some', _⟩ => by cases some'⟩
  | some h =>
    cases x.trail.list with
    | nil => exact ⟨fun k => Bool.noConfusion k, fun ⟨_, _, _, _, list, _⟩ => by cases list⟩
    | cons o more =>
      rw [decide_eq_true_iff]
      exact ⟨fun k => ⟨h, o, more, rfl, rfl, k⟩,
        fun ⟨_, _, _, some', list, k⟩ => by cases some'; cases list; exact k⟩

/-! ### An append (R52, R108, R109) -/

/-- The list with a stamped slice at its tail, AFTER taken back to QUENCH by a quench-required one. -/
def grown (sl : SliceRec) (x : StationState) : StationState :=
  { x with
    trail := { x.trail with list := x.trail.list ++ [sl] }
    quench :=
      if sl.quench = true ∧ x.quench.valve = .after then { x.quench with valve := .quench, afterTimer := none }
      else x.quench }

theorem placeSlice_eq (sl : SliceRec) :
    x.placeSlice p sl =
      if sl.quench = true ∧ ∀ o ∈ x.trail.list, o.quench = false then (x.grown sl).judgeOpen p else x.grown sl := by
  have held : (!x.trail.list.any fun s => s.quench) = true ↔ ∀ o ∈ x.trail.list, o.quench = false := by
    simp
  unfold placeSlice
  by_cases quench : sl.quench = true
  · have placed : (x.modTrail fun t => { t with list := t.list ++ [sl] }).modQuench Quench.appended = x.grown sl := by
      unfold grown Quench.appended
      simp only [quench, true_and]
      rfl
    dsimp only
    rw [if_pos quench, placed]
    exact if_congr (held.trans (and_iff_right quench).symm) rfl rfl
  · dsimp only
    rw [if_neg quench, if_neg fun h => quench h.1]
    unfold grown
    rw [if_neg fun h => quench h.1]
    rfl

/-- The slice that an append puts at the tail. -/
def appended (harden : Bool) (now : Time) (p : Profile) (sl : SliceRec) (x : StationState) : StationState :=
  x.placeSlice p (sl.close harden (sliceLength p x.settings.pitch sl.index) now)

theorem appendOpen_heating {harden : Bool} {now : Time} {h : Nat} {sl : SliceRec}
    (heating : x.trail.phase = .heating h sl) :
    x.appendOpen harden now p = (x.appended harden now p sl).modTrail fun t =>
      { t with phase := .heating h (newSlice x.settings p (sl.index + 1)) } := by
  obtain ⟨q, placed⟩ := placeSlice_rest p (sl.close harden (sliceLength p x.settings.pitch sl.index) now) x
  rw [appendOpen, heating]
  dsimp only
  rw [appended, placed]

theorem appendLast_heating {harden : Bool} {now : Time} {h : Nat} {sl : SliceRec}
    (heating : x.trail.phase = .heating h sl) :
    x.appendLast harden now p = (x.appended harden now p sl).modTrail fun t => { t with phase := .draining h } := by
  rw [appendLast, heating]
  rfl

/-! ### An arrival (R55, R67, R108, R109) -/

/-- The slice that arrives: LOW-FLOW where it wants quench and the flow is low. -/
def arriving (sl : SliceRec) (x : StationState) : SliceRec :=
  if sl.quench = true ∧ x.quench.flow < x.settings.flowMinimum then
    { sl with flags := { sl.flags with lowFlow := true } }
  else sl

/-- The station as its arriving slice meets it. -/
def meeting (p : Profile) (sl : SliceRec) (x : StationState) : StationState :=
  if sl.quench then x.judgeOpen p else x

/-- The arrival tallied, the departure not yet reported. -/
def tallied (now : Time) (p : Profile) (sl : SliceRec) (rest : List SliceRec) (x : StationState) : StationState :=
  { x.meeting p sl with
    trail :=
      Trail.tally (if sl.quench then some (now.since (sl.heatEnd.getD now)) else none) (x.arriving sl)
        { x.trail with list := rest } }

theorem trail_judgeOpen : (x.judgeOpen p).trail = x.trail := by
  obtain ⟨q, rest⟩ := judgeOpen_rest p x
  rw [rest]

theorem settings_judgeOpen : (x.judgeOpen p).settings = x.settings := by
  obtain ⟨q, rest⟩ := judgeOpen_rest p x
  rw [rest]

section
variable {now : Time} {sl : SliceRec} {rest : List SliceRec}

theorem list_tallied : (x.tallied now p sl rest).trail.list = rest := list_tally _ _ _

theorem arriveHead_plain (list : x.trail.list = sl :: rest) (plain : sl.quench = false) :
    x.arriveHead now p = x.tallied now p sl rest := by
  rw [arriveHead, list]
  dsimp only
  rw [if_neg (by rw [plain]; exact Bool.false_ne_true)]
  simp only [tallied, meeting, arriving, plain, Bool.false_eq_true, if_false, false_and]
  rfl

theorem arriveHead_quench (list : x.trail.list = sl :: rest) (quench : sl.quench = true) :
    x.arriveHead now p = (x.tallied now p sl rest).departQuench p := by
  have gone : (if x.lowFlow then sl.flag .lowFlow else sl) = x.arriving sl :=
    if_congr ((lowFlow_iff x).trans (and_iff_right quench).symm) rfl rfl
  rw [arriveHead, list]
  dsimp only
  rw [if_pos quench, gone, tallied, meeting, quench, if_pos rfl, if_pos rfl, modTrail, trail_judgeOpen]

theorem departQuench_more (more : ∃ o ∈ x.trail.list, o.quench = true) : x.departQuench p = x.judgeOpen p :=
  if_pos (List.any_eq_true.2 more)

theorem departQuench_last (last : ∀ o ∈ x.trail.list, o.quench = false) :
    x.departQuench p = x.modQuench (Quench.departed x.settings.afterQuench) :=
  if_neg fun any => by
    obtain ⟨o, has, quench⟩ := List.any_eq_true.1 any
    exact Bool.false_ne_true ((last o has).symm.trans quench)

/-- A departure that leaves no slice wanting quench ends the quench, after the after-quench time where there is one. -/
theorem arriveHead_last (list : x.trail.list = sl :: rest) (quench : sl.quench = true)
    (last : ∀ o ∈ rest, o.quench = false) :
    x.arriveHead now p =
      { x.tallied now p sl rest with
        quench := (x.judgeOpen p).quench.departed x.settings.afterQuench } := by
  rw [arriveHead_quench list quench, departQuench_last (by rw [list_tallied]; exact last)]
  simp only [tallied, meeting, quench, if_true, modQuench, settings_judgeOpen]

end

end

end StationState

theorem departed_other {n : Nat} {q : Quench} (other : q.valve ≠ .quench) : q.departed n = q := if_neg other

theorem departed_after {n : Nat} {q : Quench} (quench : q.valve = .quench) (after : 0 < n) :
    q.departed n = { q with valve := .after, afterTimer := some n } := by
  rw [Quench.departed, if_pos quench, if_neg after.ne']

theorem departed_closes {n : Nat} {q : Quench} (quench : q.valve = .quench) (none' : n = 0) :
    q.departed n = { q with valve := .closed, proofTimer := none, riseTimer := none, afterTimer := none } := by
  rw [Quench.departed, if_pos quench, if_pos none']
  rfl

theorem setHigh_eq (h : Nat) (t : Trail) :
    t.setHigh h =
      { t with
        phase :=
          match t.phase with
          | .idle => .idle
          | .heating _ o => .heating h o
          | .draining _ => .draining h } := by
  obtain ⟨phase, _, _, _, _⟩ := t
  cases phase <;> rfl

open StationState in
/-- An advance sweeps the trail, the ring valve judged before or after. -/
theorem advanceTrail_swept (openFirst harden : Bool) (now : Time) (p : Profile) (h : Nat) (x : StationState) :
    ∃ y, Swept harden now p
        (if openFirst then (x.modTrail (Trail.setHigh h)).judgeOpen p else x.modTrail (Trail.setHigh h)) y
      ∧ x.advanceTrail openFirst harden now p h = if openFirst then y else y.judgeOpen p :=
  ⟨_, sweep_swept harden now p _ _ fun _ sl _ => Nat.le_add_left _ sl.index, rfl⟩

open StationState in
/-- The head of the list that the ring has reached opens a closed valve. -/
theorem judgeOpen_reached {x : StationState} {p : Profile} {sl : SliceRec} {rest : List SliceRec}
    (list : x.trail.list = sl :: rest) (quench : sl.quench = true) (shut : x.quench.valve = .closed)
    (reached : x.headReached p = true) : x.judgeOpen p = x.opened := by
  obtain ⟨h, o, more, high, list', arrives⟩ := headReached_iff.1 reached
  obtain ⟨rfl, rfl⟩ := List.cons.inj (list.symm.trans list')
  have oldest : x.trail.list.find? (fun sl => sl.quench) = some sl := by
    rw [list]; exact List.find?_cons_of_pos quench
  rw [judgeOpen_closed shut]
  exact if_pos ((opensRing_some high oldest).2 (by omega))

open StationState in
/-- Settles O46: one equation per operation; the sweep of an advance is the relation `Swept`. -/
theorem slicesAppendAndArrive : Obligations.SlicesAppendAndArrive := by
  intro x p harden openFirst now h sl rest set lower upper mid opened' window closed grown' judged gone met left raised
  have placed : x.appended harden now p sl = judged := by
    rw [appended, placeSlice_eq, close_eq]
    rfl
  refine ⟨?_, fun cold => ?_, openReached_iff, headReached_iff, fun o shut high oldest => ?_, fun quiet => ?_,
    fun heating => ⟨?_, ?_⟩, fun list => ⟨fun plain => ?_, fun quench more => ?_, fun quench shut reached => ?_,
      fun quench last => ?_⟩⟩
  · have high : x.modTrail (Trail.setHigh h) = raised :=
      congrArg (fun t => ({ x with trail := t } : StationState)) (setHigh_eq h x.trail)
    exact high ▸ advanceTrail_swept openFirst harden now p h x
  · obtain ⟨unreached, phase, -, sweeps⟩ := takeArrivals_swept harden now p x
    refine sweeps _ (.done _ unreached (.inl (Bool.eq_false_iff.2 fun reached => ?_)))
    obtain ⟨h, o, heating, -⟩ := openReached_iff.1 reached
    exact cold h o (phase.symm.trans heating)
  · rw [judgeOpen_closed shut]
    exact if_congr (opensRing_some high oldest) rfl rfl
  · rcases quiet with open' | idle | none'
    · exact judgeOpen_open open'
    · exact judgeOpen_shut (opensRing_idle idle)
    · exact judgeOpen_shut (opensRing_none none')
  · rw [appendOpen_heating heating, placed]
    rfl
  · rw [appendLast_heating heating, placed]
    rfl
  · exact arriveHead_plain list plain
  · rw [arriveHead_quench list quench, departQuench_more (by rw [list_tallied]; exact more)]
    rfl
  · exact (if_pos quench).trans (judgeOpen_reached list quench shut reached)
  · have meets : met = x.judgeOpen p := if_pos quench
    rw [meets, arriveHead_last list quench last]
    refine ⟨fun other => ?_, fun running after => ?_, fun running none' => ?_⟩
    · rw [departed_other other, ← meets]; rfl
    · rw [departed_after running after]; rfl
    · rw [departed_closes running none']; rfl

end Sys2Proof.Machine
end

section
/-! PROOFS. The dwell time and the deadlines of slices (R15, R31, R56, R84). -/

namespace Sys2Proof.Machine

section
variable {s : State} {u : Station}

/-- A demand issued does not read what else of the station has just changed. -/
theorem issueDemand_modSt {f : StationState → StationState} (d : Nat) (same : (f (s.st u)).harden = (s.st u).harden) :
    (s.modSt u f).issueDemand u d = (s.issueDemand u d).modSt u f := by
  rw [issueDemand_eq, issueDemand_eq, st_modSt_self, same]
  cases u <;> rfl

theorem dwellDue_scans {i h : Nat} (dwells : (s.st u).dwells = [i]) (high : (s.st u).trail.high? = some h) :
    s.dwellDue u =
      (s.issueDemand u (powerAt (s.profileOf u).segs (s.st u).settings.powerLead h)).modSt u fun x =>
        { x with
          dwells := []
          dwellTimer := none
          motion := modeSet (.scan (speedAt (s.profileOf u).segs h)) x.motion
          handed := x.handed ++ axisHanded x } := by
  have own := st_modSt_self s u fun x => { x with dwells := [], dwellTimer := none }
  rw [State.dwellDue, dwells]
  dsimp only [List.tail_cons]
  rw [own, show ({ s.st u with dwells := [], dwellTimer := none } : StationState).trail.high? = some h from high]
  dsimp only
  rw [issueDemand_modSt _ (by rfl), modSt_modSt]
  refine modSt_congr _ u ?_
  rw [setTravel_moves rfl]
  rfl

theorem dwellDue_dwells {i j : Nat} {more : List Nat} (dwells : (s.st u).dwells = i :: j :: more) :
    s.dwellDue u =
      (s.issueDemand u (segGet (s.profileOf u).segs j).power).modSt u fun x =>
        { x with
          dwells := j :: more
          dwellTimer := (segGet (s.profileOf u).segs j).dwell
          motion := modeSet .hold x.motion
          handed := x.handed ++ axisHanded x } := by
  rw [State.dwellDue, dwells]
  dsimp only [List.tail_cons]
  rw [State.startDwell, profileOf_modSt s u _ rfl]
  dsimp only
  rw [modSt_modSt, issueDemand_modSt _ (by rw [setTravel_moves rfl]; rfl)]
  refine modSt_congr _ u ?_
  rw [setTravel_moves rfl]
  rfl

end

theorem dwellExpiry_expires {s : State} {u : Station} {n : Nat} (running : (s.st u).dwellTimer = some n) :
    exec (.dwellExpiry u) s = .next ((s.elapse n).dwellDue u) :=
  congrArg Host.Outcome.next (expire_some s running _)

/-! ### Deadlines -/

/-- A slice marked LATE, its timer stopped. -/
def SliceRec.lateMarked (sl : SliceRec) : SliceRec := { sl with flags := { sl.flags with late := true }, timer := none }

theorem late_others {k : Nat} {l : List SliceRec} {f : SliceRec → SliceRec} (index : ∀ o, (f o).index = o.index)
    (others : ∀ o ∈ l, o.index ≠ k) :
    (l.map f).map (fun sl => if sl.index = k then { sl.flag .late with timer := none } else sl) = l.map f := by
  rw [List.map_map]
  refine List.map_congr_left fun o has => ?_
  exact if_neg (by rw [index]; exact others o has)

theorem late_eq {t : Trail} {k n : Nat} {before after : List SliceRec} {sl : SliceRec}
    (list : t.list = before ++ sl :: after) (index : sl.index = k) (others : ∀ o ∈ before ++ after, o.index ≠ k) :
    (t.elapse n).late k =
      { t.elapse n with list := before.map (SliceRec.elapse n) ++ sl.lateMarked :: after.map (SliceRec.elapse n) } := by
  have kept (l : List SliceRec) (away : ∀ o ∈ l, o ∈ before ++ after) := late_others (k := k) (l := l)
    (f := SliceRec.elapse n) (fun o => rfl) fun o has => others o (away o has)
  have marked : (if (sl.elapse n).index = k then { (sl.elapse n).flag .late with timer := none } else sl.elapse n)
      = sl.lateMarked := if_pos index
  rw [Trail.late]
  refine congrArg (fun l => ({ t.elapse n with list := l } : Trail)) ?_
  rw [show (t.elapse n).list = t.list.map (SliceRec.elapse n) from rfl, list, List.map_append, List.map_cons,
    List.map_append, List.map_cons, kept before fun o has => List.mem_append_left _ has,
    kept after fun o has => List.mem_append_right _ has, marked]

theorem find_slice {k : Nat} {before after : List SliceRec} {sl : SliceRec} (index : sl.index = k)
    (others : ∀ o ∈ before ++ after, o.index ≠ k) :
    (before ++ sl :: after).find? (fun o => o.index == k) = some sl := by
  have absent : before.find? (fun o => o.index == k) = none :=
    List.find?_eq_none.2 fun o has => by
      simpa using others o (List.mem_append_left _ has)
  rw [List.find?_append, absent, List.find?_cons_of_pos (by simpa using index)]
  rfl

/-- Settles O51: one equation of `dwellDue` per queue of dwells, and the slice found in its list. -/
theorem dwellAndDeadlineExpire : Obligations.DwellAndDeadlineExpire := by
  intro s u n h i rest k x p b issued
  refine ⟨fun running dwells high => ⟨fun last => ?_, fun j more next => ?_⟩,
    fun before sl after list index running others => ?_⟩
  · have own : (b.st u).dwells = [i] := by rw [st_elapse]; exact last ▸ dwells
    have high' : (b.st u).trail.high? = some h := by rw [st_elapse]; exact high
    rw [dwellExpiry_expires running, dwellDue_scans own high', issueDemand_eq, st_elapse, profileOf_elapse]
    rfl
  · have own : (b.st u).dwells = i :: j :: more := by rw [st_elapse]; exact next ▸ dwells
    rw [dwellExpiry_expires running, dwellDue_dwells own, issueDemand_eq, st_elapse, profileOf_elapse, next]
    rfl
  · have runs : exec (.deadlineExpiry u k) s = .next ((s.elapse n).modSt u fun x => x.modTrail (Trail.late k)) := by
      refine congrArg Host.Outcome.next ?_
      rw [show (s.st u).trail.list = _ from list, find_slice index others]
      exact expire_some s running _
    rw [runs]
    refine congrArg Host.Outcome.next (modSt_congr _ u ?_)
    rw [st_elapse, StationState.modTrail]
    rw [show ((s.st u).elapse n).trail = (s.st u).trail.elapse n from rfl, late_eq list index others]
    rfl

end Sys2Proof.Machine
end

section
/-! PROOFS. The after-quench time and the flood time (R34, R35, R109, R115). -/

namespace Sys2Proof.Machine

/-- A trail that is not draining, or that still holds slices, keeps the station where it is. -/
theorem checkDrained_stays {x : StationState} (stays : (∀ h, x.trail.phase ≠ .draining h) ∨ x.trail.list ≠ []) :
    x.checkDrained = x := by
  unfold StationState.checkDrained
  split
  case h_1 draining empty =>
    rcases stays with no | full
    · exact absurd draining (no _)
    · exact absurd empty full
  case h_2 => rfl

/-- A drained trail under a closed ring valve lets the station leave for RETURN. -/
theorem checkDrained_returns {x : StationState} {h : Nat} (draining : x.trail.phase = .draining h)
    (empty : x.trail.list = []) (shut : x.quench.valve = .closed) :
    x.checkDrained =
      { x with
        mode := .returning
        trail := { x.trail with phase := .idle, list := [] }
        motion := motionInReturn x.settings.returnSpeed x.motion
        handed := x.handed ++ axisHanded x } := by
  rw [checkDrained_eq x draining, if_neg (not_not_intro empty), if_neg (not_not_intro shut), ← empty]

theorem afterQuenchExpiry_expires {s : State} {u : Station} {n : Nat} (running : (s.st u).quench.afterTimer = some n) :
    exec (.afterQuenchExpiry u) s
      = .next ((s.elapse n).modSt u fun x => (x.modQuench Quench.closeRing).checkDrained) :=
  congrArg Host.Outcome.next (expire_some s running _)

/-! ### A faulted cycle that halts its station (R35, R37) -/

/-- A record written with a fault recorded, and its station halted. -/
theorem halted_after_fault {s : State} {u : Station} {c : Context} {cause : HaltCause}
    {g : StationState → StationState} (is : (g (s.st u)).current = some c) (fault : c.firstFault ≠ none) :
    let y := g (s.st u)
    let t := ((s.modSt u g).writeRecord u none).modSt u (StationState.enterHalted cause)
    RecordWritten u c (y.recordOf u none c) s t ∧ (y.recordOf u none c).outcome = .faulted
      ∧ t.st u = (y.recordWritten .faulted (y.closing c)).enterHalted cause
      ∧ t.channel = s.channel ∧ t.st u.other = s.st u.other ∧ Around s t := by
  intro y t
  have own : (s.modSt u g).st u = y := st_modSt_self _ _ _
  have is' : ((s.modSt u g).st u).current = some c := by rw [own]; exact is
  have outcome : (y.recordOf u none c).outcome = .faulted := by
    rw [outcome_recordOf, outcomeOrder, firstFault_closing]
    exact if_pos fault
  have written := (writeRecord_written (s.modSt u g) u none is').modSt (f := StationState.enterHalted cause) rfl
  rw [own] at written
  refine ⟨written.of_modSt, outcome, ?_, ?_, ?_, ((writeRecord_around (s.modSt u g) u none).modSt u _).of_modSt⟩
  · rw [st_modSt_self, st_writeRecord_self _ u none is', own]
    rw [show y.outcomeOf none c = .faulted from outcome]
  · rw [channel_modSt, channel_writeRecord, channel_modSt]
  · rw [st_modSt_other, st_writeRecord_other, st_modSt_other]

/-- The flood valve closed. -/
def StationState.unflooded (x : StationState) : StationState := { x with quench := { x.quench with flood := none } }

theorem floodTimerExpiry_expires {s : State} {u : Station} {f : Flood} (floods : (s.st u).quench.flood = some f) :
    exec (.floodTimerExpiry u) s = .next
      (if (((s.elapse f.remaining).modSt u StationState.unflooded).st u).mode = .flood then
        ((((s.elapse f.remaining).modSt u StationState.unflooded).writeRecord u none).modSt u
          (StationState.enterHalted .flood)).judgeStarts
      else (s.elapse f.remaining).modSt u StationState.unflooded) :=
  congrArg Host.Outcome.next (expire_some s (congrArg (Option.map Flood.remaining) floods) _)

/-- Settles O52: from `checkDrained_eq`, and the record and halt of a faulted cycle. -/
theorem afterQuenchAndFloodExpire : Obligations.AfterQuenchAndFloodExpire := by
  intro s u n f x b
  refine ⟨fun running => ⟨fun stays => ?_, fun h draining empty => ?_⟩,
    fun floods left => ⟨fun away => ?_, fun c mode is fault => ?_⟩⟩
  · rw [afterQuenchExpiry_expires running]
    refine congrArg Host.Outcome.next (modSt_congr _ u ?_)
    rw [st_elapse]
    refine checkDrained_stays (stays.imp id fun full empty => full ?_)
    exact List.map_eq_nil_iff.1 empty
  · rw [afterQuenchExpiry_expires running]
    refine congrArg Host.Outcome.next (modSt_congr _ u ?_)
    rw [st_elapse]
    exact checkDrained_returns (x := ((s.st u).elapse n).modQuench Quench.closeRing) draining
      (List.map_eq_nil_iff.2 empty) rfl
  · subst left
    rw [floodTimerExpiry_expires floods, if_neg (by rw [st_modSt_self, st_elapse]; exact away)]
    rfl
  · subst left
    have owed : (b.st u).releaseOwed = x.releaseOwed := by
      rw [show b.st u = x.elapse f.remaining from st_elapse _ _ _]; rfl
    obtain ⟨written, outcome, after, channel, other, around⟩ := halted_after_fault (s := b) (u := u) (cause := .flood)
      (g := StationState.unflooded) (c := c) (by rw [st_elapse]; exact is) fault
    refine ⟨_, _, ?_, written, outcome, ?_, firstFault_closing _ _, ?_, ?_, ?_, ?_, ?_, ?_, ?_, channel, other, around⟩
    · rw [floodTimerExpiry_expires floods, if_pos (by rw [st_modSt_self, st_elapse]; exact mode)]
    · rw [show b.st u = x.elapse f.remaining from st_elapse _ _ _]
      rfl
    · rw [after, mode_enterHalted]
    · rw [after, haltCause_enterHalted]
    · rw [after, quench_enterHalted]; rfl
    · rw [after, motion_enterHalted]; simp
    · rw [after, motion_enterHalted]; simp
    · rw [after, finished_enterHalted]
      exact congrArg (fun j : JobEntry => some j.tag) (job_closing _ _)
    · rw [after, releaseOwed_enterHalted]
      refine if_congr ?_ rfl owed
      rw [Context.harden, job_closing, beq_iff_eq]

end Sys2Proof.Machine
end

section
/-! PROOFS. What the part sends, read off the state (R71, R90, R94, R139, R142 to R149, R179, R182). -/

namespace Sys2Proof.Machine

/-! ### Levels and lines -/

theorem lineLevel_eq (active low : Bool) : lineLevel active low = (active ^^ low) := by
  cases active <;> cases low <;> rfl

theorem lineLevel_not (active low : Bool) : lineLevel active (!low) = !lineLevel active low := by
  cases active <;> cases low <;> rfl

theorem ready_iff (x : StationState) :
    x.ready = true ↔ x.mode = .waitPart ∧ (∃ j rest, x.queue = j :: rest ∧ j.kind = .harden)
      ∧ x.lines.hold.qualified = false ∧ x.partConsumed = false := by
  have head : (x.queue.head?.any fun j => j.kind == .harden) = true
      ↔ ∃ j rest, x.queue = j :: rest ∧ j.kind = .harden := by
    cases x.queue with
    | nil => simp
    | cons j rest => simp
  simp only [StationState.ready, Bool.and_eq_true_iff, beq_iff_eq, head, Bool.not_eq_true', and_assoc]

theorem doneOut_iff (x : StationState) :
    x.doneOut = true ↔ x.lines.handshake = .asserted ∨ x.lines.handshake = .pulsing := by
  simp only [StationState.doneOut, Bool.or_eq_true_iff, beq_iff_eq]

theorem rejectOut_iff (x : StationState) : x.rejectOut = true ↔ x.doneOut = true ∧ x.releaseOwed = some true := by
  simp only [StationState.rejectOut, Bool.and_eq_true_iff, beq_iff_eq]

theorem attn_iff (s : State) :
    s.attn = true ↔ s.records ≠ [] ∨ (∃ v, (s.st v).mode = .halted) ∨ s.link.overrun = true := by
  have halted : (∃ v, (s.st v).mode = .halted) ↔ s.a.mode = .halted ∨ s.b.mode = .halted :=
    ⟨fun ⟨v, h⟩ => by cases v <;> [exact .inl h; exact .inr h], fun h => h.elim (⟨.a, ·⟩) (⟨.b, ·⟩)⟩
  simp only [State.attn, halted, Bool.or_eq_true_iff, Bool.not_eq_true', List.isEmpty_eq_false_iff, beq_iff_eq,
    or_assoc]

/-! ### Demands -/

theorem moveDemand_eq (target : Int) (speed : Nat) (m : Motion) :
    m.moveDemand target speed =
      if m.arrival ≠ .awaited ∨ (m.position - target).natAbs ≤ 200 then 0
      else if m.position < target then
        ((if (m.position - target).natAbs < 10000 then max 5 (speed * (m.position - target).natAbs / 10000)
          else speed : Nat) : Int)
      else
        -((if (m.position - target).natAbs < 10000 then max 5 (speed * (m.position - target).natAbs / 10000)
          else speed : Nat) : Int) :=
  if_congr (or_congr_right decide_eq_true_iff) rfl rfl

theorem speedDemand_eq (m : Motion) :
    m.speedDemand =
      match m.mode with
      | .stop | .hold => 0
      | .scan v => (v : Int)
      | .moveTo target v => m.moveDemand target v
      | .seekHome .backOff v => v
      | .seekHome .seek v => -v
      | .seekHome .settle v => m.moveDemand 0 v := rfl

theorem powerOutput_represents {s : State} (rated : 0 < s.common.ratedPower) :
    s.powerOutput * s.common.ratedPower = s.channel.demand :=
  div_mul_cancel₀ _ (Nat.cast_ne_zero.2 rated.ne')

/-! ### The attention summary, a frame and the CRC -/

theorem summary_bits (records a b warm critical overrun : Bool) (run : RunState) :
    let v := BitVec.ofNat 8 (bitsByte [records, a, b, warm, critical, overrun] + 64 * run.code)
    v.getLsbD 0 = records ∧ v.getLsbD 1 = a ∧ v.getLsbD 2 = b ∧ v.getLsbD 3 = warm ∧ v.getLsbD 4 = critical
      ∧ v.getLsbD 5 = overrun ∧ v.toNat / 64 = [RunState.running, .stopping, .stopped].idxOf run := by
  revert records a b warm critical overrun
  cases run <;> decide

theorem outcome_code (o : ReplyOutcome) :
    o.code = [ReplyOutcome.accepted, .unsupportedUnit, .unknownKind, .tooLong, .badLength, .badValue, .busy, .full,
      .inUse, .notFound, .notReady, .dupTag, .tooLate, .already, .empty, .wrongState].idxOf o := by
  cases o <;> rfl

/-- The two bytes of a CRC, high byte first. -/
theorem crc_bytes (c : BitVec 16) : [c.extractLsb' 8 8, c.extractLsb' 0 8] = be16 c.toNat := by
  have high : c.extractLsb' 8 8 = BitVec.ofNat 8 (c.toNat / 256) := by
    rw [BitVec.extractLsb', Nat.shiftRight_eq_div_pow]
  have low : c.extractLsb' 0 8 = BitVec.ofNat 8 c.toNat := by
    rw [BitVec.extractLsb', Nat.shiftRight_zero]
  rw [high, low, be16]

theorem crc_append (bs : List Byte) (b : Byte) : crc (bs ++ [b]) = crcByte (crc bs) b := by
  rw [crc, List.foldl_append]
  rfl

theorem be32_eq (n : Nat) : be32 n = be16 (n / 65536) ++ be16 n := by
  rw [be32, be16, be16, Nat.div_div_eq_div_mul]
  rfl

/-- Settles O53: each output read off its definition. -/
theorem outputsFollowTheState : Obligations.OutputsFollowTheState := by
  intro s u x m pos move
  obtain ⟨records, a, b, warm, critical, overrun, run⟩ := summary_bits (!s.records.isEmpty) (s.a.mode == .halted)
    (s.b.mode == .halted) (s.tank.state == .warm) (s.tank.state == .critical) s.link.overrun s.run
  refine ⟨ready_iff x, doneOut_iff x, rejectOut_iff x, lineLevel_eq _ _, lineLevel_eq _ _, lineLevel_eq _ _,
    lineLevel_eq _ _, lineLevel_eq _ _, fun y flipped => ?_, fun t flipped => ?_, beq_iff_eq, attn_iff s, ?_,
    fun none' => ?_, powerOutput_represents, records, a, b, warm, critical, overrun, run, fun r => ?_, rfl,
    fun bs b => crc_append bs b, fun n => ⟨rfl, rfl, be32_eq n⟩⟩
  · subst flipped
    exact ⟨rfl, rfl, rfl, lineLevel_not _ _, lineLevel_not _ _, lineLevel_not _ _⟩
  · subst flipped
    exact ⟨rfl, rfl, lineLevel_not _ _, lineLevel_not _ _⟩
  · rw [speedDemand_eq]
    simp only [moveDemand_eq]
    rfl
  · rw [State.powerOutput, none']
    exact zero_div _
  · intro outcome body
    have code : r.outcome.code = outcome := outcome_code r.outcome
    rw [← crc_bytes, Reply.frame, code]

end Sys2Proof.Machine
end

section
/-! PROOFS. An encoder reading that does not advance the trail (R91, R94, R97 to R99). -/

namespace Sys2Proof.Machine

/-! ### The motion unit's part of a reading -/

/-- The measured speed after a reading: half the change over 20 ms. -/
def Motion.speedRead (raw : Int) (m : Motion) : Int :=
  match m.history[19]? with
  | some old => (raw - old).tdiv 2
  | none => 0

/-- The position a reading gives. -/
def Motion.positionRead (raw : Int) (m : Motion) : Int := if m.valid then raw - m.zero else raw

/-- The motion unit with a reading taken and the arrival it finds. -/
def Motion.taken (raw : Int) (m : Motion) : Motion :=
  { m with
    raw := raw
    history := (raw :: m.history).take 20
    speed := m.speedRead raw
    arrival :=
      if m.arrival = .awaited ∧ (m.moveTarget.any fun g => decide ((m.positionRead raw - g.1).natAbs ≤ 200)) = true
          ∧ m.speedRead raw = 0 then .found
      else m.arrival }

theorem noticeArrival_taken (raw : Int) (m : Motion) : (m.readEncoder raw).noticeArrival = m.taken raw :=
  noticeArrival_readEncoder m raw

theorem position_taken (raw : Int) (m : Motion) : (m.taken raw).position = m.positionRead raw := rfl

/-- The station with a reading taken. -/
def StationState.reads (raw : Int) (x : StationState) : StationState := { x with motion := x.motion.taken raw }

theorem readEncoder_eq (s : State) (u : Station) (raw : Int) (o : ReadingOrder) :
    s.readEncoder u raw o =
      if o.judgeFirst then
        ((s.modSt u (StationState.reads raw)).modSt u StationState.judgeTravel).reportPosition u o.openFirst
          (s.st u).motion.position
      else
        ((s.modSt u (StationState.reads raw)).reportPosition u o.openFirst (s.st u).motion.position).modSt u
          StationState.judgeTravel := by
  have taken : (s.modSt u fun x => x.modMotion fun m => (m.readEncoder raw).noticeArrival)
      = s.modSt u (StationState.reads raw) := by
    refine modSt_congr s u ?_
    rw [StationState.modMotion, noticeArrival_taken]
    rfl
  rw [State.readEncoder, taken]

/-- A position that has not changed, or lies no higher than the high-water position, is not handed on. -/
theorem reportPosition_stays {s : State} {u : Station} {o : Bool} {before : Int}
    (stays : (s.st u).motion.position = before
      ∨ ∀ h : Nat, (s.st u).trail.high? = some h → (s.st u).motion.position ≤ h) :
    s.reportPosition u o before = s := by
  rw [State.reportPosition]
  cases high : (s.st u).trail.high? with
  | none => rfl
  | some h =>
    refine if_neg fun moved => ?_
    rcases stays with same | low
    · exact moved.1 same
    · exact absurd (low h high) (not_le.2 moved.2)

theorem trail_judgeTravel (x : StationState) : x.judgeTravel.trail = x.trail := by
  rw [judgeTravel_eq]

theorem position_judgeTravel (x : StationState) : x.judgeTravel.motion.position = x.motion.position := by
  rw [judgeTravel_eq]
  rfl

theorem readEncoder_stays {s : State} {u : Station} {raw : Int} (o : ReadingOrder)
    (stays : (s.st u).motion.positionRead raw = (s.st u).motion.position
      ∨ ∀ h : Nat, (s.st u).trail.high? = some h → (s.st u).motion.positionRead raw ≤ h) :
    s.readEncoder u raw o = s.modSt u fun x => (x.reads raw).judgeTravel := by
  rw [readEncoder_eq]
  cases o.judgeFirst
  · refine (if_neg Bool.false_ne_true).trans ?_
    rw [reportPosition_stays (by rw [st_modSt_self]; exact stays), modSt_modSt]
  · refine (if_pos rfl).trans ?_
    rw [modSt_modSt, reportPosition_stays]
    rw [st_modSt_self, trail_judgeTravel, position_judgeTravel]
    exact stays

/-- Settles O44: neither order of the reading reaches the advance, so both are the judgements of `judgeTravel_eq`. -/
theorem encoderReadingIsJudged : Obligations.EncoderReadingIsJudged := by
  intro s u raw order x m pos speed atTarget back beyond before stays
  refine congrArg Host.Outcome.next ((readEncoder_stays order stays).trans (modSt_congr s u ?_))
  rw [judgeTravel_eq]
  rfl

end Sys2Proof.Machine
end

section
/-! PROOFS. An encoder reading that raises the high-water position (R30, R31, R49, R91, R97 to R99). -/

namespace Sys2Proof.Machine

theorem modSt_setSt (s : State) (u : Station) (x : StationState) (f : StationState → StationState) :
    (s.setSt u x).modSt u f = s.setSt u (f x) := by
  cases u <;> rfl

/-! ### The judgements at a position the trail follows (R97 to R99) -/

/-- The position lies outside the travel limits. -/
def StationState.outside (x : StationState) : Bool :=
  decide (x.motion.position < x.settings.travelMin ∨ (x.settings.travelMax : Int) < x.motion.position)

/-- The station with its travel judged at a position no lower than the high-water position. -/
def StationState.judgedHigh (x : StationState) : StationState :=
  { x with
    motion :=
      { x.motion with stallTimer := stallJudged x, reverseRaised := false, limitRaised := x.outside }
    handed := x.handed ++ if x.outside && !x.motion.limitRaised then [.limit] else [] }

theorem judgeTravel_high {x : StationState} {h : Nat} (high : x.trail.high? = some h)
    (above : (h : Int) ≤ x.motion.position) : x.judgeTravel = x.judgedHigh := by
  have ahead : fallsBack x.trail x.motion = false := by
    rw [fallsBack, high]
    exact decide_eq_false (by omega)
  have judged : runsBeyond x.settings x.trail x.motion = x.outside := by
    rw [runsBeyond, high]
    rfl
  rw [judgeTravel_eq, ahead, judged, high]
  simp only [Bool.false_and, Bool.false_eq_true, if_false, List.append_nil, Option.isSome_some, if_true]
  rfl

theorem judgeTravel_gone {x : StationState} (gone : x.trail.high? = none) :
    x.judgeTravel = { x with motion := { x.motion with stallTimer := stallJudged x } } := by
  have ahead : fallsBack x.trail x.motion = false := by rw [fallsBack, gone]; rfl
  have judged : runsBeyond x.settings x.trail x.motion = false := by rw [runsBeyond, gone]; rfl
  rw [judgeTravel_eq, ahead, judged, gone]
  simp only [Option.isSome_none, Bool.false_and, Bool.false_eq_true, if_false, List.append_nil]

/-- The stall timer after a reading in HEAT, by the travel mode. -/
def stallAt (speed : Int) (timer : Timer) (limit : Nat) (mode : TravelMode) : Timer :=
  match mode with
  | .scan v => if 5 * speed < v then some (timer.getD limit) else none
  | _ => timer

theorem stallJudged_heat {x : StationState} (heat : x.mode = .heat) :
    stallJudged x = stallAt x.motion.speed x.motion.stallTimer x.settings.stallTime x.motion.mode := by
  unfold stallJudged stallAt
  rw [heat]
  cases x.motion.mode <;> rfl

theorem stallJudged_elsewhere {x : StationState} (elsewhere : x.mode ≠ .heat) : stallJudged x = x.motion.stallTimer := by
  unfold stallJudged
  split
  case h_1 heat _ => exact absurd heat elsewhere
  case h_2 => rfl

/-- A new scan speed, for a scan only. -/
def scanMode (v : Nat) (mode : TravelMode) : TravelMode :=
  match mode with
  | .scan _ => .scan v
  | other => other

theorem setScanSpeed_eq (v : Nat) (m : Motion) : m.setScanSpeed v = { m with mode := scanMode v m.mode } := by
  unfold Motion.setScanSpeed scanMode
  obtain ⟨mode, _, _, _, _, _, _, _, _, _, _, _, _, _, _, _⟩ := m
  cases mode <;> rfl

/-! ### The advance -/

/-- Station `x` with the trail and the quench unit of `y`, and the motion and the faults given. -/
def StationState.carried (x y : StationState) (m : Motion) (l : List FaultCode) : StationState :=
  { x with trail := y.trail, quench := y.quench, motion := m, handed := l }

/-- The reading at `raw` raises the high-water position from `old`. -/
structure Rises (s : State) (u : Station) (raw : Int) (old : Nat) : Prop where
  high : (s.st u).trail.high? = some old
  above : (old : Int) < (s.st u).motion.positionRead raw
  moved : (s.st u).motion.positionRead raw ≠ (s.st u).motion.position

/-- The trail and the quench unit after the advance to `h`. -/
def State.sweptTo (u : Station) (openFirst : Bool) (h : Nat) (s : State) : StationState :=
  (s.st u).advanceTrail openFirst (s.st u).harden s.time (s.profileOf u) h

/-- The spindle demand of the position `h`, taken by a motion unit. -/
def State.spunTo (u : Station) (h : Nat) (s : State) (m : Motion) : Motion :=
  spindleSet (rotationAt (s.profileOf u).segs h) m

theorem profileOf_setSt_current (s : State) (u : Station) {x : StationState} (same : x.current = (s.st u).current) :
    (s.setSt u x).profileOf u = s.profileOf u := by
  have slot (k : Fin 8) : (s.setSt u x).slot k = s.slot k := by cases u <;> rfl
  simp only [State.profileOf, st_setSt_self, same, slot]

section
variable {s : State} {u : Station} {raw : Int} {old : Nat}

/-- The new high-water position is the position read. -/
theorem Rises.toNat_eq (rises : Rises s u raw old) :
    (((s.st u).motion.positionRead raw).toNat : Int) = (s.st u).motion.positionRead raw :=
  Int.toNat_of_nonneg ((Int.natCast_nonneg old).trans rises.above.le)

theorem Rises.high_swept (rises : Rises s u raw old) (o : Bool) (h : Nat) :
    (s.sweptTo u o h).trail.high? = some h :=
  (advanceTrail_rest o _ s.time (s.profileOf u) h (s.st u)).2.1 (by rw [rises.high]; rfl)

theorem reportPosition_rises {z : StationState} {o : Bool} (rises : Rises s u raw old)
    (trail : z.trail = (s.st u).trail) (position : z.motion.position = (s.st u).motion.positionRead raw) :
    (s.setSt u z).reportPosition u o (s.st u).motion.position
      = (s.setSt u z).advance u o old ((s.st u).motion.positionRead raw).toNat := by
  rw [State.reportPosition, st_setSt_self, trail, rises.high, position]
  exact if_pos ⟨rises.moved, rises.above⟩

/-- The reading judged before the advance or after it. -/
theorem readEncoder_rises (rises : Rises s u raw old) (o : ReadingOrder) :
    s.readEncoder u raw o =
      if o.judgeFirst then
        (s.setSt u ((s.st u).reads raw).judgedHigh).advance u o.openFirst old
          ((s.st u).motion.positionRead raw).toNat
      else
        ((s.setSt u ((s.st u).reads raw)).advance u o.openFirst old
          ((s.st u).motion.positionRead raw).toNat).modSt u StationState.judgeTravel := by
  rw [readEncoder_eq]
  refine if_congr Iff.rfl ?_ ?_
  · rw [modSt_modSt, State.modSt, judgeTravel_high (x := (s.st u).reads raw) rises.high rises.above.le]
    exact reportPosition_rises rises rfl rfl
  · exact congrArg (fun r : State => r.modSt u StationState.judgeTravel) (reportPosition_rises rises rfl rfl)

/-- An advance, by what the station was doing. -/
theorem advance_carried (o : Bool) (h : Nat) (m : Motion) (l : List FaultCode) :
    let t := s.setSt u ((s.st u).carried (s.sweptTo u o h) (s.spunTo u h m) l)
    (s.setSt u { s.st u with motion := m, handed := l }).advance u o old h =
      if (s.st u).mode = .heat then
        if (s.profileOf u).stop ≤ h then
          (t.endOfHeat u).modSt u fun z => (z.takeArrivals s.time (s.profileOf u)).checkDrained
        else t.readProfile u old h
      else t.modSt u StationState.checkDrained := by
  intro t
  have profile := profileOf_setSt_current s u (x := { s.st u with motion := m, handed := l }) rfl
  have stands : (s.setSt u { s.st u with motion := m, handed := l }).setSt u
      (advanced o s.time (s.profileOf u) h { s.st u with motion := m, handed := l }) = t := by
    rw [setSt_setSt, advanced_with]
    rfl
  rw [advance_eq, profile, st_setSt_self, time_setSt, stands]

/-- A reading, from what the advance makes of the station for any motion and faults it is met with. -/
theorem readEncoder_of_advance (rises : Rises s u raw old) (o : ReadingOrder) {r : State}
    {result : Motion → List FaultCode → StationState}
    (advances : ∀ m l, (s.setSt u { s.st u with motion := m, handed := l }).advance u o.openFirst old
      ((s.st u).motion.positionRead raw).toNat = r.setSt u (result m l)) :
    s.readEncoder u raw o = r.setSt u
      (if o.judgeFirst then
        result ((s.st u).reads raw).judgedHigh.motion ((s.st u).reads raw).judgedHigh.handed
      else (result ((s.st u).motion.taken raw) (s.st u).handed).judgeTravel) := by
  rw [readEncoder_rises rises]
  cases o.judgeFirst
  · refine (congrArg (fun r : State => r.modSt u StationState.judgeTravel) (advances _ _)).trans ?_
    exact modSt_setSt _ _ _ _
  · exact advances _ _

/-! ### The advance below the profile end (R30, R31) -/

section
variable {o : Bool} {h : Nat} (heat : (s.st u).mode = .heat) (below : h < (s.profileOf u).stop)

/-- The state with a demand issued by a HARDEN job. -/
def State.issued (u : Station) (d : Nat) (s : State) : State :=
  { s with channel := if (s.st u).harden then demandIssued u d s else s.channel }

theorem issueDemand_setSt {x : StationState} (d : Nat) (same : x.harden = (s.st u).harden) :
    (s.setSt u x).issueDemand u d = (s.issued u d).setSt u x := by
  rw [issueDemand_eq, st_setSt_self, same]
  cases u <;> rfl

include heat below in
theorem advance_below (m : Motion) (l : List FaultCode) :
    (s.setSt u { s.st u with motion := m, handed := l }).advance u o old h =
      (s.setSt u ((s.st u).carried (s.sweptTo u o h) (s.spunTo u h m) l)).readProfile u old h := by
  rw [advance_carried, if_pos heat, if_neg (not_le.2 below)]

include heat below in
theorem advance_scans (free : (s.st u).dwells = [])
    (none' : dwellSegments (s.profileOf u).segs (fun start => old < start && start ≤ h) = []) (m : Motion)
    (l : List FaultCode) :
    (s.setSt u { s.st u with motion := m, handed := l }).advance u o old h =
      (s.issued u (powerAt (s.profileOf u).segs (s.st u).settings.powerLead h)).setSt u
        ((s.st u).carried (s.sweptTo u o h)
          { s.spunTo u h m with mode := scanMode (speedAt (s.profileOf u).segs h) m.mode } l) := by
  have profile := profileOf_setSt_current s u
    (x := (s.st u).carried (s.sweptTo u o h) (s.spunTo u h m) l) rfl
  rw [advance_below heat below, readProfile_reads _ _ _ _ (by rw [st_setSt_self]; exact free)
    (by rw [profile]; exact none'), profile, st_setSt_self, modSt_setSt, setScanSpeed_eq]
  exact issueDemand_setSt _ rfl

include heat below in
theorem advance_dwells {i : Nat} {rest : List Nat} (free : (s.st u).dwells = [])
    (reached : dwellSegments (s.profileOf u).segs (fun start => old < start && start ≤ h) = i :: rest) (m : Motion)
    (l : List FaultCode) :
    (s.setSt u { s.st u with motion := m, handed := l }).advance u o old h =
      (s.issued u (segGet (s.profileOf u).segs i).power).setSt u
        { (s.st u).carried (s.sweptTo u o h) (modeSet .hold (s.spunTo u h m)) (l ++ axisHanded (s.st u)) with
          dwells := i :: rest
          dwellTimer := (segGet (s.profileOf u).segs i).dwell } := by
  have profile := profileOf_setSt_current s u
    (x := (s.st u).carried (s.sweptTo u o h) (s.spunTo u h m) l) rfl
  rw [advance_below heat below, readProfile_dwells _ _ _ _ i rest (by rw [st_setSt_self]; exact free)
    (by rw [profile]; exact reached), profile, modSt_setSt]
  exact issueDemand_setSt _ rfl

include heat below in
theorem advance_waits (dwelling : (s.st u).dwells ≠ []) (m : Motion) (l : List FaultCode) :
    (s.setSt u { s.st u with motion := m, handed := l }).advance u o old h =
      s.setSt u
        { (s.st u).carried (s.sweptTo u o h) (s.spunTo u h m) l with
          dwells := (s.st u).dwells
            ++ dwellSegments (s.profileOf u).segs fun start => old < start && start ≤ h } := by
  have profile := profileOf_setSt_current s u
    (x := (s.st u).carried (s.sweptTo u o h) (s.spunTo u h m) l) rfl
  rw [advance_below heat below, readProfile_waits _ _ _ _ (by rw [st_setSt_self]; exact dwelling), profile, modSt_setSt]
  rfl

end

end

end Sys2Proof.Machine
end

section
/-! PROOFS. What a reading that raises the high-water position leaves of its station (R30 to R34, R49, R97 to R99). -/

namespace Sys2Proof.Machine

/-! ### The parts of a reading -/

/-- The position read lies outside the travel limits. -/
def StationState.beyond (raw : Int) (x : StationState) : Bool :=
  decide (x.motion.positionRead raw < x.settings.travelMin
    ∨ (x.settings.travelMax : Int) < x.motion.positionRead raw)

/-- LIMIT, where the reading raises it. -/
def StationState.limit (raw : Int) (x : StationState) : List FaultCode :=
  if x.beyond raw && !x.motion.limitRaised then [.limit] else []

/-- The faults handed by a reading: LIMIT, where it is judged, before or after those of the advance. -/
def StationState.handedAt (raw : Int) (first : Bool) (axes : List FaultCode) (judged : Bool) (x : StationState) :
    List FaultCode :=
  x.handed ++ if first then x.limit raw ++ axes else axes ++ if judged then x.limit raw else []

/-- A motion unit with the markers of a trail followed. -/
def Motion.marked (beyond : Bool) (m : Motion) : Motion := { m with reverseRaised := false, limitRaised := beyond }

section
variable {s : State} {u : Station} {raw : Int} {old : Nat}

theorem judgedHigh_reads (x : StationState) :
    (x.reads raw).judgedHigh =
      { x with
        motion :=
          { x.motion.taken raw with
            stallTimer := stallJudged (x.reads raw), reverseRaised := false, limitRaised := x.beyond raw }
        handed := x.handed ++ x.limit raw } := rfl

/-! ### In HEAT below the profile end -/

/-- The motion unit after the reading, its judgement made after the advance. -/
def StationState.judgedAfter (raw : Int) (m : Motion) (x : StationState) : Motion :=
  { m.marked (x.beyond raw) with stallTimer := stallAt m.speed m.stallTimer x.settings.stallTime m.mode }

theorem judgedHigh_of {z : StationState} {timer : Timer} {outside raised : Bool} (stall : stallJudged z = timer)
    (out : z.outside = outside) (was : z.motion.limitRaised = raised) :
    z.judgedHigh =
      { z with
        motion := { z.motion with stallTimer := timer, reverseRaised := false, limitRaised := outside }
        handed := z.handed ++ if outside && !raised then [.limit] else [] } := by
  subst stall out was
  rfl

theorem outside_of {z x : StationState} (set : z.settings = x.settings)
    (position : z.motion.position = x.motion.positionRead raw) : z.outside = x.beyond raw := by
  rw [StationState.outside, set, position]
  rfl

/-- The station with the dwells and the dwell timer given. -/
def StationState.dwelling (dwells : List Nat) (timer : Timer) (x : StationState) : StationState :=
  { x with dwells := dwells, dwellTimer := timer }

theorem judgeTravel_carried {x y : StationState} {m : Motion} {h : Nat} {dwells : List Nat} {timer : Timer}
    {l : List FaultCode} (heat : x.mode = .heat) (high : y.trail.high? = some h)
    (above : (h : Int) ≤ x.motion.positionRead raw) (position : m.position = x.motion.positionRead raw)
    (raised : m.limitRaised = x.motion.limitRaised) :
    ((x.carried y m l).dwelling dwells timer).judgeTravel =
      (x.carried y (x.judgedAfter raw m) (l ++ x.limit raw)).dwelling dwells timer := by
  rw [judgeTravel_high (h := h) (by exact high) (by exact position ▸ above)]
  exact judgedHigh_of (stallJudged_heat (by exact heat)) (outside_of rfl position) raised

/-- The motion unit after the reading, its judgement made before the advance. -/
def StationState.judgedBefore (raw : Int) (x : StationState) : Motion :=
  { (x.motion.taken raw).marked (x.beyond raw) with
    stallTimer := stallAt (x.motion.speedRead raw) x.motion.stallTimer x.settings.stallTime x.motion.mode }

theorem judgedHigh_heat {x : StationState} (heat : x.mode = .heat) :
    (x.reads raw).judgedHigh = { x with motion := x.judgedBefore raw, handed := x.handed ++ x.limit raw } :=
  judgedHigh_of (stallJudged_heat (x := x.reads raw) heat) rfl rfl

/-- The motion unit and the faults in HEAT, the judgement made before or after the advance's own change. -/
theorem heat_reads {x y : StationState} {h : Nat} {dwells : List Nat} {timer : Timer} {change : Motion → Motion}
    {axes : List FaultCode} (first : Bool) (heat : x.mode = .heat) (high : y.trail.high? = some h)
    (above : (h : Int) ≤ x.motion.positionRead raw)
    (position : (change (x.motion.taken raw)).position = x.motion.positionRead raw)
    (raised : (change (x.motion.taken raw)).limitRaised = x.motion.limitRaised) :
    (if first then
        (x.carried y (change (x.reads raw).judgedHigh.motion) ((x.reads raw).judgedHigh.handed ++ axes)).dwelling
          dwells timer
      else
        ((x.carried y (change (x.motion.taken raw)) (x.handed ++ axes)).dwelling dwells timer).judgeTravel) =
      (x.carried y
        (if first then change (x.judgedBefore raw) else x.judgedAfter raw (change (x.motion.taken raw)))
        (x.handedAt raw first axes true)).dwelling dwells timer := by
  cases first
  · refine (judgeTravel_carried heat high above position raised).trans ?_
    rw [List.append_assoc]
    rfl
  · rw [judgedHigh_heat heat]
    refine (congrArg (fun l => (x.carried y (change (x.judgedBefore raw)) l).dwelling dwells timer)
      (List.append_assoc _ _ _)).trans ?_
    rfl

/-! ### In RUNOUT and QUENCH-OUT (R34) -/

/-- The motion unit after a reading outside HEAT, its judgement made before the advance. -/
theorem judgedHigh_elsewhere {x : StationState} (elsewhere : x.mode ≠ .heat) :
    (x.reads raw).judgedHigh =
      { x with motion := (x.motion.taken raw).marked (x.beyond raw), handed := x.handed ++ x.limit raw } :=
  judgedHigh_of (stallJudged_elsewhere (x := x.reads raw) elsewhere) rfl rfl

/-- A draining station `w` after the reading: it goes on as `moving`, stops with the motion unit `read`, or leaves for
RETURN, which LIMIT is judged in only where it is judged first. -/
def StationState.drainedAt (x : StationState) (raw : Int) (first : Bool) (axes : List FaultCode) (moving read : Motion)
    (w y : StationState) : StationState :=
  if y.trail.list ≠ [] then w.carried y moving (x.handedAt raw first axes true)
  else if y.quench.valve ≠ .closed then w.carried y (modeSet .stop read) (x.handedAt raw first axes true)
  else
    { w.carried y (motionInReturn x.settings.returnSpeed read)
        (x.handedAt raw first (axes ++ axisHanded x) false) with
      mode := .returning, trail := { y.trail with phase := .idle } }

/-- The judgement of a station that still drains. -/
theorem judgeTravel_drains {w x y : StationState} {m : Motion} {h : Nat} {l : List FaultCode} (away : w.mode ≠ .heat)
    (set : w.settings = x.settings) (high : y.trail.high? = some h) (above : (h : Int) ≤ x.motion.positionRead raw)
    (position : m.position = x.motion.positionRead raw) (raised : m.limitRaised = x.motion.limitRaised) :
    (w.carried y m l).judgeTravel = w.carried y (m.marked (x.beyond raw)) (l ++ x.limit raw) := by
  rw [judgeTravel_high (h := h) (by exact high) (by exact position ▸ above)]
  exact judgedHigh_of (stallJudged_elsewhere (by exact away)) (outside_of set position) raised

/-- The judgement of a station that has left for RETURN. -/
theorem judgeTravel_returns {w : StationState} (mode : w.mode = .returning) (idle : w.trail.phase = .idle) :
    w.judgeTravel = w := by
  have gone : w.trail.high? = none := by rw [Trail.high?, idle]
  rw [judgeTravel_gone gone, stallJudged_elsewhere (by rw [mode]; decide)]

theorem checkDrained_carried {w y : StationState} {m : Motion} {h : Nat} {l : List FaultCode}
    (draining : y.trail.phase = .draining h) :
    (w.carried y m l).checkDrained =
      if y.trail.list ≠ [] then w.carried y m l
      else if y.quench.valve ≠ .closed then w.carried y (modeSet .stop m) l
      else
        { w.carried y (motionInReturn w.settings.returnSpeed m) (l ++ axisHanded w) with
          mode := .returning, trail := { y.trail with phase := .idle } } :=
  checkDrained_eq _ draining

theorem carried_congr {w y : StationState} {m n : Motion} {l k : List FaultCode} (motion : m = n) (handed : l = k) :
    w.carried y m l = w.carried y n k := by
  rw [motion, handed]

theorem axisHanded_congr {w x : StationState} (lines : w.lines = x.lines) : axisHanded w = axisHanded x := by
  rw [axisHanded, axisHanded, lines]

/-- The station that has left for RETURN, by its motion unit and its faults. -/
theorem returning_congr {w y : StationState} {m n : Motion} {l k : List FaultCode} (motion : m = n) (handed : l = k) :
    ({ w.carried y m l with mode := .returning, trail := { y.trail with phase := .idle } } : StationState)
      = { w.carried y n k with mode := .returning, trail := { y.trail with phase := .idle } } := by
  rw [motion, handed]

/-- A reading outside HEAT, or one that ends it: `change` is what the advance makes of the motion unit. -/
theorem drained_reads {w x y : StationState} {h : Nat} {change : Motion → Motion} {moving read : Motion}
    {axes : List FaultCode} (first : Bool) (away : w.mode ≠ .heat) (set : w.settings = x.settings)
    (lines : w.lines = x.lines) (draining : y.trail.phase = .draining h) (above : (h : Int) ≤ x.motion.positionRead raw)
    (position : (change (x.motion.taken raw)).position = x.motion.positionRead raw)
    (raised : (change (x.motion.taken raw)).limitRaised = x.motion.limitRaised)
    (after : (change (x.motion.taken raw)).marked (x.beyond raw) = moving)
    (before : change (x.reads raw).judgedHigh.motion = moving)
    (stops : modeSet .stop moving = modeSet .stop read)
    (returns : ∀ v, motionInReturn v moving = motionInReturn v read) :
    (if first then
        (w.carried y (change (x.reads raw).judgedHigh.motion) ((x.reads raw).judgedHigh.handed ++ axes)).checkDrained
      else (w.carried y (change (x.motion.taken raw)) (x.handed ++ axes)).checkDrained.judgeTravel) =
      x.drainedAt raw first axes moving read w y := by
  have high : y.trail.high? = some h := by rw [Trail.high?, draining]
  unfold StationState.drainedAt
  cases first
  · have handed : x.handed ++ axes ++ x.limit raw = x.handedAt raw false axes true := List.append_assoc _ _ _
    rw [if_neg Bool.false_ne_true, checkDrained_carried draining]
    by_cases full : y.trail.list ≠ []
    · rw [if_pos full, if_pos full, judgeTravel_drains away set high above position raised]
      exact carried_congr after handed
    · rw [if_neg full, if_neg full]
      by_cases open' : y.quench.valve ≠ .closed
      · rw [if_pos open', if_pos open', judgeTravel_drains away set high above (by exact position) (by exact raised)]
        exact carried_congr ((congrArg (modeSet .stop) after).trans stops) handed
      · rw [if_neg open', if_neg open', judgeTravel_returns rfl rfl, axisHanded_congr lines, set, List.append_assoc]
        refine returning_congr ((congrArg (motionInReturn _) after).trans (returns _)) ?_
        exact congrArg (x.handed ++ ·) (List.append_nil _).symm
  · have handed : (x.reads raw).judgedHigh.handed ++ axes = x.handedAt raw true axes true := List.append_assoc _ _ _
    rw [if_pos rfl, checkDrained_carried draining, before, handed]
    refine if_congr Iff.rfl rfl (if_congr Iff.rfl (carried_congr stops rfl) ?_)
    rw [axisHanded_congr lines, set]
    refine returning_congr (returns _) ?_
    refine (List.append_assoc _ _ _).trans ?_
    exact congrArg (x.handed ++ ·) (List.append_assoc _ _ _)

end

end Sys2Proof.Machine
end

section
/-! PROOFS. The end of heat at a reading (R32, R53), and what a reading that raises the high-water position does. -/

namespace Sys2Proof.Machine

/-! ### HEAT left (R32, R77) -/

/-- HEAT left by a change of the station, and its channel released. -/
theorem released_left {s : State} {u : Station} {F : StationState → StationState}
    (dwell : (F (s.st u)).dwellTimer = none ∧ (F (s.st u)).dwells = [])
    (job : (F (s.st u)).current = (s.st u).current.map (Context.addHeat s.time))
    (queue : (F (s.st u)).queue = (s.st u).queue) (walk : (F (s.st u)).walk.current ≠ some .w7) :
    HeatLeft u id s ((s.modSt u F).release u) := by
  have own : ((s.modSt u F).release u).st u = F (s.st u) := by
    rw [st_release _ _ _ (by rw [st_modSt_self]; exact walk), st_modSt_self]
  refine ⟨by rw [own]; exact dwell, by rw [own]; exact job, addHeatTime_exact, by rw [own]; exact queue,
    fun unheld => ?_, fun held => ?_⟩
  · rw [release_not _ _ (by rw [channel_modSt]; exact unheld), channel_modSt, st_modSt_other]
    exact ⟨rfl, rfl⟩
  · have freed := release_freed (s := s) (u := u) (f := F) (g := id) held walk walk
    rwa [modSt_fixed (f := id) rfl] at freed

namespace StationState

/-- The station with HEAT left and its last slice appended. -/
def heatEnded (now : Time) (p : Profile) (x : StationState) : StationState :=
  (x.stopHeat now).appendLast x.harden now p

/-- The station in RUNOUT, the ring's arrivals taken. -/
def runsOut (now : Time) (p : Profile) (tank : TankState) (x : StationState) : StationState :=
  ((x.runOut .runout).tankAtEntry tank).takeArrivals now p

/-- The station as it stands in RUNOUT but for its trail, quench unit, motion and faults. -/
def inRunout (now : Time) (x : StationState) : StationState :=
  { x with mode := .runout, current := x.current.map (Context.addHeat now), dwellTimer := none, dwells := [] }

/-- Tank-warm set on a tank not NORMAL (R62). -/
def warmed (tank : TankState) (x : StationState) : StationState :=
  { x with
    trail :=
      { x.trail with
        tallies := { x.trail.tallies with tankWarm := x.trail.tallies.tankWarm || decide (tank ≠ .normal) } } }

theorem heatEnded_carried {x y : StationState} {now : Time} {p : Profile} {m : Motion} {l : List FaultCode}
    (set : y.settings = x.settings) :
    (x.carried y m l).heatEnded now p =
      { x.inRunout now with
        mode := x.mode
        trail := (y.appendLast x.harden now p).trail
        quench := (y.appendLast x.harden now p).quench
        motion := m
        handed := l } := by
  have same : SameDrain y ((x.carried y m l).stopHeat now) := ⟨rfl, rfl, set.symm⟩
  obtain ⟨trail, quench, -⟩ := same.appendLast x.harden now p
  obtain ⟨t, q, rest, -⟩ := appendLast_rest x.harden now p ((x.carried y m l).stopHeat now)
  rw [rest] at trail quench
  rw [heatEnded, ← trail, ← quench]
  exact rest

theorem takeArrivals_carried {w y : StationState} {now : Time} {p : Profile} {m : Motion} {l : List FaultCode}
    (set : y.settings = w.settings) :
    (w.carried y m l).takeArrivals now p = w.carried (y.takeArrivals now p) m l := by
  have same : SameDrain y (w.carried y m l) := ⟨rfl, rfl, set.symm⟩
  obtain ⟨t, q, rest⟩ := (drainOnly_arrivals now p (w.carried y m l).trail.list.length (w.carried y m l)).rest
  have trail : t = (y.takeArrivals now p).trail :=
    (congrArg StationState.trail rest).symm.trans (same.takeArrivals now p).trail
  have quench : q = (y.takeArrivals now p).quench :=
    (congrArg StationState.quench rest).symm.trans (same.takeArrivals now p).quench
  rw [takeArrivals, rest, trail, quench]
  rfl

theorem runsOut_carried {x y : StationState} {now : Time} {p : Profile} {tank : TankState} {m : Motion}
    {l : List FaultCode} (set : y.settings = x.settings) :
    ((x.carried y m l).heatEnded now p).runsOut now p tank =
      (x.inRunout now).carried (((y.appendLast x.harden now p).warmed tank).takeArrivals now p)
        (modeSet (.scan x.settings.runoutSpeed) m) (l ++ axisHanded x) := by
  have tail : (y.appendLast x.harden now p).settings = y.settings := by
    obtain ⟨t, q, rest, -⟩ := appendLast_rest x.harden now p y
    rw [rest]
  have entered : (((x.carried y m l).heatEnded now p).runOut .runout).tankAtEntry tank =
      (x.inRunout now).carried ((y.appendLast x.harden now p).warmed tank)
        (modeSet (.scan x.settings.runoutSpeed) m) (l ++ axisHanded x) := by
    rw [heatEnded_carried set, runOut_eq, tankAtEntry_eq]
    rfl
  rw [runsOut, entered]
  exact takeArrivals_carried (tail.trans set)

/-- A trail that was advancing drains on from the same position after its last append and the arrivals. -/
theorem draining_taken {y : StationState} {harden : Bool} {now : Time} {p : Profile} {tank : TankState} {h : Nat}
    (high : y.trail.high? = some h) :
    (((y.appendLast harden now p).warmed tank).takeArrivals now p).trail.phase = .draining h := by
  obtain ⟨t, q, rest, drains⟩ := appendLast_rest harden now p y
  refine (drainOnly_arrivals now p _ _).draining h ?_
  rw [rest]
  exact drains h high

end StationState

section
variable {s : State} {u : Station} {raw : Int} {old : Nat}

open StationState in
/-- An advance in HEAT to the profile end. -/
theorem advance_ends {o : Bool} {h : Nat} (heat : (s.st u).mode = .heat) (over' : (s.profileOf u).stop ≤ h) (m : Motion)
    (l : List FaultCode) :
    (s.setSt u { s.st u with motion := m, handed := l }).advance u o old h =
      ((s.modSt u fun _ =>
        ((s.st u).carried (s.sweptTo u o h) (s.spunTo u h m) l).heatEnded s.time (s.profileOf u)).release u).modSt u
          fun z => (z.runsOut s.time (s.profileOf u) s.tank.state).checkDrained := by
  have profile := profileOf_setSt_current s u
    (x := (s.st u).carried (s.sweptTo u o h) (s.spunTo u h m) l) rfl
  rw [advance_carried, if_pos heat, if_pos over', State.endOfHeat, profile]
  rw [modSt_setSt, (release_served _ u).tank, modSt_modSt]
  cases u <;> rfl

theorem settings_swept (o : Bool) (h : Nat) : (s.sweptTo u o h).settings = (s.st u).settings := by
  obtain ⟨⟨t, q, rest⟩, -, -⟩ := advanceTrail_rest o (s.st u).harden s.time (s.profileOf u) h (s.st u)
  rw [State.sweptTo, rest]

/-- What a draining station keeps. -/
theorem drainedAt_kept (x : StationState) (first : Bool) (axes : List FaultCode) (moving read : Motion)
    (w y : StationState) :
    let z := x.drainedAt raw first axes moving read w y
    z.walk = w.walk ∧ z.dwellTimer = w.dwellTimer ∧ z.dwells = w.dwells ∧ z.current = w.current
      ∧ z.queue = w.queue := by
  unfold StationState.drainedAt
  split_ifs <;> exact ⟨rfl, rfl, rfl, rfl, rfl⟩

/-- The motion unit at the position read: the reading taken, the markers of a trail followed, the spindle's demand. -/
def State.readAt (u : Station) (raw : Int) (s : State) : Motion :=
  s.spunTo u ((s.st u).motion.positionRead raw).toNat
    (((s.st u).motion.taken raw).marked ((s.st u).beyond raw))

open StationState in
/-- HEAT left at the profile end, for any motion and faults the advance is met with. -/
theorem ends_left {G : StationState → StationState} {first : Bool} {axes : List FaultCode} {moving read : Motion}
    {y z : StationState} {m : Motion} {l : List FaultCode} (set : z.settings = (s.st u).settings)
    (unwalked : (s.st u).walk.current = none)
    (station : G (((s.st u).carried z m l).heatEnded s.time (s.profileOf u))
      = (s.st u).drainedAt raw first axes moving read ((s.st u).inRunout s.time) y) :
    let t := ((s.modSt u fun _ => ((s.st u).carried z m l).heatEnded s.time (s.profileOf u)).release u).modSt u G
    HeatLeft u id s t ∧ t.st u = (s.st u).drainedAt raw first axes moving read ((s.st u).inRunout s.time) y := by
  intro t
  obtain ⟨walk, timer, dwells, current, queue⟩ := drainedAt_kept (raw := raw) (s.st u) first axes moving read
    ((s.st u).inRunout s.time) y
  have ended := heatEnded_carried (x := s.st u) (now := s.time) (p := s.profileOf u) (m := m) (l := l) set
  have away' : (s.st u).walk.current ≠ some .w7 := by
    rw [unwalked]
    exact (Option.some_ne_none _).symm
  have away : (((s.st u).carried z m l).heatEnded s.time (s.profileOf u)).walk.current ≠ some .w7 := by
    rw [ended]
    exact away'
  have left := released_left (s := s) (u := u)
    (F := fun _ => ((s.st u).carried z m l).heatEnded s.time (s.profileOf u)) (by rw [ended]; exact ⟨rfl, rfl⟩)
    (by rw [ended]; rfl) (by rw [ended]; rfl) away
  have own : ((s.modSt u fun _ => ((s.st u).carried z m l).heatEnded s.time (s.profileOf u)).release u).st u
      = ((s.st u).carried z m l).heatEnded s.time (s.profileOf u) := by
    rw [st_release _ _ _ (by rw [st_modSt_self]; exact away), st_modSt_self]
  refine ⟨left.modSt (by rw [own]; exact away) ?_ ?_ ?_ ?_ ?_, by rw [st_modSt_self, own]; exact station⟩
  · rw [own, station, walk]
    exact away'
  · rw [own, station, timer, ended]
  · rw [own, station, dwells, ended]
  · rw [own, station, current, ended]
  · rw [own, station, queue, ended]

open StationState in
/-- The reading that reaches the profile end. -/
theorem readEncoder_ends (rises : Rises s u raw old) (o : ReadingOrder) (heat : (s.st u).mode = .heat)
    (reached : (s.profileOf u).stop ≤ ((s.st u).motion.positionRead raw).toNat)
    (unwalked : (s.st u).walk.current = none) :
    let h := ((s.st u).motion.positionRead raw).toNat
    let y := (((s.sweptTo u o.openFirst h).appendLast (s.st u).harden s.time (s.profileOf u)).warmed
      s.tank.state).takeArrivals s.time (s.profileOf u)
    let t := s.readEncoder u raw o
    HeatLeft u id s t ∧
      t.st u = (s.st u).drainedAt raw o.judgeFirst (axisHanded (s.st u))
        (modeSet (.scan (s.st u).settings.runoutSpeed) (s.readAt u raw)) (s.readAt u raw)
        ((s.st u).inRunout s.time) y := by
  intro h y t
  have set := settings_swept (s := s) (u := u) o.openFirst h
  have drains := drained_reads (raw := raw) (w := (s.st u).inRunout s.time) (x := s.st u) (y := y) (h := h)
    (change := fun m => modeSet (.scan (s.st u).settings.runoutSpeed) (s.spunTo u h m))
    (moving := modeSet (.scan (s.st u).settings.runoutSpeed) (s.readAt u raw)) (read := s.readAt u raw)
    (axes := axisHanded (s.st u)) o.judgeFirst (fun m => Mode.noConfusion m) rfl rfl
    (draining_taken (rises.high_swept _ _)) rises.toNat_eq.le rfl rfl rfl rfl rfl (fun _ => rfl)
  have read : t = _ := readEncoder_rises rises o
  cases first : o.judgeFirst
  · rw [first, if_neg Bool.false_ne_true] at drains read
    rw [read, show (s.setSt u ((s.st u).reads raw)).advance u o.openFirst old _ = _ from
      advance_ends heat reached ((s.st u).motion.taken raw) (s.st u).handed, modSt_modSt]
    refine ends_left set unwalked (Eq.trans ?_ drains)
    rw [runsOut_carried set]
  · rw [first, if_pos rfl] at drains read
    rw [read, show (s.setSt u ((s.st u).reads raw).judgedHigh).advance u o.openFirst old _ = _ from
      advance_ends heat reached ((s.st u).reads raw).judgedHigh.motion ((s.st u).reads raw).judgedHigh.handed]
    refine ends_left set unwalked (Eq.trans ?_ drains)
    rw [runsOut_carried set]

end

end Sys2Proof.Machine
end

section
/-! PROOFS. The encoder reading that advances the trail, settled (R30 to R34, R49, R97 to R99). -/

namespace Sys2Proof.Machine

section
variable {s : State} {u : Station} {raw : Int} {old : Nat}

/-- The state with the demand issued, and the station as the reading leaves it, where HEAT goes on. -/
theorem readEncoder_heat (rises : Rises s u raw old) (o : ReadingOrder) (heat : (s.st u).mode = .heat)
    {r : State} {change : Motion → Motion} {axes : List FaultCode} {dwells : List Nat} {timer : Timer}
    (position : (change ((s.st u).motion.taken raw)).position = (s.st u).motion.positionRead raw)
    (raised : (change ((s.st u).motion.taken raw)).limitRaised = (s.st u).motion.limitRaised)
    (advances : ∀ m l, (s.setSt u { s.st u with motion := m, handed := l }).advance u o.openFirst old
        ((s.st u).motion.positionRead raw).toNat = r.setSt u
          (((s.st u).carried (s.sweptTo u o.openFirst ((s.st u).motion.positionRead raw).toNat) (change m)
            (l ++ axes)).dwelling dwells timer)) :
    s.readEncoder u raw o = r.setSt u
      (((s.st u).carried (s.sweptTo u o.openFirst ((s.st u).motion.positionRead raw).toNat)
        (if o.judgeFirst then change ((s.st u).judgedBefore raw)
          else (s.st u).judgedAfter raw (change ((s.st u).motion.taken raw)))
        ((s.st u).handedAt raw o.judgeFirst axes true)).dwelling dwells timer) :=
  (readEncoder_of_advance rises o advances).trans (congrArg (fun z => r.setSt u z)
    (heat_reads o.judgeFirst heat (rises.high_swept _ _) rises.toNat_eq.le position raised))

/-- A reading in RUNOUT and QUENCH-OUT. -/
theorem readEncoder_drains (rises : Rises s u raw old) (o : ReadingOrder) (away : (s.st u).mode ≠ .heat)
    (draining : (s.st u).trail.phase = .draining old) :
    s.readEncoder u raw o = s.setSt u
      ((s.st u).drainedAt raw o.judgeFirst [] (s.readAt u raw) (s.readAt u raw) (s.st u)
        (s.sweptTo u o.openFirst ((s.st u).motion.positionRead raw).toNat)) := by
  have phase := (advanceTrail_rest o.openFirst (s.st u).harden s.time (s.profileOf u)
    ((s.st u).motion.positionRead raw).toNat (s.st u)).2.2 old draining
  have advances (m : Motion) (l : List FaultCode) :
      (s.setSt u { s.st u with motion := m, handed := l }).advance u o.openFirst old
        ((s.st u).motion.positionRead raw).toNat = s.setSt u
          ((s.st u).carried (s.sweptTo u o.openFirst ((s.st u).motion.positionRead raw).toNat)
            (s.spunTo u ((s.st u).motion.positionRead raw).toNat m) (l ++ [])).checkDrained := by
    rw [advance_carried, if_neg away, modSt_setSt, List.append_nil]
  refine (readEncoder_of_advance rises o advances).trans (congrArg (fun z => s.setSt u z) ?_)
  exact drained_reads o.judgeFirst away rfl rfl phase rises.toNat_eq.le rfl rfl rfl
    (by rw [judgedHigh_elsewhere away]; rfl) rfl fun _ => rfl

end

/-- Settles O45: the advance for any motion and faults it is met with, then the judgement made before or after it. -/
theorem encoderReadingAdvancesTheTrail : Obligations.EncoderReadingAdvancesTheTrail := by
  intro s u raw order old x m p before pos h speed atTarget beyond read stall handed y reached issued ended
    high above moved
  have rises : Rises s u raw.toInt old := ⟨high, above, moved⟩
  have toNat : (h : Int) = pos := rises.toNat_eq
  refine ⟨fun heat below => ?_, fun c heat reaches is unwalked => ?_, fun mode draining => ?_⟩
  · have below' : h < p.stop := by omega
    refine ⟨fun free none' => ?_, fun i rest free reached' => ?_, fun dwelling => ?_⟩
    · refine congrArg Host.Outcome.next ((readEncoder_heat rises order heat (axes := []) (dwells := x.dwells)
        (timer := x.dwellTimer)
        (change := fun m => { s.spunTo u h m with mode := scanMode (speedAt p.segs h) m.mode }) rfl rfl
        fun m l => ?_).trans (congrArg (State.setSt _ u) ?_))
      · rw [List.append_nil]
        exact advance_scans heat below' free none' m l
      · obtain ⟨first, openFirst⟩ := order
        cases first <;> rfl
    · refine congrArg Host.Outcome.next ((readEncoder_heat rises order heat (axes := axisHanded x)
        (dwells := i :: rest)
        (timer := (segGet p.segs i).dwell) (change := fun m => modeSet .hold (s.spunTo u h m)) rfl rfl
        fun m l => advance_dwells heat below' free reached' m l).trans (congrArg (State.setSt _ u) ?_))
      obtain ⟨first, openFirst⟩ := order
      rw [reached']
      cases first <;> rfl
    · refine congrArg Host.Outcome.next ((readEncoder_heat rises order heat (axes := [])
        (dwells := x.dwells ++ reached) (timer := x.dwellTimer) (change := fun m => s.spunTo u h m) rfl rfl
        fun m l => ?_).trans (congrArg (State.setSt _ u) ?_))
      · rw [List.append_nil]
        exact advance_waits heat below' dwelling m l
      · obtain ⟨first, openFirst⟩ := order
        cases first <;> rfl
  · obtain ⟨left, station⟩ := readEncoder_ends rises order heat (Int.ofNat_le.1 (reaches.trans toNat.ge)) unwalked
    have calm := (readEncoder_served s u raw.toInt order).toCalm
    have current : ((s.readEncoder u raw.toInt order).st u).current = (x.inRunout s.time).current := by
      obtain ⟨-, -, -, kept, -⟩ := drainedAt_kept (raw := raw.toInt) x order.judgeFirst (axisHanded x)
        (modeSet (.scan x.settings.runoutSpeed) (s.readAt u raw.toInt)) (s.readAt u raw.toInt) (x.inRunout s.time) _
      rw [station]
      exact kept
    refine ⟨_, rfl, calm.noRecord, calm.around, left, _, rfl, station.trans ?_⟩
    rw [current]
    obtain ⟨first, openFirst⟩ := order
    cases first <;> rfl
  · have away : x.mode ≠ .heat := by
      rcases mode with k | k <;> rw [k] <;> decide
    refine congrArg Host.Outcome.next ((readEncoder_drains rises order away draining).trans
      (congrArg (State.setSt s u) ?_))
    obtain ⟨first, openFirst⟩ := order
    cases first <;> rfl

end Sys2Proof.Machine
end
